-- ==== Sys2Proof/Word.lean ====
section
/-! DEFINITION. The plain data every block shares: the byte of a line, a point or velocity of the stadium frame, a
box of air, and four like things, one for each winch. -/

namespace Sys2Proof

/-- One character of the station line or of a winch line (R195, R213). -/
abbrev Byte := BitVec 8

/-- An axis of the stadium frame (00_scope.md, Coordinates). -/
inductive Axis where
  | x | y | z
  deriving DecidableEq, Repr

/-- A position, a velocity or a demand: one number on each axis. The unit is the field's that holds it. -/
structure Vec3 where
  x : Int
  y : Int
  z : Int
  deriving DecidableEq, Repr

/-- A box is six extents (R1). The unit is the field's that holds it. -/
structure Box where
  xMin : Int
  xMax : Int
  yMin : Int
  yMax : Int
  zMin : Int
  zMax : Int
  deriving DecidableEq, Repr

/-- Four like things, numbered 0 to 3: the winches, their drives, cables and ports share one number (00_scope.md). -/
structure Quad (α : Type) where
  w0 : α
  w1 : α
  w2 : α
  w3 : α
  deriving DecidableEq, Repr

end Sys2Proof
end

