-- ==== Sys2Proof/Config.lean ====
section
/-! DEFINITION. What the board around the part fixes and the manual leaves to it: the levels of the input pins at
the release of RESET that `State.reset` starts from. -/

namespace Sys2Proof.Config

/-- SRATE1 at the release of RESET (R195). DESIGN CHOICE (log 7): strapped 0, unsafe. -/
def resetSrate1 : Bool := false

/-- SRATE0 at the release of RESET (R195). DESIGN CHOICE (log 7): strapped 0, unsafe. -/
def resetSrate0 : Bool := false

end Sys2Proof.Config
end

