-- ==== Sys2Proof/Syntax.lean ====
section
/-! DEFINITION. The commands of the part: one constructor for each row of spec/opcode_table.json, and the request
codes of 10.3.

A request's command carries the station number and the request's parameters, each at the raw value its field of the
frame holds (an enumeration as its code byte, a signed number as an integer), because the part judges them (R211). -/

namespace Sys2Proof

/-- The ten settings of SET_LIMITS in their own units (R84): mm/s, mm/s², mm. -/
structure LimitSettings where
  vh : Nat
  vz : Nat
  a : Nat
  aStop : Nat
  aQuick : Nat
  aBrk : Nat
  evict : Nat
  cueDefault : Nat
  standoff : Nat
  margin : Nat
  deriving DecidableEq, Repr

/-- The requests the part knows, one for each code of 10.3. -/
inductive Req where
  | readStatus | readEvents | setAttentionMask | setWatchdog | setStationClass | restart
  | zoneCreate | zoneAmend | zoneSuspend | zoneResume | zoneRetire | zoneClear | zoneLookup | zoneFind | zoneList
  | enable | disable | readMotion
  | setAnchors | setFlightBox | setPayout | corrWindow | corrWrite | corrRead | setLimits | readGeometry | readLimits
  | markSet | markRetire | markRead
  | cueAppend | cueGo | cueHalt | cueFlush | cueRead | setCueWindow
  | claim | withdraw | release | preempt | selectMode | stick | setOrientation | endSwap | setStick | readAuthority
  | portControl | setAbility | portTest | portClear | setPortLimits | portRead
  | stop | clearStop | readStop
  | setStandard | readPeriod
  deriving DecidableEq, Repr

/-- The commands: the rows of spec/opcode_table.json. `st` is the station number of a request's frame, `port` the
number of a winch port. -/
inductive Instr where
  /-- POWER_ON_RESET: the release of RESET, with the strap levels and the ESTOP line as they stand then. -/
  | powerOnReset (srate1 srate0 estopOpen : Bool)
  | periodExpiry
  | periodCommit
  | cueDwellExpiry
  | cueBlocked
  | zoneLifetimeExpiry (slot : Nat)
  | backoffExpiry (station : Nat)
  | stickHoldExpiry
  | watchdogExpiry
  | trainingSilenceExpiry (port : Nat)
  | breakExpiry (port : Nat)
  | consecutiveMissLimit (port : Nat)
  | refPulse
  | referenceLoss
  /-- ESTOP_LINE_CHANGE: the level the line has held for 1 ms. -/
  | estopLineChange (lineOpen : Bool)
  | stationCharacter (b : Byte)
  | stationFrameTimeout
  | answerSent
  | readStatus (st : Nat)
  | readEvents (st : Nat)
  | setAttentionMask (st mask : Nat)
  | setWatchdog (st periods : Nat)
  | setStationClass (st station cls : Nat)
  | restart (st : Nat)
  | zoneCreate (st kind : Nat) (box : Box) (initial policy standing cap lifetime : Nat) (label : List Byte)
  | zoneAmend (st handle changes : Nat) (box : Box) (cap lifetime : Nat) (label : List Byte)
  | zoneSuspend (st handle : Nat)
  | zoneResume (st handle policy : Nat)
  | zoneRetire (st handle : Nat)
  | zoneClear (st : Nat)
  | zoneLookup (st handle : Nat)
  | zoneFind (st : Nat) (point : Vec3)
  | zoneList (st states owner : Nat)
  | enable (st : Nat) (p0 : Vec3)
  | disable (st : Nat)
  | readMotion (st : Nat)
  | setAnchors (st : Nat) (anchors offsets : Quad Vec3)
  | setFlightBox (st : Nat) (box : Box)
  | setPayout (st payout lBase lStep : Nat)
  | corrWindow (st w0 w1 j0 j1 order : Nat)
  | corrWrite (st : Nat) (values : List Int)
  | corrRead (st n : Nat)
  | setLimits (st : Nat) (settings : LimitSettings)
  | readGeometry (st : Nat)
  | readLimits (st : Nat)
  | markSet (st mark : Nat) (pos : Vec3) (label : List Byte)
  | markRetire (st mark : Nat)
  | markRead (st mark : Nat)
  | cueAppend (st mark cruise dwell flags : Nat)
  | cueGo (st : Nat)
  | cueHalt (st : Nat)
  | cueFlush (st : Nat)
  | cueRead (st : Nat)
  | setCueWindow (st w : Nat)
  | claim (st : Nat)
  | withdraw (st : Nat)
  | release (st : Nat)
  | preempt (st : Nat)
  | selectMode (st mode : Nat)
  | stick (st : Nat) (deflection : Vec3) (scale flags : Nat)
  | setOrientation (st flags : Nat)
  | endSwap (st : Nat)
  | setStick (st start hold deadband : Nat)
  | readAuthority (st clear : Nat)
  | portControlEnable (st port : Nat)
  | portControlDisable (st port : Nat)
  | portControlRetrain (st port : Nat)
  | portControlSleep (st port : Nat)
  | portControlWake (st port : Nat)
  | setAbility (st port classes : Nat)
  | portTestStart (st port pattern loop : Nat)
  | portTestStop (st port : Nat)
  | portClear (st port : Nat)
  | setPortLimits (st following tMin tMax tolerance : Nat)
  | portRead (st port clear : Nat)
  | stop (st kind : Nat)
  | clearStop (st : Nat)
  | readStop (st : Nat)
  | setStandard (st standard : Nat)
  | readPeriod (st : Nat)
  /-- DRIVE_ABILITY_FRAME: a good ABILITY frame with its payload byte (R213). -/
  | driveAbilityFrame (port ability : Nat)
  /-- DRIVE_FEEDBACK_FRAME: a FEEDBACK frame with a correct check sequence and its four fields (R213). -/
  | driveFeedbackFrame (port echo measured tension status : Nat)
  | driveWakeFrame (port : Nat)
  /-- DRIVE_TEST_FRAME: a TEST frame with a correct check sequence and its 32 payload bytes (R213). -/
  | driveTestFrame (port : Nat) (payload : List Byte)
  | winchFrameBadCheck (port : Nat)
  | winchFrameTimeout (port : Nat)
  | resetAsserted
  | unknownRequestFrame (st code : Nat)
  | winchCharacter (port : Nat) (b : Byte)
  deriving DecidableEq, Repr

end Sys2Proof
end

