-- ==== Sys2Proof/WellFormed.lean ====
section
/-! DEFINITION. Which commands a frame or a line can carry: each operand within the width of its field (10.1, 10.5,
R213). A value that fits its field but that the part refuses is well formed: judging it is the part's business (R211). -/

namespace Sys2Proof

/-- Fits an unsigned field of 1 byte. -/
def fitsByte (n : Nat) : Bool := decide (n < 256)

/-- Fits an unsigned field of 2 bytes. -/
def fitsHalf (n : Nat) : Bool := decide (n < 65536)

/-- Fits an unsigned field of 3 bytes (a lifetime). -/
def fitsThree (n : Nat) : Bool := decide (n < 16777216)

/-- Fits an unsigned field of 4 bytes. -/
def fitsWord (n : Nat) : Bool := decide (n < 4294967296)

/-- Fits a signed field of 2 bytes. -/
def fitsSHalf (i : Int) : Bool := decide (-32768 ≤ i ∧ i < 32768)

/-- Fits a signed field of 4 bytes. -/
def fitsSWord (i : Int) : Bool := decide (-2147483648 ≤ i ∧ i < 2147483648)

/-- The station of a good frame (R197). -/
def isStation (n : Nat) : Bool := decide (n < 8)

/-- The number of a winch port's link. -/
def isPort (n : Nat) : Bool := decide (n < 4)

/-- A position in mm, 4 bytes on each axis. -/
def fitsPos (v : Vec3) : Bool := fitsSWord v.x && fitsSWord v.y && fitsSWord v.z

/-- An attachment offset in mm, 2 bytes on each axis (10.3). -/
def fitsOffset (v : Vec3) : Bool := fitsSHalf v.x && fitsSHalf v.y && fitsSHalf v.z

/-- A box in mm, 24 bytes. -/
def fitsBox (b : Box) : Bool :=
  fitsSWord b.xMin && fitsSWord b.xMax && fitsSWord b.yMin && fitsSWord b.yMax && fitsSWord b.zMin && fitsSWord b.zMax

/-- All four of a quad. -/
def Quad.all {α : Type} (f : α → Bool) (q : Quad α) : Bool := f q.w0 && f q.w1 && f q.w2 && f q.w3

/-- The ten settings, 2 bytes each. -/
def fitsSettings (l : LimitSettings) : Bool :=
  fitsHalf l.vh && fitsHalf l.vz && fitsHalf l.a && fitsHalf l.aStop && fitsHalf l.aQuick && fitsHalf l.aBrk
    && fitsHalf l.evict && fitsHalf l.cueDefault && fitsHalf l.standoff && fitsHalf l.margin

/-- The command is one that the table's step can be. -/
def Instr.wf : Instr → Bool
  | .powerOnReset _ _ _ => true
  | .periodExpiry => true
  | .periodCommit => true
  | .cueDwellExpiry => true
  | .cueBlocked => true
  | .zoneLifetimeExpiry slot => decide (slot < 48)
  | .backoffExpiry station => isStation station
  | .stickHoldExpiry => true
  | .watchdogExpiry => true
  | .trainingSilenceExpiry port => isPort port
  | .breakExpiry port => isPort port
  | .consecutiveMissLimit port => isPort port
  | .refPulse => true
  | .referenceLoss => true
  | .estopLineChange _ => true
  | .stationCharacter _ => true
  | .stationFrameTimeout => true
  | .answerSent => true
  | .readStatus st => isStation st
  | .readEvents st => isStation st
  | .setAttentionMask st mask => isStation st && fitsHalf mask
  | .setWatchdog st periods => isStation st && fitsHalf periods
  | .setStationClass st station cls => isStation st && fitsByte station && fitsByte cls
  | .restart st => isStation st
  | .zoneCreate st kind box initial policy standing cap lifetime label =>
      isStation st && fitsByte kind && fitsBox box && fitsByte initial && fitsByte policy && fitsByte standing
        && fitsHalf cap && fitsThree lifetime && decide (label.length ≤ 212)
  | .zoneAmend st handle changes box cap lifetime label =>
      isStation st && fitsHalf handle && fitsByte changes && fitsBox box && fitsHalf cap && fitsThree lifetime
        && decide (label.length ≤ 213)
  | .zoneSuspend st handle => isStation st && fitsHalf handle
  | .zoneResume st handle policy => isStation st && fitsHalf handle && fitsByte policy
  | .zoneRetire st handle => isStation st && fitsHalf handle
  | .zoneClear st => isStation st
  | .zoneLookup st handle => isStation st && fitsHalf handle
  | .zoneFind st point => isStation st && fitsPos point
  | .zoneList st states owner => isStation st && fitsByte states && fitsByte owner
  | .enable st p0 => isStation st && fitsPos p0
  | .disable st => isStation st
  | .readMotion st => isStation st
  | .setAnchors st anchors offsets => isStation st && anchors.all fitsPos && offsets.all fitsOffset
  | .setFlightBox st box => isStation st && fitsBox box
  | .setPayout st payout lBase lStep => isStation st && fitsWord payout && fitsWord lBase && fitsWord lStep
  | .corrWindow st w0 w1 j0 j1 order =>
      isStation st && fitsByte w0 && fitsByte w1 && fitsByte j0 && fitsByte j1 && fitsByte order
  | .corrWrite st values =>
      isStation st && values.all fitsSWord && decide (1 ≤ values.length) && decide (values.length ≤ 60)
  | .corrRead st n => isStation st && fitsByte n
  | .setLimits st settings => isStation st && fitsSettings settings
  | .readGeometry st => isStation st
  | .readLimits st => isStation st
  | .markSet st mark pos label => isStation st && fitsByte mark && fitsPos pos && decide (label.length ≤ 232)
  | .markRetire st mark => isStation st && fitsByte mark
  | .markRead st mark => isStation st && fitsByte mark
  | .cueAppend st mark cruise dwell flags =>
      isStation st && fitsByte mark && fitsHalf cruise && fitsHalf dwell && fitsByte flags
  | .cueGo st => isStation st
  | .cueHalt st => isStation st
  | .cueFlush st => isStation st
  | .cueRead st => isStation st
  | .setCueWindow st w => isStation st && fitsByte w
  | .claim st => isStation st
  | .withdraw st => isStation st
  | .release st => isStation st
  | .preempt st => isStation st
  | .selectMode st mode => isStation st && fitsByte mode
  | .stick st deflection scale flags => isStation st && fitsOffset deflection && fitsByte scale && fitsByte flags
  | .setOrientation st flags => isStation st && fitsByte flags
  | .endSwap st => isStation st
  | .setStick st start hold deadband => isStation st && fitsByte start && fitsByte hold && fitsByte deadband
  | .readAuthority st clear => isStation st && fitsByte clear
  | .portControlEnable st port => isStation st && fitsByte port
  | .portControlDisable st port => isStation st && fitsByte port
  | .portControlRetrain st port => isStation st && fitsByte port
  | .portControlSleep st port => isStation st && fitsByte port
  | .portControlWake st port => isStation st && fitsByte port
  | .setAbility st port classes => isStation st && fitsByte port && fitsByte classes
  | .portTestStart st port pattern loop => isStation st && fitsByte port && fitsByte pattern && fitsByte loop
  | .portTestStop st port => isStation st && fitsByte port
  | .portClear st port => isStation st && fitsByte port
  | .setPortLimits st following tMin tMax tolerance =>
      isStation st && fitsHalf following && fitsHalf tMin && fitsHalf tMax && fitsHalf tolerance
  | .portRead st port clear => isStation st && fitsByte port && fitsByte clear
  | .stop st kind => isStation st && fitsByte kind
  | .clearStop st => isStation st
  | .readStop st => isStation st
  | .setStandard st standard => isStation st && fitsByte standard
  | .readPeriod st => isStation st
  | .driveAbilityFrame port ability => isPort port && fitsByte ability
  | .driveFeedbackFrame port echo measured tension status =>
      isPort port && fitsByte echo && fitsWord measured && fitsHalf tension && fitsByte status
  | .driveWakeFrame port => isPort port
  | .driveTestFrame port payload => isPort port && decide (payload.length = 32)
  | .winchFrameBadCheck port => isPort port
  | .winchFrameTimeout port => isPort port
  | .resetAsserted => true
  | .unknownRequestFrame st code => isStation st && fitsByte code
  | .winchCharacter port _ => isPort port

end Sys2Proof
end

