-- ==== Sys2Proof/Decode.lean ====
section
/-! DEFINITION. From the bytes of a station frame to the command it asks for, and back (10.1, 10.3, 10.5, R201). The
opcode table of this part gives no bits, so `decodeTableWord` answers none for every word.

`decodeRequest` is total: a request whose parameters have another length than the request needs is `badLength`
(R201, check 4), and the two requests whose action byte selects the table's row answer `badParam` for an action
outside it (R133, R156). -/

namespace Sys2Proof

/-! ## Numbers of the encodings (10.1) -/

/-- The number a byte string carries, most significant byte first. -/
def beNat (bs : List Byte) : Nat := bs.foldl (fun n b => n * 256 + b.toNat) 0

/-- A number of `bits` bits read as two's complement. -/
def toSigned (bits n : Nat) : Int := if n < 2 ^ (bits - 1) then (n : Int) else (n : Int) - 2 ^ bits

/-- The low `8 * k` bits of a number as `k` bytes, most significant byte first. -/
def beBytes : Nat → Nat → List Byte
  | 0, _ => []
  | k + 1, n => BitVec.ofNat 8 (n / 256 ^ k) :: beBytes k n

/-- A signed number as `k` bytes in two's complement, most significant byte first. -/
def beInt (k : Nat) (i : Int) : List Byte := beBytes k (i % 2 ^ (8 * k)).toNat

/-- The unsigned field of `n` bytes at offset `off`. -/
def field (ps : List Byte) (off n : Nat) : Nat := beNat ((ps.drop off).take n)

/-- The signed field of `n` bytes at offset `off`. -/
def sfield (ps : List Byte) (off n : Nat) : Int := toSigned (8 * n) (field ps off n)

/-- A position in mm: X, Y and Z, 4 bytes each. -/
def posField (ps : List Byte) (off : Nat) : Vec3 := ⟨sfield ps off 4, sfield ps (off + 4) 4, sfield ps (off + 8) 4⟩

/-- Three signed 2-byte numbers (10.3: an offset; 10.5: a deflection). -/
def halfField (ps : List Byte) (off : Nat) : Vec3 := ⟨sfield ps off 2, sfield ps (off + 2) 2, sfield ps (off + 4) 2⟩

/-- A box: x_min, x_max, y_min, y_max, z_min, z_max, 24 bytes (10.1). -/
def boxField (ps : List Byte) (off : Nat) : Box :=
  ⟨sfield ps off 4, sfield ps (off + 4) 4, sfield ps (off + 8) 4, sfield ps (off + 12) 4, sfield ps (off + 16) 4,
    sfield ps (off + 20) 4⟩

/-- `n` signed 4-byte values from offset `off` on. -/
def valuesField (ps : List Byte) (off : Nat) : Nat → List Int
  | 0 => []
  | n + 1 => sfield ps off 4 :: valuesField ps (off + 4) n

/-! ## Request codes (10.3) -/

/-- The code of a request. -/
def Req.code : Req → Nat
  | .readStatus => 0x01
  | .readEvents => 0x02
  | .setAttentionMask => 0x03
  | .setWatchdog => 0x04
  | .setStationClass => 0x05
  | .restart => 0x06
  | .zoneCreate => 0x10
  | .zoneAmend => 0x11
  | .zoneSuspend => 0x12
  | .zoneResume => 0x13
  | .zoneRetire => 0x14
  | .zoneClear => 0x15
  | .zoneLookup => 0x16
  | .zoneFind => 0x17
  | .zoneList => 0x18
  | .enable => 0x20
  | .disable => 0x21
  | .readMotion => 0x22
  | .setAnchors => 0x28
  | .setFlightBox => 0x29
  | .setPayout => 0x2A
  | .corrWindow => 0x2B
  | .corrWrite => 0x2C
  | .corrRead => 0x2D
  | .setLimits => 0x2E
  | .readGeometry => 0x2F
  | .readLimits => 0x30
  | .markSet => 0x38
  | .markRetire => 0x39
  | .markRead => 0x3A
  | .cueAppend => 0x40
  | .cueGo => 0x41
  | .cueHalt => 0x42
  | .cueFlush => 0x43
  | .cueRead => 0x44
  | .setCueWindow => 0x45
  | .claim => 0x50
  | .withdraw => 0x51
  | .release => 0x52
  | .preempt => 0x53
  | .selectMode => 0x54
  | .stick => 0x55
  | .setOrientation => 0x56
  | .endSwap => 0x57
  | .setStick => 0x58
  | .readAuthority => 0x59
  | .portControl => 0x60
  | .setAbility => 0x61
  | .portTest => 0x62
  | .portClear => 0x63
  | .setPortLimits => 0x64
  | .portRead => 0x65
  | .stop => 0x70
  | .clearStop => 0x71
  | .readStop => 0x72
  | .setStandard => 0x78
  | .readPeriod => 0x79

/-- Every request, in the order of its code. -/
def Req.list : List Req :=
  [.readStatus, .readEvents, .setAttentionMask, .setWatchdog, .setStationClass, .restart, .zoneCreate, .zoneAmend,
    .zoneSuspend, .zoneResume, .zoneRetire, .zoneClear, .zoneLookup, .zoneFind, .zoneList, .enable, .disable,
    .readMotion, .setAnchors, .setFlightBox, .setPayout, .corrWindow, .corrWrite, .corrRead, .setLimits,
    .readGeometry, .readLimits, .markSet, .markRetire, .markRead, .cueAppend, .cueGo, .cueHalt, .cueFlush, .cueRead,
    .setCueWindow, .claim, .withdraw, .release, .preempt, .selectMode, .stick, .setOrientation, .endSwap, .setStick,
    .readAuthority, .portControl, .setAbility, .portTest, .portClear, .setPortLimits, .portRead, .stop, .clearStop,
    .readStop, .setStandard, .readPeriod]

/-- The request of a code, none for a code the part does not know (10.3). -/
def Req.ofCode (c : Nat) : Option Req := Req.list.find? (fun r => r.code == c)

/-! ## Decoding -/

/-- What a known request's parameter bytes come to. -/
inductive Decoded where
  | command (i : Instr)
  | badParam
  | badLength
  deriving DecidableEq, Repr

/-- The command, when the parameters have the length the request needs (R201, check 4). -/
def ofLength (n : Nat) (ps : List Byte) (d : Decoded) : Decoded := if ps.length = n then d else .badLength

/-- The command of a known request from its station and its parameter bytes (10.3, 10.5). -/
def decodeRequest (r : Req) (st : Nat) (ps : List Byte) : Decoded :=
  match r with
  | .readStatus => ofLength 0 ps (.command (.readStatus st))
  | .readEvents => ofLength 0 ps (.command (.readEvents st))
  | .setAttentionMask => ofLength 2 ps (.command (.setAttentionMask st (field ps 0 2)))
  | .setWatchdog => ofLength 2 ps (.command (.setWatchdog st (field ps 0 2)))
  | .setStationClass => ofLength 2 ps (.command (.setStationClass st (field ps 0 1) (field ps 1 1)))
  | .restart => ofLength 0 ps (.command (.restart st))
  | .zoneCreate =>
      if ps.length < 34 then .badLength
      else ofLength (34 + field ps 33 1) ps (.command (.zoneCreate st (field ps 0 1) (boxField ps 1) (field ps 25 1)
        (field ps 26 1) (field ps 27 1) (field ps 28 2) (field ps 30 3) (ps.drop 34)))
  | .zoneAmend =>
      if ps.length < 33 then .badLength
      else ofLength (33 + field ps 32 1) ps (.command (.zoneAmend st (field ps 0 2) (field ps 2 1) (boxField ps 3)
        (field ps 27 2) (field ps 29 3) (ps.drop 33)))
  | .zoneSuspend => ofLength 2 ps (.command (.zoneSuspend st (field ps 0 2)))
  | .zoneResume => ofLength 3 ps (.command (.zoneResume st (field ps 0 2) (field ps 2 1)))
  | .zoneRetire => ofLength 2 ps (.command (.zoneRetire st (field ps 0 2)))
  | .zoneClear => ofLength 0 ps (.command (.zoneClear st))
  | .zoneLookup => ofLength 2 ps (.command (.zoneLookup st (field ps 0 2)))
  | .zoneFind => ofLength 12 ps (.command (.zoneFind st (posField ps 0)))
  | .zoneList => ofLength 2 ps (.command (.zoneList st (field ps 0 1) (field ps 1 1)))
  | .enable => ofLength 12 ps (.command (.enable st (posField ps 0)))
  | .disable => ofLength 0 ps (.command (.disable st))
  | .readMotion => ofLength 0 ps (.command (.readMotion st))
  | .setAnchors =>
      ofLength 72 ps (.command (.setAnchors st ⟨posField ps 0, posField ps 18, posField ps 36, posField ps 54⟩
        ⟨halfField ps 12, halfField ps 30, halfField ps 48, halfField ps 66⟩))
  | .setFlightBox => ofLength 24 ps (.command (.setFlightBox st (boxField ps 0)))
  | .setPayout => ofLength 12 ps (.command (.setPayout st (field ps 0 4) (field ps 4 4) (field ps 8 4)))
  | .corrWindow =>
      ofLength 5 ps (.command (.corrWindow st (field ps 0 1) (field ps 1 1) (field ps 2 1) (field ps 3 1)
        (field ps 4 1)))
  | .corrWrite =>
      if field ps 0 1 < 1 ∨ 60 < field ps 0 1 then .badLength
      else ofLength (1 + 4 * field ps 0 1) ps (.command (.corrWrite st (valuesField ps 1 (field ps 0 1))))
  | .corrRead => ofLength 1 ps (.command (.corrRead st (field ps 0 1)))
  | .setLimits =>
      ofLength 20 ps (.command (.setLimits st
        { vh := field ps 0 2, vz := field ps 2 2, a := field ps 4 2, aStop := field ps 6 2, aQuick := field ps 8 2
          aBrk := field ps 10 2, evict := field ps 12 2, cueDefault := field ps 14 2, standoff := field ps 16 2
          margin := field ps 18 2 }))
  | .readGeometry => ofLength 0 ps (.command (.readGeometry st))
  | .readLimits => ofLength 0 ps (.command (.readLimits st))
  | .markSet =>
      if ps.length < 14 then .badLength
      else ofLength (14 + field ps 13 1) ps (.command (.markSet st (field ps 0 1) (posField ps 1) (ps.drop 14)))
  | .markRetire => ofLength 1 ps (.command (.markRetire st (field ps 0 1)))
  | .markRead => ofLength 1 ps (.command (.markRead st (field ps 0 1)))
  | .cueAppend =>
      ofLength 6 ps (.command (.cueAppend st (field ps 0 1) (field ps 1 2) (field ps 3 2) (field ps 5 1)))
  | .cueGo => ofLength 0 ps (.command (.cueGo st))
  | .cueHalt => ofLength 0 ps (.command (.cueHalt st))
  | .cueFlush => ofLength 0 ps (.command (.cueFlush st))
  | .cueRead => ofLength 0 ps (.command (.cueRead st))
  | .setCueWindow => ofLength 1 ps (.command (.setCueWindow st (field ps 0 1)))
  | .claim => ofLength 0 ps (.command (.claim st))
  | .withdraw => ofLength 0 ps (.command (.withdraw st))
  | .release => ofLength 0 ps (.command (.release st))
  | .preempt => ofLength 0 ps (.command (.preempt st))
  | .selectMode => ofLength 1 ps (.command (.selectMode st (field ps 0 1)))
  | .stick => ofLength 8 ps (.command (.stick st (halfField ps 0) (field ps 6 1) (field ps 7 1)))
  | .setOrientation => ofLength 1 ps (.command (.setOrientation st (field ps 0 1)))
  | .endSwap => ofLength 0 ps (.command (.endSwap st))
  | .setStick => ofLength 3 ps (.command (.setStick st (field ps 0 1) (field ps 1 1) (field ps 2 1)))
  | .readAuthority => ofLength 1 ps (.command (.readAuthority st (field ps 0 1)))
  | .portControl =>
      ofLength 2 ps
        (match field ps 1 1 with
        | 0 => .command (.portControlEnable st (field ps 0 1))
        | 1 => .command (.portControlDisable st (field ps 0 1))
        | 2 => .command (.portControlRetrain st (field ps 0 1))
        | 3 => .command (.portControlSleep st (field ps 0 1))
        | 4 => .command (.portControlWake st (field ps 0 1))
        | _ => .badParam)
  | .setAbility => ofLength 2 ps (.command (.setAbility st (field ps 0 1) (field ps 1 1)))
  | .portTest =>
      ofLength 4 ps
        (match field ps 1 1 with
        | 0 => .command (.portTestStop st (field ps 0 1))
        | 1 => .command (.portTestStart st (field ps 0 1) (field ps 2 1) (field ps 3 1))
        | _ => .badParam)
  | .portClear => ofLength 1 ps (.command (.portClear st (field ps 0 1)))
  | .setPortLimits =>
      ofLength 8 ps (.command (.setPortLimits st (field ps 0 2) (field ps 2 2) (field ps 4 2) (field ps 6 2)))
  | .portRead => ofLength 2 ps (.command (.portRead st (field ps 0 1) (field ps 1 1)))
  | .stop => ofLength 1 ps (.command (.stop st (field ps 0 1)))
  | .clearStop => ofLength 0 ps (.command (.clearStop st))
  | .readStop => ofLength 0 ps (.command (.readStop st))
  | .setStandard => ofLength 1 ps (.command (.setStandard st (field ps 0 1)))
  | .readPeriod => ofLength 0 ps (.command (.readPeriod st))

/-- The command a word spells by the opcode table's bits: the table gives its rows none. -/
def decodeTableWord (_nbits _w : Nat) : Option Instr := none

/-! ## Encoding -/

/-- A position in mm. -/
def posBytes (v : Vec3) : List Byte := beInt 4 v.x ++ beInt 4 v.y ++ beInt 4 v.z

/-- Three signed 2-byte numbers. -/
def halfBytes (v : Vec3) : List Byte := beInt 2 v.x ++ beInt 2 v.y ++ beInt 2 v.z

/-- A box in mm. -/
def boxBytes (b : Box) : List Byte :=
  beInt 4 b.xMin ++ beInt 4 b.xMax ++ beInt 4 b.yMin ++ beInt 4 b.yMax ++ beInt 4 b.zMin ++ beInt 4 b.zMax

/-- The ten settings. -/
def settingsBytes (l : LimitSettings) : List Byte :=
  beBytes 2 l.vh ++ beBytes 2 l.vz ++ beBytes 2 l.a ++ beBytes 2 l.aStop ++ beBytes 2 l.aQuick ++ beBytes 2 l.aBrk
    ++ beBytes 2 l.evict ++ beBytes 2 l.cueDefault ++ beBytes 2 l.standoff ++ beBytes 2 l.margin

/-- The label with its length byte. -/
def labelBytes (label : List Byte) : List Byte := beBytes 1 label.length ++ label

/-- A request's frame less its sync, length and CRC: station, request and parameter bytes. None for a row that is no
request of 10.3. -/
def encodeRequest : Instr → Option (Nat × Req × List Byte)
  | .powerOnReset _ _ _ => none
  | .periodExpiry => none
  | .periodCommit => none
  | .cueDwellExpiry => none
  | .cueBlocked => none
  | .zoneLifetimeExpiry _ => none
  | .backoffExpiry _ => none
  | .stickHoldExpiry => none
  | .watchdogExpiry => none
  | .trainingSilenceExpiry _ => none
  | .breakExpiry _ => none
  | .consecutiveMissLimit _ => none
  | .refPulse => none
  | .referenceLoss => none
  | .estopLineChange _ => none
  | .stationCharacter _ => none
  | .stationFrameTimeout => none
  | .answerSent => none
  | .readStatus st => some (st, .readStatus, [])
  | .readEvents st => some (st, .readEvents, [])
  | .setAttentionMask st mask => some (st, .setAttentionMask, beBytes 2 mask)
  | .setWatchdog st periods => some (st, .setWatchdog, beBytes 2 periods)
  | .setStationClass st station cls => some (st, .setStationClass, beBytes 1 station ++ beBytes 1 cls)
  | .restart st => some (st, .restart, [])
  | .zoneCreate st kind box initial policy standing cap lifetime label =>
      some (st, .zoneCreate, beBytes 1 kind ++ boxBytes box ++ beBytes 1 initial ++ beBytes 1 policy
        ++ beBytes 1 standing ++ beBytes 2 cap ++ beBytes 3 lifetime ++ labelBytes label)
  | .zoneAmend st handle changes box cap lifetime label =>
      some (st, .zoneAmend, beBytes 2 handle ++ beBytes 1 changes ++ boxBytes box ++ beBytes 2 cap
        ++ beBytes 3 lifetime ++ labelBytes label)
  | .zoneSuspend st handle => some (st, .zoneSuspend, beBytes 2 handle)
  | .zoneResume st handle policy => some (st, .zoneResume, beBytes 2 handle ++ beBytes 1 policy)
  | .zoneRetire st handle => some (st, .zoneRetire, beBytes 2 handle)
  | .zoneClear st => some (st, .zoneClear, [])
  | .zoneLookup st handle => some (st, .zoneLookup, beBytes 2 handle)
  | .zoneFind st point => some (st, .zoneFind, posBytes point)
  | .zoneList st states owner => some (st, .zoneList, beBytes 1 states ++ beBytes 1 owner)
  | .enable st p0 => some (st, .enable, posBytes p0)
  | .disable st => some (st, .disable, [])
  | .readMotion st => some (st, .readMotion, [])
  | .setAnchors st anchors offsets =>
      some (st, .setAnchors, posBytes anchors.w0 ++ halfBytes offsets.w0 ++ posBytes anchors.w1 ++ halfBytes offsets.w1
        ++ posBytes anchors.w2 ++ halfBytes offsets.w2 ++ posBytes anchors.w3 ++ halfBytes offsets.w3)
  | .setFlightBox st box => some (st, .setFlightBox, boxBytes box)
  | .setPayout st payout lBase lStep =>
      some (st, .setPayout, beBytes 4 payout ++ beBytes 4 lBase ++ beBytes 4 lStep)
  | .corrWindow st w0 w1 j0 j1 order =>
      some (st, .corrWindow, beBytes 1 w0 ++ beBytes 1 w1 ++ beBytes 1 j0 ++ beBytes 1 j1 ++ beBytes 1 order)
  | .corrWrite st values => some (st, .corrWrite, beBytes 1 values.length ++ values.flatMap (beInt 4))
  | .corrRead st n => some (st, .corrRead, beBytes 1 n)
  | .setLimits st settings => some (st, .setLimits, settingsBytes settings)
  | .readGeometry st => some (st, .readGeometry, [])
  | .readLimits st => some (st, .readLimits, [])
  | .markSet st mark pos label => some (st, .markSet, beBytes 1 mark ++ posBytes pos ++ labelBytes label)
  | .markRetire st mark => some (st, .markRetire, beBytes 1 mark)
  | .markRead st mark => some (st, .markRead, beBytes 1 mark)
  | .cueAppend st mark cruise dwell flags =>
      some (st, .cueAppend, beBytes 1 mark ++ beBytes 2 cruise ++ beBytes 2 dwell ++ beBytes 1 flags)
  | .cueGo st => some (st, .cueGo, [])
  | .cueHalt st => some (st, .cueHalt, [])
  | .cueFlush st => some (st, .cueFlush, [])
  | .cueRead st => some (st, .cueRead, [])
  | .setCueWindow st w => some (st, .setCueWindow, beBytes 1 w)
  | .claim st => some (st, .claim, [])
  | .withdraw st => some (st, .withdraw, [])
  | .release st => some (st, .release, [])
  | .preempt st => some (st, .preempt, [])
  | .selectMode st mode => some (st, .selectMode, beBytes 1 mode)
  | .stick st deflection scale flags =>
      some (st, .stick, halfBytes deflection ++ beBytes 1 scale ++ beBytes 1 flags)
  | .setOrientation st flags => some (st, .setOrientation, beBytes 1 flags)
  | .endSwap st => some (st, .endSwap, [])
  | .setStick st start hold deadband =>
      some (st, .setStick, beBytes 1 start ++ beBytes 1 hold ++ beBytes 1 deadband)
  | .readAuthority st clear => some (st, .readAuthority, beBytes 1 clear)
  | .portControlEnable st port => some (st, .portControl, beBytes 1 port ++ beBytes 1 0)
  | .portControlDisable st port => some (st, .portControl, beBytes 1 port ++ beBytes 1 1)
  | .portControlRetrain st port => some (st, .portControl, beBytes 1 port ++ beBytes 1 2)
  | .portControlSleep st port => some (st, .portControl, beBytes 1 port ++ beBytes 1 3)
  | .portControlWake st port => some (st, .portControl, beBytes 1 port ++ beBytes 1 4)
  | .setAbility st port classes => some (st, .setAbility, beBytes 1 port ++ beBytes 1 classes)
  | .portTestStart st port pattern loop =>
      some (st, .portTest, beBytes 1 port ++ beBytes 1 1 ++ beBytes 1 pattern ++ beBytes 1 loop)
  | .portTestStop st port => some (st, .portTest, beBytes 1 port ++ beBytes 1 0 ++ beBytes 1 0 ++ beBytes 1 0)
  | .portClear st port => some (st, .portClear, beBytes 1 port)
  | .setPortLimits st following tMin tMax tolerance =>
      some (st, .setPortLimits, beBytes 2 following ++ beBytes 2 tMin ++ beBytes 2 tMax ++ beBytes 2 tolerance)
  | .portRead st port clear => some (st, .portRead, beBytes 1 port ++ beBytes 1 clear)
  | .stop st kind => some (st, .stop, beBytes 1 kind)
  | .clearStop st => some (st, .clearStop, [])
  | .readStop st => some (st, .readStop, [])
  | .setStandard st standard => some (st, .setStandard, beBytes 1 standard)
  | .readPeriod st => some (st, .readPeriod, [])
  | .driveAbilityFrame _ _ => none
  | .driveFeedbackFrame _ _ _ _ _ => none
  | .driveWakeFrame _ => none
  | .driveTestFrame _ _ => none
  | .winchFrameBadCheck _ => none
  | .winchFrameTimeout _ => none
  | .resetAsserted => none
  | .unknownRequestFrame _ _ => none
  | .winchCharacter _ _ => none

end Sys2Proof
end

