-- ==== Sys2Proof/Machine/State.lean ====
section
/-! DEFINITION. Everything the part holds, block by block, as plain data, and its value right after reset. Each field
cites the rule that names it; INVENTORY.md lists them with their reset values. -/

namespace Sys2Proof.Machine

/-! ## Airspace Table (R3) -/

/-- The kind of a zone (R5). -/
inductive ZoneKind where
  | keepOut | slow
  deriving DecidableEq, Repr

/-- The state of a zone (R3). -/
inductive ZoneState where
  | pending | active | suspended
  deriving DecidableEq, Repr

/-- The policy of a zone (R7). -/
inductive Policy where
  | defer | evict
  deriving DecidableEq, Repr

/-- A live zone record (R3). Extents in mm; `cap` in mm/s, present for SLOW; `lifetime` in motion periods.
`clear` is the clear count, 0 whenever it is dropped. Two flags are the model's own, each cleared by the next period
expiry. `fresh`: the zone became PENDING since the last expiry, so a commit before the next one counts no clear period
(R17, R25). `reboxed`: it was amended with a new box while PENDING, so the next expiry does not promote it (R28, log 31). -/
structure Zone where
  handle : Nat
  kind : ZoneKind
  box : Box
  state : ZoneState
  policy : Policy
  owner : Nat
  standing : Bool
  cap : Option Nat
  lifetime : Option Nat
  label : List Byte
  occupied : Bool
  clear : Nat
  fresh : Bool
  reboxed : Bool
  deriving DecidableEq, Repr

/-- A slot of the table: its generation, kept while it is free, and its record while it is live (R3). -/
structure Slot where
  generation : Nat
  zone : Option Zone
  deriving DecidableEq, Repr

/-! ## Motion Generator (R34) -/

/-- The sub-kind of STOPPED (R34). -/
inductive StoppedKind where
  | held | braked
  deriving DecidableEq, Repr

/-- The motion mode, with the sub-kind that is present in STOPPED only (R34). -/
inductive Mode where
  | safe | hold | stick | cue | evict | stopping
  | stopped (sub : StoppedKind)
  deriving DecidableEq, Repr

/-- The stop kinds in order of severity (R164). -/
inductive StopKind where
  | none | controlled | quick | brake
  deriving DecidableEq, Repr

/-- A speed class of a drive (R141). -/
inductive SpeedClass where
  | a | b | c | d
  deriving DecidableEq, Repr

/-- A direction of the exit search, in the order of its ties (R54). -/
inductive Dir where
  | zPlus | xPlus | xMinus | yPlus | yMinus | zMinus
  deriving DecidableEq, Repr

/-- The per-period limits (R34): speeds in µm per period, accelerations in µm per period², standoff and approach margin
in µm. -/
structure Limits where
  vh : Nat
  vz : Nat
  a : Nat
  aStop : Nat
  aQuick : Nat
  aBrk : Nat
  evict : Nat
  cueDefault : Nat
  standoff : Nat
  margin : Nat
  deriving DecidableEq, Repr

/-- The running-cue copy (R34, R57): target in µm, cruise in µm per period. `dwellLeft` is absent before arrival. -/
structure CueCopy where
  target : Vec3
  cruise : Nat
  dwell : Nat
  dwellLeft : Option Nat
  lastD : Nat
  noProgress : Nat
  deriving DecidableEq, Repr

/-- The exit target with its direction (R54). -/
structure ExitTarget where
  dir : Dir
  pos : Vec3
  deriving DecidableEq, Repr

/-- What a period computation read when it began, kept until its commit (R38, R42). `zones` are the ACTIVE records in
slot order, their occupied flags giving O. `cueLive` says that the cue it read has not halted since (R38). -/
structure Computation where
  mode : Mode
  kind : StopKind
  p : Vec3
  vOld : Vec3
  zones : List Zone
  speedClass : Option SpeedClass
  demand : Vec3
  cueLive : Bool
  deriving DecidableEq, Repr

/-- The Motion Generator (R34). `p` is absent while P is not valid. `feed` is the feed-forward handed with the last
lengths (R52). -/
structure Motion where
  mode : Mode
  p : Option Vec3
  vOld : Vec3
  lim : Limits
  copy : Option CueCopy
  exit : Option ExitTarget
  trapped : Bool
  lengths : Option (Quad Int)
  feed : Quad Int
  flight : Option Computation
  deriving DecidableEq, Repr

/-! ## Span Solver (R69) -/

/-- The scan order of the write window (R81). -/
inductive ScanOrder where
  | pointMajor | winchMajor
  deriving DecidableEq, Repr

/-- The write window (R80). -/
structure Window where
  w0 : Nat
  w1 : Nat
  j0 : Nat
  j1 : Nat
  order : ScanOrder
  deriving DecidableEq, Repr

/-- The validity report with the detail of its reason (R74). `sideMax` says max; `endLast` says c_32; `above` says
above the payout max. -/
inductive Validity where
  | valid
  | anchorSpacing (wa wb : Nat)
  | boxOutsideAnchors (axis : Axis) (sideMax : Bool)
  | boxTooHigh (winch : Nat)
  | payoutRange (corner winch : Nat) (endLast above : Bool)
  deriving DecidableEq, Repr

/-- The Span Solver (R69): lengths and positions in µm, `payoutMax` in mm, `classCaps` in µm per period for A to D
(R87). -/
structure Span where
  anchors : Quad Vec3
  offsets : Quad Vec3
  flightBox : Box
  payoutMax : Nat
  lBase : Nat
  lStep : Nat
  corr : Quad (List Int)
  window : Window
  ptrW : Nat
  ptrJ : Nat
  validity : Validity
  settings : LimitSettings
  classCaps : Quad Nat
  deriving DecidableEq, Repr

/-! ## Mark Store and Cue List (R90, R96) -/

/-- A SET mark (R90): position in mm. -/
structure Mark where
  pos : Vec3
  label : List Byte
  owner : Nat
  deriving DecidableEq, Repr

/-- An entry of the cue list (R96): cruise in mm/s, 0 for the cue default; dwell in periods. -/
structure CueEntry where
  mark : Nat
  cruise : Nat
  dwell : Nat
  haltAfter : Bool
  deriving DecidableEq, Repr

/-- Why an entry failed (R62). -/
inductive FailReason where
  | blocked | unreachable
  deriving DecidableEq, Repr

/-- The failure record: the reason and the mark number of the last entry that failed (R96). -/
structure Failure where
  reason : FailReason
  mark : Nat
  deriving DecidableEq, Repr

/-- The cue list (R96), its head first. -/
structure CueList where
  entries : List CueEntry
  running : Bool
  window : Nat
  failure : Option Failure
  deriving DecidableEq, Repr

/-! ## Authority Arbiter (R110) -/

/-- A stick sample as taken into the buffer, its values clamped (R122). -/
structure Sample where
  deflection : Vec3
  scale : Nat
  deadman : Bool
  deriving DecidableEq, Repr

/-- The Authority Arbiter (R110). The pending set is kept in rising station order; `backoff` holds the count of
stations 0 to 7 in order; the oldest sample stands first in `buffer`. -/
structure Authority where
  holder : Option Nat
  explicit : Bool
  cue : Bool
  pending : List Nat
  backoff : List Nat
  buffer : List Sample
  filling : Bool
  lastDemand : Option Vec3
  miss : Nat
  stale : Bool
  overrun : Nat
  start : Nat
  hold : Nat
  deadband : Nat
  swap : Bool
  mirrorX : Bool
  mirrorY : Bool
  deriving DecidableEq, Repr

/-! ## Winch Ports (R131) -/

/-- The state of a port (R131). -/
inductive PortState where
  | off | training | break_ | up | sleep | test
  deriving DecidableEq, Repr

/-- Why a port last entered BREAK (R139). -/
inductive BreakCause where
  | none | noCommonClass | silent | missed | lostClass | retrain
  deriving DecidableEq, Repr

/-- What a drive offers in an ABILITY frame (R213): its class set, bit 0 for A up to bit 3 for D, whether it senses
tension and whether it supports the test. -/
structure Ability where
  classes : BitVec 4
  tension : Bool
  test : Bool
  deriving DecidableEq, Repr

/-- The command of a setpoint (R144). -/
inductive Command where
  | brake | follow
  deriving DecidableEq, Repr

/-- The last setpoint sent: its command and its demand length (R131). -/
structure Sent where
  command : Command
  length : Int
  deriving DecidableEq, Repr

/-- A drive's status word (R145). -/
structure DriveStatus where
  ready : Bool
  brakeReleased : Bool
  tempWarn : Bool
  fault : Nat
  deriving DecidableEq, Repr

/-- The patterns of the link test (R157). -/
inductive Pattern where
  | prbs9 | prbs15
  deriving DecidableEq, Repr

/-- Where the link test turns its frames back (R156). -/
inductive Loop where
  | internal | external
  deriving DecidableEq, Repr

/-- The result of the link test (R157). -/
inductive TestResult where
  | none | running | pass | fail
  deriving DecidableEq, Repr

/-- The TEST frame most recently sent (R157): none yet, or sent, with the bytes it should carry, whether it has come back and
as it should be, and how many further frames came back for it. The next period expiry judges all of it. -/
inductive Outstanding where
  | none
  | sent (expected : List Byte) (back : Option Bool) (further : Nat)
  deriving DecidableEq, Repr

/-- The test record (R131, R157), with the two generators' stages as numbers. -/
structure TestRecord where
  pattern : Pattern
  loop : Loop
  result : TestResult
  compared : Nat
  errors : Nat
  sendGen : Nat
  checkGen : Nat
  outstanding : Outstanding
  deriving DecidableEq, Repr

/-- A winch port (R131). `runAbility` is the ABILITY frame that began the current identical-ability run (R136). `rx`
holds the characters from the frame's sync on, empty while hunting, and `rxSince` the CLK50 periods since that sync
(R214). `lineOut` is the frame sent at the last period expiry, empty when none was: the model's view of the TX line. -/
structure Port where
  state : PortState
  allowed : BitVec 4
  abilities : Option Ability
  resolved : Option SpeedClass
  legacy : Bool
  breakCause : BreakCause
  breakLeft : Nat
  abilityRun : Nat
  feedbackRun : Nat
  silence : Nat
  runAbility : Option Ability
  sequence : Nat
  lastSent : Option Sent
  measured : Option Nat
  tension : Option Nat
  status : DriveStatus
  candidate : Option DriveStatus
  misses : Nat
  followRun : Nat
  highRun : Nat
  slackRun : Nat
  good : Bool
  badFrames : Nat
  missTotal : Nat
  tensionWindow : Option (Nat × Nat)
  test : TestRecord
  rx : List Byte
  rxSince : Nat
  lineOut : List Byte
  deriving DecidableEq, Repr

/-- The limits the four ports share (R131): mm, N, N, mm. -/
structure PortLimits where
  following : Nat
  tMin : Nat
  tMax : Nat
  tolerance : Nat
  deriving DecidableEq, Repr

/-! ## Stop Unit (R163) -/

/-- The stop causes, in the order of R165. -/
inductive Cause where
  | operator | stationSilent | tensionHigh | slack | portLost | driveFault | following | estop
  deriving DecidableEq, Repr

/-- The first cause, with its port when it is a port cause (R163). -/
structure FirstCause where
  cause : Cause
  port : Option Nat
  deriving DecidableEq, Repr

/-- The attribution: for each port cause, the set of ports that raised it, bit p for port p (R163). -/
structure Attribution where
  tensionHigh : BitVec 4
  slack : BitVec 4
  portLost : BitVec 4
  driveFault : BitVec 4
  following : BitVec 4
  deriving DecidableEq, Repr

/-- The Stop Unit (R163). The cause set has the bit numbers of 10.1, OPERATOR 0 to ESTOP 7. `requested` is `none` while
OPERATOR is not in the set. -/
structure StopUnit where
  kind : StopKind
  causes : BitVec 8
  requested : StopKind
  attribution : Attribution
  first : Option FirstCause
  estopOpen : Bool
  deriving DecidableEq, Repr

/-! ## Period Generator (R180) -/

/-- The broadcast standards (R183). -/
inductive Standard where
  | s50 | s5994 | s60
  deriving DecidableEq, Repr

/-- The lock state (R187). -/
inductive Lock where
  | free | acquiring | locked | holdover
  deriving DecidableEq, Repr

/-- The Period Generator (R180). `interval` is absent while there was no pulse yet. `adding` and `wrapped` are the
model's own (log 33): the increment that the next CLK50 period adds when it is the one in which N was last set (R182),
and whether the last CLK50 period ended in a wrap, whose CLK50 period then still stands open. -/
structure PeriodGen where
  configured : Standard
  lock : Lock
  acc : Nat
  index : Nat
  increment : Nat
  adding : Nat
  wrapped : Bool
  interval : Option Nat
  loss : Nat
  detected : Option Standard
  lastE : Option Int
  lockRun : Nat
  unlockRun : Nat
  errors : Nat
  deriving DecidableEq, Repr

/-! ## Station Port (R194) -/

/-- The classes of a station (R10, R200). -/
inductive StationClass where
  | supervisor | safety | pilot | viewer | absent
  deriving DecidableEq, Repr

/-- The answer statuses (10.4). -/
inductive Status where
  | ok | notPermitted | unknownRequest | badLength | badParam | wrongState | staleHandle | notOwner | notHolder
  | noRoom | empty | inUse | noGeometry | portsNotReady | causePresent | occupied | mismatch
  deriving DecidableEq, Repr

/-- A request in service with its answer (R194, R199): the echoed station and request code, the status and the
payload. -/
structure Service where
  station : Nat
  code : Nat
  status : Status
  payload : List Byte
  deriving DecidableEq, Repr

/-- The receiver (R197). In a frame, the sync stands at the front of the receive buffer; `since` counts CLK50 periods
from it. -/
inductive Receiver where
  | hunting
  | inFrame (since : Nat)
  deriving DecidableEq, Repr

/-- The 14 event flags, in the bit order of 10.1 (R203). -/
inductive Event where
  | stop | authority | cueDone | cueFailed | cueWant | zoneActive | zoneExpired | trapped | stickStale | port
  | portWake | derate | reference | overrun
  deriving DecidableEq, Repr

/-- The Station Port (R194). `classes` holds the class of stations 1 to 7 in order; `rate` is 2·SRATE1 + SRATE0
(R195). -/
structure StationPort where
  classes : List StationClass
  rate : Nat
  buffer : List Byte
  receiver : Receiver
  frameErrors : Nat
  inService : Option Service
  events : BitVec 14
  mask : BitVec 14
  silence : Nat
  watchdog : Nat
  deriving DecidableEq, Repr

/-! ## The whole part -/

/-- Everything the part holds, the two input pins whose level matters between commands, and the queue of commands that
wait, first in first out. -/
structure State where
  air : List Slot
  motion : Motion
  span : Span
  marks : List (Option Mark)
  cue : CueList
  auth : Authority
  ports : Quad Port
  portLimits : PortLimits
  stop : StopUnit
  period : PeriodGen
  station : StationPort
  estopLineOpen : Bool
  resetHeld : Bool
  pending : List Instr
  deriving DecidableEq, Repr

/-- Why the machine stops with a fault. The manual gives the part no machine fault: what goes wrong is an answer status
(10.4) or a stop cause (R165), both state. Nothing raises a fault, so there is no constructor. -/
inductive Fault : Type
  deriving DecidableEq, Repr

/-- Why the model has no meaning for a command. -/
inductive Refusal where
  /-- Raised by a refused arm of `exec` alone, for a row whose meaning is not written yet; safe. No arm raises it now. -/
  | notModelled (mnemonic : String)
  deriving DecidableEq, Repr

/-- The three outcomes of a command. -/
abbrev Result := Host.Outcome State Fault Refusal

/-! ## Reset values -/

/-- The origin, or no movement. -/
def zero3 : Vec3 := ⟨0, 0, 0⟩

/-- The same thing for each of the four winches. -/
def quadOf {α : Type} (x : α) : Quad α := ⟨x, x, x, x⟩

/-- The power-on defaults of SET_LIMITS (R84). -/
def defaultSettings : LimitSettings :=
  { vh := 6000, vz := 2000, a := 2000, aStop := 2500, aQuick := 5000, aBrk := 1500, evict := 1000, cueDefault := 4000
    standoff := 500, margin := 2000 }

/-- A free slot of generation 0 (R32). -/
def freeSlot : Slot := { generation := 0, zone := none }

/-- The Motion Generator at power-on (R34); its limits are the defaults converted at S50 (R88). -/
def motionPowerOn : Motion :=
  { mode := .safe, p := none, vOld := zero3
    lim := { vh := 30000, vz := 10000, a := 50, aStop := 62, aQuick := 125, aBrk := 37, evict := 5000
             cueDefault := 20000, standoff := 500000, margin := 2000000 }
    copy := none, exit := none, trapped := false, lengths := none, feed := quadOf 0, flight := none }

/-- The Span Solver at power-on (R69, R88). -/
def spanPowerOn : Span :=
  { anchors := quadOf zero3, offsets := quadOf zero3, flightBox := ⟨0, 0, 0, 0, 0, 0⟩
    payoutMax := 250000, lBase := 0, lStep := 8000000, corr := quadOf (List.replicate 33 0)
    window := { w0 := 0, w1 := 3, j0 := 0, j1 := 32, order := .pointMajor }, ptrW := 0, ptrJ := 0
    validity := .anchorSpacing 0 1, settings := defaultSettings
    classCaps := ⟨15000, 30000, 45000, 60000⟩ }

/-- The cue list at power-on (R109). -/
def cuePowerOn : CueList := { entries := [], running := false, window := 4, failure := none }

/-- The Authority Arbiter at power-on (R110). -/
def authorityPowerOn : Authority :=
  { holder := none, explicit := false, cue := false, pending := [], backoff := List.replicate 8 0, buffer := []
    filling := true, lastDemand := none, miss := 0, stale := false, overrun := 0, start := 2, hold := 10, deadband := 50
    swap := false, mirrorX := false, mirrorY := false }

/-- The status word with every flag clear and FAULT 0 (R131). -/
def statusClear : DriveStatus := { ready := false, brakeReleased := false, tempWarn := false, fault := 0 }

/-- The test record before any test: result NONE (R131). DESIGN CHOICE (log 9): the manual gives no pattern and no loop
here; PRBS9 and INTERNAL, unsafe. Nine stages at 1 are 511. -/
def testPowerOn : TestRecord :=
  { pattern := .prbs9, loop := .internal, result := .none, compared := 0, errors := 0, sendGen := 511, checkGen := 511
    outstanding := .none }

/-- A winch port at power-on (R131). -/
def portPowerOn : Port :=
  { state := .training, allowed := 15#4, abilities := none, resolved := none, legacy := false, breakCause := .none
    breakLeft := 0, abilityRun := 0, feedbackRun := 0, silence := 0, runAbility := none, sequence := 0, lastSent := none
    measured := none, tension := none, status := statusClear, candidate := none, misses := 0, followRun := 0
    highRun := 0, slackRun := 0, good := false, badFrames := 0, missTotal := 0, tensionWindow := none
    test := testPowerOn, rx := [], rxSince := 0, lineOut := [] }

/-- The limits of the ports at power-on (R131). -/
def portLimitsPowerOn : PortLimits := { following := 50, tMin := 200, tMax := 12000, tolerance := 100 }

/-- No port attributed to any cause (R163). -/
def noAttribution : Attribution :=
  { tensionHigh := 0#4, slack := 0#4, portLost := 0#4, driveFault := 0#4, following := 0#4 }

/-- The Stop Unit with its set empty and the ESTOP state given (R163). -/
def stopEmpty (estopOpen : Bool) : StopUnit :=
  { kind := .none, causes := 0#8, requested := .none, attribution := noAttribution, first := none
    estopOpen := estopOpen }

/-- The Period Generator at power-on (R180): the loss timer stands at the loss limit of S50 (R185). -/
def periodPowerOn : PeriodGen :=
  { configured := .s50, lock := .free, acc := 0, index := 0, increment := 17180, adding := 17180
    wrapped := false, interval := none, loss := 3000000, detected := none, lastE := none, lockRun := 0, unlockRun := 0
    errors := 0 }

/-- The Station Port at power-on (R194), at the line rate given. -/
def stationPowerOn (rate : Nat) : StationPort :=
  { classes := List.replicate 7 .absent, rate := rate, buffer := [], receiver := .hunting, frameErrors := 0
    inService := none, events := 0#14, mask := 16383#14, silence := 0, watchdog := 100 }

/-- The number of a line rate from its straps (R195). -/
def rateOf (srate1 srate0 : Bool) : Nat := 2 * srate1.toNat + srate0.toNat

/-- Every block at its power-on values (R196), at the line rate given and with the ESTOP loop taken as closed. -/
def powerOnValues (rate : Nat) : State :=
  { air := List.replicate 48 freeSlot, motion := motionPowerOn, span := spanPowerOn, marks := List.replicate 32 none
    cue := cuePowerOn, auth := authorityPowerOn, ports := quadOf portPowerOn, portLimits := portLimitsPowerOn
    stop := stopEmpty false, period := periodPowerOn, station := stationPowerOn rate, estopLineOpen := false
    resetHeld := false, pending := [] }

/-- The part right after the release of RESET. DESIGN CHOICE (log 7), unsafe: the straps as Config gives them (0 and 0)
and the ESTOP loop closed. -/
def State.reset : State := powerOnValues (rateOf Config.resetSrate1 Config.resetSrate0)

end Sys2Proof.Machine
end

