-- ==== Sys2Proof/Machine/Ops.lean ====
section
/-! DEFINITION. The shared operations under every block: the arithmetic laws of R2, points and boxes (R1), the four
winches' things, the conversions of units (R85 to R87), the check sequence of the frames (R196), and the reading of
the state that several blocks do. -/

namespace Sys2Proof

/-! ## Arithmetic (R2) -/

/-- isqrt by its binary digits from the `k`-th down: the greatest `r + …` whose square does not exceed `n`. -/
def isqrtFrom : Nat → Nat → Nat → Nat
  | 0, _, r => r
  | k + 1, n, r => if (r + 2 ^ k) * (r + 2 ^ k) ≤ n then isqrtFrom k n (r + 2 ^ k) else isqrtFrom k n r

/-- isqrt(n): the largest integer whose square does not exceed n (R2). -/
def isqrt (n : Nat) : Nat := isqrtFrom (Nat.log2 n / 2 + 1) n 0

/-- clamp(x, lo, hi) (R2). -/
def clamp (x lo hi : Int) : Int := if x < lo then lo else if hi < x then hi else x

/-- clamp on numbers that are never negative (R2). -/
def clampNat (x lo hi : Nat) : Nat := if x < lo then lo else if hi < x then hi else x

/-- A count that advances by one and saturates at its limit (R2). -/
def saturate (n limit : Nat) : Nat := if n < limit then n + 1 else n

/-- The quotient truncated toward zero (R2). -/
def quot (a b : Int) : Int := Int.tdiv a b

/-! ## Points and boxes (R1) -/

/-- The coordinate on an axis. -/
def Vec3.get (v : Vec3) : Axis → Int
  | .x => v.x
  | .y => v.y
  | .z => v.z

/-- The same point with one coordinate replaced. -/
def Vec3.put (v : Vec3) (k : Axis) (i : Int) : Vec3 :=
  match k with
  | .x => { v with x := i }
  | .y => { v with y := i }
  | .z => { v with z := i }

/-- A function applied on each axis. -/
def Vec3.byAxis (f : Axis → Int) : Vec3 := ⟨f .x, f .y, f .z⟩

/-- The sum on each axis. -/
def Vec3.plus (u v : Vec3) : Vec3 := ⟨u.x + v.x, u.y + v.y, u.z + v.z⟩

/-- The difference on each axis. -/
def Vec3.minus (u v : Vec3) : Vec3 := ⟨u.x - v.x, u.y - v.y, u.z - v.z⟩

/-- The sum of the squares. -/
def Vec3.sq (v : Vec3) : Nat := (v.x * v.x + v.y * v.y + v.z * v.z).toNat

/-- isqrt of the sum of the squares: the length of a vector (R57, R58). -/
def Vec3.norm (v : Vec3) : Nat := isqrt v.sq

/-- A position in mm as one in µm. -/
def Vec3.um (v : Vec3) : Vec3 := ⟨v.x * 1000, v.y * 1000, v.z * 1000⟩

/-- The lower extent on an axis. -/
def Box.lo (b : Box) : Axis → Int
  | .x => b.xMin
  | .y => b.yMin
  | .z => b.zMin

/-- The upper extent on an axis. -/
def Box.hi (b : Box) : Axis → Int
  | .x => b.xMax
  | .y => b.yMax
  | .z => b.zMax

/-- The coordinate lies within the range on an axis, widened by `m` on both sides, faces included (R1, R46). -/
def Box.spans (b : Box) (m : Int) (k : Axis) (i : Int) : Bool := decide (b.lo k - m ≤ i ∧ i ≤ b.hi k + m)

/-- The point is inside the box, faces included (R1). -/
def Box.has (b : Box) (p : Vec3) : Bool := b.spans 0 .x p.x && b.spans 0 .y p.y && b.spans 0 .z p.z

/-- A box in mm as one in µm. -/
def Box.um (b : Box) : Box :=
  ⟨b.xMin * 1000, b.xMax * 1000, b.yMin * 1000, b.yMax * 1000, b.zMin * 1000, b.zMax * 1000⟩

/-- A box grown by `s` on every side (R6). -/
def Box.grow (b : Box) (s : Int) : Box :=
  ⟨b.xMin - s, b.xMax + s, b.yMin - s, b.yMax + s, b.zMin - s, b.zMax + s⟩

/-- On each axis min is at most max (R1). -/
def Box.ordered (b : Box) : Bool := decide (b.xMin ≤ b.xMax ∧ b.yMin ≤ b.yMax ∧ b.zMin ≤ b.zMax)

/-- The point clamped into the box, axis by axis (R48). -/
def Box.clampIn (b : Box) (p : Vec3) : Vec3 :=
  ⟨clamp p.x b.xMin b.xMax, clamp p.y b.yMin b.yMax, clamp p.z b.zMin b.zMax⟩

/-! ## The four winches -/

/-- The thing of winch `i`. For a number above 3, which every caller has ruled out, that of winch 3. -/
def Quad.get {α : Type} (q : Quad α) : Nat → α
  | 0 => q.w0
  | 1 => q.w1
  | 2 => q.w2
  | _ => q.w3

/-- Replaces the thing of winch `i`; a number above 3 changes nothing. -/
def Quad.put {α : Type} (q : Quad α) (i : Nat) (x : α) : Quad α :=
  match i with
  | 0 => { q with w0 := x }
  | 1 => { q with w1 := x }
  | 2 => { q with w2 := x }
  | 3 => { q with w3 := x }
  | _ => q

/-- The four things in order. -/
def Quad.list {α : Type} (q : Quad α) : List α := [q.w0, q.w1, q.w2, q.w3]

/-- A function applied to each of the four. -/
def Quad.map {α β : Type} (f : α → β) (q : Quad α) : Quad β := ⟨f q.w0, f q.w1, f q.w2, f q.w3⟩

/-- A function of the winch numbers. -/
def Quad.ofFn {α : Type} (f : Nat → α) : Quad α := ⟨f 0, f 1, f 2, f 3⟩

end Sys2Proof

namespace Sys2Proof.Machine

/-! ## Standards and conversions (R85 to R88) -/

/-- T_ns, the nominal motion period of a standard in nanoseconds (R85). -/
def Standard.tns : Standard → Nat
  | .s50 => 5000000
  | .s5994 => 4170833
  | .s60 => 4166667

/-- A speed in mm/s as µm per motion period, truncated (R85). -/
def speedPer (std : Standard) (v : Nat) : Nat := v * std.tns / 1000000

/-- An acceleration in mm/s² as µm per period², truncated, at least 1 (R86). -/
def accelPer (std : Standard) (a : Nat) : Nat := max 1 (a * (std.tns * std.tns) / 10 ^ 15)

/-- The ten settings converted with a standard's nominal period (R85 to R87). -/
def convertLimits (std : Standard) (l : LimitSettings) : Limits :=
  { vh := speedPer std l.vh, vz := speedPer std l.vz, a := accelPer std l.a, aStop := accelPer std l.aStop
    aQuick := accelPer std l.aQuick, aBrk := accelPer std l.aBrk, evict := speedPer std l.evict
    cueDefault := speedPer std l.cueDefault, standoff := l.standoff * 1000, margin := l.margin * 1000 }

/-- The class caps of A to D in µm per period (R87). -/
def convertCaps (std : Standard) : Quad Nat :=
  ⟨speedPer std 3000, speedPer std 6000, speedPer std 9000, speedPer std 12000⟩

/-! ## The check sequence (R196, R213) -/

/-- One bit of the CRC with the polynomial x^16 + x^12 + x^5 + 1, most significant bit first. -/
def crcBit (c : BitVec 16) : BitVec 16 := if c.msb then (c <<< 1) ^^^ 0x1021#16 else c <<< 1

/-- One byte of the CRC. -/
def crcByte (c : BitVec 16) (b : Byte) : BitVec 16 :=
  crcBit (crcBit (crcBit (crcBit (crcBit (crcBit (crcBit (crcBit (c ^^^ (b.setWidth 16 <<< 8)))))))))

/-- The CRC of a byte string from the initial value 0xFFFF, not inverted (R196). -/
def crc (bs : List Byte) : Nat := (bs.foldl crcByte 0xFFFF#16).toNat

/-! ## Bytes of answers (10.1) -/

/-- Yes is 1, no is 0. -/
def boolByte (b : Bool) : List Byte := [if b then 1#8 else 0#8]

/-- A number in one byte. -/
def byte (n : Nat) : List Byte := beBytes 1 n

/-- A list: a count byte, then its items (R212). -/
def countedList (items : List (List Byte)) : List Byte := byte items.length ++ items.flatten

/-! ## Reading the blocks -/

/-- The class of a station as the table holds it now (R200); station 0 is SUPERVISOR (R194). -/
def classOf (s : State) (st : Nat) : StationClass :=
  if st = 0 then .supervisor else s.station.classes.getD (st - 1) .absent

/-- The records of the live slots, in slot order (R3). -/
def liveZones (air : List Slot) : List Zone := air.filterMap Slot.zone

/-- The record is an ACTIVE keep-out (R13). -/
def Zone.activeKeepOut (z : Zone) : Bool := z.state == .active && z.kind == .keepOut

/-- The guarded box of a keep-out at standoff `s` in µm (R6). -/
def Zone.guarded (z : Zone) (s : Nat) : Box := z.box.um.grow s

/-- The occupied set O: the handles of the occupied records in slot order (R13). -/
def occupiedSet (s : State) : List Nat := ((liveZones s.air).filter Zone.occupied).map Zone.handle

/-- O is not empty (R37). -/
def anyOccupied (s : State) : Bool := (liveZones s.air).any Zone.occupied

/-- HOLD, STICK, CUE and EVICT (R35). -/
def Mode.steered : Mode → Bool
  | .hold | .stick | .cue | .evict => true
  | .safe | .stopping | .stopped _ => false

/-- The steered modes, STOPPING and STOPPED/HELD: the modes in which the ports are asked to follow (R35). -/
def Mode.following : Mode → Bool
  | .hold | .stick | .cue | .evict | .stopping | .stopped .held => true
  | .safe | .stopped .braked => false

/-- The mode is STOPPED. -/
def Mode.isStopped : Mode → Bool
  | .stopped _ => true
  | .safe | .hold | .stick | .cue | .evict | .stopping => false

/-- A severity number for the order of R164. -/
def StopKind.severity : StopKind → Nat
  | .none => 0
  | .controlled => 1
  | .quick => 2
  | .brake => 3

/-- The harsher of two kinds (R164). -/
def StopKind.harsher (a b : StopKind) : StopKind := if a.severity < b.severity then b else a

/-- A rank number for the order of the speed classes, A lowest (R141). -/
def SpeedClass.rank : SpeedClass → Nat
  | .a => 1
  | .b => 2
  | .c => 3
  | .d => 4

/-- The lower of two classes. -/
def SpeedClass.lower (x y : SpeedClass) : SpeedClass := if y.rank < x.rank then y else x

/-- The system speed class: the lowest resolved class over the four ports, none while any port is not UP (R141). -/
def systemClass (ports : Quad Port) : Option SpeedClass :=
  let up := fun (q : Port) => if q.state = .up then q.resolved else none
  match up ports.w0, up ports.w1, up ports.w2, up ports.w3 with
  | some k0, some k1, some k2, some k3 => some (((k0.lower k1).lower k2).lower k3)
  | _, _, _, _ => none

/-- All four ports are UP (R144). -/
def allUp (ports : Quad Port) : Bool := ports.list.all (fun q => q.state == .up)

/-- The sender holds authority (R112). -/
def holds (s : State) (st : Nat) : Bool := s.auth.holder == some st

/-- The window flag of the cue list (R106). -/
def windowFlag (c : CueList) : Bool := decide (c.entries.length < c.window)

/-- Nothing happens to the part while RESET is asserted (R196). -/
def unlessHeld (s : State) (f : State → State) : State := if s.resetHeld then s else f s

end Sys2Proof.Machine
end

