-- ==== Sys2Proof/Machine/Operands.lean ====
section
/-! DEFINITION. The operands of requests and answers: the codes of the enumerations (10.1), the ranges and the forms a
parameter is judged by (R211), and the bytes of the records that several answers share (R212). -/

namespace Sys2Proof.Machine

/-! ## Codes read from a request (10.1, R211): none for a code the table does not give -/

/-- A yes/no byte: above 1 it says neither (R211). -/
def yesNo : Nat → Option Bool
  | 0 => some false
  | 1 => some true
  | _ => none

/-- The zone kind of a code. -/
def zoneKindOf : Nat → Option ZoneKind
  | 0 => some .keepOut
  | 1 => some .slow
  | _ => none

/-- The policy of a code. -/
def policyOf : Nat → Option Policy
  | 0 => some .defer
  | 1 => some .evict
  | _ => none

/-- The initial state of a ZONE_CREATE: ACTIVE or SUSPENDED, never PENDING (R16). -/
def initialStateOf : Nat → Option ZoneState
  | 1 => some .active
  | 2 => some .suspended
  | _ => none

/-- The class SET_STATION_CLASS may give: SUPERVISOR is none of them (R200). -/
def givenClassOf : Nat → Option StationClass
  | 1 => some .safety
  | 2 => some .pilot
  | 3 => some .viewer
  | 4 => some .absent
  | _ => none

/-- The kind a STOP may ask for (R172). -/
def stopKindOf : Nat → Option StopKind
  | 1 => some .controlled
  | 2 => some .quick
  | 3 => some .brake
  | _ => none

/-- The standard a SET_STANDARD may ask for (R183). -/
def standardOf : Nat → Option Standard
  | 1 => some .s50
  | 2 => some .s5994
  | 3 => some .s60
  | _ => none

/-- The mode a SELECT_MODE may ask for: HOLD 1 or STICK 2 (R121, 10.3); yes for STICK. -/
def selectedStick : Nat → Option Bool
  | 1 => some false
  | 2 => some true
  | _ => none

/-- The scan order of a code. -/
def scanOrderOf : Nat → Option ScanOrder
  | 0 => some .pointMajor
  | 1 => some .winchMajor
  | _ => none

/-- The test pattern of a code. -/
def patternOf : Nat → Option Pattern
  | 0 => some .prbs9
  | 1 => some .prbs15
  | _ => none

/-- The test loop of a code. -/
def loopOf : Nat → Option Loop
  | 0 => some .internal
  | 1 => some .external
  | _ => none

/-- A class set byte: not empty, and no bit above the four (R143, R211). -/
def classSetOf (n : Nat) : Option (BitVec 4) := if n = 0 ∨ 16 ≤ n then none else some (BitVec.ofNat 4 n)

/-! ## Ranges (R71, R72, R16, R30, R91) -/

/-- A point within the coordinate ranges in mm: X and Y ±100,000, Z 0 to 80,000. -/
def inRange (p : Vec3) : Bool :=
  decide (-100000 ≤ p.x ∧ p.x ≤ 100000 ∧ -100000 ≤ p.y ∧ p.y ≤ 100000 ∧ 0 ≤ p.z ∧ p.z ≤ 80000)

/-- A box in mm with every extent within its range and min at most max on each axis (R16, R72). -/
def boxInRange (b : Box) : Bool := inRange ⟨b.xMin, b.yMin, b.zMin⟩ && inRange ⟨b.xMax, b.yMax, b.zMax⟩ && b.ordered

/-- An attachment offset: each component within ±2,000 mm (R71). -/
def offsetInRange (p : Vec3) : Bool :=
  decide (-2000 ≤ p.x ∧ p.x ≤ 2000 ∧ -2000 ≤ p.y ∧ p.y ≤ 2000 ∧ -2000 ≤ p.z ∧ p.z ≤ 2000)

/-! ## Class sets (R136, R142) -/

/-- The highest class of a set, D above C above B above A; none for the empty set. -/
def highestClass (s : BitVec 4) : Option SpeedClass :=
  if s.getLsbD 3 then some .d else if s.getLsbD 2 then some .c else if s.getLsbD 1 then some .b
  else if s.getLsbD 0 then some .a else none

/-- The bits the port reads of a drive's ABILITY byte (R213). -/
def abilityOf (b : Nat) : Ability :=
  { classes := BitVec.ofNat 4 (b % 16), tension := b.testBit 4, test := b.testBit 5 }

/-- The bits the port reads of a FEEDBACK status byte (R213). -/
def driveStatusOf (b : Nat) : DriveStatus :=
  { ready := b.testBit 0, brakeReleased := b.testBit 1, tempWarn := b.testBit 2, fault := b / 16 % 16 }

/-! ## Codes written into an answer (10.1) -/

/-- The code of a zone kind. -/
def ZoneKind.code : ZoneKind → Nat
  | .keepOut => 0
  | .slow => 1

/-- The code of a zone state. -/
def ZoneState.code : ZoneState → Nat
  | .pending => 0
  | .active => 1
  | .suspended => 2

/-- The code of a policy. -/
def Policy.code : Policy → Nat
  | .defer => 0
  | .evict => 1

/-- The code of a station class. -/
def StationClass.code : StationClass → Nat
  | .supervisor => 0
  | .safety => 1
  | .pilot => 2
  | .viewer => 3
  | .absent => 4

/-- The code of a speed class, NONE 0. -/
def speedClassCode : Option SpeedClass → Nat
  | none => 0
  | some k => k.rank

/-- The code of a motion mode. -/
def Mode.code : Mode → Nat
  | .safe => 0
  | .hold => 1
  | .stick => 2
  | .cue => 3
  | .evict => 4
  | .stopping => 5
  | .stopped _ => 6

/-- The code of the STOPPED sub-kind, absent 0. -/
def Mode.subCode : Mode → Nat
  | .stopped .held => 1
  | .stopped .braked => 2
  | .safe | .hold | .stick | .cue | .evict | .stopping => 0

/-- The code of a standard, NONE 0. -/
def standardCode : Option Standard → Nat
  | none => 0
  | some .s50 => 1
  | some .s5994 => 2
  | some .s60 => 3

/-- The code of a lock state. -/
def Lock.code : Lock → Nat
  | .free => 0
  | .acquiring => 1
  | .locked => 2
  | .holdover => 3

/-- The code of a port state. -/
def PortState.code : PortState → Nat
  | .off => 0
  | .training => 1
  | .break_ => 2
  | .up => 3
  | .sleep => 4
  | .test => 5

/-- The code of a break cause. -/
def BreakCause.code : BreakCause → Nat
  | .none => 0
  | .noCommonClass => 1
  | .silent => 2
  | .missed => 3
  | .lostClass => 4
  | .retrain => 5

/-- The code of a test pattern. -/
def Pattern.code : Pattern → Nat
  | .prbs9 => 0
  | .prbs15 => 1

/-- The code of a test loop. -/
def Loop.code : Loop → Nat
  | .internal => 0
  | .external => 1

/-- The code of a test result. -/
def TestResult.code : TestResult → Nat
  | .none => 0
  | .running => 1
  | .pass => 2
  | .fail => 3

/-- The code of a scan order. -/
def ScanOrder.code : ScanOrder → Nat
  | .pointMajor => 0
  | .winchMajor => 1

/-- The code of a cue failure reason. -/
def FailReason.code : FailReason → Nat
  | .blocked => 1
  | .unreachable => 2

/-- The code of an exit direction. -/
def Dir.code : Dir → Nat
  | .zPlus => 1
  | .xPlus => 2
  | .xMinus => 3
  | .yPlus => 4
  | .yMinus => 5
  | .zMinus => 6

/-- The code of an axis in a validity detail. -/
def axisCode : Axis → Nat
  | .x => 0
  | .y => 1
  | .z => 2

/-- The code of an answer status (10.4). -/
def Status.code : Status → Nat
  | .ok => 0x00
  | .notPermitted => 0x01
  | .unknownRequest => 0x02
  | .badLength => 0x03
  | .badParam => 0x04
  | .wrongState => 0x05
  | .staleHandle => 0x06
  | .notOwner => 0x07
  | .notHolder => 0x08
  | .noRoom => 0x09
  | .empty => 0x0A
  | .inUse => 0x0B
  | .noGeometry => 0x0C
  | .portsNotReady => 0x0D
  | .causePresent => 0x0E
  | .occupied => 0x0F
  | .mismatch => 0x10

/-- The code of a validity reason, NONE for VALID. -/
def Validity.code : Validity → Nat
  | .valid => 0
  | .anchorSpacing _ _ => 1
  | .boxOutsideAnchors _ _ => 2
  | .boxTooHigh _ => 3
  | .payoutRange _ _ _ _ => 4

/-- The detail of a validity reason, 4 bytes, unused bytes 0 (10.1). -/
def Validity.detail : Validity → List Byte
  | .valid => byte 0 ++ byte 0 ++ byte 0 ++ byte 0
  | .anchorSpacing wa wb => byte wa ++ byte wb ++ byte 0 ++ byte 0
  | .boxOutsideAnchors k sideMax => byte (axisCode k) ++ boolByte sideMax ++ byte 0 ++ byte 0
  | .boxTooHigh w => byte w ++ byte 0 ++ byte 0 ++ byte 0
  | .payoutRange corner w endLast above => byte corner ++ byte w ++ boolByte endLast ++ boolByte above

/-! ## Records that answers share (R212) -/

/-- The validity report: its reason and the detail. DESIGN CHOICE (log 10): VALID and INVALID have no byte of their own, the
reason NONE alone stands for VALID, as 10.6 has it for READ_STATUS. -/
def validityBytes (v : Validity) : List Byte := byte v.code ++ v.detail

/-- The motion mode with the STOPPED sub-kind, absent 0 (R68, R178, R208, 10.1). -/
def modeBytes (m : Mode) : List Byte := byte m.code ++ byte m.subCode

/-- A handle: the slot, then the generation. -/
def handleBytes (h : Nat) : List Byte := beBytes 2 h

/-- A station, 0xFF when there is none. -/
def stationByte : Option Nat → List Byte
  | none => byte 255
  | some st => byte st

/-- An optional number of `k` bytes, 0 when absent. -/
def optBytes (k : Nat) : Option Nat → List Byte
  | none => beBytes k 0
  | some n => beBytes k n

/-- The status word as FEEDBACK carries it (R213). PORT_READ carries it in the same one byte (DESIGN CHOICE, log 10). -/
def statusByte (d : DriveStatus) : List Byte :=
  byte (d.ready.toNat + 2 * d.brakeReleased.toNat + 4 * d.tempWarn.toNat + 16 * d.fault)

/-- The drive abilities as an ABILITY frame carries them (R213). PORT_READ carries them in the same one byte, class set
and flags together (DESIGN CHOICE, log 10). -/
def abilityByte (a : Ability) : List Byte := byte (a.classes.toNat + 16 * a.tension.toNat + 32 * a.test.toNat)

/-- The basis flags (10.1). -/
def basisByte (a : Authority) : List Byte := byte (a.explicit.toNat + 2 * a.cue.toNat)

/-- The orientation flags (10.1). -/
def orientationByte (a : Authority) : List Byte := byte (a.swap.toNat + 2 * a.mirrorX.toNat + 4 * a.mirrorY.toNat)

end Sys2Proof.Machine
end

