-- ==== Sys2Proof/Machine/Flags.lean ====
section
/-! DEFINITION. The flags: the event set and ATTN (R203 to R205), and the cause set of the Stop Unit with its
attribution (R163, R166), in the bit orders of 10.1. -/

namespace Sys2Proof.Machine

/-! ## Events -/

/-- The bit of an event flag (10.1). -/
def Event.bit : Event → Nat
  | .stop => 0
  | .authority => 1
  | .cueDone => 2
  | .cueFailed => 3
  | .cueWant => 4
  | .zoneActive => 5
  | .zoneExpired => 6
  | .trapped => 7
  | .stickStale => 8
  | .port => 9
  | .portWake => 10
  | .derate => 11
  | .reference => 12
  | .overrun => 13

/-- The flag stands in the event set. -/
def eventSet (s : State) (e : Event) : Bool := s.station.events.getLsbD e.bit

/-- A block raises a flag: it is set in the event set, and a flag already set stays set (R203). -/
def raiseEvent (e : Event) (s : State) : State :=
  { s with station := { s.station with events := s.station.events ||| BitVec.twoPow 14 e.bit } }

/-- Raises a flag when the condition holds. -/
def raiseIf (b : Bool) (e : Event) (s : State) : State := if b then raiseEvent e s else s

/-- The ATTN output: asserted while the event set holds a flag the attention mask enables (R205), never while RESET is
asserted (R196). -/
def attn (s : State) : Bool := !s.resetHeld && (s.station.events &&& s.station.mask) != 0#14

/-! ## Stop causes -/

/-- The bit of a cause in the cause set (10.1). -/
def Cause.bit : Cause → Nat
  | .operator => 0
  | .stationSilent => 1
  | .tensionHigh => 2
  | .slack => 3
  | .portLost => 4
  | .driveFault => 5
  | .following => 6
  | .estop => 7

/-- The causes in the order of R165. -/
def Cause.list : List Cause :=
  [.operator, .stationSilent, .tensionHigh, .slack, .portLost, .driveFault, .following, .estop]

/-- The cause is in the set. -/
def StopUnit.has (u : StopUnit) (c : Cause) : Bool := u.causes.getLsbD c.bit

/-- The causes in the set, in the order of R165. -/
def StopUnit.inSet (u : StopUnit) : List Cause := Cause.list.filter u.has

/-- The kind of a cause (R165): OPERATOR's is the requested kind held with the set. -/
def Cause.kind (c : Cause) (requested : StopKind) : StopKind :=
  match c with
  | .operator => requested
  | .stationSilent => .controlled
  | .tensionHigh => .quick
  | .slack => .quick
  | .portLost => .brake
  | .driveFault => .brake
  | .following => .brake
  | .estop => .brake

/-- The ports attributed to a cause; none for a cause that no port raises (R165). -/
def Attribution.ports (a : Attribution) : Cause → BitVec 4
  | .tensionHigh => a.tensionHigh
  | .slack => a.slack
  | .portLost => a.portLost
  | .driveFault => a.driveFault
  | .following => a.following
  | .operator | .stationSilent | .estop => 0#4

/-- A port joins a cause's attribution (R166, step 3); a cause that is no port cause has none. -/
def Attribution.join (a : Attribution) (c : Cause) (port : Nat) : Attribution :=
  match c with
  | .tensionHigh => { a with tensionHigh := a.tensionHigh ||| BitVec.twoPow 4 port }
  | .slack => { a with slack := a.slack ||| BitVec.twoPow 4 port }
  | .portLost => { a with portLost := a.portLost ||| BitVec.twoPow 4 port }
  | .driveFault => { a with driveFault := a.driveFault ||| BitVec.twoPow 4 port }
  | .following => { a with following := a.following ||| BitVec.twoPow 4 port }
  | .operator | .stationSilent | .estop => a

/-- Every port named in any attribution (R175). -/
def Attribution.any (a : Attribution) : BitVec 4 :=
  a.tensionHigh ||| a.slack ||| a.portLost ||| a.driveFault ||| a.following

end Sys2Proof.Machine
end

