-- ==== Sys2Proof/Machine/Requests.lean ====
section
/-! DEFINITION. Taking a request and answering it: the Station Port's checks (R201, R202), the resetting of the
silence counter (R206), and the answer frame (R196, R199, R212). -/

namespace Sys2Proof.Machine

/-- The answer an owner gives: its status and its payload. -/
structure Reply where
  status : Status
  payload : List Byte
  deriving DecidableEq, Repr

/-- A request refused by its owner: every block as it was (R201), and no payload (R199). -/
def refuse (st : Status) (s : State) : State × Reply := (s, ⟨st, []⟩)

/-- A request taken by its owner. -/
def accept (s : State) (payload : List Byte) : State × Reply := (s, ⟨.ok, payload⟩)

/-- The classes a request is permitted to (R202). ABSENT is permitted none (R201, check 1). -/
def permitted (r : Req) (c : StationClass) : Bool :=
  match c with
  | .supervisor => true
  | .safety =>
      match r with
      | .setStationClass | .setAttentionMask | .setWatchdog | .readEvents | .restart | .setStandard | .setAnchors
      | .setFlightBox | .setPayout | .corrWindow | .corrWrite | .corrRead | .setLimits | .enable | .disable
      | .portControl | .setAbility | .portTest | .portClear | .setPortLimits => false
      | _ => true
  | .pilot =>
      match r with
      | .setStationClass | .setAttentionMask | .setWatchdog | .readEvents | .restart | .setStandard | .setAnchors
      | .setFlightBox | .setPayout | .corrWindow | .corrWrite | .corrRead | .setLimits | .enable | .disable
      | .portControl | .setAbility | .portTest | .portClear | .setPortLimits | .zoneClear | .preempt
      | .clearStop => false
      | _ => true
  | .viewer =>
      match r with
      | .readStatus | .readMotion | .readGeometry | .readLimits | .readPeriod | .readStop | .readAuthority | .cueRead
      | .markRead | .portRead | .zoneLookup | .zoneFind | .zoneList => true
      | _ => false
  | .absent => false

/-- A good frame is taken: the silence counter becomes 0, whatever the answer will be (R206). -/
def takeFrame (s : State) : State := { s with station := { s.station with silence := 0 } }

/-- The answer is formed and stays in service until its last byte has been sent (R199). It echoes the station and the
request code. -/
def answer (st code : Nat) (r : Reply) (s : State) : State :=
  { s with station :=
      { s.station with inService := some { station := st, code := code, status := r.status, payload := r.payload } } }

/-- A request of a known code and the right length is taken: the class check, then the owner (R199, R201). `own` is the
owner's part; it is given the sender's class as it stands now (R200). Nothing is taken while RESET is asserted (R196). -/
def request (r : Req) (st : Nat) (s : State) (own : StationClass → State → State × Reply) : Result :=
  if s.resetHeld then .next s
  else if permitted r (classOf s st) then
    .next (answer st r.code (own (classOf s st) (takeFrame s)).2 (own (classOf s st) (takeFrame s)).1)
  else .next (answer st r.code ⟨.notPermitted, []⟩ (takeFrame s))

/-- A frame the Station Port itself refuses: taken and answered, and every block as it was (R201). -/
def refuseFrame (st code : Nat) (why : Status) (s : State) : State := answer st code ⟨why, []⟩ (takeFrame s)

/-- The bytes of a request frame: sync, length, station, code, parameters and CRC, high byte first (R196, 10.2). -/
def requestFrame (st code : Nat) (ps : List Byte) : List Byte :=
  let body := byte (2 + ps.length) ++ byte st ++ byte code ++ ps
  0x5C#8 :: (body ++ beBytes 2 (crc body))

/-- The bytes of the answer in service: sync, length, station, code, status, payload and CRC, high byte first (R196,
10.2). -/
def Service.frame (v : Service) : List Byte :=
  let body := byte (3 + v.payload.length) ++ byte v.station ++ byte v.code ++ byte v.status.code ++ v.payload
  0x5C#8 :: (body ++ beBytes 2 (crc body))

end Sys2Proof.Machine
end

