-- ==== Sys2Proof/Machine/Control.lean ====
section
/-! DEFINITION. The shared transitions that cross blocks: changes of the motion mode, the halt, failure, completion and
start of a cue, the flush of the stick, the end of authority, and the raising of a stop cause with what the Motion
Generator does on it. -/

namespace Sys2Proof.Machine

/-! ## Motion mode -/

/-- The motion mode becomes `m`. -/
def setMode (m : Mode) (s : State) : State := { s with motion := { s.motion with mode := m } }

/-- A transition into HOLD: it gives EVICT instead when O is not empty at that moment (R37). -/
def enterHold (s : State) : State := setMode (if anyOccupied s then .evict else .hold) s

/-- The record with its occupied flag no (R15). -/
def Zone.vacate (z : Zone) : Zone := { z with occupied := false }

/-- Every occupied flag becomes no (R15). -/
def emptyOccupied (air : List Slot) : List Slot := air.map (fun sl => { sl with zone := sl.zone.map Zone.vacate })

/-- The mode becomes SAFE: P is not valid, O is empty (R15), the exit target is absent, and a computation in flight is
discarded (R38, R41, R67). -/
def becomeSafe (s : State) : State :=
  { s with
    air := emptyOccupied s.air
    motion := { s.motion with mode := .safe, p := none, exit := none, trapped := false, flight := none } }

/-! ## Stick and authority -/

/-- A flush of the stick buffer (R126). The overrun count stays. -/
def flush (a : Authority) : Authority :=
  { a with buffer := [], filling := true, lastDemand := none, miss := 0, stale := false }

/-- A flush, on the whole state. -/
def flushStick (s : State) : State := { s with auth := flush s.auth }

/-- The authority record with no holder, the ex-holder's backoff 2 and the buffer flushed (R117). -/
def Authority.vacate (a : Authority) : Authority :=
  flush { a with
    holder := none, explicit := false, cue := false
    backoff := match a.holder with
      | some st => a.backoff.set st 2
      | none => a.backoff }

/-- Authority ends (R117): no holder, backoff 2, the buffer flushed, STICK becomes HOLD (or EVICT), AUTHORITY raised. -/
def endAuthority (s : State) : State :=
  let s1 := { s with auth := s.auth.vacate }
  raiseEvent .authority (if s.motion.mode = .stick then enterHold s1 else s1)

/-- The holder's CUE basis clears; if EXPLICIT is clear too, authority ends (R117). -/
def clearCueBasis (s : State) : State :=
  if s.auth.holder.isNone then s
  else if s.auth.explicit then { s with auth := { s.auth with cue := false } }
  else endAuthority { s with auth := { s.auth with cue := false } }

/-- The station becomes holder (R111): EXPLICIT set, CUE clear, out of the pending set, backoff 0. -/
def Authority.become (a : Authority) (st : Nat) : Authority :=
  { a with holder := some st, explicit := true, cue := false, pending := a.pending.filter (· != st)
           backoff := a.backoff.set st 0 }

/-! ## Cues -/

/-- The running-cue copy is lost, the running flag is no, and a computation in flight makes no cue checks at its commit
(R36, R38, R102). -/
def dropCopy (s : State) : State :=
  { s with
    motion := { s.motion with copy := none, flight := s.motion.flight.map (fun c => { c with cueLive := false }) }
    cue := { s.cue with running := false } }

/-- A running cue halts: its entry stays at the head and the CUE basis clears (R102). -/
def haltCue (s : State) : State := clearCueBasis (dropCopy s)

/-- A holder loses authority with no claim on what follows: the effects of R118 and R119 short of a new holder. -/
def loseAuthority (s : State) : State :=
  let s1 := if s.motion.mode = .cue then dropCopy s else s
  let s2 := { s1 with auth := s1.auth.vacate }
  if s.motion.mode = .cue ∨ s.motion.mode = .stick then enterHold s2 else s2

/-- The cue list's entries become `rest`, a removal: CUE_WANT is raised when the count falls from W or more to below W
(R106). -/
def removeTo (rest : List CueEntry) (s : State) : State :=
  raiseIf (decide (s.cue.window ≤ s.cue.entries.length ∧ rest.length < s.cue.window)) .cueWant
    { s with cue := { s.cue with entries := rest } }

/-- The mark number of the head entry; 0 for an empty list, which no caller has. -/
def headMark (s : State) : Nat := (s.cue.entries.head?.map CueEntry.mark).getD 0

/-- The head entry fails (R62, R101): it is removed, the failure record is written, CUE_FAILED is raised, the copy is
lost, the CUE basis clears, and the mode is HOLD, or EVICT when O is not empty. -/
def failHead (why : FailReason) (s : State) : State :=
  let s1 := removeTo s.cue.entries.tail s
  let s2 := raiseEvent .cueFailed
    { s1 with cue := { s1.cue with running := false, failure := some { reason := why, mark := headMark s } } }
  enterHold (clearCueBasis (dropCopy s2))

/-- The target lies outside the flight box, or inside the guarded box of an ACTIVE keep-out among `zones` (R61). -/
def unreachable (flightBox : Box) (standoff : Nat) (zones : List Zone) (target : Vec3) : Bool :=
  !flightBox.has target || zones.any (fun z => z.activeKeepOut && (z.guarded standoff).has target)

/-- The position of a mark in µm as it stands now (R57). An entry names a SET mark (R96); a FREE one, which no run
reaches, counts as the origin (log 16). -/
def markTarget (s : State) (mark : Nat) : Vec3 := (((s.marks.getD mark none).map Mark.pos).getD zero3).um

/-- P, with the origin standing for a P that is not valid, which no caller meets (log 16). -/
def heldP (s : State) : Vec3 := s.motion.p.getD zero3

/-- The running-cue copy of an entry (R57): the mark as it stands now, the cruise converted, the cue default for 0. -/
def copyOf (s : State) (e : CueEntry) : CueCopy :=
  { target := markTarget s e.mark
    cruise := if e.cruise = 0 then s.motion.lim.cueDefault else speedPer s.period.configured e.cruise
    dwell := e.dwell, dwellLeft := none, lastD := ((markTarget s e.mark).minus (heldP s)).norm, noProgress := 0 }

/-- The head entry starts (R57, R99): the copy is taken and the start check made; it runs and the mode is CUE, or it
fails UNREACHABLE. An empty list starts nothing. -/
def startHead (s : State) : State :=
  match s.cue.entries with
  | [] => s
  | e :: _ =>
    if unreachable s.span.flightBox s.motion.lim.standoff (liveZones s.air) (markTarget s e.mark) then
      failHead .unreachable s
    else
      { s with motion := { s.motion with mode := .cue, copy := some (copyOf s e) }, cue := { s.cue with running := true } }

/-- The running cue completes at a commit (R59, R100): the entry is removed and CUE_DONE raised; then the cue ends, or
the next entry starts. -/
def completeCue (s : State) : State :=
  match s.cue.entries with
  | [] => enterHold (clearCueBasis (dropCopy s))
  | e :: rest =>
    let s1 := raiseEvent .cueDone (dropCopy (removeTo rest s))
    if e.haltAfter || rest.isEmpty then enterHold (clearCueBasis s1) else startHead s1

/-! ## Stops -/

/-- STOPPED/BRAKED: P frozen where the last commit left it, v_old zero, a computation in flight discarded (R38, R66). -/
def freeze (s : State) : State :=
  { s with motion := { s.motion with mode := .stopped .braked, vOld := zero3, flight := none } }

/-- A steered mode is left for a stop (R63): a running cue halts, the stick is flushed, an eviction is broken off, and
the mode becomes STOPPING, or STOPPED/BRAKED for BRAKE. -/
def leaveSteered (kind : StopKind) (s : State) : State :=
  let s1 := { s with motion := { s.motion with exit := none, trapped := false } }
  let s2 := if kind = .brake then freeze s1 else setMode .stopping s1
  flushStick (if s.motion.mode = .cue then haltCue s2 else s2)

/-- What the Motion Generator does on the report of a new kind in force (R63, R65, R66). -/
def reportKind (kind : StopKind) (s : State) : State :=
  match s.motion.mode with
  | .hold | .stick | .cue | .evict => leaveSteered kind s
  | .stopping | .stopped .held => if kind = .brake then freeze s else s
  | .safe | .stopped .braked => s

/-- The kind in force after a cause of a kind, by the mode (R167). -/
def kindAfter (m : Mode) (inForce cause : StopKind) : StopKind :=
  match m with
  | .hold | .stick | .cue | .evict | .stopping | .stopped .held => inForce.harsher cause
  | .safe | .stopped .braked => inForce

/-- The set, the first cause, the attribution and the requested kind after a raising (R166, steps 1 to 4). -/
def StopUnit.join (u : StopUnit) (c : Cause) (port : Option Nat) (asked : StopKind) : StopUnit :=
  { u with
    causes := u.causes ||| BitVec.twoPow 8 c.bit
    first := if u.causes = 0#8 then some { cause := c, port := port } else u.first
    attribution := match port with
      | some p => u.attribution.join c p
      | none => u.attribution
    requested :=
      if c = .operator then (if u.has .operator then u.requested.harsher asked else asked) else u.requested }

/-- A cause is raised (R166, R167): it joins the set, the kind in force is worked out by the mode, a new kind is
reported to the Motion Generator, and STOP is raised when the set or the kind changed. `port` is the raising port of a
port cause; `asked` is the kind an OPERATOR cause asks for. -/
def raiseCause (c : Cause) (port : Option Nat) (asked : StopKind) (s : State) : State :=
  let u := s.stop.join c port asked
  let kind := kindAfter s.motion.mode s.stop.kind (c.kind u.requested)
  let s1 := { s with stop := { u with kind := kind } }
  raiseIf (!s.stop.has c || kind != s.stop.kind) .stop (if kind = s.stop.kind then s1 else reportKind kind s1)

/-- A port raises one of its causes. -/
def raisePortCause (c : Cause) (port : Nat) (s : State) : State := raiseCause c (some port) .none s

end Sys2Proof.Machine
end

