-- ==== Sys2Proof/Machine/Arbiter.lean ====
section
/-! DEFINITION. The Authority Arbiter (05): the claim decision, the stick buffer with the shaping of a sample, and the
requests. The end and the change of authority are in Control.lean. -/

namespace Sys2Proof.Machine

/-! ## The claim decision (R115) -/

/-- The lowest-numbered pending station with backoff 0. The pending set is kept in rising order. -/
def eligible (a : Authority) : Option Nat := a.pending.find? (fun st => a.backoff.getD st 0 == 0)

/-- The claim decision: with no holder, the eligible station becomes holder and AUTHORITY is raised (R115). -/
def claimDecision (s : State) : State :=
  match s.auth.holder, eligible s.auth with
  | none, some st => raiseEvent .authority { s with auth := s.auth.become st }
  | _, _ => s

/-- Every backoff that is not 0 counted down by one (R115). -/
def countBackoffs (s : State) : State := { s with auth := { s.auth with backoff := s.auth.backoff.map (· - 1) } }

/-! ## Shaping (R127, R128) -/

/-- The deflections oriented: SWAP, then MIRROR_X, then MIRROR_Y (R127). -/
def orient (a : Authority) (d : Vec3) : Vec3 :=
  let x := if a.swap then d.y else d.x
  let y := if a.swap then d.x else d.y
  ⟨if a.mirrorX then -x else x, if a.mirrorY then -y else y, d.z⟩

/-- One oriented deflection shaped into a velocity (R128). -/
def shape (deadband vmax scale : Nat) (d : Int) : Int :=
  if d.natAbs ≤ deadband then 0
  else
    let m : Int := ((d.natAbs - deadband) * vmax * scale / ((1000 - deadband) * 100) : Nat)
    if d < 0 then -m else m

/-- A consumed sample oriented and shaped; zero on every axis with the deadman clear (R128). -/
def shapeSample (a : Authority) (lim : Limits) (q : Sample) : Vec3 :=
  if q.deadman then
    let d := orient a q.deflection
    ⟨shape a.deadband lim.vh q.scale d.x, shape a.deadband lim.vh q.scale d.y, shape a.deadband lim.vz q.scale d.z⟩
  else zero3

/-! ## Consumption (R124, R125) -/

/-- The sample consumed at this expiry, none at a miss (R124). -/
def consumes (a : Authority) : Option Sample :=
  if a.filling && decide (a.buffer.length < a.start) then none else a.buffer.head?

/-- A sample is consumed (R124). -/
def consumeStep (lim : Limits) (q : Sample) (a : Authority) : Authority :=
  { a with buffer := a.buffer.tail, filling := false, lastDemand := some (shapeSample a lim q), miss := 0, stale := false }

/-- The miss count at a miss: it stops at the stick hold plus one (R125). -/
def nextMiss (a : Authority) : Nat := if a.miss ≤ a.hold then a.miss + 1 else a.miss

/-- No sample is consumed (R124, R125): a miss is counted, and past the hold the staleness episode stands. -/
def missStep (a : Authority) : Authority :=
  { a with filling := true, miss := nextMiss a, stale := a.stale || decide (a.hold < nextMiss a) }

/-- The Arbiter's work on the stick at an expiry in STICK (R124, R125). -/
def stickStep (s : State) : State :=
  if s.motion.mode = .stick then
    match consumes s.auth with
    | some q => { s with auth := consumeStep s.motion.lim q s.auth }
    | none =>
      raiseIf (!s.auth.stale && decide (s.auth.hold < nextMiss s.auth)) .stickStale
        { s with auth := missStep s.auth }
  else s

/-- The Arbiter's work at a period expiry. -/
def arbiterExpiry (s : State) : State := stickStep (claimDecision (countBackoffs s))

/-! ## The requests -/

/-- A station joins the pending set, kept in rising order. -/
def joinPending (st : Nat) (ps : List Nat) : List Nat := ps.filter (· < st) ++ st :: ps.filter (st < ·)

/-- CLAIM (R113). The outcome is HOLDER 0 or PENDING 1. -/
def claim (st : Nat) (s : State) : State × Reply :=
  if holds s st then accept { s with auth := { s.auth with explicit := true } } (byte 0)
  else if s.auth.pending.contains st then accept s (byte 1)
  else if 7 ≤ s.auth.pending.length then refuse .noRoom s
  else accept { s with auth := { s.auth with pending := joinPending st s.auth.pending } } (byte 1)

/-- WITHDRAW (R114). -/
def withdraw (st : Nat) (s : State) : State × Reply :=
  accept { s with auth := { s.auth with pending := s.auth.pending.filter (· != st) } }
    (boolByte (s.auth.pending.contains st))

/-- RELEASE (R116, R117). The outcome is ENDED 0 or KEPT 1. -/
def release (st : Nat) (s : State) : State × Reply :=
  if !holds s st then refuse .notHolder s
  else if s.auth.cue then accept { s with auth := { s.auth with explicit := false } } (byte 1)
  else accept (endAuthority { s with auth := { s.auth with explicit := false } }) (byte 0)

/-- The state after a PREEMPT (R118). -/
def preempted (st : Nat) (s : State) : State :=
  if holds s st then { s with auth := { s.auth with explicit := true } }
  else
    let t := if s.auth.holder.isSome then loseAuthority s else s
    raiseEvent .authority { t with auth := t.auth.become st }

/-- PREEMPT (R118). -/
def preempt (st : Nat) (s : State) : State × Reply := accept (preempted st s) (stationByte s.auth.holder)

/-- The mode side of SELECT_MODE in HOLD, STICK and CUE (R36, R121). -/
def selected (toStick : Bool) (st : Nat) (s : State) : State :=
  match s.motion.mode with
  | .hold => if toStick then setMode .stick s else s
  | .stick => if toStick then s else enterHold (flushStick s)
  | .cue =>
    let t := haltCue s
    if toStick && holds t st then setMode .stick t else enterHold t
  | .safe | .evict | .stopping | .stopped _ => s

/-- SELECT_MODE (R36, R121). The mode is checked before the value, as the text has it (log 12). -/
def selectMode (mode : Nat) (st : Nat) (s : State) : State × Reply :=
  if !holds s st then refuse .notHolder s
  else if s.motion.mode ≠ .hold ∧ s.motion.mode ≠ .stick ∧ s.motion.mode ≠ .cue then refuse .wrongState s
  else
    match selectedStick mode with
    | none => refuse .badParam s
    | some toStick =>
      let t := selected toStick st s
      accept t (byte t.motion.mode.code ++ boolByte (holds t st))

/-- A sample with its values clamped (R122). -/
def sampleOf (d : Vec3) (scale flags : Nat) : Sample :=
  { deflection := ⟨clamp d.x (-1000) 1000, clamp d.y (-1000) 1000, clamp d.z (-1000) 1000⟩, scale := min scale 100
    deadman := flags == 1 }

/-- A sample taken into the buffer; a full one drops its oldest and counts an overrun (R123). -/
def buffered (q : Sample) (a : Authority) : Authority :=
  if a.buffer.length < 4 then { a with buffer := a.buffer ++ [q] }
  else { a with buffer := a.buffer.tail ++ [q], overrun := saturate a.overrun 255 }

/-- STICK (R122, R123). -/
def stick (d : Vec3) (scale flags : Nat) (st : Nat) (s : State) : State × Reply :=
  if !holds s st then refuse .notHolder s
  else if s.motion.mode ≠ .stick then refuse .wrongState s
  else if 1 < flags then refuse .badParam s
  else
    let a := buffered (sampleOf d scale flags) s.auth
    accept { s with auth := a }
      (byte a.buffer.length ++ boolByte (decide (4 ≤ s.auth.buffer.length)) ++ byte a.overrun)

/-- SET_ORIENTATION and SET_STICK are taken from the holder and from SUPERVISOR (R112). -/
def maySet (c : StationClass) (st : Nat) (s : State) : Bool := holds s st || c == .supervisor

/-- SET_ORIENTATION (R127). -/
def setOrientation (flags : Nat) (st : Nat) (c : StationClass) (s : State) : State × Reply :=
  if !maySet c st s then refuse .notHolder s
  else if 8 ≤ flags then refuse .badParam s
  else
    let a := { s.auth with swap := flags.testBit 0, mirrorX := flags.testBit 1, mirrorY := flags.testBit 2 }
    accept { s with auth := a } (orientationByte a)

/-- END_SWAP (R127). -/
def endSwap (st : Nat) (s : State) : State × Reply :=
  if !holds s st then refuse .notHolder s
  else
    let a := { s.auth with mirrorX := !s.auth.mirrorX, mirrorY := !s.auth.mirrorY }
    accept { s with auth := a } (orientationByte a)

/-- SET_STICK (R129). -/
def setStick (start hold deadband : Nat) (st : Nat) (c : StationClass) (s : State) : State × Reply :=
  if !maySet c st s then refuse .notHolder s
  else
    let a := { s.auth with
      start := clampNat start 1 3, hold := clampNat hold 1 250, deadband := clampNat deadband 0 200 }
    accept { s with auth := a } (byte a.start ++ byte a.hold ++ byte a.deadband)

/-- What READ_AUTHORITY returns, in the order of R130; last, whether the clear option was applied (log 10). -/
def authorityBytes (a : Authority) (applied : Bool) : List Byte :=
  stationByte a.holder ++ basisByte a ++ countedList (a.pending.map byte) ++ a.backoff.flatMap byte
    ++ byte a.buffer.length ++ boolByte a.filling ++ byte a.miss ++ boolByte a.stale ++ byte a.overrun
    ++ byte a.start ++ byte a.hold ++ byte a.deadband ++ orientationByte a ++ boolByte applied

/-- READ_AUTHORITY (R130). -/
def readAuthority (clear : Nat) (st : Nat) (c : StationClass) (s : State) : State × Reply :=
  match yesNo clear with
  | none => refuse .badParam s
  | some asked =>
    let applied := asked && maySet c st s
    accept (if applied then { s with auth := { s.auth with overrun := 0 } } else s) (authorityBytes s.auth applied)

/-- What the Arbiter does when a station is given the class VIEWER or ABSENT (R119). -/
def classLoss (st : Nat) (s : State) : State :=
  if holds s st then raiseEvent .authority (loseAuthority s)
  else { s with auth := { s.auth with pending := s.auth.pending.filter (· != st) } }

/-! ## Meanings -/

/-- BACKOFF_EXPIRY: a station's backoff reaches 0 and the claim decision follows (R115, log 5). -/
def execBackoffExpiry (station : Nat) (s : State) : Result :=
  .next (unlessHeld s fun t =>
    if t.auth.backoff.getD station 0 = 1 then
      claimDecision { t with auth := { t.auth with backoff := t.auth.backoff.set station 0 } }
    else t)

/-- STICK_HOLD_EXPIRY: a miss takes the miss count past the stick hold (R125, log 5). -/
def execStickHoldExpiry (s : State) : Result :=
  .next (unlessHeld s fun t =>
    if !t.auth.stale && decide (t.auth.hold < nextMiss t.auth) && (consumes t.auth).isNone then stickStep t else t)

/-- CLAIM. -/
def execClaim (st : Nat) (s : State) : Result := request .claim st s (fun _ t => claim st t)

/-- WITHDRAW. -/
def execWithdraw (st : Nat) (s : State) : Result := request .withdraw st s (fun _ t => withdraw st t)

/-- RELEASE. -/
def execRelease (st : Nat) (s : State) : Result := request .release st s (fun _ t => release st t)

/-- PREEMPT. -/
def execPreempt (st : Nat) (s : State) : Result := request .preempt st s (fun _ t => preempt st t)

/-- SELECT_MODE. -/
def execSelectMode (st mode : Nat) (s : State) : Result := request .selectMode st s (fun _ t => selectMode mode st t)

/-- STICK. -/
def execStick (st : Nat) (deflection : Vec3) (scale flags : Nat) (s : State) : Result :=
  request .stick st s (fun _ t => stick deflection scale flags st t)

/-- SET_ORIENTATION. -/
def execSetOrientation (st flags : Nat) (s : State) : Result := request .setOrientation st s (setOrientation flags st)

/-- END_SWAP. -/
def execEndSwap (st : Nat) (s : State) : Result := request .endSwap st s (fun _ t => endSwap st t)

/-- SET_STICK. -/
def execSetStick (st start hold deadband : Nat) (s : State) : Result :=
  request .setStick st s (setStick start hold deadband st)

/-- READ_AUTHORITY. -/
def execReadAuthority (st clear : Nat) (s : State) : Result := request .readAuthority st s (readAuthority clear st)

end Sys2Proof.Machine
end

