-- ==== Sys2Proof/Machine/Cues.lean ====
section
/-! DEFINITION. The Mark Store and Cue List (04): its requests. The starting, completing, failing and halting of a cue
are in Control.lean. -/

namespace Sys2Proof.Machine

/-! ## Marks -/

/-- The SET mark of a number, none for a FREE one. -/
def markAt (s : State) (n : Nat) : Option Mark := s.marks.getD n none

/-- How many entries of the cue list name the mark (R94). -/
def entriesNaming (s : State) (n : Nat) : Nat := s.cue.entries.countP (fun e => e.mark == n)

/-- MARK_SET's third check: the position in range and inside the flight box, the label at most 12 bytes (R91). -/
def markPlaceOk (s : State) (pos : Vec3) (label : List Byte) : Bool :=
  inRange pos && s.span.flightBox.has pos.um && decide (label.length ≤ 12)

/-- MARK_SET (R91, R92). -/
def markSet (n : Nat) (pos : Vec3) (label : List Byte) (st : Nat) (c : StationClass) (s : State) : State × Reply :=
  if 31 < n then refuse .badParam s
  else
    match markAt s n with
    | none =>
      if !markPlaceOk s pos label then refuse .badParam s
      else accept { s with marks := s.marks.set n (some { pos := pos, label := label, owner := st }) } (byte 0)
    | some m =>
      if c = .pilot ∧ m.owner ≠ st then refuse .notOwner s
      else if !markPlaceOk s pos label then refuse .badParam s
      else accept { s with marks := s.marks.set n (some { pos := pos, label := label, owner := m.owner }) } (byte 1)

/-- MARK_RETIRE (R93). -/
def markRetire (n : Nat) (st : Nat) (c : StationClass) (s : State) : State × Reply :=
  if 31 < n then refuse .badParam s
  else
    match markAt s n with
    | none => refuse .wrongState s
    | some m =>
      if c = .pilot ∧ m.owner ≠ st then refuse .notOwner s
      else if entriesNaming s n ≠ 0 then refuse .inUse s
      else accept { s with marks := s.marks.set n none } []

/-- What MARK_READ returns (R94, 10.6). -/
def markBytes (s : State) (n : Nat) : List Byte :=
  match markAt s n with
  | none => byte n ++ byte 0
  | some m =>
    byte n ++ byte 1 ++ posBytes m.pos ++ byte m.owner ++ boolByte (s.span.flightBox.has m.pos.um)
      ++ byte (entriesNaming s n) ++ labelBytes m.label

/-- MARK_READ (R94). -/
def markRead (n : Nat) (s : State) : State × Reply := if 31 < n then refuse .badParam s else accept s (markBytes s n)

/-! ## The cue list -/

/-- The cruise as CUE_APPEND stores it: at most the vh setting in force (R97). -/
def storedCruise (s : State) (cruise : Nat) : Nat := min cruise s.span.settings.vh

/-- CUE_APPEND (R97). -/
def cueAppend (n cruise dwell flags : Nat) (st : Nat) (s : State) : State × Reply :=
  if !holds s st then refuse .notHolder s
  else if 31 < n ∨ (markAt s n).isNone ∨ 1 < flags then refuse .badParam s
  else if 16 ≤ s.cue.entries.length then refuse .noRoom s
  else
    let e : CueEntry := { mark := n, cruise := storedCruise s cruise, dwell := dwell, haltAfter := flags == 1 }
    let t := { s with cue := { s.cue with entries := s.cue.entries ++ [e] } }
    accept t (byte s.cue.entries.length ++ byte t.cue.entries.length ++ boolByte (windowFlag t.cue))

/-- The holder's CUE basis is set (R98). -/
def setCueBasis (s : State) : State := { s with auth := { s.auth with cue := true } }

/-- The start of the head entry by CUE_GO: leaving STICK flushes the buffer, whatever the outcome (R98, R99). From
STICK a failed start leaves HOLD or EVICT, so the mode passes through HOLD. -/
def goHead (s : State) : State :=
  let s1 := if s.motion.mode = .stick then flushStick (setMode .hold s) else s
  startHead (setCueBasis s1)

/-- CUE_GO (R98). The outcome byte is RUNNING 0 or FAILED 1. -/
def cueGo (st : Nat) (s : State) : State × Reply :=
  if !holds s st then refuse .notHolder s
  else if s.motion.mode ≠ .hold ∧ s.motion.mode ≠ .stick then refuse .wrongState s
  else if s.cue.entries.isEmpty then refuse .empty s
  else
    let t := goHead s
    accept t (boolByte (t.motion.mode != .cue))

/-- CUE_HALT and CUE_FLUSH are taken from the holder and from SAFETY (R103, R104). -/
def mayHalt (c : StationClass) (st : Nat) (s : State) : Bool := holds s st || c == .safety

/-- The running cue of mode CUE halts and the mode becomes HOLD, or EVICT; in another mode nothing (R36, R103). -/
def haltIfRunning (s : State) : State := if s.motion.mode = .cue then enterHold (haltCue s) else s

/-- CUE_HALT (R103). -/
def cueHalt (st : Nat) (c : StationClass) (s : State) : State × Reply :=
  if !mayHalt c st s then refuse .notHolder s
  else accept (haltIfRunning s) (boolByte (s.motion.mode == .cue))

/-- CUE_FLUSH (R104). -/
def cueFlush (st : Nat) (c : StationClass) (s : State) : State × Reply :=
  if !mayHalt c st s then refuse .notHolder s
  else
    let t := removeTo [] (haltIfRunning s)
    accept { t with cue := { t.cue with failure := none } } (byte s.cue.entries.length)

/-- An entry as CUE_READ returns it (R105). -/
def entryBytes (e : CueEntry) : List Byte :=
  byte e.mark ++ beBytes 2 e.cruise ++ beBytes 2 e.dwell ++ boolByte e.haltAfter

/-- The failure record: whether it is present, its reason, absent 0, and its mark number (R105, R212, log 10). -/
def failureBytes : Option Failure → List Byte
  | none => boolByte false ++ byte 0 ++ byte 0
  | some f => boolByte true ++ byte f.reason.code ++ byte f.mark

/-- What CUE_READ returns, in the order of R105 (log 10). -/
def cueBytes (c : CueList) : List Byte :=
  byte c.entries.length ++ byte c.window ++ boolByte (windowFlag c) ++ countedList (c.entries.map entryBytes)
    ++ boolByte c.running ++ failureBytes c.failure

/-- CUE_READ (R105). DESIGN CHOICE (log 34), unsafe: while a computation is in flight, the list is as it stands, also where
the beginning of that computation failed or halted the running cue. -/
def cueRead (s : State) : State × Reply := accept s (cueBytes s.cue)

/-- SET_CUE_WINDOW (R107). -/
def setCueWindow (w : Nat) (s : State) : State × Reply :=
  let t := { s with cue := { s.cue with window := clampNat w 1 16 } }
  accept t (byte t.cue.window ++ byte t.cue.entries.length ++ boolByte (windowFlag t.cue))

/-! ## Meanings -/

/-- MARK_SET. -/
def execMarkSet (st mark : Nat) (pos : Vec3) (label : List Byte) (s : State) : Result :=
  request .markSet st s (markSet mark pos label st)

/-- MARK_RETIRE. -/
def execMarkRetire (st mark : Nat) (s : State) : Result := request .markRetire st s (markRetire mark st)

/-- MARK_READ. -/
def execMarkRead (st mark : Nat) (s : State) : Result := request .markRead st s (fun _ t => markRead mark t)

/-- CUE_APPEND. -/
def execCueAppend (st mark cruise dwell flags : Nat) (s : State) : Result :=
  request .cueAppend st s (fun _ t => cueAppend mark cruise dwell flags st t)

/-- CUE_GO. -/
def execCueGo (st : Nat) (s : State) : Result := request .cueGo st s (fun _ t => cueGo st t)

/-- CUE_HALT. -/
def execCueHalt (st : Nat) (s : State) : Result := request .cueHalt st s (cueHalt st)

/-- CUE_FLUSH. -/
def execCueFlush (st : Nat) (s : State) : Result := request .cueFlush st s (cueFlush st)

/-- CUE_READ. -/
def execCueRead (st : Nat) (s : State) : Result := request .cueRead st s (fun _ t => cueRead t)

/-- SET_CUE_WINDOW. -/
def execSetCueWindow (st w : Nat) (s : State) : Result := request .setCueWindow st s (fun _ t => setCueWindow w t)

end Sys2Proof.Machine
end

