-- ==== Sys2Proof/Machine/Airspace.lean ====
section
/-! DEFINITION. The Airspace Table (01): slots and handles, activation, the zone requests, and the table's own work at
an expiry and at a commit. -/

namespace Sys2Proof.Machine

/-! ## Slots and handles -/

/-- A record retired: its slot free and the slot's generation advanced, from 255 to 0 (R22). -/
def Slot.retire (sl : Slot) : Slot := { generation := (sl.generation + 1) % 256, zone := none }

/-- The live record a handle names: its slot is live and holds the handle's generation (R4). -/
def zoneNamed (air : List Slot) (handle : Nat) : Option Zone :=
  match air[handle / 256]? with
  | some sl => if sl.generation = handle % 256 then sl.zone else none
  | none => none

/-- Replaces the record of a slot, its generation kept. -/
def putZone (air : List Slot) (slot : Nat) (z : Zone) : List Slot := air.modify slot (fun sl => { sl with zone := some z })

/-- The lowest-numbered free slot (R17). -/
def lowestFree (air : List Slot) : Option Nat := air.findIdx? (fun sl => sl.zone.isNone)

/-- A table with a record written, on the whole state. -/
def withZone (s : State) (slot : Nat) (z : Zone) : State := { s with air := putZone s.air slot z }

/-! ## Activation (R12) -/

/-- P lies inside the zone's guarded box (R12); a P that is not valid lies in none. -/
def insideGuarded (standoff : Nat) (p : Option Vec3) (z : Zone) : Bool :=
  match p with
  | some q => (z.guarded standoff).has q
  | none => false

/-- The zone ACTIVE with the occupied flag given, its clear count dropped. -/
def Zone.activated (z : Zone) (occ : Bool) : Zone :=
  { z with state := .active, occupied := occ, clear := 0, fresh := false, reboxed := false }

/-- The zone PENDING with clear count 0; its clear periods count from the next expiry on (R17, R25). -/
def Zone.heldBack (z : Zone) : Zone :=
  { z with state := .pending, occupied := false, clear := 0, fresh := true, reboxed := false }

/-- Activation decides a zone's state and occupied flag from its kind, its policy, the motion mode and P (R12). -/
def activate (m : Mode) (p : Option Vec3) (standoff : Nat) (z : Zone) : Zone :=
  match z.kind with
  | .slow => z.activated false
  | .keepOut =>
    let inside := insideGuarded standoff p z
    match m with
    | .safe => z.activated false
    | .stopped _ => z.activated inside
    | .stopping => if inside then z.heldBack else z.activated false
    | .hold | .stick | .cue | .evict =>
      if inside then
        match z.policy with
        | .evict => z.activated true
        | .defer => z.heldBack
      else z.activated false

/-- Activation in the state as it stands. -/
def activateIn (s : State) (z : Zone) : Zone := activate s.motion.mode s.motion.p s.motion.lim.standoff z

/-! ## Checks -/

/-- The owner and standing checks made of a PILOT that names a zone (R10, R11); none when they pass. -/
def pilotCheck (c : StationClass) (st : Nat) (z : Zone) : Option Status :=
  if c = .pilot then
    if z.owner ≠ st then some .notOwner else if z.standing then some .notPermitted else none
  else none

/-- A request that names a zone: the handle, then the owner and standing of a PILOT (R11, checks 1 to 3); then `own` is
given the record. -/
def onZone (c : StationClass) (st handle : Nat) (s : State) (own : Zone → State × Reply) : State × Reply :=
  match zoneNamed s.air handle with
  | none => refuse .staleHandle s
  | some z =>
    match pilotCheck c st z with
    | some why => refuse why s
    | none => own z

/-- The state and the occupied flag, as the answers of the zone requests carry them. -/
def zoneStateBytes (z : Zone) : List Byte := byte z.state.code ++ boolByte z.occupied

/-! ## The requests -/

/-- A lifetime parameter: 0 means absent (R9). -/
def lifetimeOf (n : Nat) : Option Nat := if n = 0 then none else some n

/-- ZONE_CREATE (R16, R17). -/
def createZone (kind : Nat) (box : Box) (initial policy standing cap lifetime : Nat) (label : List Byte) (st : Nat)
    (c : StationClass) (s : State) : State × Reply :=
  if c = .pilot ∧ standing = 1 then refuse .notPermitted s
  else
    match zoneKindOf kind, initialStateOf initial, policyOf policy, yesNo standing with
    | some k, some i, some pol, some std =>
      if !boxInRange box || decide (12 < label.length) then refuse .badParam s
      else
        match lowestFree s.air with
        | none => refuse .noRoom s
        | some slot =>
          let z : Zone :=
            { handle := slot * 256 + (s.air.getD slot freeSlot).generation, kind := k, box := box, state := i
              policy := pol, owner := st, standing := std
              cap := match k with
                | .slow => some (clampNat cap 100 12000)
                | .keepOut => none
              lifetime := lifetimeOf lifetime, label := label, occupied := false, clear := 0
              fresh := false, reboxed := false }
          let z' := if i = .active then activateIn s z else z
          accept (withZone s slot z') (handleBytes z'.handle ++ zoneStateBytes z')
    | _, _, _, _ => refuse .badParam s

/-- The changes of a ZONE_AMEND are such as the request may carry (R18, R211). -/
def amendOk (changes : Nat) (box : Box) (lifetime : Nat) (label : List Byte) (z : Zone) : Bool :=
  decide (changes < 32)
    && !(changes.testBit 0 && !boxInRange box)
    && !(changes.testBit 1 && z.kind == .keepOut)
    && !(changes.testBit 2 && changes.testBit 3)
    && !(changes.testBit 2 && lifetime == 0)
    && !(changes.testBit 4 && decide (12 < label.length))

/-- The record with the changes written (R19). -/
def amended (changes : Nat) (box : Box) (cap lifetime : Nat) (label : List Byte) (z : Zone) : Zone :=
  { z with
    box := if changes.testBit 0 then box else z.box
    cap := if changes.testBit 1 then some (clampNat cap 100 12000) else z.cap
    lifetime := if changes.testBit 2 then some lifetime else if changes.testBit 3 then none else z.lifetime
    label := if changes.testBit 4 then label else z.label }

/-- What an amended record does by its state and kind (R19). A PENDING one with a new box is not promoted by the next
expiry, at rest neither (R28, log 31). -/
def afterAmend (s : State) (newBox : Bool) (z : Zone) : Zone :=
  match z.state with
  | .active => if newBox && z.kind == .keepOut then activateIn s z else z
  | .pending => if newBox then { z with clear := 0, reboxed := true } else z
  | .suspended => z

/-- ZONE_AMEND (R18, R19). -/
def amendZone (handle changes : Nat) (box : Box) (cap lifetime : Nat) (label : List Byte) (st : Nat)
    (c : StationClass) (s : State) : State × Reply :=
  onZone c st handle s fun z =>
    if !amendOk changes box lifetime label z then refuse .badParam s
    else
      let z' := afterAmend s (changes.testBit 0) (amended changes box cap lifetime label z)
      accept (withZone s (handle / 256) z') (zoneStateBytes z')

/-- The zone SUSPENDED: out of O, its clear count dropped (R20). -/
def Zone.suspended (z : Zone) : Zone :=
  { z with state := .suspended, occupied := false, clear := 0, fresh := false, reboxed := false }

/-- ZONE_SUSPEND (R20). -/
def suspendZone (handle : Nat) (st : Nat) (c : StationClass) (s : State) : State × Reply :=
  onZone c st handle s fun z =>
    if z.state = .suspended then refuse .wrongState s
    else
      accept (withZone s (handle / 256) z.suspended) (byte ZoneState.suspended.code)

/-- The policy byte of a ZONE_RESUME: 0xFF keeps the policy the zone has (R21, 10.5). -/
def resumePolicy (policy : Nat) (z : Zone) : Option Policy := if policy = 255 then some z.policy else policyOf policy

/-- ZONE_RESUME (R21). -/
def resumeZone (handle policy : Nat) (st : Nat) (c : StationClass) (s : State) : State × Reply :=
  onZone c st handle s fun z =>
    match resumePolicy policy z with
    | none => refuse .badParam s
    | some pol =>
      if z.state ≠ .suspended then refuse .wrongState s
      else
        let z' := activateIn s { z with policy := pol }
        accept (withZone s (handle / 256) z') (zoneStateBytes z')

/-- ZONE_RETIRE (R22). -/
def retireZone (handle : Nat) (st : Nat) (c : StationClass) (s : State) : State × Reply :=
  onZone c st handle s fun _ => accept { s with air := s.air.modify (handle / 256) Slot.retire } []

/-- The slot holds a live record that is not standing (R23). -/
def Slot.clearable (sl : Slot) : Bool :=
  match sl.zone with
  | some z => !z.standing
  | none => false

/-- Every live record that is not standing retired (R23, R33). -/
def clearAir (air : List Slot) : List Slot := air.map (fun sl => if sl.clearable then sl.retire else sl)

/-- ZONE_CLEAR (R23). -/
def clearZones (s : State) : State × Reply :=
  accept { s with air := clearAir s.air } (byte (s.air.countP Slot.clearable))

/-- The record as ZONE_LOOKUP returns it (R29, 10.6). -/
def zoneRecord (z : Zone) : List Byte :=
  handleBytes z.handle ++ byte z.kind.code ++ boxBytes z.box ++ byte z.state.code ++ byte z.policy.code
    ++ byte z.owner
    ++ byte (z.standing.toNat + 2 * z.occupied.toNat + 4 * z.cap.isSome.toNat + 8 * z.lifetime.isSome.toNat)
    ++ optBytes 2 z.cap ++ optBytes 3 z.lifetime ++ labelBytes z.label

/-- ZONE_LOOKUP (R29). -/
def lookupZone (handle : Nat) (s : State) : State × Reply :=
  match zoneNamed s.air handle with
  | none => refuse .staleHandle s
  | some z => accept s (zoneRecord z)

/-- The handles of records, a count byte first (10.5). -/
def handleList (zs : List Zone) : List Byte := countedList (zs.map (fun z => handleBytes z.handle))

/-- ZONE_FIND (R30): the exact boxes, in mm. -/
def findZones (point : Vec3) (s : State) : State × Reply :=
  if !inRange point then refuse .badParam s
  else accept s (handleList ((liveZones s.air).filter (fun z => z.box.has point)))

/-- ZONE_LIST (R31). -/
def listZones (states owner : Nat) (s : State) : State × Reply :=
  if states = 0 ∨ 8 ≤ states ∨ (8 ≤ owner ∧ owner ≠ 255) then refuse .badParam s
  else
    accept s (handleList ((liveZones s.air).filter (fun z =>
      states.testBit z.state.code && (owner == 255 || z.owner == owner))))

/-! ## At a period expiry -/

/-- The record's lifetime reaches zero at the next count (R24). -/
def Slot.due (sl : Slot) : Bool :=
  match sl.zone with
  | some z => (match z.lifetime with
    | some n => decide (n ≤ 1)
    | none => false)
  | none => false

/-- One count of a slot's lifetime: a record whose count reaches zero is retired (R24). -/
def Slot.countDown (sl : Slot) : Slot :=
  if sl.due then sl.retire
  else { sl with zone := sl.zone.map (fun z => { z with lifetime := z.lifetime.map (· - 1) }) }

/-- The countdown of every lifetime in slot order, with ZONE_EXPIRED (R24). -/
def countLifetimes (s : State) : State :=
  raiseIf (s.air.any Slot.due) .zoneExpired { s with air := s.air.map Slot.countDown }

/-- The slot holds a PENDING record that an expiry at rest promotes: every one (R26), but for one amended with a new box
since the last expiry, which R28, row 4, leaves PENDING (DEDUCED, unsafe: log 31). -/
def Slot.restDue (sl : Slot) : Bool :=
  match sl.zone with
  | some z => z.state == .pending && !z.reboxed
  | none => false

/-- A record promoted at rest (R26): occupied in STOPPED when the held position lies inside. -/
def Slot.promoteAtRest (m : Mode) (p : Option Vec3) (standoff : Nat) (sl : Slot) : Slot :=
  if sl.restDue then
    { sl with zone := sl.zone.map (fun z =>
        z.activated (m.isStopped && z.kind == .keepOut && insideGuarded standoff p z)) }
  else sl

/-- The expiry that a PENDING zone, or its new box, was to wait for has come (R17, R25, R28, log 31). -/
def Zone.expirySeen (z : Zone) : Zone := { z with fresh := false, reboxed := false }

/-- No zone waits for an expiry any more. -/
def seeExpiry (air : List Slot) : List Slot := air.map (fun sl => { sl with zone := sl.zone.map Zone.expirySeen })

/-- In SAFE and in STOPPED every PENDING zone due for it is promoted at the expiry, with ZONE_ACTIVE (R26, R28). In every
mode the expiry ends the wait of the new PENDING zones and the new boxes. -/
def promoteAtRest (s : State) : State :=
  let t :=
    if s.motion.mode = .safe ∨ s.motion.mode.isStopped then
      raiseIf (s.air.any Slot.restDue) .zoneActive
        { s with air := s.air.map (Slot.promoteAtRest s.motion.mode s.motion.p s.motion.lim.standoff) }
    else s
  { t with air := seeExpiry t.air }

/-! ## At a commit -/

/-- The commit check of one record against the new P, by the mode in which the computation ran (R14). -/
def Zone.commitCheck (ran : Mode) (p : Vec3) (standoff : Nat) (z : Zone) : Zone :=
  if z.activeKeepOut then
    if !(z.guarded standoff).has p then { z with occupied := false }
    else if z.occupied then z
    else if ran = .stopping then z.heldBack
    else
      match z.policy with
      | .evict => { z with occupied := true }
      | .defer => z.heldBack
  else z

/-- The record is a PENDING keep-out whose clear periods count: a period expiry has come since it became PENDING, so the
earliest promotion is at the second (R17, R25). -/
def Zone.counting (z : Zone) : Bool := z.state == .pending && z.kind == .keepOut && !z.fresh

/-- The clear count of a PENDING keep-out stands at its last period and P lies outside: it is promoted (R25). -/
def Zone.promotes (p : Vec3) (standoff : Nat) (z : Zone) : Bool :=
  z.counting && !(z.guarded standoff).has p && z.clear == 1

/-- The promotion test of one record at a commit (R25). -/
def Zone.promoteStep (p : Vec3) (standoff : Nat) (z : Zone) : Zone :=
  if z.counting then
    if (z.guarded standoff).has p then { z with clear := 0 }
    else if z.clear = 1 then z.activated false
    else { z with clear := 1 }
  else z

/-- The table's work when a committed P is handed to it: the commit check (R14) and, after it, promotion (R25). A zone that
became PENDING while this computation was in flight is passed over, its counting begins at the next period expiry (R17). One
that was PENDING already and got a new box meanwhile is tested with its new box (DEDUCED, unsafe: log 30). -/
def tableCommit (ran : Mode) (p : Vec3) (s : State) : State :=
  let st := s.motion.lim.standoff
  let checked := s.air.map (fun sl => { sl with zone := sl.zone.map (Zone.commitCheck ran p st) })
  raiseIf ((liveZones checked).any (Zone.promotes p st)) .zoneActive
    { s with air := checked.map (fun sl => { sl with zone := sl.zone.map (Zone.promoteStep p st) }) }

/-! ## Meanings -/

/-- ZONE_CREATE. -/
def execZoneCreate (st kind : Nat) (box : Box) (initial policy standing cap lifetime : Nat) (label : List Byte)
    (s : State) : Result :=
  request .zoneCreate st s (createZone kind box initial policy standing cap lifetime label st)

/-- ZONE_AMEND. -/
def execZoneAmend (st handle changes : Nat) (box : Box) (cap lifetime : Nat) (label : List Byte) (s : State) : Result :=
  request .zoneAmend st s (amendZone handle changes box cap lifetime label st)

/-- ZONE_SUSPEND. -/
def execZoneSuspend (st handle : Nat) (s : State) : Result := request .zoneSuspend st s (suspendZone handle st)

/-- ZONE_RESUME. -/
def execZoneResume (st handle policy : Nat) (s : State) : Result :=
  request .zoneResume st s (resumeZone handle policy st)

/-- ZONE_RETIRE. -/
def execZoneRetire (st handle : Nat) (s : State) : Result := request .zoneRetire st s (retireZone handle st)

/-- ZONE_CLEAR. -/
def execZoneClear (st : Nat) (s : State) : Result := request .zoneClear st s (fun _ t => clearZones t)

/-- ZONE_LOOKUP. -/
def execZoneLookup (st handle : Nat) (s : State) : Result :=
  request .zoneLookup st s (fun _ t => lookupZone handle t)

/-- ZONE_FIND. -/
def execZoneFind (st : Nat) (point : Vec3) (s : State) : Result :=
  request .zoneFind st s (fun _ t => findZones point t)

/-- ZONE_LIST. -/
def execZoneList (st states owner : Nat) (s : State) : Result :=
  request .zoneList st s (fun _ t => listZones states owner t)

/-- ZONE_LIFETIME_EXPIRY: the count of one slot's record, when it reaches zero (R24). Where it does not, the event has
not come about and nothing changes (log 5). -/
def execZoneLifetimeExpiry (slot : Nat) (s : State) : Result :=
  .next (unlessHeld s fun t =>
    if (t.air.getD slot freeSlot).due then raiseEvent .zoneExpired { t with air := t.air.modify slot Slot.retire }
    else t)

end Sys2Proof.Machine
end

