-- ==== Sys2Proof/Machine/Span.lean ====
section
/-! DEFINITION. The Span Solver (03): validation, the law from position to cable length, the correction table with its
write window, the limit settings, and its requests. -/

namespace Sys2Proof.Machine

/-! ## From position to cable length (R77 to R79) -/

/-- G_i, the geometric length of a cable from its anchor and attachment offset for a carriage at `p` (R77). -/
def geometricLength (anchor offset p : Vec3) : Nat := ((anchor.minus p).minus offset).norm

/-- The correction at geometric length `g` from a table with the shared spacing (R78). -/
def correction (lBase lStep : Nat) (c : List Int) (g : Nat) : Int :=
  if g < lBase then c.getD 0 0
  else
    let j := (g - lBase) / lStep
    if 32 ≤ j then c.getD 32 0
    else c.getD j 0 + quot ((c.getD (j + 1) 0 - c.getD j 0) * ((g - lBase - j * lStep : Nat) : Int)) lStep

/-- The payout max in µm (R73). -/
def Span.payoutUm (g : Span) : Int := (g.payoutMax : Int) * 1000

/-- D_i, the demand length of winch `i` for a carriage at `p`, clamped to the payout range (R79). -/
def demandLength (g : Span) (p : Vec3) (i : Nat) : Int :=
  let len := geometricLength (g.anchors.get i) (g.offsets.get i) p
  clamp (len + correction g.lBase g.lStep (g.corr.get i) len) 0 g.payoutUm

/-- The four demand lengths, all from the same position (R79). -/
def demandLengths (g : Span) (p : Vec3) : Quad Int := Quad.ofFn (demandLength g p)

/-! ## Validation (R74, R75) -/

/-- The pairs of winches in the order of check 1 (R74). -/
def anchorPairs : List (Nat × Nat) := [(0, 1), (0, 2), (0, 3), (1, 2), (1, 3), (2, 3)]

/-- The horizontal distance of two points: isqrt(dx² + dy²). -/
def horizontal (a b : Vec3) : Nat := ({ (a.minus b) with z := 0 }).norm

/-- The least of a coordinate over the anchors. -/
def leastAnchor (g : Span) (k : Axis) : Int :=
  min (min (g.anchors.w0.get k) (g.anchors.w1.get k)) (min (g.anchors.w2.get k) (g.anchors.w3.get k))

/-- The greatest of a coordinate over the anchors. -/
def greatestAnchor (g : Span) (k : Axis) : Int :=
  max (max (g.anchors.w0.get k) (g.anchors.w1.get k)) (max (g.anchors.w2.get k) (g.anchors.w3.get k))

/-- Check 1, ANCHOR_SPACING: the first pair less than 10 m apart in plan. -/
def checkSpacing (g : Span) : Option Validity :=
  (anchorPairs.find? (fun q => decide (horizontal (g.anchors.get q.1) (g.anchors.get q.2) < 10000000))).map
    (fun q => .anchorSpacing q.1 q.2)

/-- Check 2, BOX_OUTSIDE_ANCHORS: X before Y, min before max. -/
def checkPlan (g : Span) : Option Validity :=
  if g.flightBox.xMin < leastAnchor g .x then some (.boxOutsideAnchors .x false)
  else if greatestAnchor g .x < g.flightBox.xMax then some (.boxOutsideAnchors .x true)
  else if g.flightBox.yMin < leastAnchor g .y then some (.boxOutsideAnchors .y false)
  else if greatestAnchor g .y < g.flightBox.yMax then some (.boxOutsideAnchors .y true)
  else none

/-- The lowest-numbered winch whose anchor has the lowest Z. -/
def lowestAnchor (g : Span) : Nat :=
  ([0, 1, 2].find? (fun i => (g.anchors.get i).z == leastAnchor g .z)).getD 3

/-- Check 3, BOX_TOO_HIGH: the box reaches within a metre below the lowest anchor. -/
def checkHeight (g : Span) : Option Validity :=
  if leastAnchor g .z < g.flightBox.zMax + 1000000 then some (.boxTooHigh (lowestAnchor g)) else none

/-- The corners of the flight box in the order of R75. -/
def corners (b : Box) : List Vec3 :=
  [⟨b.xMin, b.yMin, b.zMin⟩, ⟨b.xMax, b.yMin, b.zMin⟩, ⟨b.xMin, b.yMax, b.zMin⟩, ⟨b.xMax, b.yMax, b.zMin⟩,
    ⟨b.xMin, b.yMin, b.zMax⟩, ⟨b.xMax, b.yMin, b.zMax⟩, ⟨b.xMin, b.yMax, b.zMax⟩, ⟨b.xMax, b.yMax, b.zMax⟩]

/-- One sum of the corner check: the failure it gives when it lies outside 0 to the payout max. -/
def checkSum (g : Span) (corner winch : Nat) (endLast : Bool) (sum : Int) : Option Validity :=
  if sum < 0 then some (.payoutRange corner winch endLast false)
  else if g.payoutUm < sum then some (.payoutRange corner winch endLast true)
  else none

/-- The corner check of one winch at one corner: c_0 before c_32. -/
def checkWinch (g : Span) (corner : Nat) (p : Vec3) (winch : Nat) : Option Validity :=
  let len : Int := geometricLength (g.anchors.get winch) (g.offsets.get winch) p
  (checkSum g corner winch false (len + (g.corr.get winch).getD 0 0)).or
    (checkSum g corner winch true (len + (g.corr.get winch).getD 32 0))

/-- Check 4, PAYOUT_RANGE: corners in order, winches 0 to 3 within each (R75). -/
def checkCorners (g : Span) : Option Validity :=
  (corners g.flightBox).zipIdx.findSome? (fun q => [0, 1, 2, 3].findSome? (checkWinch g q.2 q.1))

/-- The report of validation over the whole geometry: the first check that fails (R74). -/
def validityOf (g : Span) : Validity :=
  ((((checkSpacing g).or (checkPlan g)).or (checkHeight g)).or (checkCorners g)).getD .valid

/-- Validation runs and records its report (R74). -/
def Span.validate (g : Span) : Span := { g with validity := validityOf g }

/-! ## The write window (R80, R81) -/

/-- The pointer advances one cell in scan order and wraps to the start (R81). -/
def Span.advance (g : Span) : Span :=
  match g.window.order with
  | .pointMajor =>
    if g.ptrJ < g.window.j1 then { g with ptrJ := g.ptrJ + 1 }
    else if g.ptrW < g.window.w1 then { g with ptrW := g.ptrW + 1, ptrJ := g.window.j0 }
    else { g with ptrW := g.window.w0, ptrJ := g.window.j0 }
  | .winchMajor =>
    if g.ptrW < g.window.w1 then { g with ptrW := g.ptrW + 1 }
    else if g.ptrJ < g.window.j1 then { g with ptrW := g.window.w0, ptrJ := g.ptrJ + 1 }
    else { g with ptrW := g.window.w0, ptrJ := g.window.j0 }

/-- The value of the cell the pointer names. -/
def Span.cell (g : Span) : Int := (g.corr.get g.ptrW).getD g.ptrJ 0

/-- One value written, clamped, to the cell the pointer names, and the pointer advanced (R82). -/
def Span.writeOne (g : Span) (v : Int) : Span :=
  ({ g with corr := g.corr.put g.ptrW ((g.corr.get g.ptrW).set g.ptrJ (clamp v (-50000) 50000)) }).advance

/-- The values written in the order given (R82). -/
def Span.writeAll (g : Span) (vs : List Int) : Span := vs.foldl Span.writeOne g

/-- `n` values read in scan order, the pointer advancing after each (R83). -/
def Span.readMany (g : Span) : Nat → List Int × Span
  | 0 => ([], g)
  | n + 1 => (g.cell :: (g.advance.readMany n).1, (g.advance.readMany n).2)

/-! ## Limit settings (R84) -/

/-- The ten settings clamped to their ranges (R84). -/
def clampSettings (l : LimitSettings) : LimitSettings :=
  { vh := clampNat l.vh 100 12000, vz := clampNat l.vz 100 6000, a := clampNat l.a 100 8000
    aStop := clampNat l.aStop 100 8000, aQuick := clampNat l.aQuick 100 12000, aBrk := clampNat l.aBrk 100 8000
    evict := clampNat l.evict 100 3000, cueDefault := clampNat l.cueDefault 100 12000
    standoff := clampNat l.standoff 0 5000, margin := clampNat l.margin 0 10000 }

/-- The settings stored converted again with a standard, and the class caps with them (R88). -/
def convertAll (std : Standard) (s : State) : State :=
  { s with
    motion := { s.motion with lim := convertLimits std s.span.settings }
    span := { s.span with classCaps := convertCaps std } }

/-! ## Bytes of the answers -/

/-- The pointer: its winch and its point. -/
def pointerBytes (g : Span) : List Byte := byte g.ptrW ++ byte g.ptrJ

/-- The per-period values in force, in the order of R89 (log 10). -/
def limitBytes (l : Limits) : List Byte :=
  beBytes 4 l.vh ++ beBytes 4 l.vz ++ byte l.a ++ byte l.aStop ++ beBytes 2 l.aQuick ++ byte l.aBrk
    ++ beBytes 4 l.evict ++ beBytes 4 l.cueDefault ++ beBytes 4 l.standoff ++ beBytes 4 l.margin

/-- A position held in µm, in mm. -/
def Vec3.mm (v : Vec3) : Vec3 := ⟨quot v.x 1000, quot v.y 1000, quot v.z 1000⟩

/-- A box held in µm, in mm. -/
def Box.mm (b : Box) : Box :=
  ⟨quot b.xMin 1000, quot b.xMax 1000, quot b.yMin 1000, quot b.yMax 1000, quot b.zMin 1000, quot b.zMax 1000⟩

/-- What READ_GEOMETRY returns, in the order of R76 (log 10). -/
def geometryBytes (g : Span) : List Byte :=
  (g.anchors.list.flatMap (fun v => posBytes (Vec3.mm v))) ++ (g.offsets.list.flatMap (fun v => halfBytes (Vec3.mm v)))
    ++ boxBytes (Box.mm g.flightBox) ++ beBytes 4 g.payoutMax ++ beBytes 4 g.lBase ++ beBytes 4 g.lStep
    ++ byte g.window.w0 ++ byte g.window.w1 ++ byte g.window.j0 ++ byte g.window.j1 ++ byte g.window.order.code
    ++ pointerBytes g ++ validityBytes g.validity

/-! ## The requests -/

/-- A geometry request: taken in SAFE, then its parameter check (R70). -/
def inSafe (s : State) (ok : Bool) (own : State → State × Reply) : State × Reply :=
  if s.motion.mode ≠ .safe then refuse .wrongState s else if !ok then refuse .badParam s else own s

/-- SET_ANCHORS (R70, R71). -/
def setAnchors (anchors offsets : Quad Vec3) (s : State) : State × Reply :=
  inSafe s (anchors.all inRange && offsets.all offsetInRange) fun t =>
    let g := ({ t.span with anchors := anchors.map Vec3.um, offsets := offsets.map Vec3.um }).validate
    accept { t with span := g } (validityBytes g.validity)

/-- SET_FLIGHT_BOX (R70, R72). -/
def setFlightBox (box : Box) (s : State) : State × Reply :=
  inSafe s (boxInRange box) fun t =>
    let g := ({ t.span with flightBox := box.um }).validate
    accept { t with span := g } (validityBytes g.validity)

/-- SET_PAYOUT (R70, R73). -/
def setPayout (payout lBase lStep : Nat) (s : State) : State × Reply :=
  inSafe s true fun t =>
    let g := ({ t.span with
      payoutMax := clampNat payout 10000 400000, lBase := clampNat lBase 0 400000000
      lStep := clampNat lStep 1000000 16000000 }).validate
    accept { t with span := g }
      (beBytes 4 g.payoutMax ++ beBytes 4 g.lBase ++ beBytes 4 g.lStep ++ validityBytes g.validity)

/-- CORR_WINDOW (R80). -/
def corrWindow (w0 w1 j0 j1 order : Nat) (s : State) : State × Reply :=
  match scanOrderOf order with
  | none => refuse .badParam s
  | some o =>
    if w1 < w0 ∨ j1 < j0 ∨ 3 < w1 ∨ 32 < j1 then refuse .badParam s
    else
      accept
        { s with span := { s.span with
            window := { w0 := w0, w1 := w1, j0 := j0, j1 := j1, order := o }, ptrW := w0, ptrJ := j0 } }
        (byte ((w1 - w0 + 1) * (j1 - j0 + 1)))

/-- How many of the values CORR_WRITE clamps (R82). -/
def clampedCount (vs : List Int) : Nat := vs.countP (fun v => decide (v < -50000 ∨ 50000 < v))

/-- CORR_WRITE (R82). -/
def corrWrite (vs : List Int) (s : State) : State × Reply :=
  inSafe s true fun t =>
    let g := (t.span.writeAll vs).validate
    accept { t with span := g } (byte (clampedCount vs) ++ pointerBytes g ++ validityBytes g.validity)

/-- CORR_READ (R83). The count is checked first, as the text has it (log 12). -/
def corrRead (n : Nat) (s : State) : State × Reply :=
  if n = 0 ∨ 60 < n then refuse .badParam s
  else
    inSafe s true fun t =>
      let r := t.span.readMany n
      accept { t with span := r.2 } (countedList (r.1.map (beInt 4)) ++ pointerBytes r.2)

/-- SET_LIMITS (R84). -/
def setLimits (l : LimitSettings) (s : State) : State × Reply :=
  inSafe s true fun t =>
    let stored := clampSettings l
    let lim := convertLimits t.period.configured stored
    accept { t with span := { t.span with settings := stored }, motion := { t.motion with lim := lim } }
      (settingsBytes stored ++ limitBytes lim)

/-- READ_GEOMETRY (R76). -/
def readGeometry (s : State) : State × Reply := accept s (geometryBytes s.span)

/-- READ_LIMITS (R89). -/
def readLimits (s : State) : State × Reply :=
  accept s (settingsBytes s.span.settings ++ byte (standardCode (some s.period.configured)) ++ limitBytes s.motion.lim
    ++ s.span.classCaps.list.flatMap (beBytes 4))

/-! ## Meanings -/

/-- SET_ANCHORS. -/
def execSetAnchors (st : Nat) (anchors offsets : Quad Vec3) (s : State) : Result :=
  request .setAnchors st s (fun _ t => setAnchors anchors offsets t)

/-- SET_FLIGHT_BOX. -/
def execSetFlightBox (st : Nat) (box : Box) (s : State) : Result :=
  request .setFlightBox st s (fun _ t => setFlightBox box t)

/-- SET_PAYOUT. -/
def execSetPayout (st payout lBase lStep : Nat) (s : State) : Result :=
  request .setPayout st s (fun _ t => setPayout payout lBase lStep t)

/-- CORR_WINDOW. -/
def execCorrWindow (st w0 w1 j0 j1 order : Nat) (s : State) : Result :=
  request .corrWindow st s (fun _ t => corrWindow w0 w1 j0 j1 order t)

/-- The answer to a CORR_WRITE whose count lies outside 1 to 60: the class check, then BAD_LENGTH (R82, R201). -/
def badLengthOf (r : Req) (st : Nat) (s : State) : State :=
  refuseFrame st r.code (if permitted r (classOf s st) then .badLength else .notPermitted) s

/-- CORR_WRITE. A count outside 1 to 60 is refused BAD_LENGTH by the Station Port (R82). -/
def execCorrWrite (st : Nat) (values : List Int) (s : State) : Result :=
  if values.length < 1 ∨ 60 < values.length then .next (unlessHeld s (badLengthOf .corrWrite st))
  else request .corrWrite st s (fun _ t => corrWrite values t)

/-- CORR_READ. -/
def execCorrRead (st n : Nat) (s : State) : Result := request .corrRead st s (fun _ t => corrRead n t)

/-- SET_LIMITS. -/
def execSetLimits (st : Nat) (settings : LimitSettings) (s : State) : Result :=
  request .setLimits st s (fun _ t => setLimits settings t)

/-- READ_GEOMETRY. -/
def execReadGeometry (st : Nat) (s : State) : Result := request .readGeometry st s (fun _ t => readGeometry t)

/-- READ_LIMITS. -/
def execReadLimits (st : Nat) (s : State) : Result := request .readLimits st s (fun _ t => readLimits t)

end Sys2Proof.Machine
end

