-- ==== Sys2Proof/Machine/Motion.lean ====
section
/-! DEFINITION. The Motion Generator (02): the beginning of a period computation, its stages, its commit with the cue
checks and the test for STOPPED/HELD, and ENABLE, DISABLE and READ_MOTION. -/

namespace Sys2Proof.Machine

/-! ## Demands (R43) -/

/-- s of the two profiles: min(s_prev + a_per, cruise, isqrt(2 · a_per · D)) (R54, R58). -/
def profileSpeed (a cruise : Nat) (vOld : Vec3) (d : Nat) : Nat :=
  min (min (vOld.norm + a) cruise) (isqrt (2 * a * d))

/-- The cue profile: along the straight line from `p` to `m` (R58). -/
def cueProfile (a cruise : Nat) (vOld p m : Vec3) : Vec3 :=
  let d := (m.minus p).norm
  let s := profileSpeed a cruise vOld d
  if d ≤ s then m.minus p else Vec3.byAxis (fun k => quot ((m.get k - p.get k) * s) d)

/-- The cue demand from the copy: the profile, and zero after arrival (R58). -/
def cueDemand (a : Nat) (vOld p : Vec3) (c : CueCopy) : Vec3 :=
  if c.dwellLeft.isSome then zero3 else cueProfile a c.cruise vOld p c.target

/-! ## The exit search (R53, R54) -/

/-- The six directions in the order of their ties (R54). -/
def Dir.list : List Dir := [.zPlus, .xPlus, .xMinus, .yPlus, .yMinus, .zMinus]

/-- The axis of a direction. -/
def Dir.axis : Dir → Axis
  | .xPlus | .xMinus => .x
  | .yPlus | .yMinus => .y
  | .zPlus | .zMinus => .z

/-- The direction goes up its axis. -/
def Dir.isPlus : Dir → Bool
  | .zPlus | .xPlus | .yPlus => true
  | .xMinus | .yMinus | .zMinus => false

/-- The coordinate of a candidate over the guarded boxes of O (R53): the largest max plus 1, or the smallest min minus
1. None for an empty O. -/
def exitCoordinate (d : Dir) : List Box → Option Int
  | [] => none
  | b :: bs =>
    if d.isPlus then some (bs.foldl (fun n g => max n (g.hi d.axis)) (b.hi d.axis) + 1)
    else some (bs.foldl (fun n g => min n (g.lo d.axis)) (b.lo d.axis) - 1)

/-- The guarded boxes of the zones in O among the zones read. -/
def occupiedBoxes (standoff : Nat) (zones : List Zone) : List Box :=
  (zones.filter (fun z => z.activeKeepOut && z.occupied)).map (fun z => z.guarded standoff)

/-- The guarded boxes of the ACTIVE keep-outs not in O among the zones read, in slot order. -/
def barringBoxes (standoff : Nat) (zones : List Zone) : List Box :=
  (zones.filter (fun z => z.activeKeepOut && !z.occupied)).map (fun z => z.guarded standoff)

/-- The candidate of a direction when it counts (R53). -/
def exitCandidate (flightBox : Box) (standoff : Nat) (zones : List Zone) (p : Vec3) (d : Dir) : Option ExitTarget :=
  match exitCoordinate d (occupiedBoxes standoff zones) with
  | none => none
  | some c =>
    let q := p.put d.axis c
    if flightBox.has q && (barringBoxes standoff zones).all (fun b => !b.has q) then some { dir := d, pos := q } else none

/-- The distance of a candidate: the difference on its one axis (R54). -/
def exitDistance (p : Vec3) (e : ExitTarget) : Nat := (e.pos.get e.dir.axis - p.get e.dir.axis).natAbs

/-- The nearer of two candidates, the earlier one on a tie. -/
def nearer (p : Vec3) (e f : ExitTarget) : ExitTarget := if exitDistance p f < exitDistance p e then f else e

/-- The winner of the exit search; none when no candidate counts (R54, R55). -/
def exitSearch (flightBox : Box) (standoff : Nat) (zones : List Zone) (p : Vec3) : Option ExitTarget :=
  match Dir.list.filterMap (exitCandidate flightBox standoff zones p) with
  | [] => none
  | e :: es => some (es.foldl (nearer p) e)

/-- The eviction demand toward an exit target (R54). -/
def evictDemand (a evict : Nat) (vOld p : Vec3) (e : ExitTarget) : Vec3 :=
  let d := exitDistance p e
  let s := profileSpeed a evict vOld d
  if d ≤ s then e.pos.minus p
  else zero3.put e.dir.axis (if p.get e.dir.axis < e.pos.get e.dir.axis then (s : Int) else -(s : Int))

/-! ## The beginning of a computation (R42) -/

/-- Eviction begins (R37): from CUE the cue halts, from STICK the buffer is flushed. DEDUCED (log 32), unsafe: R37 says
that authority does not change, and R117 that a holder on the CUE basis alone loses it at the halt; R117 is followed. -/
def beginEviction (s : State) : State :=
  let s1 := setMode .evict s
  if s.motion.mode = .cue then haltCue s1 else if s.motion.mode = .stick then flushStick s1 else s1

/-- EVICT ends in HOLD, the exit target absent and trapped no (R56). -/
def endEviction (s : State) : State :=
  { s with motion := { s.motion with mode := .hold, exit := none, trapped := false } }

/-- The target of the running cue is unreachable at the beginning of a computation (R61). -/
def copyUnreachable (s : State) : Bool :=
  match s.motion.copy with
  | some c => unreachable s.span.flightBox s.motion.lim.standoff (liveZones s.air) c.target
  | none => false

/-- The mode is settled before stage 1 (R37, R42, R56, R61). -/
def settle (s : State) : State :=
  match s.motion.mode with
  | .hold | .stick => if anyOccupied s then beginEviction s else s
  | .cue =>
    if anyOccupied s then beginEviction s else if copyUnreachable s then failHead .unreachable s else s
  | .evict => if anyOccupied s then s else endEviction s
  | .safe | .stopping | .stopped _ => s

/-- The ACTIVE records, in slot order. -/
def activeZones (s : State) : List Zone := (liveZones s.air).filter (fun z => z.state == .active)

/-- The sample the Arbiter hands for this period: the last demand, and zero when it hands none, past the stick hold or
with no demand yet (R124, R125). -/
def stickDemand (a : Authority) : Vec3 := if a.hold < a.miss then zero3 else a.lastDemand.getD zero3

/-- The search of a computation that runs as EVICT: the exit target and trapped, with TRAPPED (R54, R55). -/
def searchExit (s : State) : State :=
  let e := exitSearch s.span.flightBox s.motion.lim.standoff (activeZones s) (heldP s)
  raiseIf (e.isNone && !s.motion.trapped) .trapped
    { s with motion := { s.motion with exit := e, trapped := e.isNone } }

/-- The demand of stage 1, by the mode as settled (R43). -/
def demandOf (s : State) : Vec3 :=
  match s.motion.mode with
  | .stick => stickDemand s.auth
  | .cue =>
    match s.motion.copy with
    | some c => cueDemand s.motion.lim.a s.motion.vOld (heldP s) c
    | none => zero3
  | .evict =>
    match s.motion.exit with
    | some e => evictDemand s.motion.lim.a s.motion.lim.evict s.motion.vOld (heldP s) e
    | none => zero3
  | .safe | .hold | .stopping | .stopped _ => zero3

/-- What a computation reads when it begins (R42). -/
def snapshot (s : State) : Computation :=
  { mode := s.motion.mode, kind := s.stop.kind, p := heldP s, vOld := s.motion.vOld, zones := activeZones s
    speedClass := systemClass s.ports, demand := demandOf s, cueLive := s.motion.mode == .cue }

/-- A period computation begins in HOLD, STICK, CUE, EVICT and STOPPING; in STOPPED and SAFE none does, and the last
lengths go on with a feed-forward of 0 (R42, R52, R66). -/
def beginComputation (s : State) : State :=
  if s.motion.mode.steered || s.motion.mode == .stopping then
    let s1 := settle s
    let s2 := if s1.motion.mode = .evict then searchExit s1 else s1
    { s2 with motion := { s2.motion with flight := some (snapshot s2) } }
  else { s with motion := { s.motion with feed := quadOf 0 } }

/-! ## Stages 2 and 3 (R44, R45) -/

/-- The acceleration of stage 2 (R44): in STOPPING by the kind read, else a_per. -/
def stageAccel (lim : Limits) (ran : Mode) (kind : StopKind) : Nat :=
  if ran = .stopping then (if kind = .quick then lim.aQuick else lim.aStop) else lim.a

/-- Stage 2, the rate limit (R44). -/
def rateLimit (a : Nat) (vOld demand : Vec3) : Vec3 :=
  Vec3.byAxis (fun k => vOld.get k + clamp (demand.get k - vOld.get k) (-(a : Int)) a)

/-- The class cap: that of the system speed class, 0 for NONE (R45). -/
def classCap (caps : Quad Nat) : Option SpeedClass → Nat
  | none => 0
  | some .a => caps.w0
  | some .b => caps.w1
  | some .c => caps.w2
  | some .d => caps.w3

/-- The cap of a SLOW zone in µm per period as it is read (R45, R87). A SLOW record has a cap (log 16). -/
def slowCap (std : Standard) (z : Zone) : Nat := speedPer std (z.cap.getD 0)

/-- The horizontal limit: vh_per, the class cap and the cap of every ACTIVE SLOW zone whose exact box holds P (R45). -/
def horizontalLimit (lim : Limits) (cap : Nat) (std : Standard) (zones : List Zone) (p : Vec3) : Nat :=
  zones.foldl (fun n z => if z.kind == .slow && z.box.um.has p then min n (slowCap std z) else n) (min lim.vh cap)

/-- The horizontal magnitude isqrt(vx² + vy²) (R45). -/
def horizontalSpeed (v : Vec3) : Nat := isqrt (v.x * v.x + v.y * v.y).toNat

/-- Stage 3, the speed cap, at a horizontal and a vertical limit (R45). -/
def speedCap (vh vz : Nat) (v : Vec3) : Vec3 :=
  let h := horizontalSpeed v
  { x := if vh < h then quot (v.x * vh) h else v.x
    y := if vh < h then quot (v.y * vh) h else v.y
    z := clamp v.z (-(vz : Int)) vz }

/-! ## Stage 4 (R46, R47) -/

/-- The point is within the extents on the two axes other than `k`, widened by `m`: the shadow on axis `k` (R46). -/
def inShadow (b : Box) (m : Nat) (p : Vec3) : Axis → Bool
  | .x => b.spans m .y p.y && b.spans m .z p.z
  | .y => b.spans m .x p.x && b.spans m .z p.z
  | .z => b.spans m .x p.x && b.spans m .y p.y

/-- The distance to the near face of a box ahead on axis `k`, none when the box gives no surface (R46). -/
def nearFace (b : Box) (m : Nat) (p : Vec3) (k : Axis) (plus : Bool) : Option Int :=
  if inShadow b m p k then
    if plus then (if p.get k < b.lo k then some (b.lo k - p.get k) else none)
    else (if b.hi k < p.get k then some (p.get k - b.hi k) else none)
  else none

/-- The surface a zone gives: the distance and the speed that may be kept on reaching it (R46). -/
def zoneSurface (std : Standard) (lim : Limits) (p : Vec3) (k : Axis) (plus : Bool) (z : Zone) : Option (Int × Nat) :=
  match z.kind with
  | .keepOut =>
    if z.occupied then none else (nearFace (z.guarded lim.standoff) lim.margin p k plus).map (fun d => (d, 0))
  | .slow => (nearFace z.box.um lim.margin p k plus).map (fun d => (d, slowCap std z))

/-- The surfaces ahead on axis `k`: the flight-box face, then those of the zones read (R46). -/
def surfacesAhead (std : Standard) (lim : Limits) (flightBox : Box) (zones : List Zone) (p : Vec3) (k : Axis)
    (plus : Bool) : List (Int × Nat) :=
  (if plus then flightBox.hi k - p.get k else p.get k - flightBox.lo k, 0)
    :: zones.filterMap (zoneSurface std lim p k plus)

/-- The limit of a surface: isqrt(c² + 2 · a_brk · d) (R47). -/
def surfaceLimit (aBrk : Nat) (q : Int × Nat) : Nat := isqrt ((q.2 : Int) * q.2 + 2 * aBrk * q.1).toNat

/-- The magnitude left of `n` by the limits of the surfaces ahead (R47). -/
def approachBound (aBrk n : Nat) (surfaces : List (Int × Nat)) : Nat :=
  surfaces.foldl (fun m q => min m (surfaceLimit aBrk q)) n

/-- Stage 4 on one axis (R46, R47). -/
def approachAxis (std : Standard) (lim : Limits) (flightBox : Box) (zones : List Zone) (p : Vec3) (k : Axis) (v : Int) :
    Int :=
  let n : Int := approachBound lim.aBrk v.natAbs (surfacesAhead std lim flightBox zones p k (decide (0 < v)))
  if v < 0 then -n else n

/-- Stage 4, the approach limit (R46, R47). -/
def approach (std : Standard) (lim : Limits) (flightBox : Box) (zones : List Zone) (p v : Vec3) : Vec3 :=
  Vec3.byAxis (fun k => approachAxis std lim flightBox zones p k (v.get k))

/-! ## Stages 5 and 6 (R48 to R50) -/

/-- The target of a candidate axis of the zone clip with its penetration, none when P lies in the range (R49). -/
def clipTarget (g : Box) (p q : Vec3) (k : Axis) : Option (Axis × Int × Int) :=
  if p.get k < g.lo k then some (k, g.lo k - 1, q.get k - (g.lo k - 1))
  else if g.hi k < p.get k then some (k, g.hi k + 1, g.hi k + 1 - q.get k)
  else none

/-- The candidate axis with the least penetration, the earlier one on a tie (R49). -/
def leastPenetration : List (Axis × Int × Int) → Option (Axis × Int × Int)
  | [] => none
  | c :: cs => some (cs.foldl (fun b c => if c.2.2 < b.2.2 then c else b) c)

/-- P' put out of one guarded box when it lies inside (R49). -/
def clipZone (p : Vec3) (q : Vec3) (g : Box) : Vec3 :=
  if g.has q then
    match leastPenetration ([Axis.x, Axis.y, Axis.z].filterMap (clipTarget g p q)) with
    | some c => q.put c.1 c.2.1
    | none => q
  else q

/-- One pass of the zone clip over the guarded boxes in slot order (R49). -/
def clipPass (boxes : List Box) (p q : Vec3) : Vec3 := boxes.foldl (clipZone p) q

/-- The zone clip with `n` passes left after this one: none when the last pass changes a coordinate (R49, R50). -/
def clipFrom (boxes : List Box) (p : Vec3) : Nat → Vec3 → Option Vec3
  | 0, q => if clipPass boxes p q = q then some q else none
  | n + 1, q => if clipPass boxes p q = q then some q else clipFrom boxes p n (clipPass boxes p q)

/-- Stage 6: the clamp into the flight box and up to four passes of the zone clip; none when the step is abandoned
(R48 to R50). -/
def stepped (flightBox : Box) (boxes : List Box) (p v : Vec3) : Option Vec3 :=
  clipFrom boxes p 3 (flightBox.clampIn (p.plus v))

/-! ## The stages together -/

/-- The velocity that stage 4 leaves of a computation (R43 to R47). -/
def shapedVelocity (s : State) (c : Computation) : Vec3 :=
  let lim := s.motion.lim
  let cap := classCap s.span.classCaps c.speedClass
  let v2 := rateLimit (stageAccel lim c.mode c.kind) c.vOld c.demand
  let v3 := speedCap (horizontalLimit lim cap s.period.configured c.zones c.p) (min lim.vz cap) v2
  approach s.period.configured lim s.span.flightBox c.zones c.p v3

/-- P' as stage 6 leaves it, none when the step is abandoned (R48 to R50). -/
def nextPosition (s : State) (c : Computation) : Option Vec3 :=
  stepped s.span.flightBox (barringBoxes s.motion.lim.standoff c.zones) c.p (shapedVelocity s c)

/-! ## The commit (R51, R52) -/

/-- The progress test of a cue at a commit before arrival (R60). -/
def progressTest (c : CueCopy) (s : State) : State :=
  let d := (c.target.minus (heldP s)).norm
  let n := if d < c.lastD then 0 else c.noProgress + 1
  let s1 := { s with motion := { s.motion with copy := some { c with lastD := d, noProgress := n } } }
  if 16 ≤ n then failHead .blocked s1 else s1

/-- The dwell of a cue that has arrived, `n` periods still remaining before this commit (R59). -/
def dwellStep (c : CueCopy) (n : Nat) (s : State) : State :=
  if n ≤ 1 then completeCue s
  else { s with motion := { s.motion with copy := some { c with dwellLeft := some (n - 1) } } }

/-- The arrival of a cue at its mark (R59). -/
def arrive (c : CueCopy) (s : State) : State :=
  if c.dwell = 0 then completeCue s
  else { s with motion := { s.motion with copy := some { c with dwellLeft := some c.dwell } } }

/-- The arrival, dwell and progress checks of the running cue at a commit (R59, R60). -/
def cueChecks (s : State) : State :=
  match s.motion.copy with
  | none => s
  | some c =>
    match c.dwellLeft with
    | some n => dwellStep c n s
    | none => if heldP s = c.target then arrive c s else progressTest c s

/-- The test for STOPPED/HELD at a STOPPING commit (R64). -/
def heldTest (s : State) : State :=
  if s.motion.mode = .stopping ∧ s.motion.vOld = zero3 then setMode (.stopped .held) s else s

/-- Stage 8: the demand lengths of the committed P and the feed-forward (R52). After an abandoned step the same lengths
go again with a feed-forward of 0. -/
def handLengths (abandoned : Bool) (p : Vec3) (s : State) : State :=
  let d := demandLengths s.span p
  let feed := match s.motion.lengths with
    | some last => Quad.ofFn (fun i => d.get i - last.get i)
    | none => quadOf 0
  { s with motion := { s.motion with lengths := some d, feed := if abandoned then quadOf 0 else feed } }

/-- The commit of a computation (R51). -/
def commit (c : Computation) (s : State) : State :=
  let next := nextPosition s c
  let p := next.getD c.p
  let s1 := { s with motion := { s.motion with p := some p, vOld := p.minus c.p, flight := none } }
  let s2 := tableCommit c.mode p s1
  let s3 := if c.mode = .cue ∧ c.cueLive = true then cueChecks s2 else s2
  let s4 := if c.mode = .stopping then heldTest s3 else s3
  handLengths next.isNone p s4

/-- The commit of the computation in flight; nothing when there is none. -/
def commitFlight (s : State) : State :=
  match s.motion.flight with
  | some c => commit c s
  | none => s

/-! ## The requests -/

/-- Every port is UP with a debounced READY and a FAULT code of 0 (R39, check 3). -/
def portsReady (ports : Quad Port) : Bool :=
  ports.list.all (fun q => q.state == .up && q.status.ready && q.status.fault == 0)

/-- The difference between a demand length and the measured length a port holds. A port that is UP and READY has had a
good frame, so it holds one (log 16). -/
def mismatchOf (d : Quad Int) (ports : Quad Port) (i : Nat) : Nat :=
  (d.get i - (((ports.get i).measured.getD 0 : Nat) : Int)).natAbs

/-- The port with the largest difference, the lowest-numbered one on a tie (R39, check 7). -/
def worstPort (d : Quad Int) (ports : Quad Port) : Nat :=
  [1, 2, 3].foldl (fun w i => if mismatchOf d ports w < mismatchOf d ports i then i else w) 0

/-- ENABLE (R39, R40). -/
def enable (p0 : Vec3) (s : State) : State × Reply :=
  let p := p0.um
  let d := demandLengths s.span p
  let w := worstPort d s.ports
  if s.motion.mode ≠ .safe then refuse .wrongState s
  else if s.span.validity ≠ .valid then refuse .noGeometry s
  else if !portsReady s.ports then refuse .portsNotReady s
  else if s.stop.causes ≠ 0#8 then refuse .causePresent s
  else if !s.span.flightBox.has p then refuse .badParam s
  else if (liveZones s.air).any (fun z => z.activeKeepOut && (z.guarded s.motion.lim.standoff).has p) then
    refuse .occupied s
  else if s.portLimits.tolerance * 1000 < mismatchOf d s.ports w then
    (s, ⟨.mismatch, beBytes 4 (mismatchOf d s.ports w) ++ byte w⟩)
  else
    accept
      { s with motion := { s.motion with
          mode := .hold, p := some p, vOld := zero3, exit := none, trapped := false, lengths := some d
          feed := quadOf 0 } }
      []

/-- DISABLE (R41). -/
def disable (s : State) : State × Reply :=
  if s.motion.mode = .hold ∧ s.motion.vOld = zero3 then accept (becomeSafe s) [] else refuse .wrongState s

/-- A position or velocity in µm, 12 bytes. -/
def umBytes (v : Vec3) : List Byte := posBytes v

/-- What READ_MOTION returns (R68, 10.6). DESIGN CHOICE (log 34), unsafe: while a computation is in flight, P and v_old are
those of the last commit, and the mode, the exit target with its direction, the trapped flag and O are as they stand. -/
def motionBytes (s : State) : List Byte :=
  modeBytes s.motion.mode
    ++ byte (s.motion.p.isSome.toNat + 2 * s.motion.exit.isSome.toNat + 4 * s.motion.trapped.toNat)
    ++ umBytes (s.motion.p.getD zero3) ++ umBytes (if s.motion.p.isSome then s.motion.vOld else zero3)
    ++ byte ((s.motion.exit.map (fun e => e.dir.code)).getD 0)
    ++ umBytes ((s.motion.exit.map ExitTarget.pos).getD zero3)
    ++ countedList ((occupiedSet s).map handleBytes)

/-- READ_MOTION (R68). -/
def readMotion (s : State) : State × Reply := accept s (motionBytes s)

/-! ## Meanings -/

/-- PERIOD_COMMIT (R51); nothing when no computation is in flight. -/
def execPeriodCommit (s : State) : Result := .next (unlessHeld s commitFlight)

/-- The dwell of the running cue stands at its last period. -/
def dwellDue (s : State) : Bool :=
  match s.motion.copy with
  | some c => s.motion.mode == .cue && (match c.dwellLeft with
    | some n => decide (n ≤ 1)
    | none => false)
  | none => false

/-- The no-progress count of the running cue stands one short of 16. -/
def blockDue (s : State) : Bool :=
  match s.motion.copy with
  | some c => s.motion.mode == .cue && c.dwellLeft.isNone && decide (15 ≤ c.noProgress)
  | none => false

/-- CUE_DWELL_EXPIRY: the share of the commit at which dwell remaining reaches 0 (R59, log 5). -/
def execCueDwellExpiry (s : State) : Result := .next (unlessHeld s fun t => if dwellDue t then completeCue t else t)

/-- CUE_BLOCKED: the share of the commit at which the no-progress count reaches 16 (R60, log 5). -/
def execCueBlocked (s : State) : Result := .next (unlessHeld s fun t => if blockDue t then failHead .blocked t else t)

/-- ENABLE. -/
def execEnable (st : Nat) (p0 : Vec3) (s : State) : Result := request .enable st s (fun _ t => enable p0 t)

/-- DISABLE. -/
def execDisable (st : Nat) (s : State) : Result := request .disable st s (fun _ t => disable t)

/-- READ_MOTION. -/
def execReadMotion (st : Nat) (s : State) : Result := request .readMotion st s (fun _ t => readMotion t)

end Sys2Proof.Machine
end

