-- ==== Sys2Proof/Machine/Period.lean ====
section
/-! DEFINITION. The Period Generator (08): the accumulator and its timers, the reference and the lock, SET_STANDARD and
READ_PERIOD. The clock of the whole part is in Clock.lean. -/

namespace Sys2Proof.Machine

/-! ## Constants of the standards (R182, R184, R185) -/

/-- N_nom of a standard (R182). -/
def Standard.nominal : Standard → Nat
  | .s50 => 17180
  | .s5994 => 20595
  | .s60 => 20616

/-- The trim maximum: N_nom / 200, truncated (R182). -/
def Standard.trimMax (std : Standard) : Nat := std.nominal / 200

/-- The loss limit: three nominal field intervals (R185). -/
def Standard.lossLimit : Standard → Nat
  | .s50 => 3000000
  | .s5994 => 2502501
  | .s60 => 2499999

/-- The class of an interval: the standard it is valid for, none for an invalid one (R184). -/
def standardOfInterval (n : Nat) : Option Standard :=
  if 999800 ≤ n ∧ n ≤ 1000200 then some .s50
  else if 833967 ≤ n ∧ n ≤ 834367 then some .s5994
  else if 833133 ≤ n ∧ n ≤ 833533 then some .s60
  else none

/-! ## Phase and trim (R181, R186) -/

/-- The phase within the field: the index × 2^32 plus the accumulator (R181). -/
def PeriodGen.phase (g : PeriodGen) : Nat := g.index * 2 ^ 32 + g.acc

/-- The phase error E (R186). -/
def PeriodGen.error (g : PeriodGen) : Int :=
  if g.phase < 2 ^ 33 then (g.phase : Int) else (g.phase : Int) - 2 ^ 34

/-- The trim: −E / 2^20 truncated toward zero, clamped to the trim maximum (R186). -/
def trimOf (std : Standard) (e : Int) : Int := clamp (quot (-e) (2 ^ 20)) (-(std.trimMax : Int)) std.trimMax

/-- The trim computed at a pulse: N becomes N_nom + t and E the last E (R186). -/
def PeriodGen.trimmed (g : PeriodGen) : PeriodGen :=
  { g with increment := ((g.configured.nominal : Int) + trimOf g.configured g.error).toNat, lastE := some g.error }

/-! ## The lock (R187 to R190) -/

/-- An entry to FREE: N_nom, both runs 0 (R187). -/
def PeriodGen.enterFree (g : PeriodGen) : PeriodGen :=
  { g with lock := .free, increment := g.configured.nominal, lockRun := 0, unlockRun := 0 }

/-- An ACQUIRING pulse: the trim, then the lock run, and at 8 LOCKED (R188). -/
def PeriodGen.acquire (g : PeriodGen) : PeriodGen :=
  let run := if g.error.natAbs < 2 ^ 26 then g.lockRun + 1 else 0
  if 8 ≤ run then { g.trimmed with lock := .locked, lockRun := 0, unlockRun := 0 } else { g.trimmed with lockRun := run }

/-- A LOCKED pulse: the trim, then the unlock run, and at 4 ACQUIRING (R188). -/
def PeriodGen.hold (g : PeriodGen) : PeriodGen :=
  let run := if 2 ^ 28 ≤ g.error.natAbs then g.unlockRun + 1 else 0
  if 4 ≤ run then { g.trimmed with lock := .acquiring, lockRun := 0, unlockRun := 0 }
  else { g.trimmed with unlockRun := run }

/-- A valid pulse of the configured standard, by the lock state (R187). -/
def PeriodGen.matched (g : PeriodGen) : PeriodGen :=
  match g.lock with
  | .free | .holdover => { g with lock := .acquiring, lockRun := 0 }.acquire
  | .acquiring => g.acquire
  | .locked => g.hold

/-- A valid pulse of another standard (R187, R190). -/
def PeriodGen.mismatched (g : PeriodGen) : PeriodGen :=
  match g.lock with
  | .free => g
  | .acquiring | .locked | .holdover => g.enterFree

/-- A pulse on REF (R184, R187). DESIGN CHOICE (log 33), unsafe: it reads the interval timer as it stands between two CLK50
periods, so a pulse right behind a wrap, which belongs to the wrap's own period, finds that period counted already; so too the own
period of an ordinary valid pulse counts into the restarted loss timer, and that of one right behind a wrap does not. -/
def PeriodGen.pulse (g : PeriodGen) : PeriodGen :=
  match g.interval with
  | none => { g with interval := some 0 }
  | some n =>
    match standardOfInterval n with
    | none => { g with interval := some 0, errors := saturate g.errors 65535 }
    | some std =>
      let g1 := { g with interval := some 0, detected := some std, loss := 0 }
      if std = g.configured then g1.matched else g1.mismatched

/-- The reference is lost (R185, R187, R189). -/
def PeriodGen.lose (g : PeriodGen) : PeriodGen :=
  let g1 := { g with loss := g.configured.lossLimit, detected := none }
  match g.lock with
  | .locked => { g1 with lock := .holdover, unlockRun := 0 }
  | .acquiring => g1.enterFree
  | .free | .holdover => g1

/-- The Period Generator becomes `g`, with REFERENCE at a change of lock state or detected standard (R191). -/
def withPeriod (g : PeriodGen) (s : State) : State :=
  raiseIf (g.lock != s.period.lock || g.detected != s.period.detected) .reference { s with period := g }

/-- The generator reports STANDARD_MISMATCH (R190). -/
def PeriodGen.mismatch (g : PeriodGen) : Bool :=
  match g.detected with
  | some std => std != g.configured
  | none => false

/-- SET_STANDARD's work in the generator (R183). -/
def PeriodGen.setStandard (std : Standard) (g : PeriodGen) : PeriodGen :=
  if std = g.configured then g else { ({ g with configured := std }).enterFree with loss := std.lossLimit }

/-! ## The clock (R181, R182, R184, R185) -/

/-- The increment that the next CLK50 period adds. DESIGN CHOICE (log 33), unsafe: what sets N between two additions
belongs to the CLK50 period of the addition that follows, which still adds the old N (R182, R192); right after a wrap it
belongs to the wrap's CLK50 period, so the next addition takes the new N. -/
def PeriodGen.now (g : PeriodGen) : Nat := if g.wrapped then g.increment else g.adding

/-- What `k` CLK50 periods add to the accumulator (R181, R182). -/
def PeriodGen.added (g : PeriodGen) : Nat → Nat
  | 0 => 0
  | k + 1 => g.now + k * g.increment

/-- `k` CLK50 periods pass without a wrap and without a loss: the timers run and the accumulator adds (R181). -/
def PeriodGen.run (k : Nat) (g : PeriodGen) : PeriodGen :=
  { g with
    acc := g.acc + g.added k
    interval := g.interval.map (fun n => min (n + k) 16777215)
    loss := min (g.loss + k) g.configured.lossLimit }

/-- A CLK50 period is over: the next one adds N as it stands (R182). -/
def PeriodGen.over (g : PeriodGen) : PeriodGen := { g with adding := g.increment, wrapped := false }

/-- The wrap: the remainder is kept and the period index advances (R181). -/
def PeriodGen.wrap (g : PeriodGen) : PeriodGen :=
  { g with acc := g.acc % 2 ^ 32, index := (g.index + 1) % 4, wrapped := true }

/-- The CLK50 periods from now up to the one in which the accumulator wraps. -/
def PeriodGen.toWrap (g : PeriodGen) : Nat := 1 + (2 ^ 32 - (g.acc + g.now) + g.increment - 1) / g.increment

/-- The CLK50 periods up to the loss limit; 0 when the timer stands there. -/
def PeriodGen.toLoss (g : PeriodGen) : Nat := g.configured.lossLimit - g.loss

/-! ## The requests -/

/-- SET_STANDARD (R183, R88). The value is checked first, as the text has it (log 12). -/
def setStandard (standard : Nat) (s : State) : State × Reply :=
  match standardOf standard with
  | none => refuse .badParam s
  | some std =>
    inSafe s true fun t =>
      let g := t.period.setStandard std
      accept
        (convertAll std (raiseIf (g.lock != t.period.lock) .reference { t with period := g }))
        (byte (standardCode (some g.configured)) ++ byte g.lock.code)

/-- What READ_PERIOD returns (R193, 10.6). -/
def periodBytes (g : PeriodGen) : List Byte :=
  byte g.lock.code ++ byte (standardCode (some g.configured)) ++ byte (standardCode g.detected) ++ boolByte g.mismatch
    ++ beBytes 2 g.increment ++ beInt 2 ((g.increment : Int) - g.configured.nominal) ++ boolByte g.lastE.isSome
    ++ beInt 8 (g.lastE.getD 0) ++ byte g.lockRun ++ byte g.unlockRun ++ beBytes 4 g.loss
    ++ boolByte (g.loss == g.configured.lossLimit) ++ byte g.index ++ beBytes 2 g.errors

/-- READ_PERIOD (R193). -/
def readPeriod (s : State) : State × Reply := accept s (periodBytes s.period)

/-! ## Meanings -/

/-- REF_PULSE (R184). -/
def execRefPulse (s : State) : Result := .next (unlessHeld s fun t => withPeriod t.period.pulse t)

/-- REFERENCE_LOSS: the loss timer reaches its limit, whatever it stood at; nothing when it stands there already (R185).
DESIGN CHOICE (log 6), unsafe: the row moves the loss timer alone, and leaves the accumulator and the interval timer
where they stand; PERIOD_EXPIRY and the idle steps run all three. -/
def execReferenceLoss (s : State) : Result :=
  .next (unlessHeld s fun t => if 0 < t.period.toLoss then withPeriod t.period.lose t else t)

/-- SET_STANDARD. -/
def execSetStandard (st standard : Nat) (s : State) : Result :=
  request .setStandard st s (fun _ t => setStandard standard t)

/-- READ_PERIOD. -/
def execReadPeriod (st : Nat) (s : State) : Result := request .readPeriod st s (fun _ t => readPeriod t)

end Sys2Proof.Machine
end

