-- ==== Sys2Proof/Machine/Stops.lean ====
section
/-! DEFINITION. The Stop Unit (07): the ESTOP line and the stop requests. The raising of a cause is in Control.lean. -/

namespace Sys2Proof.Machine

/-! ## The ESTOP line (R173, R174) -/

/-- The line taken at a level it has held for 1 ms (R173). `estopLineOpen` is the line as it stands, which RESTART takes
(R174); no row of the table moves the line without its level being taken (log 21). -/
def takeEstop (lineOpen : Bool) (s : State) : State :=
  let t := { s with estopLineOpen := lineOpen, stop := { s.stop with estopOpen := lineOpen } }
  if lineOpen then raiseCause .estop none .none t else t

/-- The Stop Unit emptied, with the ESTOP line as it stands (R174, R179): an open line puts ESTOP in the set as the first
cause, and raises no STOP. -/
def stopFromLine (lineOpen : Bool) : StopUnit :=
  if lineOpen then { (stopEmpty true).join .estop none .none with kind := .none } else stopEmpty false

/-! ## The requests -/

/-- STOP (R172). The answer is the kind in force and the mode, without the sub-kind, which the rule does not name. -/
def stop (kind : Nat) (st : Nat) (c : StationClass) (s : State) : State × Reply :=
  if c ≠ .safety ∧ c ≠ .supervisor ∧ holds s st = false then refuse .notHolder s
  else
    match stopKindOf kind with
    | none => refuse .badParam s
    | some k =>
      let t := raiseCause .operator none k s
      accept t (byte t.stop.kind.severity ++ byte t.motion.mode.code)

/-- The first cause, 0xFF when absent, then its port, 0xFF for a cause that no port raised (10.1, R212, log 10). -/
def firstBytes : Option FirstCause → List Byte
  | none => byte 255 ++ byte 255
  | some f => byte f.cause.bit ++ stationByte f.port

/-- The causes in the set in the order of R165, each with the ports of its attribution (R176, log 10). -/
def causeList (u : StopUnit) : List Byte :=
  countedList (u.inSet.map (fun c => byte c.bit ++ byte (u.attribution.ports c).toNat))

/-- The causes in the set in the order of R165, each with its kind and the ports of its attribution (R178, log 10). -/
def causeKindList (u : StopUnit) : List Byte :=
  countedList (u.inSet.map (fun c =>
    byte c.bit ++ byte (c.kind u.requested).severity ++ byte (u.attribution.ports c).toNat))

/-- The first cause names a port. -/
def firstHasPort : Option FirstCause → Bool
  | none => false
  | some f => f.port.isSome

/-- The flag byte of a CLEAR_STOP answer, before its first cause: bit 0 the first cause, bit 1 its port (R212, log 10). -/
def firstFlags (u : StopUnit) : List Byte := byte (u.first.isSome.toNat + 2 * (firstHasPort u.first).toNat)

/-- The flag byte of a READ_STOP answer, before its requested kind: bit 0 the requested kind, bit 1 the first cause, bit 2
its port (R212, log 10). -/
def stopFlags (u : StopUnit) : List Byte :=
  byte ((u.requested != .none).toNat + 2 * u.first.isSome.toNat + 4 * (firstHasPort u.first).toNat)

/-- The lowest-numbered port named in an attribution that is not UP (R175, check 3). -/
def standingPort (s : State) : Option Nat :=
  [0, 1, 2, 3].find? (fun i => s.stop.attribution.any.getLsbD i && (s.ports.get i).state != .up)

/-- The Motion Generator's move on a CLEAR_STOP that is taken (R67). -/
def clearMotion (s : State) : State :=
  match s.motion.mode with
  | .stopped .held => enterHold s
  | .stopped .braked => becomeSafe s
  | .safe | .hold | .stick | .cue | .evict | .stopping => s

/-- CLEAR_STOP (R175, R176). The answer is the mode, the causes with their attributions and the first cause, as they stood
before the set was emptied. -/
def clearStop (s : State) : State × Reply :=
  if s.motion.mode = .stopping then refuse .wrongState s
  else if s.stop.estopOpen then (s, ⟨.causePresent, byte 0x10⟩)
  else
    match standingPort s with
    | some i => (s, ⟨.causePresent, byte i⟩)
    | none =>
      let t := clearMotion { s with stop := stopEmpty s.stop.estopOpen }
      accept t (byte t.motion.mode.code ++ causeList s.stop ++ firstFlags s.stop ++ firstBytes s.stop.first)

/-- READ_STOP (R178), in the order of the rule; an absent requested kind is NONE, which its flag tells, and the ESTOP state is
one byte, OPEN 1 and CLOSED 0, a code that 10.1 does not give (DESIGN CHOICE, log 10). -/
def readStop (s : State) : State × Reply :=
  accept s (byte s.stop.kind.severity ++ modeBytes s.motion.mode ++ causeKindList s.stop ++ stopFlags s.stop
    ++ byte s.stop.requested.severity ++ firstBytes s.stop.first ++ boolByte s.stop.estopOpen)

/-! ## Meanings -/

/-- ESTOP_LINE_CHANGE (R173). While RESET is asserted the level is the pin's only, and the release takes it (R174). -/
def execEstopLineChange (lineOpen : Bool) (s : State) : Result :=
  .next (if s.resetHeld then { s with estopLineOpen := lineOpen } else takeEstop lineOpen s)

/-- STOP. -/
def execStop (st kind : Nat) (s : State) : Result := request .stop st s (stop kind st)

/-- CLEAR_STOP. -/
def execClearStop (st : Nat) (s : State) : Result := request .clearStop st s (fun _ t => clearStop t)

/-- READ_STOP. -/
def execReadStop (st : Nat) (s : State) : Result := request .readStop st s (fun _ t => readStop t)

end Sys2Proof.Machine
end

