-- ==== Sys2Proof/Machine/Winch.lean ====
section
/-! DEFINITION. The winch ports (06): states and training, speed classes, the setpoint and feedback exchange, the checks
of the drive, the pattern test, the receiver of each link (10.7), and the port requests. -/

namespace Sys2Proof.Machine

/-- Port `i` becomes `q`. -/
def withPort (i : Nat) (q : Port) (s : State) : State := { s with ports := s.ports.put i q }

/-- Port `i` becomes `q`, and PORT is raised when its state changed (R132). -/
def movePort (i : Nat) (q : Port) (s : State) : State :=
  raiseIf (q.state != (s.ports.get i).state) .port (withPort i q s)

/-! ## Entries and departures (R134, R139, R140) -/

/-- What belonged to the link that was up is dropped at a departure from UP (R134); the resolved class is none outside
UP (R141). In another state nothing changes. -/
def Port.dropLink (q : Port) : Port :=
  if q.state = .up then
    { q with measured := none, tension := none, lastSent := none, status := statusClear, candidate := none
             misses := 0, followRun := 0, highRun := 0, slackRun := 0, good := false, resolved := none }
  else q

/-- Every entry to TRAINING starts training afresh (R134). -/
def Port.enterTraining (q : Port) : Port :=
  { q.dropLink with state := .training, abilityRun := 0, feedbackRun := 0, silence := 0, runAbility := none
                    abilities := none, resolved := none, legacy := false }

/-- An entry to BREAK (R139). -/
def Port.enterBreak (why : BreakCause) (q : Port) : Port :=
  { q.dropLink with state := .break_, breakCause := why, breakLeft := 300 }

/-- An entry to OFF (R133). -/
def Port.enterOff (q : Port) : Port := { q.dropLink with state := .off }

/-- An entry to SLEEP (R155). -/
def Port.enterSleep (q : Port) : Port := { q.dropLink with state := .sleep }

/-- An entry to UP on a class (R140). -/
def Port.enterUp (k : SpeedClass) (q : Port) : Port :=
  { q with state := .up, resolved := some k, misses := 0, followRun := 0, highRun := 0, slackRun := 0, good := false
           status := statusClear, candidate := none, lastSent := none }

/-! ## Training (R135 to R138) -/

/-- A link resolved by ability frames (R136). -/
def Port.resolve (a : Ability) (q : Port) : Port :=
  match highestClass (q.allowed &&& a.classes) with
  | some k => { q with abilities := some a, legacy := false, measured := none, tension := none }.enterUp k
  | none => q.enterBreak .noCommonClass

/-- An ABILITY frame taken in TRAINING (R135, R136). -/
def Port.trainAbility (a : Ability) (q : Port) : Port :=
  let run := if 0 < q.abilityRun ∧ q.runAbility = some a then saturate q.abilityRun 3 else 1
  let q1 := { q with silence := 0, feedbackRun := 0, abilityRun := run, runAbility := some a }
  if run = 3 then q1.resolve a else q1

/-- The tension a FEEDBACK field carries, none for 65,535 (R145). -/
def tensionOf (n : Nat) : Option Nat := if n = 65535 then none else some n

/-- A legacy link resolved (R137). -/
def Port.resolveLegacy (measured tension : Nat) (q : Port) : Port :=
  if q.allowed.getLsbD 0 then
    { q with abilities := some { classes := 1#4, tension := true, test := false }, legacy := true
             measured := some measured, tension := tensionOf tension }.enterUp .a
  else q.enterBreak .noCommonClass

/-- A FEEDBACK frame taken in TRAINING (R135, R137). -/
def Port.trainFeedback (measured tension : Nat) (q : Port) : Port :=
  let run := saturate q.feedbackRun 16
  let q1 := { q with silence := 0, abilityRun := 0, runAbility := none, feedbackRun := run }
  if run = 16 then q1.resolveLegacy measured tension else q1

/-! ## Frames on the link (R213) -/

/-- A frame of the winch link: sync, type, payload, CRC. -/
def linkFrame (type : Nat) (payload : List Byte) : List Byte :=
  0xA5#8 :: (byte type ++ payload ++ beBytes 2 (crc (byte type ++ payload)))

/-- The ABILITY frame that a port sends: its allowed set, bits 4 and 5 clear. -/
def abilityFrame (q : Port) : List Byte := linkFrame 1 (byte q.allowed.toNat)

/-- The code of a command. -/
def Command.code : Command → Nat
  | .brake => 0
  | .follow => 1

/-- A SETPOINT frame (R144, R213). -/
def setpointFrame (sequence : Nat) (sent : Sent) (feed : Int) (k : Option SpeedClass) : List Byte :=
  linkFrame 2 (byte sequence ++ byte sent.command.code ++ beInt 4 sent.length ++ beInt 4 feed
    ++ byte (speedClassCode k))

/-- The line idle at this expiry. -/
def Port.quiet (q : Port) : Port := { q with lineOut := [] }

/-! ## The pattern test (R157) -/

/-- The stages of a generator, each at 1. -/
def genStart : Pattern → Nat
  | .prbs9 => 511
  | .prbs15 => 32767

/-- One bit of a generator: its output, the last stage, and its next state (PRESUMED, log 11). Stage `j` is bit `j - 1`. -/
def genBit (p : Pattern) (g : Nat) : Bool × Nat :=
  match p with
  | .prbs9 => (g.testBit 8, (2 * g + (g.testBit 8 != g.testBit 4).toNat) % 512)
  | .prbs15 => (g.testBit 14, (2 * g + (g.testBit 14 != g.testBit 13).toNat) % 32768)

/-- `n` bits of a generator as a number, the first bit the least significant, with the state after them. -/
def genBits (p : Pattern) : Nat → Nat → Nat × Nat
  | 0, g => (0, g)
  | n + 1, g => ((genBit p g).1.toNat + 2 * (genBits p n (genBit p g).2).1, (genBits p n (genBit p g).2).2)

/-- `n` bytes of a generator with the state after them (log 11). -/
def genBytes (p : Pattern) : Nat → Nat → List Byte × Nat
  | 0, g => ([], g)
  | n + 1, g =>
    (BitVec.ofNat 8 (genBits p 8 g).1 :: (genBytes p n (genBits p 8 g).2).1, (genBytes p n (genBits p 8 g).2).2)

/-- A test record at its start (R156). -/
def testStart (p : Pattern) (l : Loop) : TestRecord :=
  { pattern := p, loop := l, result := .running, compared := 0, errors := 0, sendGen := genStart p
    checkGen := genStart p, outstanding := .none }

/-- The result after a frame is judged (R157). -/
def judgedResult (ok : Bool) (compared errors : Nat) (r : TestResult) : TestResult :=
  match r with
  | .running => if !ok then .fail else if 1000 ≤ compared ∧ errors = 0 then .pass else .running
  | .pass => if ok then .pass else .fail
  | .none => .none
  | .fail => .fail

/-- A frame judged, good or an error (R157). -/
def TestRecord.judge (ok : Bool) (r : TestRecord) : TestRecord :=
  let compared := saturate r.compared 65535
  let errors := if ok then r.errors else saturate r.errors 65535
  { r with compared := compared, errors := errors, result := judgedResult ok compared errors r.result }

/-- `n` errors judged one after another. -/
def TestRecord.judgeErrors : Nat → TestRecord → TestRecord
  | 0, r => r
  | n + 1, r => judgeErrors n (r.judge false)

/-- The frame sent at the previous expiry is judged at this one (R157): one that did not come back is an error, and so is
every further frame that came back for it (log 13). -/
def TestRecord.judgeLast (r : TestRecord) : TestRecord :=
  match r.outstanding with
  | .none => r
  | .sent _ back further => (r.judge (back.getD false)).judgeErrors further

/-- The next frame: the sending generator's bytes go out, the checking generator's are what should come back. On the
INTERNAL loop the part takes them back from inside (R132, R157). -/
def TestRecord.send (r : TestRecord) : TestRecord :=
  let out := genBytes r.pattern 32 r.sendGen
  let due := genBytes r.pattern 32 r.checkGen
  { r with
    sendGen := out.2, checkGen := due.2
    outstanding := .sent due.1 (if r.loop = .internal then some (out.1 == due.1) else none) 0 }

/-- A TEST frame back on the EXTERNAL loop, to be judged at the next expiry (R157): compared, an error when the check
sequence is bad (`none`), a further frame when one was already back; discarded before the first frame is sent. -/
def TestRecord.takeBack (payload : Option (List Byte)) (r : TestRecord) : TestRecord :=
  match r.outstanding with
  | .none => r
  | .sent expected none further => { r with outstanding := .sent expected (some (payload == some expected)) further }
  | .sent expected (some ok) further => { r with outstanding := .sent expected (some ok) (further + 1) }

/-- The test record cleared by PORT_CLEAR or RESTART (R157, R158, R160). -/
def Port.clearTest (q : Port) : Port :=
  if q.state = .test then { q with test := testStart q.test.pattern q.test.loop }
  else { q with test := { testStart q.test.pattern q.test.loop with result := .none } }

/-- PORT_CLEAR of one port, which is also RESTART's part of it (R131, R160). -/
def Port.cleared (q : Port) : Port := { q with badFrames := 0, missTotal := 0, tensionWindow := none }.clearTest

/-! ## At a period expiry -/

/-- TRAINING at an expiry: an ABILITY frame is sent and silence counted; at 200 training gives up (R135, R138). -/
def Port.trainStep (q : Port) : Port :=
  let q1 := { q with silence := saturate q.silence 200, lineOut := abilityFrame q }
  if q1.silence = 200 then q1.enterBreak .silent else q1

/-- BREAK at an expiry: break remaining falls by one, and at 0 training begins (R139). -/
def Port.breakStep (q : Port) : Port :=
  if q.breakLeft ≤ 1 then { q.quiet with breakLeft := 0 }.enterTraining else { q.quiet with breakLeft := q.breakLeft - 1 }

/-- TEST at an expiry: the last frame judged and the next sent; on the INTERNAL loop nothing goes out (R156, R157). -/
def Port.testStep (q : Port) : Port :=
  { q with
    test := q.test.judgeLast.send
    lineOut := match q.test.loop with
      | .internal => []
      | .external => linkFrame 4 (genBytes q.test.pattern 32 q.test.sendGen).1 }

/-- The setpoint sent at the previous expiry was not answered (R140, R147). -/
def Port.missed (q : Port) : Bool := !q.good && q.lastSent.isSome

/-- A miss counted (R147). -/
def Port.countMiss (q : Port) : Port :=
  { q.quiet with misses := saturate q.misses 3, missTotal := saturate q.missTotal 65535 }

/-- The miss check of an UP port (R147). -/
def missCheck (i : Nat) (s : State) : State :=
  let q := s.ports.get i
  if q.missed then
    if 2 ≤ q.misses then raisePortCause .portLost i (movePort i (q.countMiss.enterBreak .missed) s)
    else withPort i q.countMiss s
  else withPort i q.quiet s

/-- What port `i` does at an expiry by its state, short of a setpoint. -/
def portCheck (i : Nat) (s : State) : State :=
  let q := s.ports.get i
  match q.state with
  | .training => movePort i q.trainStep s
  | .break_ => movePort i q.breakStep s
  | .up => missCheck i s
  | .test => withPort i q.testStep s
  | .off | .sleep => withPort i q.quiet s

/-- The setpoint of an UP port (R144). -/
def sendSetpoint (i : Nat) (s : State) : State :=
  let q := s.ports.get i
  if q.state = .up then
    let follow := s.motion.mode.following && allUp s.ports
    let sent : Sent :=
      if follow then { command := .follow, length := ((s.motion.lengths.map (Quad.get · i)).getD 0) }
      else { command := .brake, length := ((q.measured.getD 0 : Nat) : Int) }
    let n := (q.sequence + 1) % 256
    withPort i
      { q with
        sequence := n, good := false, lastSent := some sent
        lineOut := setpointFrame n sent (if follow then s.motion.feed.get i else 0) (systemClass s.ports) } s
  else s

/-- The four ports at a period expiry: every state's work and miss check first, then the setpoints (log 14). -/
def portsExpiry (s : State) : State :=
  let s1 := portCheck 3 (portCheck 2 (portCheck 1 (portCheck 0 s)))
  sendSetpoint 3 (sendSetpoint 2 (sendSetpoint 1 (sendSetpoint 0 s1)))

/-! ## Speed classes while up (R142, R143) -/

/-- The intersection worked out again in UP, with the allowed set and the drive's offer as they now stand in `q`: LOST_CLASS
with its cause, a derate, or the class taken (R142). -/
def reclass (i : Nat) (q : Port) (classes : BitVec 4) (s : State) : State :=
  match highestClass (q.allowed &&& classes) with
  | none => raisePortCause .portLost i (movePort i (q.enterBreak .lostClass) s)
  | some k =>
    raiseIf (match q.resolved with
      | some old => decide (k.rank < old.rank)
      | none => false) .derate (withPort i { q with resolved := some k } s)

/-! ## Feedback in UP (R145 to R154) -/

/-- The debounce: the debounced status and the candidate after a good frame's word (R149). -/
def debounce (q : Port) (w : DriveStatus) : DriveStatus × Option DriveStatus :=
  if w = q.status then (q.status, none)
  else if q.candidate = some w then (w, none)
  else (q.status, some w)

/-- The last setpoint sent carried FOLLOW; its demand length (R150, R151). -/
def Port.followed (q : Port) : Option Int :=
  match q.lastSent with
  | some { command := .follow, length := n } => some n
  | some { command := .brake, length := _ } => none
  | none => none

/-- The tension a good frame gives the port (R146). -/
def Port.frameTension (q : Port) (tension : Nat) : Option Nat :=
  match q.abilities with
  | some a => if a.tension then tensionOf tension else none
  | none => none

/-- The tension window widened (R154). -/
def widen (w : Option (Nat × Nat)) (t : Option Nat) : Option (Nat × Nat) :=
  match t, w with
  | none, _ => w
  | some x, none => some (x, x)
  | some x, some (lo, hi) => some (min lo x, max hi x)

/-- The following run after a good frame (R151). -/
def followRunAfter (lim : PortLimits) (q : Port) (measured : Nat) : Nat :=
  match q.followed with
  | some d => if lim.following * 1000 < (d - (measured : Int)).natAbs then saturate q.followRun 3 else 0
  | none => 0

/-- The high-tension run after a good frame (R152). -/
def highRunAfter (lim : PortLimits) (q : Port) (t : Option Nat) : Nat :=
  match t with
  | some x => if lim.tMax < x then saturate q.highRun 2 else 0
  | none => 0

/-- The slack run after a good frame (R153). -/
def slackRunAfter (lim : PortLimits) (q : Port) (t : Option Nat) : Nat :=
  match t, q.followed with
  | some x, some _ => if x < lim.tMin then saturate q.slackRun 5 else 0
  | _, _ => 0

/-- The port after a good frame (R145 to R154). -/
def goodFrame (lim : PortLimits) (measured tension : Nat) (w : DriveStatus) (q : Port) : Port :=
  let t := q.frameTension tension
  { q with
    good := true, measured := some measured, tension := t, misses := 0, tensionWindow := widen q.tensionWindow t
    status := (debounce q w).1, candidate := (debounce q w).2, followRun := followRunAfter lim q measured
    highRun := highRunAfter lim q t, slackRun := slackRunAfter lim q t }

/-- The change of the debounced status raises DRIVE_FAULT (R150). -/
def faultChange (q r : Port) : Bool :=
  (r.status.fault != 0 && r.status.fault != q.status.fault)
    || (q.status.ready && !r.status.ready && q.followed.isSome)

/-- A cause raised when its condition holds. -/
def raiseWhen (b : Bool) (c : Cause) (i : Nat) (s : State) : State := if b then raisePortCause c i s else s

/-- A good FEEDBACK frame with all that it sets off (R145 to R154); the causes in the order of log 18. -/
def takeGood (i measured tension : Nat) (w : DriveStatus) (s : State) : State :=
  let q := s.ports.get i
  let r := goodFrame s.portLimits measured tension w q
  raiseWhen (r.slackRun == 5 && q.slackRun != 5) .slack i
    (raiseWhen (r.highRun == 2 && q.highRun != 2) .tensionHigh i
      (raiseWhen (r.followRun == 3 && q.followRun != 3) .following i
        (raiseWhen (faultChange q r) .driveFault i
          (raiseIf (!q.status.tempWarn && r.status.tempWarn) .port (withPort i r s)))))

/-! ## Frames from the drive -/

/-- A valid ABILITY frame, by the port's state (R132, R136, R142). -/
def driveAbility (i : Nat) (a : Ability) (s : State) : State :=
  let q := s.ports.get i
  match q.state with
  | .training => movePort i (q.trainAbility a) s
  | .up => reclass i { q with abilities := some a, legacy := false } a.classes s
  | .off | .break_ | .sleep | .test => s

/-- A FEEDBACK frame with a correct check sequence, by the port's state (R132, R137, R145). -/
def driveFeedback (i echo measured tension status : Nat) (s : State) : State :=
  let q := s.ports.get i
  match q.state with
  | .training => movePort i (q.trainFeedback measured tension) s
  | .up => if echo = q.sequence ∧ q.good = false then takeGood i measured tension (driveStatusOf status) s else s
  | .off | .break_ | .sleep | .test => s

/-- A WAKE frame with a correct check sequence, by the port's state (R155). -/
def driveWake (i : Nat) (s : State) : State :=
  let q := s.ports.get i
  match q.state with
  | .sleep => raiseEvent .portWake (movePort i q.enterTraining s)
  | .off | .training | .break_ | .up | .test => s

/-- A TEST frame with a correct check sequence, by the port's state (R132, R157): on the INTERNAL loop the line's
characters are discarded (R214). -/
def driveTest (i : Nat) (payload : List Byte) (s : State) : State :=
  let q := s.ports.get i
  if q.state = .test ∧ q.test.loop = .external then withPort i { q with test := q.test.takeBack (some payload) } s else s

/-- A frame with a bad check sequence, by the port's state (R132, R135, R214). -/
def badCheck (i : Nat) (s : State) : State :=
  let q := s.ports.get i
  let n := saturate q.badFrames 65535
  match q.state with
  | .training =>
    withPort i { q with badFrames := n, abilityRun := 0, feedbackRun := 0, runAbility := none } s
  | .up | .sleep => withPort i { q with badFrames := n } s
  | .test => if q.test.loop = .external then withPort i { q with test := q.test.takeBack none } s else s
  | .off | .break_ => s

/-! ## The receiver (R214) -/

/-- The payload bytes of a known type. -/
def payloadBytes : Nat → Option Nat
  | 1 => some 1
  | 2 => some 11
  | 3 => some 8
  | 4 => some 32
  | 5 => some 0
  | _ => none

/-- A frame with a correct check sequence handed to the port as a frame of its type (R132, R214). -/
def deliver (i type : Nat) (payload : List Byte) (s : State) : State :=
  match type with
  | 1 => driveAbility i (abilityOf (field payload 0 1)) s
  | 3 => driveFeedback i (field payload 0 1) (field payload 1 4) (field payload 5 2) (field payload 7 1) s
  | 4 => driveTest i payload s
  | 5 => driveWake i s
  | _ => s

/-- The receiver over the characters `buf`, at most `fuel` of them dropped or taken: it hunts for a sync, waits for a
frame to be complete, and hands each frame on (R214). What is left waits in the port. -/
def scanWinch : Nat → Nat → List Byte → State → State
  | 0, i, buf, s => withPort i { s.ports.get i with rx := buf } s
  | fuel + 1, i, buf, s =>
    match buf with
    | [] => withPort i { s.ports.get i with rx := [] } s
    | b :: rest =>
      if b ≠ 0xA5#8 then scanWinch fuel i rest s
      else
        match rest with
        | [] => withPort i { s.ports.get i with rx := buf } s
        | t :: body =>
          match payloadBytes t.toNat with
          | none => scanWinch fuel i rest s
          | some n =>
            if body.length < n + 2 then withPort i { s.ports.get i with rx := buf } s
            else if field body n 2 = crc (t :: body.take n) then
              scanWinch fuel i (body.drop (n + 2)) (deliver i t.toNat (body.take n) s)
            else scanWinch fuel i rest (badCheck i s)

/-- The receiver run over `buf`; the time since the sync starts again unless the same sync still stands at the front
(log 20). -/
def receive (i : Nat) (buf : List Byte) (s : State) : State :=
  let t := scanWinch (buf.length + 1) i buf s
  if (t.ports.get i).rx = buf ∧ buf.length ≠ 1 then t else withPort i { t.ports.get i with rxSince := 0 } t

/-- The port runs a test on the INTERNAL loop: the line's characters are discarded (R214). -/
def Port.internalTest (q : Port) : Bool := q.state == .test && q.test.loop == .internal

/-- The frame in the receiver times out: a bad check sequence, and hunting resumes after its sync (R214). -/
def timeOutWinch (i : Nat) (s : State) : State :=
  match (s.ports.get i).rx with
  | [] => s
  | _ :: rest =>
    let t := badCheck i s
    receive i rest (withPort i { t.ports.get i with rxSince := 0 } t)

/-! ## The requests -/

/-- A port number above 3 is refused BAD_PARAM; then PORT_CONTROL is taken in SAFE and STOPPED/BRAKED (R133, log 12). -/
def controlPort (i : Nat) (s : State) (act : Port → Option Port) : State × Reply :=
  if 3 < i then refuse .badParam s
  else if s.motion.mode ≠ .safe ∧ s.motion.mode ≠ .stopped .braked then refuse .wrongState s
  else
    match act (s.ports.get i) with
    | none => refuse .wrongState s
    | some q => accept (movePort i q s) (byte q.state.code)

/-- PORT_CONTROL ENABLE (R133). -/
def actEnable (q : Port) : Option Port := if q.state = .off then some q.enterTraining else none

/-- PORT_CONTROL DISABLE (R133). -/
def actDisable (q : Port) : Option Port := some (if q.state = .off then q else q.enterOff)

/-- PORT_CONTROL RETRAIN (R133). -/
def actRetrain (q : Port) : Option Port := if q.state = .off then none else some (q.enterBreak .retrain)

/-- PORT_CONTROL SLEEP (R133). -/
def actSleep (q : Port) : Option Port := if q.state = .up then some q.enterSleep else none

/-- PORT_CONTROL WAKE (R133). -/
def actWake (q : Port) : Option Port := if q.state = .sleep then some q.enterTraining else none

/-- SET_ABILITY (R143). -/
def setAbility (i classes : Nat) (s : State) : State × Reply :=
  match classSetOf classes with
  | none => refuse .badParam s
  | some set =>
    if 3 < i then refuse .badParam s
    else
      let q := { s.ports.get i with allowed := set }
      let t := match q.state, q.abilities with
        | .up, some a => reclass i q a.classes s
        | _, _ => withPort i q s
      accept t (byte set.toNat ++ byte (speedClassCode (t.ports.get i).resolved))

/-- The test record as an answer carries it (log 10). -/
def testBytes (r : TestRecord) : List Byte :=
  byte r.pattern.code ++ byte r.loop.code ++ byte r.result.code ++ beBytes 2 r.compared ++ beBytes 2 r.errors

/-- The port's state and test record: the answer to PORT_TEST (R158). -/
def testAnswer (i : Nat) (s : State) : List Byte := byte (s.ports.get i).state.code ++ testBytes (s.ports.get i).test

/-- The drive abilities are present and say the drive supports the test (R156). -/
def Port.testSupport (q : Port) : Bool :=
  match q.abilities with
  | some a => a.test
  | none => false

/-- PORT_TEST START (R156). DESIGN CHOICE (log 20), unsafe: the characters of a frame half received stay in the receiver, on
either loop. -/
def portTestStart (i pattern loop : Nat) (s : State) : State × Reply :=
  match patternOf pattern, loopOf loop with
  | some p, some l =>
    let q := s.ports.get i
    if 3 < i then refuse .badParam s
    else if s.motion.mode ≠ .safe then refuse .wrongState s
    else if q.state = .off ∨ q.state = .sleep then refuse .wrongState s
    else if l = .external ∧ q.testSupport = false then refuse .notPermitted s
    else
      let t := movePort i { q.dropLink with state := .test, test := testStart p l } s
      accept t (testAnswer i t)
  | _, _ => refuse .badParam s

/-- PORT_TEST STOP (R158). -/
def portTestStop (i : Nat) (s : State) : State × Reply :=
  if 3 < i then refuse .badParam s
  else
    let t := if (s.ports.get i).state = .test then movePort i (s.ports.get i).enterTraining s else s
    accept t (testAnswer i t)

/-- PORT_CLEAR (R160): a port, or 0xFF for ALL (10.3). -/
def portClear (i : Nat) (s : State) : State × Reply :=
  if i = 255 then accept { s with ports := s.ports.map Port.cleared } []
  else if 3 < i then refuse .badParam s
  else accept (withPort i (s.ports.get i).cleared s) []

/-- SET_PORT_LIMITS (R159). -/
def setPortLimits (following tMin tMax tolerance : Nat) (s : State) : State × Reply :=
  inSafe s true fun t =>
    let l : PortLimits :=
      { following := clampNat following 1 1000, tMin := clampNat tMin 0 65534, tMax := clampNat tMax 0 65534
        tolerance := clampNat tolerance 1 1000 }
    accept { t with portLimits := l }
      (beBytes 2 l.following ++ beBytes 2 l.tMin ++ beBytes 2 l.tMax ++ beBytes 2 l.tolerance)

/-- Which optional fields of a PORT_READ answer are present (R212, log 10). -/
def presence (q : Port) : List Byte :=
  byte (q.abilities.isSome.toNat + 2 * q.lastSent.isSome.toNat + 4 * q.measured.isSome.toNat
    + 8 * q.tension.isSome.toNat + 16 * q.candidate.isSome.toNat + 32 * q.tensionWindow.isSome.toNat)

/-- A tension in N, 65,535 when absent (R145, R212, 10.7). -/
def tensionBytes (t : Option Nat) : List Byte := beBytes 2 (t.getD 65535)

/-- What PORT_READ returns, in the order of R161; last, whether the clear option was applied. DESIGN CHOICE (log 10): the
abilities and the status words go as the link frames carry them, one byte each. -/
def portBytes (q : Port) (l : PortLimits) (applied : Bool) : List Byte :=
  byte q.state.code ++ byte q.breakCause.code ++ beBytes 2 q.breakLeft ++ byte q.allowed.toNat ++ presence q
    ++ ((q.abilities.map abilityByte).getD (byte 0)) ++ byte (speedClassCode q.resolved) ++ boolByte q.legacy
    ++ byte q.abilityRun ++ byte q.feedbackRun ++ byte q.silence ++ byte q.sequence
    ++ ((q.lastSent.map (fun x => byte x.command.code ++ beInt 4 x.length)).getD (byte 0 ++ beBytes 4 0))
    ++ optBytes 4 q.measured ++ tensionBytes q.tension ++ statusByte q.status
    ++ ((q.candidate.map statusByte).getD (byte 0)) ++ byte q.misses ++ byte q.followRun ++ byte q.highRun
    ++ byte q.slackRun ++ beBytes 2 q.badFrames ++ beBytes 2 q.missTotal
    ++ tensionBytes (q.tensionWindow.map (·.1)) ++ tensionBytes (q.tensionWindow.map (·.2))
    ++ testBytes q.test ++ beBytes 2 l.following ++ beBytes 2 l.tMin ++ beBytes 2 l.tMax ++ beBytes 2 l.tolerance
    ++ boolByte applied

/-- PORT_READ (R161). -/
def portRead (i clear : Nat) (c : StationClass) (s : State) : State × Reply :=
  match yesNo clear with
  | none => refuse .badParam s
  | some asked =>
    if 3 < i then refuse .badParam s
    else
      let applied := asked && (c == .safety || c == .supervisor)
      let q := s.ports.get i
      accept (if applied then withPort i { q with tensionWindow := none } s else s) (portBytes q s.portLimits applied)

/-! ## Meanings -/

/-- TRAINING_SILENCE_EXPIRY: the expiry at which the silence count of a port in TRAINING reaches 200 (R138, log 5). -/
def execTrainingSilenceExpiry (port : Nat) (s : State) : Result :=
  .next (unlessHeld s fun t =>
    let q := t.ports.get port
    if q.state = .training ∧ 199 ≤ q.silence then movePort port q.trainStep t else t)

/-- BREAK_EXPIRY: the expiry at which break remaining reaches 0 (R139, log 5). -/
def execBreakExpiry (port : Nat) (s : State) : Result :=
  .next (unlessHeld s fun t =>
    let q := t.ports.get port
    if q.state = .break_ ∧ q.breakLeft ≤ 1 then movePort port q.breakStep t else t)

/-- CONSECUTIVE_MISS_LIMIT: the third consecutive miss of a port (R147, log 5). -/
def execConsecutiveMissLimit (port : Nat) (s : State) : Result :=
  .next (unlessHeld s fun t =>
    let q := t.ports.get port
    if q.state = .up ∧ q.missed = true ∧ 2 ≤ q.misses then missCheck port t else t)

/-- DRIVE_ABILITY_FRAME. -/
def execDriveAbilityFrame (port ability : Nat) (s : State) : Result :=
  .next (unlessHeld s (driveAbility port (abilityOf ability)))

/-- DRIVE_FEEDBACK_FRAME. -/
def execDriveFeedbackFrame (port echo measured tension status : Nat) (s : State) : Result :=
  .next (unlessHeld s (driveFeedback port echo measured tension status))

/-- DRIVE_WAKE_FRAME. -/
def execDriveWakeFrame (port : Nat) (s : State) : Result := .next (unlessHeld s (driveWake port))

/-- DRIVE_TEST_FRAME. -/
def execDriveTestFrame (port : Nat) (payload : List Byte) (s : State) : Result :=
  .next (unlessHeld s (driveTest port payload))

/-- WINCH_FRAME_BAD_CHECK. -/
def execWinchFrameBadCheck (port : Nat) (s : State) : Result := .next (unlessHeld s (badCheck port))

/-- WINCH_FRAME_TIMEOUT: the frame in the port's receiver times out; nothing when there is none (log 6). -/
def execWinchFrameTimeout (port : Nat) (s : State) : Result := .next (unlessHeld s (timeOutWinch port))

/-- WINCH_CHARACTER (R214). -/
def execWinchCharacter (port : Nat) (b : Byte) (s : State) : Result :=
  .next (unlessHeld s fun t =>
    if (t.ports.get port).internalTest then t else receive port ((t.ports.get port).rx ++ [b]) t)

/-- PORT_CONTROL with the action ENABLE. -/
def execPortControlEnable (st port : Nat) (s : State) : Result :=
  request .portControl st s (fun _ t => controlPort port t actEnable)

/-- PORT_CONTROL with the action DISABLE. -/
def execPortControlDisable (st port : Nat) (s : State) : Result :=
  request .portControl st s (fun _ t => controlPort port t actDisable)

/-- PORT_CONTROL with the action RETRAIN. -/
def execPortControlRetrain (st port : Nat) (s : State) : Result :=
  request .portControl st s (fun _ t => controlPort port t actRetrain)

/-- PORT_CONTROL with the action SLEEP. -/
def execPortControlSleep (st port : Nat) (s : State) : Result :=
  request .portControl st s (fun _ t => controlPort port t actSleep)

/-- PORT_CONTROL with the action WAKE. -/
def execPortControlWake (st port : Nat) (s : State) : Result :=
  request .portControl st s (fun _ t => controlPort port t actWake)

/-- SET_ABILITY. -/
def execSetAbility (st port classes : Nat) (s : State) : Result :=
  request .setAbility st s (fun _ t => setAbility port classes t)

/-- PORT_TEST with the command START. -/
def execPortTestStart (st port pattern loop : Nat) (s : State) : Result :=
  request .portTest st s (fun _ t => portTestStart port pattern loop t)

/-- PORT_TEST with the command STOP. -/
def execPortTestStop (st port : Nat) (s : State) : Result := request .portTest st s (fun _ t => portTestStop port t)

/-- PORT_CLEAR. -/
def execPortClear (st port : Nat) (s : State) : Result := request .portClear st s (fun _ t => portClear port t)

/-- SET_PORT_LIMITS. -/
def execSetPortLimits (st following tMin tMax tolerance : Nat) (s : State) : Result :=
  request .setPortLimits st s (fun _ t => setPortLimits following tMin tMax tolerance t)

/-- PORT_READ. -/
def execPortRead (st port clear : Nat) (s : State) : Result := request .portRead st s (portRead port clear)

end Sys2Proof.Machine
end

