-- ==== Sys2Proof/Machine/Station.lean ====
section
/-! DEFINITION. The Station Port (09): the resets, its own requests, and the line: the receiver, the taking of frames and
their service. -/

namespace Sys2Proof.Machine

/-! ## Resets (R196, R209) -/

/-- The part at the release of RESET: every block at its power-on values, the straps read, the ESTOP line taken (R174,
R196). The queue of commands is the model's and is kept. -/
def powerOn (rate : Nat) (lineOpen : Bool) (s : State) : State :=
  { powerOnValues rate with stop := stopFromLine lineOpen, estopLineOpen := lineOpen, pending := s.pending }

/-- RESET asserted: every block held at its power-on values (R196, log 8). -/
def holdReset (s : State) : State :=
  { powerOnValues s.station.rate with
    estopLineOpen := s.estopLineOpen, resetHeld := true, pending := s.pending }

/-- What RESTART does in every block (R209 and the rules it names); the event set is emptied last. Every standing PENDING
zone is promoted at the next expiry (R33), so none waits for one more. -/
def restarted (s : State) : State :=
  { s with
    air := seeExpiry (emptyOccupied (clearAir s.air))
    motion := { motionPowerOn with lim := s.motion.lim }
    cue := { s.cue with entries := [], running := false, failure := none }
    auth := { authorityPowerOn with
      start := s.auth.start, hold := s.auth.hold, deadband := s.auth.deadband, swap := s.auth.swap
      mirrorX := s.auth.mirrorX, mirrorY := s.auth.mirrorY }
    ports := s.ports.map Port.cleared
    stop := stopFromLine s.estopLineOpen
    station := { s.station with silence := 0, events := 0#14 } }

/-- RESTART (R209). -/
def restart (s : State) : State × Reply :=
  if s.motion.mode = .safe ∨ s.motion.mode = .stopped .braked then accept (restarted s) [] else refuse .wrongState s

/-! ## The port's own requests -/

/-- What READ_STATUS returns (R208, 10.6). -/
def statusBytes (c : StationClass) (s : State) : List Byte :=
  byte c.code ++ modeBytes s.motion.mode ++ byte s.span.validity.code ++ byte (speedClassCode (systemClass s.ports))
    ++ s.ports.list.flatMap (fun q => byte q.state.code) ++ stationByte s.auth.holder ++ basisByte s.auth
    ++ byte s.cue.entries.length ++ boolByte (windowFlag s.cue) ++ byte s.period.lock.code
    ++ boolByte s.period.mismatch ++ byte s.stop.kind.severity ++ byte s.stop.causes.toNat
    ++ beBytes 2 s.station.events.toNat ++ beBytes 2 s.station.frameErrors ++ beBytes 2 s.station.silence
    ++ beBytes 2 s.station.watchdog

/-- READ_STATUS (R208). -/
def readStatus (c : StationClass) (s : State) : State × Reply := accept s (statusBytes c s)

/-- READ_EVENTS (R204): the set is returned and exactly its flags are cleared. -/
def readEvents (s : State) : State × Reply :=
  accept { s with station := { s.station with events := 0#14 } } (beBytes 2 s.station.events.toNat)

/-- SET_ATTENTION_MASK (R205). -/
def setAttentionMask (mask : Nat) (s : State) : State × Reply :=
  if 16384 ≤ mask then refuse .badParam s
  else accept { s with station := { s.station with mask := BitVec.ofNat 14 mask } } (beBytes 2 mask)

/-- SET_WATCHDOG (R207). -/
def setWatchdog (periods : Nat) (s : State) : State × Reply :=
  let w := clampNat periods 10 1000
  accept { s with station := { s.station with watchdog := w } } (beBytes 2 w)

/-- SET_STATION_CLASS (R200), with the Arbiter's part for VIEWER and ABSENT (R119). -/
def setStationClass (station cls : Nat) (s : State) : State × Reply :=
  match givenClassOf cls with
  | none => refuse .badParam s
  | some k =>
    if station = 0 ∨ 7 < station then refuse .badParam s
    else
      let t := { s with station := { s.station with classes := s.station.classes.set (station - 1) k } }
      accept (if k = .viewer ∨ k = .absent then classLoss station t else t) (byte (classOf s station).code)

/-! ## Meanings of the port's own requests and of the resets -/

/-- POWER_ON_RESET. -/
def execPowerOnReset (srate1 srate0 estopOpen : Bool) (s : State) : Result :=
  .next (powerOn (rateOf srate1 srate0) estopOpen s)

/-- RESET_ASSERTED. -/
def execResetAsserted (s : State) : Result := .next (holdReset s)

/-- READ_STATUS. -/
def execReadStatus (st : Nat) (s : State) : Result := request .readStatus st s readStatus

/-- READ_EVENTS. -/
def execReadEvents (st : Nat) (s : State) : Result := request .readEvents st s (fun _ t => readEvents t)

/-- SET_ATTENTION_MASK. -/
def execSetAttentionMask (st mask : Nat) (s : State) : Result :=
  request .setAttentionMask st s (fun _ t => setAttentionMask mask t)

/-- SET_WATCHDOG. -/
def execSetWatchdog (st periods : Nat) (s : State) : Result :=
  request .setWatchdog st s (fun _ t => setWatchdog periods t)

/-- SET_STATION_CLASS. -/
def execSetStationClass (st station cls : Nat) (s : State) : Result :=
  request .setStationClass st s (fun _ t => setStationClass station cls t)

/-- RESTART. -/
def execRestart (st : Nat) (s : State) : Result := request .restart st s (fun _ t => restart t)

/-! ## Serving a frame (R199, R201) -/

/-- The meaning of a request's command; a command that is no request of 10.3 does nothing here. -/
def serve (i : Instr) (s : State) : Result :=
  match i with
  | .readStatus st => execReadStatus st s
  | .readEvents st => execReadEvents st s
  | .setAttentionMask st mask => execSetAttentionMask st mask s
  | .setWatchdog st periods => execSetWatchdog st periods s
  | .setStationClass st station cls => execSetStationClass st station cls s
  | .restart st => execRestart st s
  | .zoneCreate st kind box initial policy standing cap lifetime label =>
    execZoneCreate st kind box initial policy standing cap lifetime label s
  | .zoneAmend st handle changes box cap lifetime label => execZoneAmend st handle changes box cap lifetime label s
  | .zoneSuspend st handle => execZoneSuspend st handle s
  | .zoneResume st handle policy => execZoneResume st handle policy s
  | .zoneRetire st handle => execZoneRetire st handle s
  | .zoneClear st => execZoneClear st s
  | .zoneLookup st handle => execZoneLookup st handle s
  | .zoneFind st point => execZoneFind st point s
  | .zoneList st states owner => execZoneList st states owner s
  | .enable st p0 => execEnable st p0 s
  | .disable st => execDisable st s
  | .readMotion st => execReadMotion st s
  | .setAnchors st anchors offsets => execSetAnchors st anchors offsets s
  | .setFlightBox st box => execSetFlightBox st box s
  | .setPayout st payout lBase lStep => execSetPayout st payout lBase lStep s
  | .corrWindow st w0 w1 j0 j1 order => execCorrWindow st w0 w1 j0 j1 order s
  | .corrWrite st values => execCorrWrite st values s
  | .corrRead st n => execCorrRead st n s
  | .setLimits st settings => execSetLimits st settings s
  | .readGeometry st => execReadGeometry st s
  | .readLimits st => execReadLimits st s
  | .markSet st mark pos label => execMarkSet st mark pos label s
  | .markRetire st mark => execMarkRetire st mark s
  | .markRead st mark => execMarkRead st mark s
  | .cueAppend st mark cruise dwell flags => execCueAppend st mark cruise dwell flags s
  | .cueGo st => execCueGo st s
  | .cueHalt st => execCueHalt st s
  | .cueFlush st => execCueFlush st s
  | .cueRead st => execCueRead st s
  | .setCueWindow st w => execSetCueWindow st w s
  | .claim st => execClaim st s
  | .withdraw st => execWithdraw st s
  | .release st => execRelease st s
  | .preempt st => execPreempt st s
  | .selectMode st mode => execSelectMode st mode s
  | .stick st deflection scale flags => execStick st deflection scale flags s
  | .setOrientation st flags => execSetOrientation st flags s
  | .endSwap st => execEndSwap st s
  | .setStick st start hold deadband => execSetStick st start hold deadband s
  | .readAuthority st clear => execReadAuthority st clear s
  | .portControlEnable st port => execPortControlEnable st port s
  | .portControlDisable st port => execPortControlDisable st port s
  | .portControlRetrain st port => execPortControlRetrain st port s
  | .portControlSleep st port => execPortControlSleep st port s
  | .portControlWake st port => execPortControlWake st port s
  | .setAbility st port classes => execSetAbility st port classes s
  | .portTestStart st port pattern loop => execPortTestStart st port pattern loop s
  | .portTestStop st port => execPortTestStop st port s
  | .portClear st port => execPortClear st port s
  | .setPortLimits st following tMin tMax tolerance => execSetPortLimits st following tMin tMax tolerance s
  | .portRead st port clear => execPortRead st port clear s
  | .stop st kind => execStop st kind s
  | .clearStop st => execClearStop st s
  | .readStop st => execReadStop st s
  | .setStandard st standard => execSetStandard st standard s
  | .readPeriod st => execReadPeriod st s
  | .powerOnReset _ _ _ | .periodExpiry | .periodCommit | .cueDwellExpiry | .cueBlocked | .zoneLifetimeExpiry _
  | .backoffExpiry _ | .stickHoldExpiry | .watchdogExpiry | .trainingSilenceExpiry _ | .breakExpiry _
  | .consecutiveMissLimit _ | .refPulse | .referenceLoss | .estopLineChange _ | .stationCharacter _
  | .stationFrameTimeout | .answerSent | .driveAbilityFrame _ _ | .driveFeedbackFrame _ _ _ _ _ | .driveWakeFrame _
  | .driveTestFrame _ _ | .winchFrameBadCheck _ | .winchFrameTimeout _ | .resetAsserted | .unknownRequestFrame _ _
  | .winchCharacter _ _ => .next s

/-- The state an outcome leaves; a request's outcome is always a next state. -/
def stateAfter (s : State) : Result → State
  | .next t => t
  | .fault _ => s
  | .refused _ => s

/-- A good frame is taken: the checks of R201 in order, then the owner (R199). -/
def takeGoodFrame (st code : Nat) (ps : List Byte) (s : State) : State :=
  if classOf s st = .absent then refuseFrame st code .notPermitted s
  else
    match Req.ofCode code with
    | none => refuseFrame st code .unknownRequest s
    | some r =>
      if !permitted r (classOf s st) then refuseFrame st code .notPermitted s
      else
        match decodeRequest r st ps with
        | .badLength => refuseFrame st code .badLength s
        | .badParam => refuseFrame st code .badParam s
        | .command i => stateAfter s (serve i s)

/-! ## The receiver (R197, R198) -/

/-- The receive buffer and the receiver's state. -/
def withBuffer (buf : List Byte) (r : Receiver) (s : State) : State :=
  { s with station := { s.station with buffer := buf, receiver := r } }

/-- IN_FRAME on the sync that stands at the front now: its time goes on when the receiver was in it, else it starts. -/
def waiting : Receiver → Receiver
  | .hunting => .inFrame 0
  | .inFrame n => .inFrame n

/-- A frame error: counted, the sync removed, and HUNTING at the byte behind it (R197). -/
def frameError (rest : List Byte) (s : State) : State :=
  withBuffer rest .hunting
    { s with station := { s.station with frameErrors := saturate s.station.frameErrors 65535 } }

/-- What the receiver finds behind a sync (R197). -/
inductive Found where
  | incomplete
  | broken
  | good (station code : Nat) (params rest : List Byte)
  deriving DecidableEq, Repr

/-- The frame behind a sync, from the length byte on: incomplete, in error, or good with the bytes behind it (R197). -/
def frameBehind : List Byte → Found
  | [] => .incomplete
  | l :: body =>
    let n := l.toNat
    if n < 2 ∨ 248 < n then .broken
    else if body.length < n + 2 then .incomplete
    else if field body n 2 ≠ crc (l :: body.take n) then .broken
    else if 7 < field body 0 1 then .broken
    else .good (field body 0 1) (field body 1 1) ((body.take n).drop 2) (body.drop (n + 2))

/-- The receiver over its buffer, at most `fuel` bytes dropped or frames taken: it hunts, waits for the frame behind a
sync, and lets the oldest good frame be taken when no request is in service (R197, R199). -/
def scanStation : Nat → State → State
  | 0, s => s
  | fuel + 1, s =>
    match s.station.buffer with
    | [] => withBuffer [] .hunting s
    | b :: rest =>
      if b ≠ 0x5C#8 then scanStation fuel (withBuffer rest .hunting s)
      else
        match frameBehind rest with
        | .incomplete => withBuffer (b :: rest) (waiting s.station.receiver) s
        | .broken => scanStation fuel (frameError rest s)
        | .good st code ps behind =>
          if s.station.inService.isSome then withBuffer (b :: rest) (waiting s.station.receiver) s
          else scanStation fuel (takeGoodFrame st code ps (withBuffer behind .hunting s))

/-- The receiver run over everything it holds (log 19). -/
def scan (s : State) : State := scanStation (s.station.buffer.length + 1) s

/-- A character arrives: appended, or dropped with OVERRUN at a full buffer (R198). -/
def arriveChar (b : Byte) (s : State) : State :=
  if 512 ≤ s.station.buffer.length then raiseEvent .overrun s
  else scan { s with station := { s.station with buffer := s.station.buffer ++ [b] } }

/-- The frame in the receiver times out: a frame error, when it is not complete (R197). -/
def timeOutStation (s : State) : State :=
  match s.station.receiver, s.station.buffer with
  | .inFrame _, _ :: rest => if frameBehind rest = .incomplete then scan (frameError rest s) else s
  | _, _ => s

/-- The last byte of the answer has been sent: the next good frame is taken (R199). -/
def finishAnswer (s : State) : State :=
  if s.station.inService.isSome then scan { s with station := { s.station with inService := none } } else s

/-! ## Meanings of the line's steps -/

/-- STATION_CHARACTER (R198). -/
def execStationCharacter (b : Byte) (s : State) : Result := .next (unlessHeld s (arriveChar b))

/-- STATION_FRAME_TIMEOUT (R197); nothing when no frame is incomplete (log 6). -/
def execStationFrameTimeout (s : State) : Result := .next (unlessHeld s timeOutStation)

/-- ANSWER_SENT (R199); nothing when no answer is in service. -/
def execAnswerSent (s : State) : Result := .next (unlessHeld s finishAnswer)

/-- UNKNOWN_REQUEST_FRAME: a good frame whose code the part does not know (R201); a code it knows is no such frame and
changes nothing. -/
def execUnknownRequestFrame (st code : Nat) (s : State) : Result :=
  .next (unlessHeld s fun t =>
    if (Req.ofCode code).isSome then t
    else refuseFrame st code (if classOf t st = .absent then .notPermitted else .unknownRequest) t)

end Sys2Proof.Machine
end

