-- ==== Sys2Proof/Machine/Clock.lean ====
section
/-! DEFINITION. The clock of the whole part: the receivers' times, one CLK50 period, the run up to the wrap, and the
period expiry with the work of every block. -/

namespace Sys2Proof.Machine

/-! ## The receivers' times (R197, R214) -/

/-- The CLK50 periods of 256 character times at a line rate, a part of a period counted whole (R195, R197, log 6). -/
def frameTimeout : Nat → Nat
  | 0 => 1111112
  | 1 => 277778
  | 2 => 138889
  | _ => 69445

/-- The CLK50 periods until the frame in the station receiver times out, at least 1; none when no frame is incomplete
(R197). -/
def toStationTimeout (s : State) : Option Nat :=
  match s.station.receiver, s.station.buffer with
  | .inFrame n, _ :: rest =>
    if frameBehind rest = .incomplete then some (max 1 (frameTimeout s.station.rate - n)) else none
  | .inFrame _, [] => none
  | .hunting, _ => none

/-- The station frame time-out when its time has come (R197). -/
def stationTimer (s : State) : State :=
  match s.station.receiver with
  | .inFrame n => if frameTimeout s.station.rate ≤ n then timeOutStation s else s
  | .hunting => s

/-- `k` CLK50 periods of the receiver of port `i`: a frame still incomplete 40 character times after its sync, 10,000
CLK50 periods, times out on the way, and so does each one found behind it (R214). -/
def runReceiver : Nat → Nat → Nat → State → State
  | 0, _, _, s => s
  | fuel + 1, i, k, s =>
    let q := s.ports.get i
    if q.rx = [] then s
    else if q.rxSince + k < 10000 then withPort i { q with rxSince := q.rxSince + k } s
    else runReceiver fuel i (q.rxSince + k - 10000) (timeOutWinch i s)

/-- `k` CLK50 periods of the receiver of port `i`; each time-out takes a character away at least. -/
def runPort (i k : Nat) (s : State) : State := runReceiver ((s.ports.get i).rx.length + 1) i k s

/-- `k` CLK50 periods of the station receiver's time (R197). -/
def Receiver.run (k : Nat) : Receiver → Receiver
  | .hunting => .hunting
  | .inFrame n => .inFrame (n + k)

/-- `k` CLK50 periods of the receivers' times. -/
def runReceivers (k : Nat) (s : State) : State :=
  let t := runPort 3 k (runPort 2 k (runPort 1 k (runPort 0 k s)))
  { t with station := { t.station with receiver := t.station.receiver.run k } }

/-! ## The clock (R181) -/

/-- `k` CLK50 periods of the whole clock short of the wrap: a loss that falls in the last of them is taken. -/
def runClock (k : Nat) (s : State) : State :=
  let g := s.period.run k
  withPeriod (if 0 < s.period.toLoss ∧ s.period.toLoss ≤ k then g.lose else g) (runReceivers k s)

/-- `k` CLK50 periods of the clock and, when its time has come in the last of them, the station frame time-out. The next
CLK50 period adds N as all of this leaves it (R182). -/
def runTimers (k : Nat) (s : State) : State :=
  let t := stationTimer (runClock k s)
  { t with period := t.period.over }

/-- The CLK50 periods up to the next moment on the way to the wrap that may change N: a loss of reference, or a station
frame time-out with the request behind it. That of the wrap when neither comes before it. -/
def toNext (s : State) : Nat :=
  let k := match toStationTimeout s with
    | some n => min n s.period.toWrap
    | none => s.period.toWrap
  if 0 < s.period.toLoss then min s.period.toLoss k else k

/-- The clock from one such moment to the next and on up to the CLK50 period of the wrap, at most `fuel` moments. -/
def runToWrap : Nat → State → State
  | 0, s => runTimers s.period.toWrap s
  | fuel + 1, s =>
    if toNext s < s.period.toWrap then runToWrap fuel (runTimers (toNext s) s) else runTimers s.period.toWrap s

/-- The clock up to the wrap and through it (log 3). One loss may come on the way, and each station frame time-out takes
a byte out of the buffer. -/
def clockToWrap (s : State) : State :=
  let t := runToWrap (s.station.buffer.length + 2) s
  { t with period := t.period.wrap }

/-! ## The period expiry (R181) -/

/-- The Station Port's silence counter at an expiry (R206). -/
def silenceStep (s : State) : State :=
  match s.motion.mode with
  | .stick | .cue | .evict =>
    let t := { s with station := { s.station with silence := saturate s.station.silence 1000 } }
    if t.station.watchdog ≤ t.station.silence then raiseCause .stationSilent none .none t else t
  | .safe | .hold | .stopping | .stopped _ => s

/-- What every block does at a period expiry, in the order of log 4. -/
def expiryWork (s : State) : State :=
  silenceStep (portsExpiry (beginComputation (arbiterExpiry (promoteAtRest (countLifetimes s)))))

/-- A period expiry: a computation in flight has committed before it (R42), the clock runs to the wrap, and every block
does its work. -/
def periodExpiry (s : State) : State := expiryWork (clockToWrap (commitFlight s))

/-- One CLK50 period: the timers and the accumulator, the frame time-outs that fall due, and at a wrap the period
expiry (log 2). -/
def tick (s : State) : State :=
  let t := runTimers 1 s
  if 2 ^ 32 ≤ t.period.acc then
    let u := commitFlight t
    expiryWork { u with period := u.period.wrap }
  else t

/-! ## Meanings -/

/-- PERIOD_EXPIRY (R181). -/
def execPeriodExpiry (s : State) : Result := .next (unlessHeld s periodExpiry)

/-- WATCHDOG_EXPIRY: the expiry at which the silence counter reaches the watchdog setting (R206, log 5). -/
def execWatchdogExpiry (s : State) : Result :=
  .next (unlessHeld s fun t =>
    if t.station.watchdog ≤ saturate t.station.silence 1000 then silenceStep t else t)

end Sys2Proof.Machine
end

