-- ==== Sys2Proof/Machine/Dispatch.lean ====
section
/-! DEFINITION. One arm per command, each one direct call of its meaning. -/

namespace Sys2Proof.Machine

/-- The effect of a command on everything but the queue. -/
def exec (i : Instr) (s : State) : Host.Outcome State Fault Refusal :=
  match i with
  | .powerOnReset srate1 srate0 estopOpen => Sys2Proof.Machine.execPowerOnReset srate1 srate0 estopOpen s
  | .periodExpiry => Sys2Proof.Machine.execPeriodExpiry s
  | .periodCommit => Sys2Proof.Machine.execPeriodCommit s
  | .cueDwellExpiry => Sys2Proof.Machine.execCueDwellExpiry s
  | .cueBlocked => Sys2Proof.Machine.execCueBlocked s
  | .zoneLifetimeExpiry slot => Sys2Proof.Machine.execZoneLifetimeExpiry slot s
  | .backoffExpiry station => Sys2Proof.Machine.execBackoffExpiry station s
  | .stickHoldExpiry => Sys2Proof.Machine.execStickHoldExpiry s
  | .watchdogExpiry => Sys2Proof.Machine.execWatchdogExpiry s
  | .trainingSilenceExpiry port => Sys2Proof.Machine.execTrainingSilenceExpiry port s
  | .breakExpiry port => Sys2Proof.Machine.execBreakExpiry port s
  | .consecutiveMissLimit port => Sys2Proof.Machine.execConsecutiveMissLimit port s
  | .refPulse => Sys2Proof.Machine.execRefPulse s
  | .referenceLoss => Sys2Proof.Machine.execReferenceLoss s
  | .estopLineChange lineOpen => Sys2Proof.Machine.execEstopLineChange lineOpen s
  | .stationCharacter b => Sys2Proof.Machine.execStationCharacter b s
  | .stationFrameTimeout => Sys2Proof.Machine.execStationFrameTimeout s
  | .answerSent => Sys2Proof.Machine.execAnswerSent s
  | .readStatus st => Sys2Proof.Machine.execReadStatus st s
  | .readEvents st => Sys2Proof.Machine.execReadEvents st s
  | .setAttentionMask st mask => Sys2Proof.Machine.execSetAttentionMask st mask s
  | .setWatchdog st periods => Sys2Proof.Machine.execSetWatchdog st periods s
  | .setStationClass st station cls => Sys2Proof.Machine.execSetStationClass st station cls s
  | .restart st => Sys2Proof.Machine.execRestart st s
  | .zoneCreate st kind box initial policy standing cap lifetime label => Sys2Proof.Machine.execZoneCreate st kind box initial policy standing cap lifetime label s
  | .zoneAmend st handle changes box cap lifetime label => Sys2Proof.Machine.execZoneAmend st handle changes box cap lifetime label s
  | .zoneSuspend st handle => Sys2Proof.Machine.execZoneSuspend st handle s
  | .zoneResume st handle policy => Sys2Proof.Machine.execZoneResume st handle policy s
  | .zoneRetire st handle => Sys2Proof.Machine.execZoneRetire st handle s
  | .zoneClear st => Sys2Proof.Machine.execZoneClear st s
  | .zoneLookup st handle => Sys2Proof.Machine.execZoneLookup st handle s
  | .zoneFind st point => Sys2Proof.Machine.execZoneFind st point s
  | .zoneList st states owner => Sys2Proof.Machine.execZoneList st states owner s
  | .enable st p0 => Sys2Proof.Machine.execEnable st p0 s
  | .disable st => Sys2Proof.Machine.execDisable st s
  | .readMotion st => Sys2Proof.Machine.execReadMotion st s
  | .setAnchors st anchors offsets => Sys2Proof.Machine.execSetAnchors st anchors offsets s
  | .setFlightBox st box => Sys2Proof.Machine.execSetFlightBox st box s
  | .setPayout st payout lBase lStep => Sys2Proof.Machine.execSetPayout st payout lBase lStep s
  | .corrWindow st w0 w1 j0 j1 order => Sys2Proof.Machine.execCorrWindow st w0 w1 j0 j1 order s
  | .corrWrite st values => Sys2Proof.Machine.execCorrWrite st values s
  | .corrRead st n => Sys2Proof.Machine.execCorrRead st n s
  | .setLimits st settings => Sys2Proof.Machine.execSetLimits st settings s
  | .readGeometry st => Sys2Proof.Machine.execReadGeometry st s
  | .readLimits st => Sys2Proof.Machine.execReadLimits st s
  | .markSet st mark pos label => Sys2Proof.Machine.execMarkSet st mark pos label s
  | .markRetire st mark => Sys2Proof.Machine.execMarkRetire st mark s
  | .markRead st mark => Sys2Proof.Machine.execMarkRead st mark s
  | .cueAppend st mark cruise dwell flags => Sys2Proof.Machine.execCueAppend st mark cruise dwell flags s
  | .cueGo st => Sys2Proof.Machine.execCueGo st s
  | .cueHalt st => Sys2Proof.Machine.execCueHalt st s
  | .cueFlush st => Sys2Proof.Machine.execCueFlush st s
  | .cueRead st => Sys2Proof.Machine.execCueRead st s
  | .setCueWindow st w => Sys2Proof.Machine.execSetCueWindow st w s
  | .claim st => Sys2Proof.Machine.execClaim st s
  | .withdraw st => Sys2Proof.Machine.execWithdraw st s
  | .release st => Sys2Proof.Machine.execRelease st s
  | .preempt st => Sys2Proof.Machine.execPreempt st s
  | .selectMode st mode => Sys2Proof.Machine.execSelectMode st mode s
  | .stick st deflection scale flags => Sys2Proof.Machine.execStick st deflection scale flags s
  | .setOrientation st flags => Sys2Proof.Machine.execSetOrientation st flags s
  | .endSwap st => Sys2Proof.Machine.execEndSwap st s
  | .setStick st start hold deadband => Sys2Proof.Machine.execSetStick st start hold deadband s
  | .readAuthority st clear => Sys2Proof.Machine.execReadAuthority st clear s
  | .portControlEnable st port => Sys2Proof.Machine.execPortControlEnable st port s
  | .portControlDisable st port => Sys2Proof.Machine.execPortControlDisable st port s
  | .portControlRetrain st port => Sys2Proof.Machine.execPortControlRetrain st port s
  | .portControlSleep st port => Sys2Proof.Machine.execPortControlSleep st port s
  | .portControlWake st port => Sys2Proof.Machine.execPortControlWake st port s
  | .setAbility st port classes => Sys2Proof.Machine.execSetAbility st port classes s
  | .portTestStart st port pattern loop => Sys2Proof.Machine.execPortTestStart st port pattern loop s
  | .portTestStop st port => Sys2Proof.Machine.execPortTestStop st port s
  | .portClear st port => Sys2Proof.Machine.execPortClear st port s
  | .setPortLimits st following tMin tMax tolerance => Sys2Proof.Machine.execSetPortLimits st following tMin tMax tolerance s
  | .portRead st port clear => Sys2Proof.Machine.execPortRead st port clear s
  | .stop st kind => Sys2Proof.Machine.execStop st kind s
  | .clearStop st => Sys2Proof.Machine.execClearStop st s
  | .readStop st => Sys2Proof.Machine.execReadStop st s
  | .setStandard st standard => Sys2Proof.Machine.execSetStandard st standard s
  | .readPeriod st => Sys2Proof.Machine.execReadPeriod st s
  | .driveAbilityFrame port ability => Sys2Proof.Machine.execDriveAbilityFrame port ability s
  | .driveFeedbackFrame port echo measured tension status => Sys2Proof.Machine.execDriveFeedbackFrame port echo measured tension status s
  | .driveWakeFrame port => Sys2Proof.Machine.execDriveWakeFrame port s
  | .driveTestFrame port payload => Sys2Proof.Machine.execDriveTestFrame port payload s
  | .winchFrameBadCheck port => Sys2Proof.Machine.execWinchFrameBadCheck port s
  | .winchFrameTimeout port => Sys2Proof.Machine.execWinchFrameTimeout port s
  | .resetAsserted => Sys2Proof.Machine.execResetAsserted s
  | .unknownRequestFrame st code => Sys2Proof.Machine.execUnknownRequestFrame st code s
  | .winchCharacter port b => Sys2Proof.Machine.execWinchCharacter port b s

end Sys2Proof.Machine
end

