-- ==== Sys2Proof/Machine/Step.lean ====
section
/-! DEFINITION. One step: the command at the front of the queue, or one CLK50 period when none waits. -/

namespace Sys2Proof.Machine

/-- One step of the part. The front command is taken with the queue's rest. On an empty queue one CLK50 period passes
(DESIGN CHOICE, log 2); none passes while RESET is asserted (R196). -/
def step (s : State) : Host.Outcome State Fault Refusal :=
  match s.pending with
  | c :: rest => exec c { s with pending := rest }
  | [] => .next (unlessHeld s tick)

/-- The state with the command that a word spells in front of its queue; the table's rows have no bits, so every word
spells none. -/
def State.withFetchWord (s : State) (nbits w : Nat) : State :=
  match decodeTableWord nbits w with
  | some c => { s with pending := c :: s.pending }
  | none => s

end Sys2Proof.Machine
end

