-- ==== Sys2Proof/Safety.lean ====
section
/-! DEFINITION. What a safe run is: the laws of the device that the rules state, each as a property of one state, and the
few words the statements share. -/

namespace Sys2Proof.Machine

/-! ## Words of the statements -/

/-- The station may send the request now: the part is not held in reset and the class table permits it (R196, R202). -/
def MaySend (s : State) (r : Req) (st : Nat) : Prop := s.resetHeld = false ∧ permitted r (classOf s st) = true

/-- The outcome of a request that was taken: the frame resets the silence counter, `own` is the owner's change, and the
answer with status OK and the payload is in service (R199, R206). -/
def taken (st : Nat) (r : Req) (payload : List Byte) (own : State → State) (s : State) : Result :=
  .next (answer st r.code ⟨.ok, payload⟩ (own (takeFrame s)))

/-- The outcome of a request that its owner refused: every block as it was, and the answer with the status and no
payload in service (R199, R201). -/
def turnedAway (st : Nat) (r : Req) (why : Status) (s : State) : Result :=
  .next (answer st r.code ⟨why, []⟩ (takeFrame s))

/-- The parameters of a request have the length that the request needs (10.3, 10.5, R201, check 4): a fixed one, or by the
label length or the count that they carry; a CORR_WRITE carries 1 to 60 values (R82). -/
def RightLength (r : Req) (ps : List Byte) : Prop :=
  let at_ := fun k => (ps.getD k 0#8).toNat
  match r with
  | .zoneCreate => ps.length = 34 + at_ 33
  | .zoneAmend => ps.length = 33 + at_ 32
  | .markSet => ps.length = 14 + at_ 13
  | .corrWrite => 1 ≤ at_ 0 ∧ at_ 0 ≤ 60 ∧ ps.length = 1 + 4 * at_ 0
  | .setAnchors => ps.length = 72
  | .setFlightBox => ps.length = 24
  | .setLimits => ps.length = 20
  | .zoneFind | .enable | .setPayout => ps.length = 12
  | .stick | .setPortLimits => ps.length = 8
  | .cueAppend => ps.length = 6
  | .corrWindow => ps.length = 5
  | .portTest => ps.length = 4
  | .zoneResume | .setStick => ps.length = 3
  | .setAttentionMask | .setWatchdog | .setStationClass | .zoneSuspend | .zoneRetire | .zoneLookup | .zoneList
  | .portControl | .setAbility | .portRead => ps.length = 2
  | .corrRead | .markRetire | .markRead | .setCueWindow | .selectMode | .setOrientation | .readAuthority | .portClear
  | .stop | .setStandard => ps.length = 1
  | .readStatus | .readEvents | .restart | .zoneClear | .disable | .readMotion | .readGeometry | .readLimits | .cueGo
  | .cueHalt | .cueFlush | .cueRead | .claim | .withdraw | .release | .preempt | .endSwap | .clearStop | .readStop
  | .readPeriod => ps.length = 0

/-- An unsigned number as `k` bytes, the most significant first (10.1). -/
def wire (k n : Nat) : List Byte := (List.range k).map (fun j => BitVec.ofNat 8 (n / 256 ^ (k - 1 - j)))

/-- A signed number as `k` bytes in two's complement (10.1). -/
def wireInt (k : Nat) (i : Int) : List Byte := wire k (i % 256 ^ k).toNat

/-- A record as the tables of 10.6 list it: its fields in order. -/
def record (fields : List (List Byte)) : List Byte := fields.flatten

/-- A live slot whose generation the handle names, with its record (R4). -/
def Names (s : State) (handle : Nat) (sl : Slot) (z : Zone) : Prop :=
  s.air[handle / 256]? = some sl ∧ sl.generation = handle % 256 ∧ sl.zone = some z

/-- A PILOT owns the zone and the zone is not standing; the other classes may name any zone (R10). -/
def MayChange (s : State) (st : Nat) (z : Zone) : Prop :=
  classOf s st = .pilot → z.owner = st ∧ z.standing = false

/-- The table with the record of one slot replaced. -/
def setZone (n : Nat) (sl : Slot) (z : Zone) (t : State) : State :=
  { t with air := t.air.set n { sl with zone := some z } }

/-- The point lies inside the guarded box of the zone, faces included (R6). -/
def Inside (z : Zone) (standoff : Nat) (p : Vec3) : Prop :=
  ∀ k : Axis, z.box.lo k * 1000 - standoff ≤ p.get k ∧ p.get k ≤ z.box.hi k * 1000 + standoff

/-- A candidate of the exit search that counts (R53): P with the one coordinate 1 µm beyond every guarded box of O in
its direction and beyond one of them by no more, inside the flight box and outside the guarded box of every ACTIVE
keep-out that is not in O. -/
def ExitCounts (box : Box) (standoff : Nat) (zones : List Zone) (p : Vec3) (e : ExitTarget) : Prop :=
  let k := e.dir.axis
  let face := fun (z : Zone) =>
    if e.dir.isPlus then z.box.hi k * 1000 + (standoff : Int) + 1 else z.box.lo k * 1000 - (standoff : Int) - 1
  let out := fun (z : Zone) => z ∈ zones ∧ z.kind = .keepOut ∧ z.state = .active ∧ z.occupied = true
  (∃ z, out z ∧ e.pos = p.put k (face z))
    ∧ (∀ z, out z → if e.dir.isPlus then face z ≤ e.pos.get k else e.pos.get k ≤ face z)
    ∧ box.has e.pos = true
    ∧ ∀ z ∈ zones, z.kind = .keepOut → z.state = .active → z.occupied = false → ¬Inside z standoff e.pos

/-- What a port keeps at a departure from UP: the values that belonged to the link are dropped (R134, R141). -/
def linkDropped (q : Port) : Port :=
  if q.state = .up then
    { q with
      measured := none, tension := none, lastSent := none
      status := { ready := false, brakeReleased := false, tempWarn := false, fault := 0 }, candidate := none
      misses := 0, followRun := 0, highRun := 0, slackRun := 0, good := false, resolved := none }
  else q

/-- A port at its entry to TRAINING (R134). -/
def trainingAfresh (q : Port) : Port :=
  { linkDropped q with
    state := .training, abilityRun := 0, feedbackRun := 0, silence := 0, runAbility := none, abilities := none
    resolved := none, legacy := false }

/-- The authority record once the authority of `h` has ended (R117): no holder and no basis, the ex-holder's backoff 2 and the
stick buffer flushed (R126); the pending set stays. -/
def authorityOver (h : Nat) (a : Authority) : Authority :=
  { a with
    holder := none, explicit := false, cue := false, backoff := a.backoff.set h 2
    buffer := [], filling := true, lastDemand := none, miss := 0, stale := false }

/-- A running cue has ended or halted between `s` and `t`, whose authority record was `a` (R117): a holder with EXPLICIT
loses the CUE basis alone, and for one without it authority is over, with AUTHORITY. -/
def CueBasisOver (a : Authority) (s t : State) : Prop :=
  ∀ h, a.holder = some h →
    (a.explicit = true → t.auth = { a with cue := false } ∧ eventSet t .authority = eventSet s .authority)
    ∧ (a.explicit = false → t.auth = authorityOver h a ∧ eventSet t .authority = true)

/-- CUE_WANT is raised exactly when the count of entries falls from W or more to below W (R106). -/
def WantsByCount (s t : State) : Prop :=
  eventSet t .cueWant = true
    ↔ eventSet s .cueWant = true ∨ s.cue.window ≤ s.cue.entries.length ∧ t.cue.entries.length < s.cue.window

/-- A cause of kind `k` has acted between `s` and `t` by the mode (R35, R63, R65, R167, R168): the kind in force, and where
it changed, the mode with v_old, a computation in flight and an eviction, the running cue, the stick and the basis of the
holder. -/
def StopTaken (s t : State) (k : StopKind) : Prop :=
  let m := s.motion.mode
  let kind :=
    if m = .safe ∨ m = .stopped .braked then s.stop.kind
    else if s.stop.kind.severity < k.severity then k else s.stop.kind
  let flushed := fun (a : Authority) =>
    { a with buffer := [], filling := true, lastDemand := none, miss := 0, stale := false }
  t.stop.kind = kind
    ∧ (kind = s.stop.kind → t.motion = s.motion ∧ t.cue = s.cue ∧ t.auth = s.auth)
    ∧ (kind ≠ s.stop.kind →
        t.motion.mode = (if kind = .brake then .stopped .braked else if m.steered then .stopping else m)
        ∧ t.motion.vOld = (if kind = .brake then ⟨0, 0, 0⟩ else s.motion.vOld)
        ∧ t.motion.p = s.motion.p ∧ t.motion.lim = s.motion.lim ∧ t.motion.lengths = s.motion.lengths
        ∧ t.motion.feed = s.motion.feed
        ∧ (kind = .brake → t.motion.flight = none)
        ∧ (kind ≠ .brake → m ≠ .cue → t.motion.flight = s.motion.flight)
        ∧ (kind ≠ .brake → m = .cue →
            t.motion.flight = s.motion.flight.map (fun c => { c with cueLive := false }))
        ∧ (m.steered = true → t.motion.exit = none ∧ t.motion.trapped = false)
        ∧ (m.steered = false →
            t.motion.exit = s.motion.exit ∧ t.motion.trapped = s.motion.trapped ∧ t.auth = s.auth)
        ∧ (m ≠ .cue → t.cue = s.cue ∧ t.motion.copy = s.motion.copy)
        ∧ (m.steered = true → m ≠ .cue → t.auth = flushed s.auth)
        ∧ (m = .cue → t.cue = { s.cue with running := false } ∧ t.motion.copy = none
            ∧ ∀ h, s.auth.holder = some h →
                (s.auth.explicit = true → t.auth = flushed { s.auth with cue := false })
                ∧ (s.auth.explicit = false → t.auth = authorityOver h s.auth ∧ eventSet t .authority = true)))
    ∧ (kind = s.stop.kind ∨ m ≠ .cue ∨ s.auth.explicit = true → eventSet t .authority = eventSet s .authority)

/-- No frame is coming in on the station line or on a winch line, so no frame time-out falls due (R197, R214). -/
def NoFrameWaits (s : State) : Prop := s.station.receiver = .hunting ∧ ∀ q ∈ s.ports.list, q.rx = []

/-! ## The Airspace Table (R3, R9, R13, R25) -/

/-- The fields of a live record in slot `k` of generation `g` are such as R3, R9 and R13 say. -/
def ZoneOk (k g : Nat) (z : Zone) : Prop :=
  z.handle = k * 256 + g ∧ z.label.length ≤ 12
    ∧ (z.kind = .keepOut → z.cap = none)
    ∧ (z.kind = .slow → ∃ c, z.cap = some c ∧ 100 ≤ c ∧ c ≤ 12000)
    ∧ (z.occupied = true → z.kind = .keepOut ∧ z.state = .active)
    ∧ z.clear ≤ 1 ∧ (z.state ≠ .pending → z.clear = 0)
    ∧ (∀ n, z.lifetime = some n → 1 ≤ n ∧ n ≤ 16777215)
    ∧ z.owner < 8 ∧ boxInRange z.box = true
    ∧ (z.fresh = true → z.state = .pending ∧ z.clear = 0) ∧ (z.reboxed = true → z.state = .pending)

/-- The table holds 48 slots, each generation fits a byte, and every live record is as R3 says. -/
def AirOk (s : State) : Prop :=
  s.air.length = 48
    ∧ ∀ k sl, s.air[k]? = some sl → sl.generation < 256 ∧ ∀ z, sl.zone = some z → ZoneOk k sl.generation z

/-- The occupied flag is yes exactly while the zone is an ACTIVE keep-out and P lies inside its guarded box (R13). -/
def OccupiedExact (s : State) : Prop :=
  ∀ z ∈ liveZones s.air, z.occupied = (z.activeKeepOut && insideGuarded s.motion.lim.standoff s.motion.p z)

/-! ## The Motion Generator, the Stop Unit and the running cue (R35, R38, R99, R117, R164) -/

/-- The kinds in force that go with a mode (R164, R167). -/
def kindFits : Mode → StopKind → Bool
  | .stopping, .controlled | .stopping, .quick => true
  | .stopped .held, .controlled | .stopped .held, .quick => true
  | .stopped .braked, .brake => true
  | .safe, .none | .hold, .none | .stick, .none | .cue, .none | .evict, .none => true
  | _, _ => false

/-- What a computation in flight has to do with the state it will commit into (R38, R42, R43). -/
def FlightOk (s : State) (c : Computation) : Prop :=
  s.motion.p = some c.p ∧ s.motion.vOld = c.vOld
    ∧ (s.motion.mode.steered = true ∨ s.motion.mode = .stopping)
    ∧ (c.mode.steered = true ∨ c.mode = .stopping)
    ∧ (c.mode = .stopping → s.motion.mode = .stopping ∧ c.demand = zero3)
    ∧ (c.cueLive = true → c.mode = .cue ∧ s.motion.mode = .cue)

/-- The mode, P, the kind in force, the cause set, the running cue, the exit target and the stick go together as R35,
R99, R117, R126 and R164 say. -/
def ModeOk (s : State) : Prop :=
  (s.motion.p = none ↔ s.motion.mode = .safe)
    ∧ kindFits s.motion.mode s.stop.kind = true
    ∧ (s.motion.mode.steered = true → s.stop.causes = 0#8)
    ∧ (s.stop.has .operator = true ↔ s.stop.requested ≠ .none)
    ∧ (s.cue.running = true ↔ s.motion.mode = .cue)
    ∧ (s.motion.copy.isSome = true ↔ s.motion.mode = .cue)
    ∧ (s.auth.cue = true ↔ s.motion.mode = .cue)
    ∧ (s.motion.mode = .cue → s.cue.entries ≠ [] ∧ s.auth.holder.isSome = true)
    ∧ (s.motion.mode = .stick → s.auth.holder.isSome = true)
    ∧ (s.auth.buffer ≠ [] → s.motion.mode = .stick)
    ∧ (s.motion.exit.isSome = true ∨ s.motion.trapped = true → s.motion.mode = .evict)
    ∧ (s.motion.mode = .safe ∨ s.motion.mode.isStopped = true → s.motion.vOld = zero3)
    ∧ (s.motion.p.isSome = true → s.motion.lengths.isSome = true)
    ∧ ∀ c, s.motion.flight = some c → FlightOk s c

/-- Every commanded position lies inside the flight box (R48). -/
def InFlightBox (s : State) : Prop := ∀ p, s.motion.p = some p → s.span.flightBox.has p = true

/-! ## The Span Solver (R69) -/

/-- The window, the pointer, the tables, the spacing and the settings lie in their ranges (R69, R73, R80, R82, R84). -/
def SpanOk (s : State) : Prop :=
  s.span.window.w0 ≤ s.span.ptrW ∧ s.span.ptrW ≤ s.span.window.w1 ∧ s.span.window.w1 ≤ 3
    ∧ s.span.window.j0 ≤ s.span.ptrJ ∧ s.span.ptrJ ≤ s.span.window.j1 ∧ s.span.window.j1 ≤ 32
    ∧ (∀ c ∈ s.span.corr.list, c.length = 33 ∧ ∀ v ∈ c, -50000 ≤ v ∧ v ≤ 50000)
    ∧ 10000 ≤ s.span.payoutMax ∧ s.span.payoutMax ≤ 400000 ∧ s.span.lBase ≤ 400000000
    ∧ 1000000 ≤ s.span.lStep ∧ s.span.lStep ≤ 16000000
    ∧ clampSettings s.span.settings = s.span.settings
    ∧ s.motion.lim = convertLimits s.period.configured s.span.settings
    ∧ s.span.classCaps = convertCaps s.period.configured
    ∧ s.span.flightBox.ordered = true
    ∧ s.span.validity = validityOf s.span

/-! ## The Mark Store and Cue List (R96) -/

/-- The cue list holds at most 16 entries and every entry names a mark in state SET (R96). -/
def CuesOk (s : State) : Prop :=
  s.marks.length = 32 ∧ s.cue.entries.length ≤ 16 ∧ 1 ≤ s.cue.window ∧ s.cue.window ≤ 16
    ∧ ∀ e ∈ s.cue.entries, (markAt s e.mark).isSome = true

/-! ## The Authority Arbiter (R110, R111, R122) -/

/-- The classes that may steer (R111). -/
def steeringClass : StationClass → Bool
  | .supervisor | .safety | .pilot => true
  | .viewer | .absent => false

/-- The authority record is as R110, R111 and R122 say. -/
def AuthorityOk (s : State) : Prop :=
  s.station.classes.length = 7
    ∧ (s.auth.holder = none → s.auth.explicit = false ∧ s.auth.cue = false)
    ∧ (∀ h, s.auth.holder = some h →
        (s.auth.explicit = true ∨ s.auth.cue = true) ∧ steeringClass (classOf s h) = true ∧ h ∉ s.auth.pending)
    ∧ s.auth.pending.length ≤ 7 ∧ s.auth.pending.Pairwise (· < ·) ∧ (∀ st ∈ s.auth.pending, steeringClass (classOf s st) = true)
    ∧ s.auth.backoff.length = 8 ∧ (∀ n ∈ s.auth.backoff, n ≤ 2)
    ∧ s.auth.buffer.length ≤ 4 ∧ s.auth.overrun ≤ 255 ∧ s.auth.miss ≤ 251
    ∧ 1 ≤ s.auth.start ∧ s.auth.start ≤ 3 ∧ 1 ≤ s.auth.hold ∧ s.auth.hold ≤ 250 ∧ s.auth.deadband ≤ 200

/-! ## The winch ports (R131, R134, R141) -/

/-- One port is as R131, R134 and R141 say. -/
def PortOk (q : Port) : Prop :=
  (q.resolved.isSome = true ↔ q.state = .up)
    ∧ (q.state ≠ .up → q.measured = none ∧ q.tension = none ∧ q.lastSent = none ∧ q.status = statusClear
        ∧ q.candidate = none ∧ q.misses = 0 ∧ q.followRun = 0 ∧ q.highRun = 0 ∧ q.slackRun = 0 ∧ q.good = false)
    ∧ (∀ k, q.resolved = some k → ∃ a, q.abilities = some a ∧ highestClass (q.allowed &&& a.classes) = some k)
    ∧ q.allowed ≠ 0#4 ∧ q.misses ≤ 2 ∧ q.followRun ≤ 3 ∧ q.highRun ≤ 2 ∧ q.slackRun ≤ 5
    ∧ q.abilityRun ≤ 3 ∧ q.feedbackRun ≤ 16 ∧ q.silence ≤ 200 ∧ q.breakLeft ≤ 300 ∧ q.sequence < 256
    ∧ q.badFrames ≤ 65535 ∧ q.missTotal ≤ 65535 ∧ q.rxSince < 10000 ∧ (q.state = .test → q.test.result ≠ .none)
    ∧ q.test.compared ≤ 65535 ∧ q.test.errors ≤ 65535

/-- The four ports and their limits (R131, R159). -/
def PortsOk (s : State) : Prop :=
  (∀ q ∈ s.ports.list, PortOk q)
    ∧ 1 ≤ s.portLimits.following ∧ s.portLimits.following ≤ 1000 ∧ s.portLimits.tMin ≤ 65534
    ∧ s.portLimits.tMax ≤ 65534 ∧ 1 ≤ s.portLimits.tolerance ∧ s.portLimits.tolerance ≤ 1000

/-! ## The Station Port (R194, R197) -/

/-- The registers of the Station Port are in the ranges of R194, and the receiver is IN_FRAME exactly while a sync stands
at the front of the receive buffer, the buffer being empty while it is HUNTING (R197). -/
def StationOk (s : State) : Prop :=
  s.station.rate ≤ 3 ∧ s.station.buffer.length ≤ 512 ∧ s.station.frameErrors ≤ 65535 ∧ s.station.silence ≤ 1000
    ∧ 10 ≤ s.station.watchdog ∧ s.station.watchdog ≤ 1000
    ∧ (s.station.receiver = .hunting → s.station.buffer = [])
    ∧ (s.station.receiver ≠ .hunting → s.station.buffer.head? = some 0x5C#8)

/-! ## The Period Generator (R180, R182) -/

/-- N lies within the nominal increment of the configured standard plus or minus its trim maximum (R182), the increment
about to be added within that of some standard, and the other fields lie in the ranges of R180. -/
def PeriodOk (s : State) : Prop :=
  s.period.configured.nominal - s.period.configured.trimMax ≤ s.period.increment
    ∧ s.period.increment ≤ s.period.configured.nominal + s.period.configured.trimMax
    ∧ 17095 ≤ s.period.adding ∧ s.period.adding ≤ 20719
    ∧ s.period.acc < 2 ^ 32 ∧ s.period.index < 4 ∧ s.period.loss ≤ s.period.configured.lossLimit
    ∧ s.period.lockRun < 8 ∧ (s.period.lock ≠ .acquiring → s.period.lockRun = 0)
    ∧ s.period.unlockRun < 4 ∧ (s.period.lock ≠ .locked → s.period.unlockRun = 0)
    ∧ (s.period.lock = .free → s.period.increment = s.period.configured.nominal)
    ∧ (∀ n, s.period.interval = some n → n ≤ 16777215)
    ∧ (∀ e, s.period.lastE = some e → -2 ^ 33 ≤ e ∧ e < 2 ^ 33)
    ∧ s.period.errors ≤ 65535

end Sys2Proof.Machine
end

