-- ==== Sys2Proof/Certificates/Slice0/Obligations.lean ====
section
/-! DEFINITION. The statements for the provers. -/

open Sys2Proof Sys2Proof.Machine

/-! ## The machine -/

/-- A step with a command at the front of the queue is that command's effect on the state with the queue's rest. -/
def Obligations.StepRunsTheFrontCommand : Prop :=
  ∀ (c : Instr) (rest : List Instr) (s : State),
    s.pending = c :: rest → step s = exec c { s with pending := rest }

/-- Every command completes in every state, and leaves the queue of waiting commands alone. -/
def Obligations.EveryCommandCompletesAndKeepsTheQueue : Prop :=
  ∀ (c : Instr) (s : State), ∃ t, exec c s = .next t ∧ t.pending = s.pending

/-- The values that the rules give for power-on (R32, R34, R69, R90, R96, R110, R131, R163, R180, R194), at
`State.reset`. That the straps stand at 0 and the ESTOP loop is closed is the model's choice (log 7). -/
def Obligations.ResetLeavesThePowerOnValues : Prop :=
  (State.reset.air.length = 48 ∧ ∀ sl ∈ State.reset.air, sl = { generation := 0, zone := none })
    ∧ (State.reset.motion.mode = .safe ∧ State.reset.motion.p = none ∧ State.reset.motion.vOld = ⟨0, 0, 0⟩
      ∧ State.reset.motion.lim
        = { vh := 30000, vz := 10000, a := 50, aStop := 62, aQuick := 125, aBrk := 37, evict := 5000
            cueDefault := 20000, standoff := 500000, margin := 2000000 }
      ∧ State.reset.motion.copy = none ∧ State.reset.motion.exit = none ∧ State.reset.motion.trapped = false
      ∧ State.reset.motion.lengths = none)
    ∧ (State.reset.span.anchors = ⟨⟨0, 0, 0⟩, ⟨0, 0, 0⟩, ⟨0, 0, 0⟩, ⟨0, 0, 0⟩⟩
      ∧ State.reset.span.offsets = ⟨⟨0, 0, 0⟩, ⟨0, 0, 0⟩, ⟨0, 0, 0⟩, ⟨0, 0, 0⟩⟩
      ∧ State.reset.span.flightBox = ⟨0, 0, 0, 0, 0, 0⟩
      ∧ State.reset.span.settings
        = { vh := 6000, vz := 2000, a := 2000, aStop := 2500, aQuick := 5000, aBrk := 1500, evict := 1000
            cueDefault := 4000, standoff := 500, margin := 2000 }
      ∧ State.reset.span.payoutMax = 250000 ∧ State.reset.span.lBase = 0 ∧ State.reset.span.lStep = 8000000
      ∧ State.reset.span.validity = .anchorSpacing 0 1
      ∧ State.reset.span.window = { w0 := 0, w1 := 3, j0 := 0, j1 := 32, order := .pointMajor }
      ∧ State.reset.span.ptrW = 0 ∧ State.reset.span.ptrJ = 0
      ∧ (∀ c ∈ State.reset.span.corr.list, c = List.replicate 33 0)
      ∧ State.reset.span.classCaps = ⟨15000, 30000, 45000, 60000⟩)
    ∧ (State.reset.marks = List.replicate 32 none ∧ State.reset.cue.entries = [] ∧ State.reset.cue.running = false
      ∧ State.reset.cue.window = 4 ∧ State.reset.cue.failure = none)
    ∧ (State.reset.auth.holder = none ∧ State.reset.auth.pending = [] ∧ State.reset.auth.backoff = List.replicate 8 0
      ∧ State.reset.auth.buffer = [] ∧ State.reset.auth.filling = true ∧ State.reset.auth.lastDemand = none
      ∧ State.reset.auth.start = 2 ∧ State.reset.auth.hold = 10 ∧ State.reset.auth.deadband = 50
      ∧ State.reset.auth.swap = false ∧ State.reset.auth.mirrorX = false ∧ State.reset.auth.mirrorY = false)
    ∧ (∀ q ∈ State.reset.ports.list, q.state = .training ∧ q.allowed = 15#4 ∧ q.abilities = none ∧ q.resolved = none
      ∧ q.legacy = false ∧ q.breakCause = .none ∧ q.sequence = 0 ∧ q.badFrames = 0 ∧ q.missTotal = 0
      ∧ q.tensionWindow = none ∧ q.test.result = .none)
    ∧ State.reset.portLimits = { following := 50, tMin := 200, tMax := 12000, tolerance := 100 }
    ∧ (State.reset.stop.kind = .none ∧ State.reset.stop.causes = 0#8 ∧ State.reset.stop.requested = .none
      ∧ State.reset.stop.first = none)
    ∧ (State.reset.period.configured = .s50 ∧ State.reset.period.lock = .free ∧ State.reset.period.acc = 0
      ∧ State.reset.period.index = 0 ∧ State.reset.period.increment = 17180 ∧ State.reset.period.interval = none
      ∧ State.reset.period.loss = 3000000 ∧ State.reset.period.detected = none ∧ State.reset.period.errors = 0)
    ∧ (State.reset.station.classes = List.replicate 7 .absent ∧ State.reset.station.buffer = []
      ∧ State.reset.station.receiver = .hunting ∧ State.reset.station.frameErrors = 0
      ∧ State.reset.station.inService = none ∧ State.reset.station.events = 0#14 ∧ State.reset.station.mask = 16383#14
      ∧ State.reset.station.silence = 0 ∧ State.reset.station.watchdog = 100)

/-- Every law of Safety.lean holds of `State.reset`. -/
def Obligations.LawsHoldAtReset : Prop :=
  AirOk State.reset ∧ OccupiedExact State.reset ∧ ModeOk State.reset ∧ InFlightBox State.reset ∧ SpanOk State.reset
    ∧ CuesOk State.reset ∧ AuthorityOk State.reset ∧ PortsOk State.reset ∧ StationOk State.reset ∧ PeriodOk State.reset

/-- The release of RESET puts every block at its power-on values at the strapped rate and takes the ESTOP line (R174,
R196); while RESET is asserted no command but a change of the pins does anything. What the ESTOP state reads while
RESET is asserted is the model's choice (log 8). RESTART in SAFE and STOPPED/BRAKED, block by block (R209 with R33,
R34, R69, R109, R110, R131, R158, R163, R180, R194); in any other mode it is refused and changes nothing. -/
def Obligations.ResetsAndRestart : Prop :=
  (∀ s : State,
     (∀ a b : Bool,
       exec (.powerOnReset a b false) s
         = .next { powerOnValues (2 * a.toNat + b.toNat) with pending := s.pending }
       ∧ exec (.powerOnReset a b true) s
         = .next { powerOnValues (2 * a.toNat + b.toNat) with
             stop := { kind := .none, causes := 128#8, requested := .none, attribution := noAttribution
                       first := some { cause := .estop, port := none }, estopOpen := true }
             estopLineOpen := true, pending := s.pending })
     ∧ exec .resetAsserted s
         = .next { powerOnValues s.station.rate with
             estopLineOpen := s.estopLineOpen, resetHeld := true, pending := s.pending }
     ∧ (s.resetHeld = true → ∀ c : Instr,
         exec c s = .next s ∨ c = .resetAsserted ∨ (∃ a b l, c = .powerOnReset a b l) ∨ ∃ l, c = .estopLineChange l))
  ∧ (∀ (s : State) (st : Nat), MaySend s .restart st →
       (s.motion.mode ≠ .safe → s.motion.mode ≠ .stopped .braked →
         exec (.restart st) s = turnedAway st .restart .wrongState s)
       ∧ (s.motion.mode = .safe ∨ s.motion.mode = .stopped .braked →
         ∃ t, exec (.restart st) s = .next t
           ∧ (∀ (k : Nat) (sl : Slot), s.air[k]? = some sl →
               (sl.zone = none → t.air[k]? = some sl)
               ∧ ∀ z, sl.zone = some z →
                   (z.standing = true →
                       t.air[k]? = some { sl with
                         zone := some { z with occupied := false, fresh := false, reboxed := false } })
                   ∧ (z.standing = false → t.air[k]? = some { generation := (sl.generation + 1) % 256, zone := none }))
           ∧ t.air.length = s.air.length
           ∧ t.motion = { motionPowerOn with lim := s.motion.lim }
           ∧ t.span = s.span ∧ t.marks = s.marks
           ∧ t.cue = { entries := [], running := false, window := s.cue.window, failure := none }
           ∧ t.auth = { authorityPowerOn with
               start := s.auth.start, hold := s.auth.hold, deadband := s.auth.deadband, swap := s.auth.swap
               mirrorX := s.auth.mirrorX, mirrorY := s.auth.mirrorY }
           ∧ (∀ i, i < 4 → ∃ test : TestRecord,
               t.ports.get i
                 = { s.ports.get i with badFrames := 0, missTotal := 0, tensionWindow := none, test := test }
               ∧ test.pattern = (s.ports.get i).test.pattern ∧ test.loop = (s.ports.get i).test.loop
               ∧ test.compared = 0 ∧ test.errors = 0 ∧ test.outstanding = .none
               ∧ test.result = if (s.ports.get i).state = .test then .running else .none)
           ∧ t.portLimits = s.portLimits
           ∧ t.stop.kind = .none ∧ t.stop.requested = .none ∧ t.stop.attribution = noAttribution
           ∧ t.stop.estopOpen = s.estopLineOpen
           ∧ (s.estopLineOpen = false → t.stop.causes = 0#8 ∧ t.stop.first = none)
           ∧ (s.estopLineOpen = true → t.stop.causes = 128#8 ∧ t.stop.first = some { cause := .estop, port := none })
           ∧ t.period = s.period
           ∧ t.station = { s.station with
               silence := 0, events := 0#14
               inService := some { station := st, code := 0x06, status := .ok, payload := [] } }))

/-! ## Requests on the station line -/

/-- A request's frame that is taken sets the silence counter to 0, whatever its answer, and its answer echoes its
station and its code (R199, R206). A code the part does not know is answered UNKNOWN_REQUEST, or NOT_PERMITTED from an
ABSENT station (R201, checks 1 and 2). The last character of a good frame runs the four checks in order, ABSENT, the code,
the class and the length of the parameters (R201, 10.3, 10.5); that it does so at once is the model's reading (log 19), and
so is that an action byte of PORT_CONTROL or PORT_TEST outside its table is judged behind them as BAD_PARAM (log 26). -/
def Obligations.RequestsAnsweredOrRefusedAtThePort : Prop :=
  (∀ (c : Instr) (s : State) (st : Nat) (r : Req) (ps : List Byte),
     encodeRequest c = some (st, r, ps) → s.resetHeld = false →
       ∃ t v, exec c s = .next t ∧ t.station.silence = 0 ∧ t.station.inService = some v
         ∧ v.station = st ∧ v.code = r.code)
  ∧ (∀ (s : State) (st code : Nat), s.resetHeld = false → Req.ofCode code = none →
      (classOf s st = .absent →
        exec (.unknownRequestFrame st code) s = .next (answer st code ⟨.notPermitted, []⟩ (takeFrame s)))
      ∧ (classOf s st ≠ .absent →
        exec (.unknownRequestFrame st code) s = .next (answer st code ⟨.unknownRequest, []⟩ (takeFrame s))))
  ∧ ∀ (s : State) (st code : Nat) (ps front : List Byte) (b : Byte), st < 8 → code < 256 → ps.length ≤ 246 →
      requestFrame st code ps = front ++ [b] → s.resetHeld = false → s.station.inService = none →
      s.station.buffer = front →
        let run := exec (.stationCharacter b) s
        let came := { s with station := { s.station with buffer := [], receiver := .hunting } }
        let refused : Status → Result := fun why => .next (answer st code ⟨why, []⟩ (takeFrame came))
        let action := (ps.getD 1 0#8).toNat
        (classOf s st = .absent → run = refused .notPermitted)
        ∧ (classOf s st ≠ .absent → Req.ofCode code = none → run = refused .unknownRequest)
        ∧ ∀ r : Req, Req.ofCode code = some r →
            (permitted r (classOf s st) = false → run = refused .notPermitted)
            ∧ (permitted r (classOf s st) = true →
                (¬RightLength r ps → run = refused .badLength)
                ∧ (RightLength r ps → r = .portControl ∧ 4 < action ∨ r = .portTest ∧ 1 < action →
                    run = refused .badParam))

/-- A request that is refused, whatever its row and whatever the check that refused it, leaves every block as it was
(R201): only the silence counter and the answer in service differ. -/
def Obligations.RefusedRequestChangesNothing : Prop :=
  ∀ (c : Instr) (s t : State) (st : Nat) (r : Req) (ps : List Byte) (v : Service),
    encodeRequest c = some (st, r, ps) → s.resetHeld = false → exec c s = .next t → t.station.inService = some v →
      v.status ≠ .ok → t = { s with station := { s.station with silence := 0, inService := some v } }

/-- The class table of R202, column by column, station 0 being the SUPERVISOR column: a request it does not permit the
sender's class is refused NOT_PERMITTED. -/
def Obligations.ClassTable : Prop :=
  (∀ r : Req,
    permitted r .supervisor = true ∧ permitted r .absent = false
      ∧ (permitted r .viewer = true ↔ r ∈ [Req.readStatus, .readMotion, .readGeometry, .readLimits, .readPeriod,
          .readStop, .readAuthority, .cueRead, .markRead, .portRead, .zoneLookup, .zoneFind, .zoneList])
      ∧ (permitted r .safety = true ↔ r ∉ [Req.setStationClass, .setAttentionMask, .setWatchdog, .readEvents, .restart,
          .setStandard, .setAnchors, .setFlightBox, .setPayout, .corrWindow, .corrWrite, .corrRead, .setLimits,
          .enable, .disable, .portControl, .setAbility, .portTest, .portClear, .setPortLimits])
      ∧ (permitted r .pilot = true ↔ permitted r .safety = true ∧ r ∉ [Req.zoneClear, .preempt, .clearStop]))
  ∧ (∀ s : State, classOf s 0 = .supervisor)
  ∧ ∀ (c : Instr) (s : State) (st : Nat) (r : Req) (ps : List Byte),
      encodeRequest c = some (st, r, ps) → s.resetHeld = false → permitted r (classOf s st) = false →
        exec c s = turnedAway st r .notPermitted s

/-- Decoding the parameters of an encoded request gives the request back, for every well-formed request, and the
request fits a frame (10.2, 10.3, 10.5). -/
def Obligations.DecodeOfEncodedRequest : Prop :=
  ∀ (i : Instr) (st : Nat) (r : Req) (ps : List Byte),
    i.wf = true → encodeRequest i = some (st, r, ps) →
      st < 8 ∧ ps.length ≤ 246 ∧ Req.ofCode r.code = some r ∧ decodeRequest r st ps = .command i

/-- The last character of a request's frame, arriving at a receiver that holds the frame up to it with no request in
service, has the effect of the request's command (R197, R199). That the frame is taken with its last character, and no
later, is the model's reading (log 19). -/
def Obligations.LastCharacterTakesTheFrame : Prop :=
  ∀ (i : Instr) (st : Nat) (r : Req) (ps front : List Byte) (b : Byte) (s : State),
    i.wf = true → encodeRequest i = some (st, r, ps) → requestFrame st r.code ps = front ++ [b] →
      s.resetHeld = false → s.station.inService = none → s.station.buffer = front →
        exec (.stationCharacter b) s
          = exec i { s with station := { s.station with buffer := [], receiver := .hunting } }

/-- The receiver short of a good frame: OVERRUN at a full buffer, a byte dropped in hunting, a sync taken, a frame error
by a length outside 2 to 248, by a CRC that does not match and by a station above 7, a frame time-out, and the end of an
answer, with no frame waiting and with a request's frame waiting, which is then taken (R197 to R199). The characters of a winch line (R214): the
sync is hunted for, and the last character of a frame hands it on as a frame of its type, ABILITY, SETPOINT (which every
state discards), FEEDBACK, TEST or WAKE, or as a bad check sequence; a frame time-out counts as a bad check sequence too,
by the state of the port; that a test on the EXTERNAL loop takes it for the frame come back, or for a further one, is the
model's choice (log 13).
The receivers take what they can at once (log 19), the time behind a sync starts as log 20 says, and the time-out
commands act whatever that time is and do nothing with no frame waiting, the station's at an empty buffer, in hunting and
with a frame that is complete, the model's choice (log 6). -/
def Obligations.StationAndWinchLines : Prop :=
  (∀ s : State, s.resetHeld = false →
     (∀ b, 512 ≤ s.station.buffer.length →
       exec (.stationCharacter b) s
         = .next { s with station := { s.station with events := s.station.events ||| 0x2000#14 } })
     ∧ (∀ b, s.station.buffer = [] → b ≠ 0x5C#8 →
       exec (.stationCharacter b) s = .next { s with station := { s.station with buffer := [], receiver := .hunting } })
     ∧ (s.station.buffer = [] → s.station.receiver = .hunting →
       exec (.stationCharacter 0x5C#8) s
         = .next { s with station := { s.station with buffer := [0x5C#8], receiver := .inFrame 0 } })
     ∧ (let frameError : Result := .next { s with station := { s.station with
           buffer := [], receiver := .hunting
           frameErrors := if s.station.frameErrors < 65535 then s.station.frameErrors + 1 else s.station.frameErrors } }
       (∀ n rest, s.station.receiver = .inFrame n → s.station.buffer = 0x5C#8 :: rest → frameBehind rest = .incomplete →
         0x5C#8 ∉ rest → exec .stationFrameTimeout s = frameError)
       ∧ (s.station.buffer = [] ∨ s.station.receiver = .hunting
           ∨ (∀ b rest, s.station.buffer = b :: rest → frameBehind rest ≠ .incomplete) →
         exec .stationFrameTimeout s = .next s)
       ∧ (∀ l : Byte, s.station.buffer = [0x5C#8] → l.toNat < 2 ∨ 248 < l.toNat →
         exec (.stationCharacter l) s = frameError)
       ∧ (∀ (front content check : List Byte) (l b : Byte), 2 ≤ content.length → content.length ≤ 248 →
         l.toNat = content.length → check.length = 2 → check ≠ beBytes 2 (crc (l :: content)) →
         s.station.buffer = front → front ++ [b] = 0x5C#8 :: l :: (content ++ check) →
         0x5C#8 ∉ l :: (content ++ check) → exec (.stationCharacter b) s = frameError)
       ∧ ∀ (st code : Nat) (ps front rest : List Byte) (b : Byte), 7 < st → st < 256 → ps.length ≤ 246 →
         s.station.buffer = front → front ++ [b] = requestFrame st code ps → requestFrame st code ps = 0x5C#8 :: rest →
         0x5C#8 ∉ rest → exec (.stationCharacter b) s = frameError)
     ∧ ∀ v, s.station.inService = some v →
         (s.station.buffer = [] →
           exec .answerSent s = .next { s with station := { s.station with inService := none, receiver := .hunting } })
         ∧ ∀ (i : Instr) (st : Nat) (r : Req) (ps : List Byte), i.wf = true → encodeRequest i = some (st, r, ps) →
             s.station.buffer = requestFrame st r.code ps →
               exec .answerSent s
                 = exec i { s with station := { s.station with
                     inService := none, buffer := [], receiver := .hunting } })
  ∧ (∀ (s : State) (i : Nat), s.resetHeld = false → i ≤ 3 →
       let q := s.ports.get i
       let at_ := fun (rx : List Byte) => { s with ports := s.ports.put i { q with rx := rx, rxSince := 0 } }
       (q.state = .test → q.test.loop = .internal → ∀ b, exec (.winchCharacter i b) s = .next s)
       ∧ (q.state ≠ .test ∨ q.test.loop = .external →
           (q.rx = [] → ∀ b, exec (.winchCharacter i b) s = .next (at_ (if b = 0xA5#8 then [b] else [])))
           ∧ (∀ (ability : Nat) (b : Byte), ability < 64 → q.rx ++ [b] = linkFrame 1 (byte ability) →
               exec (.winchCharacter i b) s = exec (.driveAbilityFrame i ability) (at_ []))
           ∧ (∀ (payload : List Byte) (b : Byte), payload.length = 11 → q.rx ++ [b] = linkFrame 2 payload →
               exec (.winchCharacter i b) s = .next (at_ []))
           ∧ (∀ (echo measured tension status : Nat) (b : Byte), echo < 256 → measured < 2 ^ 32 → tension < 65536 →
               status < 256 →
               q.rx ++ [b] = linkFrame 3 (byte echo ++ beBytes 4 measured ++ beBytes 2 tension ++ byte status) →
               exec (.winchCharacter i b) s = exec (.driveFeedbackFrame i echo measured tension status) (at_ []))
           ∧ (∀ (payload : List Byte) (b : Byte), payload.length = 32 → q.rx ++ [b] = linkFrame 4 payload →
               exec (.winchCharacter i b) s = exec (.driveTestFrame i payload) (at_ []))
           ∧ (∀ b : Byte, q.rx ++ [b] = linkFrame 5 [] →
               exec (.winchCharacter i b) s = exec (.driveWakeFrame i) (at_ []))
           ∧ ∀ (type : Nat) (payload check : List Byte) (b : Byte),
               (type = 1 ∧ payload.length = 1 ∨ type = 2 ∧ payload.length = 11 ∨ type = 3 ∧ payload.length = 8
                 ∨ type = 4 ∧ payload.length = 32 ∨ type = 5 ∧ payload.length = 0) →
               check.length = 2 → check ≠ beBytes 2 (crc (byte type ++ payload)) →
               q.rx ++ [b] = 0xA5#8 :: (byte type ++ payload ++ check) → 0xA5#8 ∉ payload ++ check →
                 exec (.winchCharacter i b) s = exec (.winchFrameBadCheck i) (at_ []))
       ∧ (q.rx = [] → exec (.winchFrameTimeout i) s = .next s)
       ∧ ∀ b rest, q.rx = b :: rest → 0xA5#8 ∉ rest →
           let run := exec (.winchFrameTimeout i) s
           let counted := if q.badFrames < 65535 then q.badFrames + 1 else q.badFrames
           let gives := fun (r : Port) => Host.Outcome.next { s with ports := s.ports.put i { r with rx := [], rxSince := 0 } }
           run = exec (.winchFrameBadCheck i) (at_ [])
           ∧ (q.state = .training →
               run = gives { q with badFrames := counted, abilityRun := 0, feedbackRun := 0, runAbility := none })
           ∧ (q.state = .up ∨ q.state = .sleep → run = gives { q with badFrames := counted })
           ∧ (q.state = .off ∨ q.state = .break_ ∨ q.state = .test ∧ (q.test.loop = .internal ∨ q.test.outstanding = .none) →
               run = gives q)
           ∧ (q.state = .test → q.test.loop = .external → ∀ due back n, q.test.outstanding = .sent due back n →
               run = gives { q with test := { q.test with
                 outstanding := if back = none then .sent due (some false) n else .sent due back (n + 1) } }))

/-- READ_EVENTS, SET_ATTENTION_MASK and SET_WATCHDOG (R204, R205, R207), and the ATTN output (R205). SET_STATION_CLASS
(R200) with what the Arbiter does on it (R119). -/
def Obligations.StationPortRequestsTaken : Prop :=
  ((∀ (s : State) (st : Nat), MaySend s .readEvents st →
     exec (.readEvents st) s
       = taken st .readEvents (beBytes 2 s.station.events.toNat)
           (fun t => { t with station := { t.station with events := 0#14 } }) s)
     ∧ (∀ (s : State) (st mask : Nat), MaySend s .setAttentionMask st →
       (mask < 16384 →
         exec (.setAttentionMask st mask) s
           = taken st .setAttentionMask (beBytes 2 mask)
               (fun t => { t with station := { t.station with mask := BitVec.ofNat 14 mask } }) s)
       ∧ (16384 ≤ mask → exec (.setAttentionMask st mask) s = turnedAway st .setAttentionMask .badParam s))
     ∧ (∀ (s : State) (st periods : Nat), MaySend s .setWatchdog st →
       exec (.setWatchdog st periods) s
         = taken st .setWatchdog (beBytes 2 (max 10 (min 1000 periods)))
             (fun t => { t with station := { t.station with watchdog := max 10 (min 1000 periods) } }) s)
     ∧ ∀ s : State, attn s = true ↔
         s.resetHeld = false ∧ ∃ e : Event, eventSet s e = true ∧ s.station.mask.getLsbD e.bit = true)
  ∧ (∀ (s : State) (st station cls : Nat), MaySend s .setStationClass st →
       (station = 0 ∨ 7 < station ∨ cls = 0 ∨ 4 < cls →
         exec (.setStationClass st station cls) s = turnedAway st .setStationClass .badParam s)
       ∧ (1 ≤ station → station ≤ 7 → ∀ k, givenClassOf cls = some k →
         (steeringClass k = true →
           exec (.setStationClass st station cls) s
             = taken st .setStationClass (byte (classOf s station).code)
                 (fun t => { t with station := { t.station with classes := t.station.classes.set (station - 1) k } }) s)
         ∧ (steeringClass k = false → s.auth.holder ≠ some station →
           exec (.setStationClass st station cls) s
             = taken st .setStationClass (byte (classOf s station).code)
                 (fun t => { t with
                   station := { t.station with classes := t.station.classes.set (station - 1) k }
                   auth := { t.auth with pending := t.auth.pending.filter (· != station) } }) s)
         ∧ (steeringClass k = false → s.auth.holder = some station →
           ∃ t v, exec (.setStationClass st station cls) s = .next t ∧ t.station.inService = some v
             ∧ v.station = st ∧ v.code = Req.setStationClass.code ∧ v.status = .ok
             ∧ v.payload = byte (classOf s station).code
             ∧ t.station.classes = s.station.classes.set (station - 1) k ∧ eventSet t .authority = true
             ∧ t.auth = authorityOver station s.auth
             ∧ t.cue.entries = s.cue.entries
             ∧ (s.motion.mode = .cue → t.cue.running = false ∧ t.motion.copy = none)
             ∧ (s.motion.mode = .cue ∨ s.motion.mode = .stick →
                 t.motion.mode = if anyOccupied s then .evict else .hold)
             ∧ (s.motion.mode ≠ .cue → s.motion.mode ≠ .stick → t.motion.mode = s.motion.mode)
             ∧ t.motion.p = s.motion.p ∧ t.motion.vOld = s.motion.vOld
             ∧ t.air = s.air ∧ t.span = s.span ∧ t.marks = s.marks ∧ t.ports = s.ports ∧ t.stop = s.stop
             ∧ t.period = s.period)))

/-- The reading requests report the state as it stands and change nothing (R29, R30, R31, R68, R76, R89, R94, R105,
R130, R161, R178, R193, R208). A mark, a point, a state set, an owner, a port or a clear option outside its range is
refused BAD_PARAM. Each answer is stated field by field, with the bytes of each: READ_STATUS, READ_MOTION, READ_PERIOD,
MARK_READ and ZONE_LOOKUP by the tables of 10.6, the others in the order of their rules (R212), with the codes of 10.1
last. How an answer without a layout of its own is laid out is the model's choice (log 10), and so is that READ_MOTION
answered in flight gives mode, exit target, trapped and O as they stand, and CUE_READ the list (log 34). -/
def Obligations.ReadingRequestsChangeNothing : Prop :=
  (∀ (s : State) (st : Nat),
    let g := s.span
    let mode := s.motion.mode
    let vec := fun (k : Nat) (p : Vec3) => [wireInt k p.x, wireInt k p.y, wireInt k p.z]
    let box := fun (b : Box) =>
      [wireInt 4 b.xMin, wireInt 4 b.xMax, wireInt 4 b.yMin, wireInt 4 b.yMax, wireInt 4 b.zMin, wireInt 4 b.zMax]
    let mm := fun (n : Int) => n.tdiv 1000
    let inMm := fun (p : Vec3) => (⟨mm p.x, mm p.y, mm p.z⟩ : Vec3)
    let handles := fun (zs : List Zone) => wire 1 zs.length :: zs.map (fun z => wire 2 z.handle)
    (MaySend s .readStatus st →
      exec (.readStatus st) s = taken st .readStatus (record
        [wire 1 (classOf s st).code, wire 1 mode.code, wire 1 mode.subCode, wire 1 g.validity.code,
          wire 1 (speedClassCode (systemClass s.ports)), wire 1 s.ports.w0.state.code, wire 1 s.ports.w1.state.code,
          wire 1 s.ports.w2.state.code, wire 1 s.ports.w3.state.code, wire 1 (s.auth.holder.getD 255),
          wire 1 (s.auth.explicit.toNat + 2 * s.auth.cue.toNat), wire 1 s.cue.entries.length,
          wire 1 (if s.cue.entries.length < s.cue.window then 1 else 0), wire 1 s.period.lock.code,
          wire 1 s.period.mismatch.toNat, wire 1 s.stop.kind.severity, wire 1 s.stop.causes.toNat,
          wire 2 s.station.events.toNat, wire 2 s.station.frameErrors, wire 2 0, wire 2 s.station.watchdog]) id s)
    ∧ (MaySend s .readMotion st →
      let O := (liveZones s.air).filter Zone.occupied
      exec (.readMotion st) s = taken st .readMotion (record
        ([wire 1 mode.code, wire 1 mode.subCode,
            wire 1 (s.motion.p.isSome.toNat + 2 * s.motion.exit.isSome.toNat + 4 * s.motion.trapped.toNat)]
        ++ vec 4 (s.motion.p.getD ⟨0, 0, 0⟩) ++ vec 4 (if s.motion.p.isSome then s.motion.vOld else ⟨0, 0, 0⟩)
        ++ (match s.motion.exit with
          | none => wire 1 0 :: vec 4 ⟨0, 0, 0⟩
          | some e => wire 1 e.dir.code :: vec 4 e.pos)
        ++ handles O)) id s)
    ∧ (MaySend s .readGeometry st →
      exec (.readGeometry st) s = taken st .readGeometry (record
        (g.anchors.list.flatMap (fun p => vec 4 (inMm p)) ++ g.offsets.list.flatMap (fun p => vec 2 (inMm p))
        ++ box ⟨mm g.flightBox.xMin, mm g.flightBox.xMax, mm g.flightBox.yMin, mm g.flightBox.yMax,
              mm g.flightBox.zMin, mm g.flightBox.zMax⟩
        ++ [wire 4 g.payoutMax, wire 4 g.lBase, wire 4 g.lStep, wire 1 g.window.w0, wire 1 g.window.w1, wire 1 g.window.j0,
            wire 1 g.window.j1, wire 1 g.window.order.code, wire 1 g.ptrW, wire 1 g.ptrJ, validityBytes g.validity])) id s)
    ∧ (MaySend s .readLimits st →
      exec (.readLimits st) s = taken st .readLimits (record
        [settingsBytes g.settings, wire 1 (standardCode (some s.period.configured)), limitBytes s.motion.lim,
          wire 4 g.classCaps.w0, wire 4 g.classCaps.w1, wire 4 g.classCaps.w2, wire 4 g.classCaps.w3]) id s)
    ∧ (MaySend s .readPeriod st →
      let p := s.period
      exec (.readPeriod st) s = taken st .readPeriod (record
        [wire 1 p.lock.code, wire 1 (standardCode (some p.configured)), wire 1 (standardCode p.detected), wire 1 p.mismatch.toNat,
          wire 2 p.increment, wireInt 2 ((p.increment : Int) - p.configured.nominal), wire 1 p.lastE.isSome.toNat,
          wireInt 8 (p.lastE.getD 0), wire 1 p.lockRun, wire 1 p.unlockRun, wire 4 p.loss,
          wire 1 (if p.loss = p.configured.lossLimit then 1 else 0), wire 1 p.index, wire 2 p.errors]) id s)
    ∧ (MaySend s .readStop st →
      let first := s.stop.first
      let port := first.bind FirstCause.port
      exec (.readStop st) s = taken st .readStop (record
        ([wire 1 s.stop.kind.severity, wire 1 mode.code, wire 1 mode.subCode, wire 1 s.stop.inSet.length]
        ++ s.stop.inSet.flatMap (fun c =>
          [wire 1 c.bit, wire 1 (c.kind s.stop.requested).severity, wire 1 (s.stop.attribution.ports c).toNat])
        ++ [wire 1 ((if s.stop.requested = .none then 0 else 1) + 2 * first.isSome.toNat + 4 * port.isSome.toNat),
            wire 1 s.stop.requested.severity, wire 1 ((first.map (fun f => f.cause.bit)).getD 255),
            wire 1 (port.getD 255), wire 1 s.stop.estopOpen.toNat])) id s)
    ∧ (MaySend s .cueRead st →
      let q := s.cue
      exec (.cueRead st) s = taken st .cueRead (record
        ([wire 1 q.entries.length, wire 1 q.window, wire 1 (if q.entries.length < q.window then 1 else 0),
            wire 1 q.entries.length]
        ++ q.entries.flatMap (fun e => [wire 1 e.mark, wire 2 e.cruise, wire 2 e.dwell, wire 1 e.haltAfter.toNat])
        ++ wire 1 q.running.toNat :: match q.failure with
          | none => [wire 1 0, wire 1 0, wire 1 0]
          | some f => [wire 1 1, wire 1 f.reason.code, wire 1 f.mark])) id s)
    ∧ (MaySend s .readAuthority st →
      exec (.readAuthority st 0) s = taken st .readAuthority (authorityBytes s.auth false) id s)
    ∧ (∀ mark, MaySend s .markRead st → mark ≤ 31 →
      exec (.markRead st mark) s = taken st .markRead
        (match s.marks.getD mark none with
          | none => record [wire 1 mark, wire 1 0]
          | some m => record
              ([wire 1 mark, wire 1 1] ++ vec 4 m.pos
              ++ [wire 1 m.owner, wire 1 (if g.flightBox.has m.pos.um = true then 1 else 0),
                  wire 1 (s.cue.entries.filter (fun e => e.mark == mark)).length, wire 1 m.label.length, m.label])) id s)
    ∧ (∀ port, MaySend s .portRead st → port ≤ 3 →
      exec (.portRead st port 0) s
        = taken st .portRead (portBytes (s.ports.get port) s.portLimits false) id s)
    ∧ (∀ handle sl z, MaySend s .zoneLookup st → s.air[handle / 256]? = some sl → sl.generation = handle % 256 →
      sl.zone = some z →
      exec (.zoneLookup st handle) s = taken st .zoneLookup (record
        ([wire 2 z.handle, wire 1 z.kind.code] ++ box z.box
        ++ [wire 1 z.state.code, wire 1 z.policy.code, wire 1 z.owner,
            wire 1 (z.standing.toNat + 2 * z.occupied.toNat + 4 * z.cap.isSome.toNat + 8 * z.lifetime.isSome.toNat),
            wire 2 (z.cap.getD 0), wire 3 (z.lifetime.getD 0), wire 1 z.label.length, z.label])) id s)
    ∧ (∀ point, MaySend s .zoneFind st → inRange point = true →
      exec (.zoneFind st point) s
        = taken st .zoneFind (record (handles ((liveZones s.air).filter (fun z => z.box.has point)))) id s)
    ∧ (∀ states owner, MaySend s .zoneList st → 1 ≤ states → states < 8 → owner < 8 ∨ owner = 255 →
        exec (.zoneList st states owner) s
          = taken st .zoneList (record (handles ((liveZones s.air).filter (fun z =>
              states.testBit z.state.code && (owner == 255 || z.owner == owner))))) id s)
    ∧ (∀ mark, MaySend s .markRead st → 31 < mark →
      exec (.markRead st mark) s = turnedAway st .markRead .badParam s)
    ∧ (∀ point, MaySend s .zoneFind st → inRange point = false →
      exec (.zoneFind st point) s = turnedAway st .zoneFind .badParam s)
    ∧ (∀ states owner, MaySend s .zoneList st → states = 0 ∨ 8 ≤ states ∨ 8 ≤ owner ∧ owner ≠ 255 →
      exec (.zoneList st states owner) s = turnedAway st .zoneList .badParam s)
    ∧ (∀ port clear, MaySend s .portRead st → 3 < port ∨ 1 < clear →
      exec (.portRead st port clear) s = turnedAway st .portRead .badParam s)
    ∧ ∀ clear, MaySend s .readAuthority st → 1 < clear →
        exec (.readAuthority st clear) s = turnedAway st .readAuthority .badParam s)
  ∧ (∀ (a : Authority) (applied : Bool),
      authorityBytes a applied = record
        ([wire 1 (a.holder.getD 255), wire 1 (a.explicit.toNat + 2 * a.cue.toNat), wire 1 a.pending.length]
        ++ a.pending.map (wire 1) ++ a.backoff.map (wire 1)
        ++ [wire 1 a.buffer.length, wire 1 a.filling.toNat, wire 1 a.miss, wire 1 a.stale.toNat, wire 1 a.overrun, wire 1 a.start,
            wire 1 a.hold, wire 1 a.deadband, wire 1 (a.swap.toNat + 2 * a.mirrorX.toNat + 4 * a.mirrorY.toNat),
            wire 1 applied.toNat]))
  ∧ (∀ (q : Port) (l : PortLimits) (applied : Bool),
      let word := fun (d : DriveStatus) => d.ready.toNat + 2 * d.brakeReleased.toNat + 4 * d.tempWarn.toNat + 16 * d.fault
      portBytes q l applied = record
        [wire 1 q.state.code, wire 1 q.breakCause.code, wire 2 q.breakLeft, wire 1 q.allowed.toNat,
          wire 1 (q.abilities.isSome.toNat + 2 * q.lastSent.isSome.toNat + 4 * q.measured.isSome.toNat
            + 8 * q.tension.isSome.toNat + 16 * q.candidate.isSome.toNat + 32 * q.tensionWindow.isSome.toNat),
          wire 1 (match q.abilities with
          | none => 0
          | some a => a.classes.toNat + 16 * a.tension.toNat + 32 * a.test.toNat),
          wire 1 (speedClassCode q.resolved), wire 1 q.legacy.toNat, wire 1 q.abilityRun, wire 1 q.feedbackRun, wire 1 q.silence,
          wire 1 q.sequence,
          wire 1 (if q.lastSent.map Sent.command = some .follow then 1 else 0),
          wireInt 4 ((q.lastSent.map Sent.length).getD 0), wire 4 (q.measured.getD 0), wire 2 (q.tension.getD 65535),
          wire 1 (word q.status), wire 1 ((q.candidate.map word).getD 0), wire 1 q.misses, wire 1 q.followRun,
          wire 1 q.highRun, wire 1 q.slackRun, wire 2 q.badFrames, wire 2 q.missTotal,
          wire 2 ((q.tensionWindow.map Prod.fst).getD 65535), wire 2 ((q.tensionWindow.map Prod.snd).getD 65535),
          testBytes q.test, wire 2 l.following, wire 2 l.tMin, wire 2 l.tMax, wire 2 l.tolerance, wire 1 applied.toNat])
  ∧ (∀ r : TestRecord, testBytes r = record
      [wire 1 r.pattern.code, wire 1 r.loop.code, wire 1 r.result.code, wire 2 r.compared, wire 2 r.errors])
  ∧ (∀ l : LimitSettings, settingsBytes l = record
      [wire 2 l.vh, wire 2 l.vz, wire 2 l.a, wire 2 l.aStop, wire 2 l.aQuick, wire 2 l.aBrk, wire 2 l.evict,
        wire 2 l.cueDefault, wire 2 l.standoff, wire 2 l.margin])
  ∧ (∀ l : Limits, limitBytes l = record
      [wire 4 l.vh, wire 4 l.vz, wire 1 l.a, wire 1 l.aStop, wire 2 l.aQuick, wire 1 l.aBrk, wire 4 l.evict,
        wire 4 l.cueDefault, wire 4 l.standoff, wire 4 l.margin])
  ∧ (validityBytes .valid = [0#8, 0#8, 0#8, 0#8, 0#8]
    ∧ (∀ wa wb, validityBytes (.anchorSpacing wa wb) = record [wire 1 1, wire 1 wa, wire 1 wb, wire 2 0])
    ∧ (∀ side : Bool, validityBytes (.boxOutsideAnchors .x side) = record [wire 1 2, wire 1 0, wire 1 side.toNat, wire 2 0]
      ∧ validityBytes (.boxOutsideAnchors .y side) = record [wire 1 2, wire 1 1, wire 1 side.toNat, wire 2 0])
    ∧ (∀ w, validityBytes (.boxTooHigh w) = record [wire 1 3, wire 1 w, wire 3 0])
    ∧ ∀ (corner w : Nat) (last above : Bool), validityBytes (.payoutRange corner w last above)
        = record [wire 1 4, wire 1 corner, wire 1 w, wire 1 last.toNat, wire 1 above.toNat])
  ∧ [StationClass.supervisor, .safety, .pilot, .viewer, .absent].map StationClass.code = [0, 1, 2, 3, 4]
  ∧ [Mode.safe, .hold, .stick, .cue, .evict, .stopping, .stopped .held].map Mode.code = [0, 1, 2, 3, 4, 5, 6]
  ∧ [Mode.stopped .held, .stopped .braked, .safe, .hold, .stick, .cue, .evict, .stopping].map Mode.subCode
      = [1, 2, 0, 0, 0, 0, 0, 0]
  ∧ Mode.code (.stopped .braked) = 6
  ∧ (∀ w x k b, Validity.code .valid = 0 ∧ (Validity.anchorSpacing w x).code = 1 ∧ (Validity.boxOutsideAnchors k b).code = 2
      ∧ (Validity.boxTooHigh w).code = 3 ∧ ∀ c, (Validity.payoutRange w x b c).code = 4)
  ∧ [none, some SpeedClass.a, some .b, some .c, some .d].map speedClassCode = [0, 1, 2, 3, 4]
  ∧ [PortState.off, .training, .break_, .up, .sleep, .test].map PortState.code = [0, 1, 2, 3, 4, 5]
  ∧ [BreakCause.none, .noCommonClass, .silent, .missed, .lostClass, .retrain].map BreakCause.code = [0, 1, 2, 3, 4, 5]
  ∧ [StopKind.none, .controlled, .quick, .brake].map StopKind.severity = [0, 1, 2, 3]
  ∧ [Cause.operator, .stationSilent, .tensionHigh, .slack, .portLost, .driveFault, .following, .estop].map Cause.bit
      = [0, 1, 2, 3, 4, 5, 6, 7]
  ∧ [none, some Standard.s50, some .s5994, some .s60].map standardCode = [0, 1, 2, 3]
  ∧ [Lock.free, .acquiring, .locked, .holdover].map Lock.code = [0, 1, 2, 3]
  ∧ [Dir.zPlus, .xPlus, .xMinus, .yPlus, .yMinus, .zMinus].map Dir.code = [1, 2, 3, 4, 5, 6]
  ∧ ([ZoneKind.keepOut, .slow].map ZoneKind.code = [0, 1]
    ∧ [ZoneState.pending, .active, .suspended].map ZoneState.code = [0, 1, 2]
    ∧ [Policy.defer, .evict].map Policy.code = [0, 1])
  ∧ ([ScanOrder.pointMajor, .winchMajor].map ScanOrder.code = [0, 1]
    ∧ [FailReason.blocked, .unreachable].map FailReason.code = [1, 2]
    ∧ [Pattern.prbs9, .prbs15].map Pattern.code = [0, 1] ∧ [Loop.internal, .external].map Loop.code = [0, 1]
    ∧ [TestResult.none, .running, .pass, .fail].map TestResult.code = [0, 1, 2, 3])

/-! ## The Airspace Table -/

/-- ZONE_CREATE: the checks in order, NO_ROOM with no free slot, else the record in the lowest free slot, through
activation when it is created ACTIVE (R10, R16, R17). -/
def Obligations.ZoneCreateTaken : Prop :=
  ∀ (s : State) (st kind : Nat) (box : Box) (initial policy standing cap lifetime : Nat) (label : List Byte),
    MaySend s .zoneCreate st →
      let run := exec (.zoneCreate st kind box initial policy standing cap lifetime label) s
      let mayStand := ¬(classOf s st = .pilot ∧ standing = 1)
      (¬mayStand → run = turnedAway st .zoneCreate .notPermitted s)
      ∧ (mayStand → (1 < kind ∨ (initial ≠ 1 ∧ initial ≠ 2) ∨ 1 < policy ∨ 1 < standing ∨ boxInRange box = false
            ∨ 12 < label.length) → run = turnedAway st .zoneCreate .badParam s)
      ∧ ∀ (k : ZoneKind) (i : ZoneState) (pol : Policy) (std : Bool), mayStand → zoneKindOf kind = some k →
          initialStateOf initial = some i → policyOf policy = some pol → yesNo standing = some std →
          boxInRange box = true → label.length ≤ 12 →
            ((∀ sl ∈ s.air, sl.zone ≠ none) → run = turnedAway st .zoneCreate .noRoom s)
            ∧ ∀ (n : Nat) (sl : Slot), s.air[n]? = some sl → sl.zone = none →
                (∀ m sl', m < n → s.air[m]? = some sl' → sl'.zone ≠ none) →
                let z0 : Zone :=
                  { handle := n * 256 + sl.generation, kind := k, box := box, state := i, policy := pol, owner := st
                    standing := std, cap := if k = .slow then some (max 100 (min 12000 cap)) else none
                    lifetime := if lifetime = 0 then none else some lifetime, label := label, occupied := false
                    clear := 0, fresh := false, reboxed := false }
                let z := if i = .active then activate s.motion.mode s.motion.p s.motion.lim.standoff z0 else z0
                run = taken st .zoneCreate (beBytes 2 z.handle ++ byte z.state.code ++ boolByte z.occupied)
                  (setZone n sl z) s

/-- Activation, row by row of the table of R12, for a valid P and, in SAFE, for any. `fresh` marks a zone that became
PENDING until the next period expiry, from which on its clear periods count (R17, R25). -/
def Obligations.ActivationTable : Prop :=
  ∀ (m : Mode) (p : Vec3) (standoff : Nat) (z : Zone),
    let act := activate m (some p) standoff z
    let open_ : Zone := { z with state := .active, occupied := false, clear := 0, fresh := false, reboxed := false }
    let taken_ : Zone := { z with state := .active, occupied := true, clear := 0, fresh := false, reboxed := false }
    let held : Zone := { z with state := .pending, occupied := false, clear := 0, fresh := true, reboxed := false }
    (z.kind = .slow → ∀ q, activate m q standoff z = open_)
    ∧ (z.kind = .keepOut →
        (∀ q, activate .safe q standoff z = open_)
        ∧ (m ≠ .safe → ¬Inside z standoff p → act = open_)
        ∧ (m.isStopped = true → Inside z standoff p → act = taken_)
        ∧ (m.steered = true → Inside z standoff p → z.policy = .evict → act = taken_)
        ∧ (m.steered = true → Inside z standoff p → z.policy = .defer → act = held)
        ∧ (m = .stopping → Inside z standoff p → act = held))

/-- ZONE_AMEND: the changes it may carry, and what the record does by its state and kind (R18, R19). `reboxed` keeps a
PENDING zone with a new box from the promotion at rest of the next expiry (R28; log 31). -/
def Obligations.ZoneAmendTaken : Prop :=
  ∀ (s : State) (st handle changes : Nat) (box : Box) (cap lifetime : Nat) (label : List Byte) (sl : Slot) (z : Zone),
    MaySend s .zoneAmend st → Names s handle sl z → MayChange s st z →
      let run := exec (.zoneAmend st handle changes box cap lifetime label) s
      let newBox := changes.testBit 0
      let allowed := changes < 32 ∧ (newBox = true → boxInRange box = true)
        ∧ (changes.testBit 1 = true → z.kind = .slow) ∧ ¬(changes.testBit 2 = true ∧ changes.testBit 3 = true)
        ∧ (changes.testBit 2 = true → lifetime ≠ 0) ∧ (changes.testBit 4 = true → label.length ≤ 12)
      let z1 : Zone :=
        { z with
          box := if newBox then box else z.box
          cap := if changes.testBit 1 then some (max 100 (min 12000 cap)) else z.cap
          lifetime := if changes.testBit 2 then some lifetime else if changes.testBit 3 then none else z.lifetime
          label := if changes.testBit 4 then label else z.label }
      let z2 : Zone :=
        if newBox = true ∧ z.state = .active ∧ z.kind = .keepOut then
          activate s.motion.mode s.motion.p s.motion.lim.standoff z1
        else if newBox = true ∧ z.state = .pending then { z1 with clear := 0, reboxed := true }
        else z1
      (¬allowed → run = turnedAway st .zoneAmend .badParam s)
      ∧ (allowed →
          run = taken st .zoneAmend (byte z2.state.code ++ boolByte z2.occupied) (setZone (handle / 256) sl z2) s)

/-- ZONE_SUSPEND, ZONE_RESUME, ZONE_RETIRE and ZONE_CLEAR (R20 to R23). A policy byte that is neither policy is judged
before the zone's state, the model's choice (log 12). A handle that names no live zone is refused STALE_HANDLE; a
PILOT that does not own the zone NOT_OWNER, and one that owns it while it is standing NOT_PERMITTED (R4, R10, R11). -/
def Obligations.ZoneRequestsTakenAndChecked : Prop :=
  ((∀ (s : State) (st handle : Nat) (sl : Slot) (z : Zone),
     Names s handle sl z → MayChange s st z →
       (MaySend s .zoneSuspend st →
         (z.state = .suspended → exec (.zoneSuspend st handle) s = turnedAway st .zoneSuspend .wrongState s)
         ∧ (z.state ≠ .suspended →
           exec (.zoneSuspend st handle) s
             = taken st .zoneSuspend (byte 2)
                 (setZone (handle / 256) sl 
                   { z with
                     state := .suspended, occupied := false, clear := 0, fresh := false, reboxed := false }) s))
       ∧ (MaySend s .zoneResume st → ∀ policy : Nat,
         (policy ≠ 0 → policy ≠ 1 → policy ≠ 255 →
           exec (.zoneResume st handle policy) s = turnedAway st .zoneResume .badParam s)
         ∧ ∀ pol : Policy, (policy = 0 ∧ pol = .defer ∨ policy = 1 ∧ pol = .evict ∨ policy = 255 ∧ pol = z.policy) →
           (z.state ≠ .suspended → exec (.zoneResume st handle policy) s = turnedAway st .zoneResume .wrongState s)
           ∧ (z.state = .suspended →
             let z' := activate s.motion.mode s.motion.p s.motion.lim.standoff { z with policy := pol }
             exec (.zoneResume st handle policy) s
               = taken st .zoneResume (byte z'.state.code ++ boolByte z'.occupied) (setZone (handle / 256) sl z') s))
       ∧ (MaySend s .zoneRetire st →
         exec (.zoneRetire st handle) s
           = taken st .zoneRetire []
               (fun t => { t with air := t.air.set (handle / 256) { generation := (sl.generation + 1) % 256, zone := none } })
               s))
     ∧ ∀ (s : State) (st : Nat), MaySend s .zoneClear st →
         ∃ (air : List Slot) (n : Nat),
           exec (.zoneClear st) s = taken st .zoneClear (byte n) (fun t => { t with air := air }) s
           ∧ air.length = s.air.length
           ∧ n = ((liveZones s.air).filter (fun z => !z.standing)).length
           ∧ ∀ (k : Nat) (sl : Slot), s.air[k]? = some sl →
               (sl.zone = none → air[k]? = some sl)
               ∧ ∀ z, sl.zone = some z →
                   air[k]? = some (if z.standing then sl else { generation := (sl.generation + 1) % 256, zone := none }))
  ∧ (∀ (s : State) (st handle changes policy : Nat) (box : Box) (cap lifetime : Nat) (label : List Byte) (c : Instr)
       (r : Req),
       (c = .zoneAmend st handle changes box cap lifetime label ∧ r = .zoneAmend
         ∨ c = .zoneSuspend st handle ∧ r = .zoneSuspend ∨ c = .zoneResume st handle policy ∧ r = .zoneResume
         ∨ c = .zoneRetire st handle ∧ r = .zoneRetire ∨ c = .zoneLookup st handle ∧ r = .zoneLookup) →
       MaySend s r st →
         ((∀ sl z, ¬Names s handle sl z) → exec c s = turnedAway st r .staleHandle s)
         ∧ (r ≠ .zoneLookup → classOf s st = .pilot → ∀ sl z, Names s handle sl z →
             (z.owner ≠ st → exec c s = turnedAway st r .notOwner s)
             ∧ (z.owner = st → z.standing = true → exec c s = turnedAway st r .notPermitted s)))

/-- The countdown of lifetimes: at a period expiry each record with a lifetime loses one period of it, and one whose
count reaches zero is retired with ZONE_EXPIRED (R24); ZONE_LIFETIME_EXPIRY is that of one slot alone, and with a count
that does not stand at 1 it changes nothing, the model's choice (log 5). Promotion at rest: in SAFE and STOPPED an expiry
with no computation in flight promotes every PENDING zone whose lifetime does not end at it, with ZONE_ACTIVE (R26), but
for one amended with a new box since the last expiry, which stays PENDING and may be promoted by the next (R28; log 31). -/
def Obligations.ZoneLifetimesAndPromotionAtRest : Prop :=
  (∀ (s t : State), s.resetHeld = false → NoFrameWaits s → exec .periodExpiry s = .next t →
    ∀ (k : Nat) (sl : Slot) (z : Zone), s.air[k]? = some sl → sl.zone = some z →
      (z.lifetime = some 1 →
        t.air[k]? = some { generation := (sl.generation + 1) % 256, zone := none } ∧ eventSet t .zoneExpired = true)
      ∧ (∀ n, z.lifetime = some (n + 2) →
        ∃ z', t.air[k]? = some { sl with zone := some z' } ∧ z'.lifetime = some (n + 1) ∧ z'.handle = z.handle
          ∧ z'.box = z.box ∧ z'.owner = z.owner
          ∧ z'.fresh = false ∧ z'.reboxed = false)
      ∧ (z.lifetime = none →
        ∃ z', t.air[k]? = some { sl with zone := some z' } ∧ z'.lifetime = none ∧ z'.handle = z.handle
          ∧ z'.box = z.box ∧ z'.owner = z.owner
          ∧ z'.fresh = false ∧ z'.reboxed = false))
    ∧ (∀ (s : State) (slot : Nat) (sl : Slot) (z : Zone), s.resetHeld = false → s.air[slot]? = some sl →
        sl.zone = some z →
          (z.lifetime = some 1 →
            exec (.zoneLifetimeExpiry slot) s
              = .next { s with
                  air := s.air.set slot { generation := (sl.generation + 1) % 256, zone := none }
                  station := { s.station with events := s.station.events ||| 0x40#14 } })
          ∧ (z.lifetime ≠ some 1 → z.lifetime ≠ some 0 → exec (.zoneLifetimeExpiry slot) s = .next s))
    ∧ ∀ (s t : State), s.resetHeld = false → s.motion.flight = none → NoFrameWaits s →
        (s.motion.mode = .safe ∨ s.motion.mode.isStopped = true) → exec .periodExpiry s = .next t →
          ∀ (k : Nat) (sl : Slot) (z : Zone), s.air[k]? = some sl → sl.zone = some z → z.state = .pending →
            z.lifetime ≠ some 0 → z.lifetime ≠ some 1 →
              let become := fun (z' : Zone) => t.air[k]? = some { sl with zone := some z' }
              let counted := { z with lifetime := z.lifetime.map (· - 1), fresh := false, reboxed := false }
              (z.reboxed = true → become counted)
              ∧ (z.reboxed = false → ∃ occ : Bool,
                  become { counted with state := .active, occupied := occ, clear := 0 }
                  ∧ eventSet t .zoneActive = true
                  ∧ (occ = true ↔ s.motion.mode.isStopped = true ∧ z.kind = .keepOut
                      ∧ ∃ p, s.motion.p = some p ∧ Inside z s.motion.lim.standoff p))

/-- At a commit every ACTIVE keep-out is checked against the new P, and after it every PENDING keep-out is tested for
promotion (R14, R25), but for one that became PENDING since the last expiry, `fresh`, whose clear periods count from the
next expiry on (R17). One that was PENDING already and was given a new box meanwhile is tested, the model's reading (log 30). -/
def Obligations.CommitDecidesEveryZone : Prop :=
  ∀ (s t : State) (c : Computation), s.resetHeld = false → s.motion.flight = some c → exec .periodCommit s = .next t →
    ∃ p : Vec3, t.motion.p = some p
      ∧ (eventSet t .zoneActive = true ↔ eventSet s .zoneActive = true ∨ ∃ z ∈ liveZones s.air,
          z.kind = .keepOut ∧ z.state = .pending ∧ z.fresh = false ∧ z.clear = 1 ∧ ¬Inside z s.motion.lim.standoff p)
      ∧ ∀ (k : Nat) (sl : Slot) (z : Zone), s.air[k]? = some sl → sl.zone = some z →
          let inside := Inside z s.motion.lim.standoff p
          let become := fun (z' : Zone) => t.air[k]? = some { sl with zone := some z' }
          (z.kind = .slow ∨ z.state = .suspended → become z)
          ∧ (z.kind = .keepOut → z.state = .active →
              (¬inside → become { z with occupied := false })
              ∧ (inside → z.occupied = true → become z)
              ∧ (inside → z.occupied = false → c.mode ≠ .stopping → z.policy = .evict → become { z with occupied := true })
              ∧ (inside → z.occupied = false → c.mode = .stopping ∨ z.policy = .defer →
                  become { z with state := .pending, occupied := false, clear := 0, fresh := true, reboxed := false }))
          ∧ (z.kind = .keepOut → z.state = .pending → z.fresh = true → become z)
          ∧ (z.kind = .keepOut → z.state = .pending → z.fresh = false →
              (inside → become { z with clear := 0 })
              ∧ (¬inside → z.clear = 0 → become { z with clear := 1 })
              ∧ (¬inside → z.clear = 1 → 
                become { z with state := .active, occupied := false, clear := 0, fresh := false, reboxed := false }))

/-- Every step of well-formed commands keeps the table as R3 and R9 say: 48 slots, the generations bytes, the handle of a
record that of its slot, the owner a station, the extents ordered and in range, a cap on SLOW records alone and in its
range, and a lifetime, when present, from 1 to 16,777,215 periods. -/
def Obligations.AirKept : Prop :=
  ∀ s t : State, AirOk s → (∀ c ∈ s.pending, c.wf = true) → step s = .next t → AirOk t

/-- Every step keeps the occupied flags exact (R13, R15). -/
def Obligations.OccupiedKept : Prop :=
  ∀ s t : State, OccupiedExact s → ModeOk s → step s = .next t → OccupiedExact t

/-! ## The Motion Generator -/

/-- ENABLE: its seven checks in order, MISMATCH with the largest difference and the lowest-numbered port that has it,
and what it sets (R39, R40). `m` are the measured lengths that the four ports hold. DISABLE in HOLD at rest makes the
mode SAFE, P not valid and O empty, and discards a computation in flight; elsewhere it is refused (R15, R41). -/
def Obligations.EnableAndDisable : Prop :=
  (∀ (s : State) (st : Nat) (p0 : Vec3), MaySend s .enable st →
     let run := exec (.enable st p0) s
     let p : Vec3 := ⟨p0.x * 1000, p0.y * 1000, p0.z * 1000⟩
     let ready := ∀ q ∈ s.ports.list, q.state = .up ∧ q.status.ready = true ∧ q.status.fault = 0
     let barred := ∃ z ∈ liveZones s.air, z.kind = .keepOut ∧ z.state = .active ∧ Inside z s.motion.lim.standoff p
     (s.motion.mode ≠ .safe → run = turnedAway st .enable .wrongState s)
     ∧ (s.motion.mode = .safe → s.span.validity ≠ .valid → run = turnedAway st .enable .noGeometry s)
     ∧ (s.motion.mode = .safe → s.span.validity = .valid →
         (¬ready → run = turnedAway st .enable .portsNotReady s)
         ∧ (ready → s.stop.causes ≠ 0#8 → run = turnedAway st .enable .causePresent s)
         ∧ (ready → s.stop.causes = 0#8 →
             (s.span.flightBox.has p = false → run = turnedAway st .enable .badParam s)
             ∧ (s.span.flightBox.has p = true → barred → run = turnedAway st .enable .occupied s)
             ∧ (s.span.flightBox.has p = true → ¬barred → ∀ m : Quad Nat,
                 (∀ i, i < 4 → (s.ports.get i).measured = some (m.get i)) →
                   let diff := fun i => (demandLength s.span p i - m.get i).natAbs
                   ((∀ i, i < 4 → diff i ≤ s.portLimits.tolerance * 1000) →
                     run = taken st .enable []
                       (fun t => { t with motion := { t.motion with
                         mode := .hold, p := some p, vOld := ⟨0, 0, 0⟩, exit := none, trapped := false
                         lengths := some ⟨demandLength s.span p 0, demandLength s.span p 1, demandLength s.span p 2,
                           demandLength s.span p 3⟩
                         feed := ⟨0, 0, 0, 0⟩ } }) s)
                   ∧ ∀ w, w < 4 → s.portLimits.tolerance * 1000 < diff w → (∀ i, i < 4 → diff i ≤ diff w) →
                       (∀ i, i < w → diff i < diff w) →
                         run = .next (answer st Req.enable.code ⟨.mismatch, beBytes 4 (diff w) ++ byte w⟩ (takeFrame s))))))
  ∧ (∀ (s : State) (st : Nat), MaySend s .disable st →
       (¬(s.motion.mode = .hold ∧ s.motion.vOld = ⟨0, 0, 0⟩) →
         exec (.disable st) s = turnedAway st .disable .wrongState s)
       ∧ (s.motion.mode = .hold → s.motion.vOld = ⟨0, 0, 0⟩ →
         exec (.disable st) s
           = taken st .disable []
               (fun t => { t with
                 air := t.air.map (fun sl => { sl with zone := sl.zone.map (fun z => { z with occupied := false }) })
                 motion := { t.motion with mode := .safe, p := none, exit := none, trapped := false, flight := none } }) s))

/-- PERIOD_COMMIT: P becomes the P' of the stages, or stays when the step is abandoned; v_old is the step taken, the
lengths are those of the new P, and the feed-forward is the difference from the last lengths (R50, R51, R52). With no
computation in flight nothing happens. -/
def Obligations.PeriodCommitCommits : Prop :=
  ∀ s : State, s.resetHeld = false →
    (s.motion.flight = none → exec .periodCommit s = .next s)
    ∧ ∀ c : Computation, s.motion.flight = some c →
        let p := (nextPosition s c).getD c.p
        let d := fun i => demandLength s.span p i
        ∃ t, exec .periodCommit s = .next t
          ∧ t.motion.p = some p ∧ t.motion.vOld = ⟨p.x - c.p.x, p.y - c.p.y, p.z - c.p.z⟩ ∧ t.motion.flight = none
          ∧ t.motion.lengths = some ⟨d 0, d 1, d 2, d 3⟩
          ∧ (nextPosition s c = none → t.motion.feed = ⟨0, 0, 0, 0⟩)
          ∧ (∀ last, s.motion.lengths = some last → (nextPosition s c).isSome = true →
              t.motion.feed = ⟨d 0 - last.w0, d 1 - last.w1, d 2 - last.w2, d 3 - last.w3⟩)
          ∧ t.motion.lim = s.motion.lim ∧ t.motion.exit = s.motion.exit ∧ t.motion.trapped = s.motion.trapped
          ∧ (c.mode ≠ .cue → t.cue = s.cue ∧ t.auth = s.auth ∧ t.motion.copy = s.motion.copy)
          ∧ (c.mode ≠ .cue → c.mode ≠ .stopping → t.motion.mode = s.motion.mode)
          ∧ t.span = s.span ∧ t.marks = s.marks ∧ t.ports = s.ports ∧ t.portLimits = s.portLimits ∧ t.stop = s.stop
          ∧ t.period = s.period ∧ t.station.inService = s.station.inService ∧ t.station.silence = s.station.silence

/-- The law of R44: at a commit the magnitude of each component of the velocity has grown by at most a_per, and of a
computation that ran in STOPPING it has not grown. A STOPPING commit takes at least the acceleration of the stop off every
component, and makes the mode STOPPED/HELD exactly when the step was zero on all axes (R44, R64). -/
def Obligations.AccelerationLawAndStoppingRunsDown : Prop :=
  (∀ (s t : State) (c : Computation), ModeOk s → InFlightBox s → s.resetHeld = false → s.motion.flight = some c →
    exec .periodCommit s = .next t →
      ∀ k : Axis,
        (t.motion.vOld.get k).natAbs ≤ (s.motion.vOld.get k).natAbs + s.motion.lim.a
        ∧ (c.mode = .stopping → (t.motion.vOld.get k).natAbs ≤ (s.motion.vOld.get k).natAbs))
  ∧ ∀ (s t : State) (c : Computation), ModeOk s → InFlightBox s → s.resetHeld = false → s.motion.flight = some c →
      c.mode = .stopping → exec .periodCommit s = .next t →
        let a := if c.kind = .quick then s.motion.lim.aQuick else s.motion.lim.aStop
        (∀ k : Axis, (t.motion.vOld.get k).natAbs ≤ (s.motion.vOld.get k).natAbs - a)
        ∧ (t.motion.vOld = ⟨0, 0, 0⟩ → t.motion.mode = .stopped .held)
        ∧ (t.motion.vOld ≠ ⟨0, 0, 0⟩ → t.motion.mode = .stopping)
        ∧ t.stop = s.stop

/-- The law of R45: a committed step has a horizontal magnitude within vh_per, the class cap and the cap of every SLOW
zone that was read whose exact box held P, and a vertical magnitude within vz_per and the class cap. -/
def Obligations.SpeedLaw : Prop :=
  ∀ (s t : State) (c : Computation), ModeOk s → InFlightBox s → s.resetHeld = false → s.motion.flight = some c →
    exec .periodCommit s = .next t →
      let v := t.motion.vOld
      let h := isqrt (v.x * v.x + v.y * v.y).toNat
      let cap := match c.speedClass with
        | none => 0
        | some .a => s.span.classCaps.w0
        | some .b => s.span.classCaps.w1
        | some .c => s.span.classCaps.w2
        | some .d => s.span.classCaps.w3
      h ≤ s.motion.lim.vh ∧ h ≤ cap ∧ v.z.natAbs ≤ s.motion.lim.vz ∧ v.z.natAbs ≤ cap
      ∧ ∀ z ∈ c.zones, z.kind = .slow → z.box.um.has c.p = true → ∀ n, z.cap = some n →
          h ≤ n * s.period.configured.tns / 1000000

/-- Stage 4 (R46, R47), exactly: the approach limit keeps the sign of each component and never lets it grow; over the
surfaces ahead, the flight-box face, the near faces of the guarded boxes not in O and those of the SLOW zones whose
shadows hold P, the magnitude is within isqrt(c² + 2 · a_brk · d) of each, and it is the old one or is reduced to one of
these limits. So it is 0 on a flight-box face in the direction of motion, and its square is at most 2 · a_brk · d before a
face to be stopped at, and at most c² + 2 · a_brk · d before a SLOW zone of cap c. -/
def Obligations.ApproachLaw : Prop :=
  ∀ (std : Standard) (lim : Limits) (box : Box) (zones : List Zone) (p v : Vec3) (k : Axis),
    let w := (approach std lim box zones p v).get k
    let up := 0 < v.get k
    let ahead := fun (lo hi : Axis → Int) (d : Int) =>
      (∀ j, j ≠ k → lo j - lim.margin ≤ p.get j ∧ p.get j ≤ hi j + lim.margin)
        ∧ (up → p.get k < lo k ∧ d = lo k - p.get k) ∧ (¬up → hi k < p.get k ∧ d = p.get k - hi k)
    let guarded := fun (z : Zone) (d : Int) =>
      ahead (fun j => z.box.lo j * 1000 - (lim.standoff : Int)) (fun j => z.box.hi j * 1000 + (lim.standoff : Int)) d
    let slow := fun (z : Zone) (d : Int) => ahead (fun j => z.box.lo j * 1000) (fun j => z.box.hi j * 1000) d
    let face := if up then box.hi k - p.get k else p.get k - box.lo k
    let surface := fun (d : Int) (c : Nat) =>
      d = face ∧ c = 0
        ∨ (∃ z ∈ zones, z.kind = .keepOut ∧ z.occupied = false ∧ guarded z d ∧ c = 0)
        ∨ ∃ z ∈ zones, z.kind = .slow ∧ slow z d ∧ c = z.cap.getD 0 * std.tns / 1000000
    let limit := fun (d : Int) (c : Nat) => isqrt ((c : Int) * c + 2 * lim.aBrk * d).toNat
    (0 ≤ v.get k → 0 ≤ w ∧ w ≤ v.get k) ∧ (v.get k ≤ 0 → v.get k ≤ w ∧ w ≤ 0)
    ∧ (v.get k ≠ 0 →
        (∀ d c, surface d c → w.natAbs ≤ limit d c)
        ∧ (w.natAbs = (v.get k).natAbs ∨ ∃ d c, surface d c ∧ w.natAbs = limit d c))
    ∧ (v.get k ≠ 0 → face = 0 → w = 0)
    ∧ (box.has p = true → w * w ≤ 2 * lim.aBrk * face)
    ∧ (∀ z ∈ zones, z.kind = .keepOut → z.occupied = false → ∀ d, v.get k ≠ 0 → guarded z d →
        w * w ≤ 2 * lim.aBrk * d)
    ∧ ∀ z ∈ zones, z.kind = .slow → ∀ n, z.cap = some n → ∀ d, v.get k ≠ 0 → slow z d →
        let c : Int := (n * std.tns / 1000000 : Nat)
        w * w ≤ c * c + 2 * lim.aBrk * d

/-- What the stages do to a demand, exactly (R44, R45, R48 to R50), and the two profiles (R54, R58). Stage 2 reaches a
demand within one acceleration and else moves by just that; stage 3 leaves a velocity within its limits alone and else
cuts it to them; the step is clamped into the flight box, and the zone clip puts it out of one guarded box after another
by the least penetration, four passes at most. A demand that no limit cuts is the step taken. The profiles give the way
left when the speed of R54 and R58 covers it, and else that speed along it. -/
def Obligations.StagesOfTheStep : Prop :=
  (∀ (lim : Limits) (a : Nat) (vOld demand : Vec3) (k : Axis),
     let d := demand.get k - vOld.get k
     let v := (rateLimit a vOld demand).get k
     (d.natAbs ≤ a → v = demand.get k) ∧ ((a : Int) < d → v = vOld.get k + a) ∧ (d < -(a : Int) → v = vOld.get k - a)
     ∧ (∀ m kind, m ≠ .stopping → stageAccel lim m kind = lim.a)
     ∧ stageAccel lim .stopping .controlled = lim.aStop ∧ stageAccel lim .stopping .quick = lim.aQuick)
  ∧ (∀ (vh vz : Nat) (v : Vec3),
       let h := isqrt (v.x * v.x + v.y * v.y).toNat
       let w := speedCap vh vz v
       (h ≤ vh → w.x = v.x ∧ w.y = v.y)
       ∧ (vh < h → w.x = Int.tdiv (v.x * vh) h ∧ w.y = Int.tdiv (v.y * vh) h)
       ∧ (v.z.natAbs ≤ vz → w.z = v.z) ∧ ((vz : Int) < v.z → w.z = vz) ∧ (v.z < -(vz : Int) → w.z = -(vz : Int)))
  ∧ (∀ (lim : Limits) (cap : Nat) (std : Standard) (zones : List Zone) (p : Vec3),
       let h := horizontalLimit lim cap std zones p
       let slow := fun (n : Nat) =>
         ∃ z ∈ zones, z.kind = .slow ∧ z.box.um.has p = true ∧ n = z.cap.getD 0 * std.tns / 1000000
       h ≤ lim.vh ∧ h ≤ cap ∧ (∀ n, slow n → h ≤ n) ∧ (h = lim.vh ∨ h = cap ∨ slow h))
  ∧ (∀ (g : Box) (p q : Vec3) (k : Axis),
       let cand := fun (j : Axis) => p.get j < g.lo j ∨ g.hi j < p.get j
       let target := fun (j : Axis) => if p.get j < g.lo j then g.lo j - 1 else g.hi j + 1
       let depth := fun (j : Axis) => (q.get j - target j).natAbs
       (g.has q = false ∨ g.has p = true → clipZone p q g = q)
       ∧ (g.has q = true → cand k →
           (∀ j, cand j → depth k < depth j ∨ depth k = depth j ∧ axisCode k ≤ axisCode j) →
             clipZone p q g = q.put k (target k)))
  ∧ (∀ (box : Box) (boxes : List Box) (p v : Vec3), box.ordered = true →
       let q : Vec3 :=
         ⟨max box.xMin (min box.xMax (p.x + v.x)), max box.yMin (min box.yMax (p.y + v.y)),
           max box.zMin (min box.zMax (p.z + v.z))⟩
       let pass := fun (r : Vec3) => boxes.foldl (clipZone p) r
       stepped box boxes p v
         = if pass (pass (pass (pass q))) = pass (pass (pass q)) then some (pass (pass (pass q))) else none)
  ∧ (∀ (s : State) (c : Computation), s.resetHeld = false → s.motion.flight = some c →
       let d := c.demand
       let lim := s.motion.lim
       let std := s.period.configured
       let a := if c.mode = .stopping then (if c.kind = .quick then lim.aQuick else lim.aStop) else lim.a
       let cap := match c.speedClass with
         | none => 0
         | some .a => s.span.classCaps.w0
         | some .b => s.span.classCaps.w1
         | some .c => s.span.classCaps.w2
         | some .d => s.span.classCaps.w3
       let h := isqrt (d.x * d.x + d.y * d.y).toNat
       let goal : Vec3 := ⟨c.p.x + d.x, c.p.y + d.y, c.p.z + d.z⟩
       (∀ k, (d.get k - c.vOld.get k).natAbs ≤ a) → h ≤ lim.vh → h ≤ cap → d.z.natAbs ≤ lim.vz → d.z.natAbs ≤ cap →
       (∀ z ∈ c.zones, z.kind = .slow → z.box.um.has c.p = true → h ≤ z.cap.getD 0 * std.tns / 1000000) →
       approach std lim s.span.flightBox c.zones c.p d = d → s.span.flightBox.has goal = true →
       (∀ z ∈ c.zones, z.kind = .keepOut → z.state = .active → z.occupied = false → ¬Inside z lim.standoff goal) →
         ∃ t, exec .periodCommit s = .next t ∧ t.motion.p = some goal ∧ t.motion.vOld = d)
  ∧ ∀ (a cruise : Nat) (vOld p m : Vec3) (e : ExitTarget),
      let speed := fun (n : Nat) => min (min (isqrt vOld.sq + a) cruise) (isqrt (2 * a * n))
      let far := isqrt (m.minus p).sq
      let v := cueProfile a cruise vOld p m
      let near := (e.pos.get e.dir.axis - p.get e.dir.axis).natAbs
      let w := evictDemand a cruise vOld p e
      (far ≤ speed far → v = ⟨m.x - p.x, m.y - p.y, m.z - p.z⟩)
      ∧ (speed far < far →
          (∀ k, v.get k = Int.tdiv ((m.get k - p.get k) * speed far) far ∧ (v.get k).natAbs ≤ (m.get k - p.get k).natAbs)
          ∧ isqrt v.sq ≤ speed far)
      ∧ (near ≤ speed near → w = ⟨e.pos.x - p.x, e.pos.y - p.y, e.pos.z - p.z⟩)
      ∧ (speed near < near →
          (w.get e.dir.axis).natAbs = speed near
          ∧ (p.get e.dir.axis < e.pos.get e.dir.axis → 0 ≤ w.get e.dir.axis)
          ∧ (e.pos.get e.dir.axis < p.get e.dir.axis → w.get e.dir.axis ≤ 0)
          ∧ ∀ k, k ≠ e.dir.axis → w.get k = 0)

/-- The law of R49: a commanded position outside the guarded box of a keep-out that was ACTIVE and not in O when the
computation read the table is followed by one outside that guarded box. -/
def Obligations.ClipLaw : Prop :=
  ∀ (s t : State) (c : Computation), ModeOk s → InFlightBox s → s.resetHeld = false → s.motion.flight = some c →
    exec .periodCommit s = .next t →
      ∀ p p' : Vec3, s.motion.p = some p → t.motion.p = some p' →
        ∀ z ∈ c.zones, z.kind = .keepOut → z.state = .active → z.occupied = false →
          ¬Inside z s.motion.lim.standoff p → ¬Inside z s.motion.lim.standoff p'

/-- The law of R48: every commanded position lies inside the flight box. -/
def Obligations.InFlightBoxKept : Prop :=
  ∀ s t : State, InFlightBox s → ModeOk s → step s = .next t → InFlightBox t

/-- PERIOD_EXPIRY begins a period computation in the steered modes and STOPPING, and none in SAFE and STOPPED, where
the last lengths go on with a feed-forward of 0 (R35, R37, R42, R43, R56, R61, R66, R181). It settles the mode first
and reads the zones, O and the speed class as they stand. Where eviction begins, a running cue halts with its entry
kept, the stick is flushed, and a holder on the CUE basis alone loses authority with backoff 2, which is the model's reading
(log 32); an unreachable cue fails, and its removal raises CUE_WANT where the count falls below W (R106); TRAPPED is raised when an episode begins and not again while it lasts (R55). That no pending station
follows that holder at the same expiry rests on the claim decision coming before the computation, the model's choice (log
4), and so does what the computation reads of the stick and of the lifetimes of that expiry. The hypotheses leave
out a computation still in flight, a frame still coming in, and a stop that a missed setpoint or the watchdog raises at
the same expiry. -/
def Obligations.ExpiryBeginsComputation : Prop :=
  ∀ s : State, s.resetHeld = false → s.motion.flight = none → NoFrameWaits s →
    (∀ q ∈ s.ports.list, q.state = .up → q.good = true ∨ q.lastSent = none) →
    s.station.silence + 1 < s.station.watchdog →
      ∃ t, exec .periodExpiry s = .next t
        ∧ t.period.index = (s.period.index + 1) % 4 ∧ t.period.acc < 2 ^ 32
        ∧ t.motion.p = s.motion.p ∧ t.motion.vOld = s.motion.vOld ∧ t.motion.lim = s.motion.lim
        ∧ t.motion.lengths = s.motion.lengths ∧ t.span = s.span ∧ t.marks = s.marks ∧ t.stop = s.stop
        ∧ WantsByCount s t
        ∧ ((s.motion.mode = .safe ∨ s.motion.mode.isStopped = true) →
            t.motion = { s.motion with feed := ⟨0, 0, 0, 0⟩ })
        ∧ ∀ p, s.motion.p = some p → (s.motion.mode.steered = true ∨ s.motion.mode = .stopping) →
            let still := ∃ z ∈ liveZones s.air, z.occupied = true ∧ z.lifetime ≠ some 0 ∧ z.lifetime ≠ some 1
            (s.motion.mode = .stopping → t.motion.mode = .stopping)
            ∧ (s.motion.mode ≠ .stopping → still → t.motion.mode = .evict)
            ∧ (s.motion.mode = .hold ∨ s.motion.mode = .evict → ¬still → t.motion.mode = .hold)
            ∧ (s.motion.mode = .stick → ¬still → t.motion.mode = .stick)
            ∧ (s.motion.mode = .cue → ¬still → ∀ copy, s.motion.copy = some copy →
                t.motion.mode
                  = if unreachable s.span.flightBox s.motion.lim.standoff (liveZones t.air) copy.target then .hold
                    else .cue)
            ∧ (s.motion.mode = .cue → s.auth.holder.isSome = true → t.motion.mode ≠ .cue →
                t.motion.copy = none ∧ t.cue.running = false
                ∧ CueBasisOver { s.auth with backoff := s.auth.backoff.map (fun n => n - 1) } s t
                ∧ (still → t.cue.entries = s.cue.entries ∧ t.cue.failure = s.cue.failure)
                ∧ (¬still → ∀ e rest, s.cue.entries = e :: rest →
                    t.cue.entries = rest ∧ t.cue.failure = some { reason := .unreachable, mark := e.mark }
                    ∧ eventSet t .cueFailed = true))
            ∧ (s.motion.mode = .stick → s.auth.holder.isSome = true → still →
                t.auth.buffer = [] ∧ t.auth.filling = true ∧ t.auth.lastDemand = none ∧ t.auth.miss = 0
                ∧ t.auth.stale = false ∧ t.auth.holder = s.auth.holder)
            ∧ (t.motion.mode = .evict →
                (eventSet t .trapped = true
                  ↔ eventSet s .trapped = true ∨ t.motion.exit = none ∧ s.motion.trapped = false))
            ∧ ∃ c, t.motion.flight = some c ∧ c.mode = t.motion.mode ∧ c.p = p ∧ c.vOld = s.motion.vOld
              ∧ c.kind = s.stop.kind ∧ c.speedClass = systemClass s.ports
              ∧ c.zones = (liveZones t.air).filter (fun z => z.state == .active)
              ∧ (c.mode = .hold ∨ c.mode = .stopping → c.demand = ⟨0, 0, 0⟩)
              ∧ (c.mode = .stick →
                  c.demand = if t.auth.hold < t.auth.miss then ⟨0, 0, 0⟩ else t.auth.lastDemand.getD ⟨0, 0, 0⟩)
              ∧ (c.mode = .cue → ∀ copy, s.motion.copy = some copy → t.motion.copy = some copy
                  ∧ (copy.dwellLeft.isSome = true → c.demand = ⟨0, 0, 0⟩)
                  ∧ (copy.dwellLeft = none →
                      c.demand = cueProfile s.motion.lim.a copy.cruise s.motion.vOld p copy.target))
              ∧ (c.mode = .evict →
                  (t.motion.trapped = true ↔ t.motion.exit = none)
                  ∧ t.motion.exit = exitSearch s.span.flightBox s.motion.lim.standoff c.zones p
                  ∧ (t.motion.exit = none → c.demand = ⟨0, 0, 0⟩)
                  ∧ ∀ e, t.motion.exit = some e →
                      c.demand = evictDemand s.motion.lim.a s.motion.lim.evict s.motion.vOld p e)

/-- The exit search (R53 to R55): the target is a candidate that counts, no candidate that counts is nearer, none
earlier in the order of ties is as near, and there is no target exactly when no candidate counts. -/
def Obligations.ExitSearchIsNearest : Prop :=
  ∀ (box : Box) (standoff : Nat) (zones : List Zone) (p : Vec3),
    (∀ e, exitSearch box standoff zones p = some e →
      ExitCounts box standoff zones p e
      ∧ ∀ f, ExitCounts box standoff zones p f →
          exitDistance p e ≤ exitDistance p f
          ∧ (exitDistance p e = exitDistance p f → e.dir.code ≤ f.dir.code))
    ∧ (exitSearch box standoff zones p = none ↔ ∀ f, ¬ExitCounts box standoff zones p f)

/-- CUE_DWELL_EXPIRY and CUE_BLOCKED (R59, R60, R62, R100, R101): the entry at the head is removed; a completion
raises CUE_DONE and ends the cue or starts the next entry, which fails at once when its mark is unreachable; a failure
raises CUE_FAILED and writes the failure record. CUE_WANT is raised where the count falls below W (R106). When the cue
ends, the CUE basis clears, a holder on that basis alone loses authority with backoff 2 and AUTHORITY (R117), and the mode
is HOLD, or EVICT when O is not empty. A threshold command whose count does not stand one short changes nothing, the model's choice (log 5). -/
def Obligations.CueThresholds : Prop :=
  ∀ (s : State) (copy : CueCopy) (e : CueEntry) (rest : List CueEntry), s.resetHeld = false → s.motion.mode = .cue →
    s.motion.copy = some copy → s.cue.entries = e :: rest → s.auth.holder.isSome = true →
      let ended := fun (t : State) =>
        t.cue.running = false ∧ t.motion.copy = none ∧ t.motion.mode = (if anyOccupied s then .evict else .hold)
        ∧ CueBasisOver s.auth s t
      let frame := fun (t : State) =>
        t.air = s.air ∧ t.span = s.span ∧ t.marks = s.marks ∧ t.ports = s.ports ∧ t.stop = s.stop ∧ t.period = s.period
        ∧ t.motion.p = s.motion.p ∧ t.motion.vOld = s.motion.vOld ∧ t.motion.lengths = s.motion.lengths
        ∧ t.cue.window = s.cue.window ∧ WantsByCount s t
      (∀ n, copy.dwellLeft = some n → n ≤ 1 → ∃ t, exec .cueDwellExpiry s = .next t ∧ frame t
        ∧ eventSet t .cueDone = true
        ∧ (e.haltAfter = true ∨ rest = [] → ended t ∧ t.cue.entries = rest ∧ t.cue.failure = s.cue.failure)
        ∧ (e.haltAfter = false → ∀ e2 rest2, rest = e2 :: rest2 →
            let barred := unreachable s.span.flightBox s.motion.lim.standoff (liveZones s.air) (markTarget s e2.mark)
            (barred = false →
              t.cue.entries = rest ∧ t.cue.running = true ∧ t.cue.failure = s.cue.failure ∧ t.motion.mode = .cue
              ∧ t.auth = s.auth ∧ t.motion.copy = some (copyOf s e2))
            ∧ (barred = true → ended t ∧ t.cue.entries = rest2 ∧ eventSet t .cueFailed = true
                ∧ t.cue.failure = some { reason := .unreachable, mark := e2.mark })))
      ∧ ((copy.dwellLeft = none ∨ ∃ n, copy.dwellLeft = some n ∧ 1 < n) → exec .cueDwellExpiry s = .next s)
      ∧ (copy.dwellLeft = none → 15 ≤ copy.noProgress → ∃ t, exec .cueBlocked s = .next t ∧ frame t ∧ ended t
          ∧ t.cue.entries = rest ∧ eventSet t .cueFailed = true ∧ t.cue.failure = some { reason := .blocked, mark := e.mark })
      ∧ (copy.dwellLeft.isSome = true ∨ copy.noProgress < 15 → exec .cueBlocked s = .next s)

/-- The cue's share of a commit (R57, R59, R60, R100, R101). Before arrival the progress test: the distance left becomes
the last distance, a gain puts the no-progress count to 0, no gain adds one, and at 16 the cue fails BLOCKED. At the mark
the dwell begins, or the cue completes at once with a dwell of 0; each later commit takes one period of the dwell, and the
cue completes where it reaches 0. A completion removes the entry, raises CUE_DONE and ends the cue or starts the next
entry, which fails at once when its mark is unreachable. CUE_WANT is raised where the count falls below W, be it by one
removal or two (R106), and where the cue ends, a holder on the CUE basis alone loses authority with backoff 2 and AUTHORITY
(R117). A computation whose cue halted in flight makes none of these
checks (R38). O is that after the table's own work at the commit. -/
def Obligations.CueAtCommit : Prop :=
  (∀ (s : State) (c : Computation) (copy : CueCopy) (e : CueEntry) (rest : List CueEntry), s.resetHeld = false →
     s.motion.flight = some c → c.mode = .cue → c.cueLive = true → s.motion.mode = .cue → s.motion.copy = some copy →
     s.cue.entries = e :: rest → s.auth.holder.isSome = true →
       let p := (nextPosition s c).getD c.p
       let left := isqrt (copy.target.minus p).sq
       let count := if left < copy.lastD then 0 else copy.noProgress + 1
       ∃ t, exec .periodCommit s = .next t ∧ t.motion.p = some p
         ∧ t.span = s.span ∧ t.marks = s.marks ∧ t.ports = s.ports ∧ t.stop = s.stop ∧ t.period = s.period
         ∧ t.cue.window = s.cue.window ∧ WantsByCount s t
         ∧ (let goesOn := fun (next : CueCopy) =>
              t.motion.copy = some next ∧ t.motion.mode = .cue ∧ t.cue = s.cue ∧ t.auth = s.auth
            let ended :=
              t.cue.running = false ∧ t.motion.copy = none ∧ t.motion.mode = (if anyOccupied t then .evict else .hold)
                ∧ CueBasisOver s.auth s t
            let completes :=
              eventSet t .cueDone = true
                ∧ (e.haltAfter = true ∨ rest = [] → ended ∧ t.cue.entries = rest ∧ t.cue.failure = s.cue.failure)
                ∧ (e.haltAfter = false → ∀ e2 rest2, rest = e2 :: rest2 →
                    let m := markTarget s e2.mark
                    let barred := unreachable s.span.flightBox s.motion.lim.standoff (liveZones t.air) m
                    (barred = false →
                      t.cue.entries = rest ∧ t.cue.running = true ∧ t.cue.failure = s.cue.failure
                      ∧ t.motion.mode = .cue ∧ t.auth = s.auth
                      ∧ t.motion.copy = some
                          { target := m
                            cruise := if e2.cruise = 0 then s.motion.lim.cueDefault
                              else speedPer s.period.configured e2.cruise
                            dwell := e2.dwell, dwellLeft := none, lastD := isqrt (m.minus p).sq, noProgress := 0 })
                    ∧ (barred = true →
                      ended ∧ t.cue.entries = rest2 ∧ eventSet t .cueFailed = true
                      ∧ t.cue.failure = some { reason := .unreachable, mark := e2.mark }))
            (copy.dwellLeft = none → p ≠ copy.target → count < 16 →
              goesOn { copy with lastD := left, noProgress := count })
            ∧ (copy.dwellLeft = none → p ≠ copy.target → 16 ≤ count →
                ended ∧ t.cue.entries = rest ∧ eventSet t .cueFailed = true
                ∧ t.cue.failure = some { reason := .blocked, mark := e.mark })
            ∧ (copy.dwellLeft = none → p = copy.target → copy.dwell ≠ 0 →
                goesOn { copy with dwellLeft := some copy.dwell })
            ∧ (copy.dwellLeft = none → p = copy.target → copy.dwell = 0 → completes)
            ∧ (∀ n, copy.dwellLeft = some (n + 2) → goesOn { copy with dwellLeft := some (n + 1) })
            ∧ (copy.dwellLeft = some 1 → completes)))
  ∧ ∀ (s : State) (c : Computation), s.resetHeld = false → s.motion.flight = some c → c.mode = .cue →
      c.cueLive = false → ∃ t, exec .periodCommit s = .next t ∧ t.cue = s.cue ∧ t.auth = s.auth
        ∧ t.motion.copy = s.motion.copy ∧ t.motion.mode = s.motion.mode

/-- Every step keeps the mode, P, the kind in force, the cause set, the running cue, the exit target, the stick and
the computation in flight together as R35, R38, R99, R117, R126 and R164 say. -/
def Obligations.ModeKept : Prop :=
  ∀ s t : State, ModeOk s → step s = .next t → ModeOk t

/-! ## The Span Solver -/

/-- SET_ANCHORS, SET_FLIGHT_BOX and SET_PAYOUT: taken in SAFE, the parameters judged or clamped, the whole geometry
validated at once and reported (R70 to R73). The validity report (R74, R75): VALID exactly when the four checks pass;
ANCHOR_SPACING names the first pair in the order of check 1 that stands too close, BOX_OUTSIDE_ANCHORS the first axis and
side, X before Y and min before max, BOX_TOO_HIGH the lowest-numbered winch with the lowest anchor, and PAYOUT_RANGE the
first corner, winch, end and side in the order of R75. The bytes of the report are the model's choice (log 10). -/
def Obligations.GeometryRequestsAndValidity : Prop :=
  ((∀ (s : State) (st : Nat) (anchors offsets : Quad Vec3), MaySend s .setAnchors st →
     let run := exec (.setAnchors st anchors offsets) s
     let within := fun (x lo hi : Int) => lo ≤ x ∧ x ≤ hi
     let ok := ∀ i, i < 4 →
       within (anchors.get i).x (-100000) 100000 ∧ within (anchors.get i).y (-100000) 100000
       ∧ within (anchors.get i).z 0 80000 ∧ within (offsets.get i).x (-2000) 2000
       ∧ within (offsets.get i).y (-2000) 2000 ∧ within (offsets.get i).z (-2000) 2000
     (s.motion.mode ≠ .safe → run = turnedAway st .setAnchors .wrongState s)
     ∧ (s.motion.mode = .safe → ¬ok → run = turnedAway st .setAnchors .badParam s)
     ∧ (s.motion.mode = .safe → ok →
         let g : Span := { s.span with anchors := anchors.map Vec3.um, offsets := offsets.map Vec3.um }
         run = taken st .setAnchors (validityBytes (validityOf g))
           (fun t => { t with span := { g with validity := validityOf g } }) s))
     ∧ (∀ (s : State) (st : Nat) (box : Box), MaySend s .setFlightBox st →
       let run := exec (.setFlightBox st box) s
       (s.motion.mode ≠ .safe → run = turnedAway st .setFlightBox .wrongState s)
       ∧ (s.motion.mode = .safe → boxInRange box = false → run = turnedAway st .setFlightBox .badParam s)
       ∧ (s.motion.mode = .safe → boxInRange box = true →
           let g : Span := { s.span with flightBox := box.um }
           run = taken st .setFlightBox (validityBytes (validityOf g))
             (fun t => { t with span := { g with validity := validityOf g } }) s))
     ∧ ∀ (s : State) (st payout lBase lStep : Nat), MaySend s .setPayout st →
         let run := exec (.setPayout st payout lBase lStep) s
         (s.motion.mode ≠ .safe → run = turnedAway st .setPayout .wrongState s)
         ∧ (s.motion.mode = .safe →
             let g : Span := { s.span with
               payoutMax := max 10000 (min 400000 payout), lBase := min 400000000 lBase
               lStep := max 1000000 (min 16000000 lStep) }
             run = taken st .setPayout
               (beBytes 4 g.payoutMax ++ beBytes 4 g.lBase ++ beBytes 4 g.lStep ++ validityBytes (validityOf g))
               (fun t => { t with span := { g with validity := validityOf g } }) s))
  ∧ (∀ g : Span,
       let far := fun i j =>
         let a := g.anchors.get i
         let b := g.anchors.get j
         10000000 ≤ isqrt ((a.x - b.x) * (a.x - b.x) + (a.y - b.y) * (a.y - b.y)).toNat
       let spaced := ∀ i j, i < j → j < 4 → far i j
       let xMin := ∃ i, i < 4 ∧ (g.anchors.get i).x ≤ g.flightBox.xMin
       let xMax := ∃ i, i < 4 ∧ g.flightBox.xMax ≤ (g.anchors.get i).x
       let yMin := ∃ i, i < 4 ∧ (g.anchors.get i).y ≤ g.flightBox.yMin
       let yMax := ∃ i, i < 4 ∧ g.flightBox.yMax ≤ (g.anchors.get i).y
       let inPlan := xMin ∧ xMax ∧ yMin ∧ yMax
       let below := ∀ i, i < 4 → g.flightBox.zMax + 1000000 ≤ (g.anchors.get i).z
       let fits := ∀ p ∈ corners g.flightBox, ∀ i, i < 4 →
         let len : Int := geometricLength (g.anchors.get i) (g.offsets.get i) p
         let c := fun j => (g.corr.get i).getD j 0
         0 ≤ len + c 0 ∧ len + c 0 ≤ g.payoutMax * 1000 ∧ 0 ≤ len + c 32 ∧ len + c 32 ≤ g.payoutMax * 1000
       (validityOf g = .valid ↔ spaced ∧ inPlan ∧ below ∧ fits)
       ∧ (∀ a b, validityOf g = .anchorSpacing a b ↔ a < b ∧ b < 4 ∧ ¬far a b
           ∧ ∀ i j, i < j → j < 4 → (i < a ∨ i = a ∧ j < b) → far i j)
       ∧ (∀ w, validityOf g = .boxTooHigh w ↔ spaced ∧ inPlan ∧ w < 4
           ∧ (g.anchors.get w).z < g.flightBox.zMax + 1000000
           ∧ (∀ i, i < 4 → (g.anchors.get w).z ≤ (g.anchors.get i).z)
           ∧ ∀ i, i < w → (g.anchors.get w).z < (g.anchors.get i).z)
       ∧ (validityOf g = .boxOutsideAnchors .x false ↔ spaced ∧ ¬xMin)
       ∧ (validityOf g = .boxOutsideAnchors .x true ↔ spaced ∧ xMin ∧ ¬xMax)
       ∧ (validityOf g = .boxOutsideAnchors .y false ↔ spaced ∧ xMin ∧ xMax ∧ ¬yMin)
       ∧ (validityOf g = .boxOutsideAnchors .y true ↔ spaced ∧ xMin ∧ xMax ∧ yMin ∧ ¬yMax)
       ∧ (∀ side, validityOf g ≠ .boxOutsideAnchors .z side)
       ∧ (let corner := fun n : Nat => (⟨if n % 2 = 0 then g.flightBox.xMin else g.flightBox.xMax,
            if n / 2 % 2 = 0 then g.flightBox.yMin else g.flightBox.yMax,
            if n / 4 = 0 then g.flightBox.zMin else g.flightBox.zMax⟩ : Vec3)
          let sum := fun (n w : Nat) (e : Bool) =>
            (geometricLength (g.anchors.get w) (g.offsets.get w) (corner n) : Int)
              + (g.corr.get w).getD (if e then 32 else 0) 0
          ∀ (n w : Nat) (e above : Bool), validityOf g = .payoutRange n w e above ↔ spaced ∧ inPlan ∧ below ∧ n < 8 ∧ w < 4
            ∧ (above = false → sum n w e < 0) ∧ (above = true → g.payoutMax * 1000 < sum n w e)
            ∧ ∀ (n' w' : Nat) (e' : Bool), n' < 8 → w' < 4 →
                n' < n ∨ n' = n ∧ w' < w ∨ n' = n ∧ w' = w ∧ e' = false ∧ e = true →
                  0 ≤ sum n' w' e' ∧ sum n' w' e' ≤ g.payoutMax * 1000))

/-- CORR_WINDOW, CORR_WRITE and CORR_READ, the last two of one value, cell by cell (R80 to R83); CORR_WRITE and
CORR_READ of any count answer OK within their counts. The count of a CORR_READ is judged before the mode, the model's
choice (log 12), and so are the bytes of the validity report in the CORR_WRITE answer (log 10). What CORR_WRITE wrote through a window, CORR_READ through the same window reads back, each value
clamped, as long as the window holds them all. -/
def Obligations.CorrectionRequestsAndReadBack : Prop :=
  (∀ (s : State) (st w0 w1 j0 j1 order : Nat), MaySend s .corrWindow st →
    let run := exec (.corrWindow st w0 w1 j0 j1 order) s
    (w1 < w0 ∨ j1 < j0 ∨ 3 < w1 ∨ 32 < j1 ∨ 1 < order → run = turnedAway st .corrWindow .badParam s)
    ∧ (w0 ≤ w1 → j0 ≤ j1 → w1 ≤ 3 → j1 ≤ 32 → ∀ o, (order = 0 ∧ o = .pointMajor ∨ order = 1 ∧ o = .winchMajor) →
        run = taken st .corrWindow (byte ((w1 - w0 + 1) * (j1 - j0 + 1)))
          (fun t => { t with span := { t.span with
            window := { w0 := w0, w1 := w1, j0 := j0, j1 := j1, order := o }, ptrW := w0, ptrJ := j0 } }) s))
    ∧ (∀ (s : State) (st : Nat) (vs : List Int), MaySend s .corrWrite st →
      let run := exec (.corrWrite st vs) s
      (vs.length = 0 ∨ 60 < vs.length → run = turnedAway st .corrWrite .badLength s)
      ∧ (1 ≤ vs.length → vs.length ≤ 60 → s.motion.mode ≠ .safe → run = turnedAway st .corrWrite .wrongState s)
      ∧ (1 ≤ vs.length → vs.length ≤ 60 → s.motion.mode = .safe →
          let g := s.span.writeAll vs
          run = taken st .corrWrite
            (byte (vs.filter (fun v => decide (v < -50000 ∨ 50000 < v))).length ++ byte g.ptrW ++ byte g.ptrJ
              ++ validityBytes (validityOf g))
            (fun t => { t with span := { g with validity := validityOf g } }) s))
    ∧ (∀ (s : State) (st n : Nat), MaySend s .corrRead st →
      let run := exec (.corrRead st n) s
      (n = 0 ∨ 60 < n → run = turnedAway st .corrRead .badParam s)
      ∧ (1 ≤ n → n ≤ 60 → s.motion.mode ≠ .safe → run = turnedAway st .corrRead .wrongState s)
      ∧ (1 ≤ n → n ≤ 60 → s.motion.mode = .safe →
          let r := s.span.readMany n
          run = taken st .corrRead (byte n ++ r.1.flatMap (beInt 4) ++ byte r.2.ptrW ++ byte r.2.ptrJ)
            (fun t => { t with span := r.2 }) s))
    ∧ (∀ (g : Span) (v : Int),
        let step := fun (w j : Nat) (h : Span) => h.ptrW = w ∧ h.ptrJ = j
        let next := fun (h : Span) =>
          (g.window.order = .pointMajor → g.ptrJ < g.window.j1 → step g.ptrW (g.ptrJ + 1) h)
          ∧ (g.window.order = .pointMajor → ¬g.ptrJ < g.window.j1 → g.ptrW < g.window.w1 →
              step (g.ptrW + 1) g.window.j0 h)
          ∧ (g.window.order = .winchMajor → g.ptrW < g.window.w1 → step (g.ptrW + 1) g.ptrJ h)
          ∧ (g.window.order = .winchMajor → ¬g.ptrW < g.window.w1 → g.ptrJ < g.window.j1 →
              step g.window.w0 (g.ptrJ + 1) h)
          ∧ (¬g.ptrW < g.window.w1 → ¬g.ptrJ < g.window.j1 → step g.window.w0 g.window.j0 h)
        next (g.writeAll [v]) ∧ next (g.readMany 1).2 ∧ (g.readMany 1).1 = [(g.corr.get g.ptrW).getD g.ptrJ 0]
        ∧ (g.readMany 1).2.corr = g.corr
        ∧ (g.ptrW < 4 → g.ptrJ < (g.corr.get g.ptrW).length →
            ((g.writeAll [v]).corr.get g.ptrW).getD g.ptrJ 0 = max (-50000) (min 50000 v))
        ∧ ∀ w j, w < 4 → (w ≠ g.ptrW ∨ j ≠ g.ptrJ) →
            ((g.writeAll [v]).corr.get w).getD j 0 = (g.corr.get w).getD j 0)
    ∧ ∀ (s : State) (w0 w1 j0 j1 order : Nat) (vs : List Int), SpanOk s → s.resetHeld = false → s.motion.mode = .safe →
    w0 ≤ w1 → w1 ≤ 3 → j0 ≤ j1 → j1 ≤ 32 → order ≤ 1 → 1 ≤ vs.length → vs.length ≤ 60 →
    vs.length ≤ (w1 - w0 + 1) * (j1 - j0 + 1) →
      ∃ t1 t2 t3 t4 v, exec (.corrWindow 0 w0 w1 j0 j1 order) s = .next t1 ∧ exec (.corrWrite 0 vs) t1 = .next t2
        ∧ exec (.corrWindow 0 w0 w1 j0 j1 order) t2 = .next t3 ∧ exec (.corrRead 0 vs.length) t3 = .next t4
        ∧ t4.station.inService = some v ∧ v.status = .ok
        ∧ v.payload = byte vs.length ++ vs.flatMap (fun x => beInt 4 (max (-50000) (min 50000 x)))
            ++ byte t2.span.ptrW ++ byte t2.span.ptrJ
        ∧ t4.span.corr = t2.span.corr

/-- The correction of R78 and the demand length of R77 and R79: flat at c_0 below the table and at c_32 above it, in
straight lines between the points and never beyond the two points it lies between, exactly c_j at point j; the sum
with the geometric length clamped to 0 and the payout max. -/
def Obligations.DemandLengthLaw : Prop :=
  (∀ (lBase lStep g j : Nat) (c : List Int), 0 < lStep →
    let at_ := fun i => c.getD i 0
    (g < lBase → correction lBase lStep c g = at_ 0)
    ∧ (lBase + 32 * lStep ≤ g → correction lBase lStep c g = at_ 32)
    ∧ (j < 32 → lBase + j * lStep ≤ g → g < lBase + (j + 1) * lStep →
        let f : Int := (g : Int) - lBase - j * lStep
        correction lBase lStep c g = at_ j + Int.tdiv ((at_ (j + 1) - at_ j) * f) lStep
        ∧ min (at_ j) (at_ (j + 1)) ≤ correction lBase lStep c g
        ∧ correction lBase lStep c g ≤ max (at_ j) (at_ (j + 1))
        ∧ ((∀ i, (at_ i).natAbs ≤ 50000) → lStep ≤ 16000000 →
            ((at_ (j + 1) - at_ j) * f).natAbs ≤ 100000 * 16000000))
    ∧ (j ≤ 32 → correction lBase lStep c (lBase + j * lStep) = at_ j))
    ∧ (∀ a o p : Vec3,
      let dx := a.x - p.x - o.x
      let dy := a.y - p.y - o.y
      let dz := a.z - p.z - o.z
      let g := geometricLength a o p
      (g * g : Int) ≤ dx * dx + dy * dy + dz * dz ∧ dx * dx + dy * dy + dz * dz < ((g + 1) * (g + 1) : Int))
    ∧ ∀ (g : Span) (p : Vec3) (i : Nat),
        let len := geometricLength (g.anchors.get i) (g.offsets.get i) p
        demandLength g p i = max 0 (min ((g.payoutMax : Int) * 1000) (len + correction g.lBase g.lStep (g.corr.get i) len))

/-- The conversions of R85 and R86: truncated, with their ranges, the least results, the bounds of their products, and
the limits that each of them gives. -/
def Obligations.LimitConversion : Prop :=
  ∀ std : Standard,
    let t := match std with
      | .s50 => 5000000
      | .s5994 => 4170833
      | .s60 => 4166667
    (∀ v : Nat, speedPer std v = v * t / 1000000 ∧ speedPer std v * 1000000 ≤ v * t
      ∧ (v ≤ 12000 → v * t < 2 ^ 64) ∧ (100 ≤ v → 416 ≤ speedPer std v))
    ∧ ∀ a : Nat,
        accelPer std a = (if a * (t * t) / 10 ^ 15 = 0 then 1 else a * (t * t) / 10 ^ 15) ∧ 1 ≤ accelPer std a
        ∧ t * t < 2 ^ 64 ∧ (a ≤ 12000 → a * (t * t) ≤ 3 * 10 ^ 17)
        ∧ accelPer std 100 = (if std = .s50 then 2 else 1)
        ∧ ∀ l : LimitSettings,
            let lim := convertLimits std l
            lim.vh = speedPer std l.vh ∧ lim.vz = speedPer std l.vz ∧ lim.evict = speedPer std l.evict
              ∧ lim.cueDefault = speedPer std l.cueDefault ∧ lim.a = accelPer std l.a ∧ lim.aStop = accelPer std l.aStop
              ∧ lim.aQuick = accelPer std l.aQuick ∧ lim.aBrk = accelPer std l.aBrk

/-- SET_LIMITS and SET_STANDARD: both taken in SAFE; the settings clamped and converted with the configured standard,
and with every class cap converted again by a change of standard, which also makes the lock FREE and moves the loss
timer to its limit (R84, R87, R88, R183). The code of a standard is judged before the mode, the model's choice (log
12), and so are the widths of the limits and the bytes of the SET_STANDARD answer (log 10). -/
def Obligations.LimitsAndStandardTaken : Prop :=
  (∀ (s : State) (st : Nat) (l : LimitSettings), MaySend s .setLimits st →
    let kept : LimitSettings :=
      { vh := max 100 (min 12000 l.vh), vz := max 100 (min 6000 l.vz), a := max 100 (min 8000 l.a)
        aStop := max 100 (min 8000 l.aStop), aQuick := max 100 (min 12000 l.aQuick), aBrk := max 100 (min 8000 l.aBrk)
        evict := max 100 (min 3000 l.evict), cueDefault := max 100 (min 12000 l.cueDefault)
        standoff := min 5000 l.standoff, margin := min 10000 l.margin }
    let std := s.period.configured
    let lim : Limits :=
      { vh := speedPer std kept.vh, vz := speedPer std kept.vz, a := accelPer std kept.a
        aStop := accelPer std kept.aStop, aQuick := accelPer std kept.aQuick, aBrk := accelPer std kept.aBrk
        evict := speedPer std kept.evict, cueDefault := speedPer std kept.cueDefault
        standoff := kept.standoff * 1000, margin := kept.margin * 1000 }
    (s.motion.mode ≠ .safe → exec (.setLimits st l) s = turnedAway st .setLimits .wrongState s)
    ∧ (s.motion.mode = .safe →
        exec (.setLimits st l) s
          = taken st .setLimits (settingsBytes kept ++ limitBytes lim)
              (fun t => { t with span := { t.span with settings := kept }, motion := { t.motion with lim := lim } }) s))
    ∧ ∀ (s : State) (st n : Nat), MaySend s .setStandard st →
        let run := exec (.setStandard st n) s
        (n = 0 ∨ 3 < n → run = turnedAway st .setStandard .badParam s)
        ∧ ∀ std : Standard, (n = 1 ∧ std = .s50 ∨ n = 2 ∧ std = .s5994 ∨ n = 3 ∧ std = .s60) →
            let nominal := match std with
              | .s50 => 17180
              | .s5994 => 20595
              | .s60 => 20616
            let loss := match std with
              | .s50 => 3000000
              | .s5994 => 2502501
              | .s60 => 2499999
            let lim := convertLimits std s.span.settings
            let caps : Quad Nat := ⟨speedPer std 3000, speedPer std 6000, speedPer std 9000, speedPer std 12000⟩
            (s.motion.mode ≠ .safe → run = turnedAway st .setStandard .wrongState s)
            ∧ (s.motion.mode = .safe → std = s.period.configured →
                run = taken st .setStandard (byte n ++ byte s.period.lock.code)
                  (fun t => { t with
                    motion := { t.motion with lim := lim }, span := { t.span with classCaps := caps } }) s)
            ∧ (s.motion.mode = .safe → std ≠ s.period.configured →
                run = taken st .setStandard (byte n ++ byte 0)
                  (fun t => { t with
                    motion := { t.motion with lim := lim }, span := { t.span with classCaps := caps }
                    period := { t.period with
                      configured := std, lock := .free, increment := nominal, lockRun := 0, unlockRun := 0, loss := loss }
                    station := { t.station with
                      events := if s.period.lock = .free then t.station.events else t.station.events ||| 0x1000#14 } })
                  s)

/-- Every step keeps the ranges of the Span Solver, the limits and the class caps those of the configured standard,
and the report that of the geometry (R34, R69, R73, R74, R84, R87, R88). -/
def Obligations.SpanKept : Prop :=
  ∀ s t : State, SpanOk s → step s = .next t → SpanOk t

/-! ## The Mark Store and the Cue List -/

/-- MARK_SET and MARK_RETIRE with their checks in order (R91, R92, R93). CUE_APPEND and SET_CUE_WINDOW, and CUE_HALT
and CUE_FLUSH with no cue running (R97, R103, R104, R106, R107). -/
def Obligations.MarkAndCueListRequests : Prop :=
  ((∀ (s : State) (st n : Nat) (pos : Vec3) (label : List Byte), MaySend s .markSet st →
     let run := exec (.markSet st n pos label) s
     let place := inRange pos = true ∧ s.span.flightBox.has ⟨pos.x * 1000, pos.y * 1000, pos.z * 1000⟩ = true
       ∧ label.length ≤ 12
     (31 < n → run = turnedAway st .markSet .badParam s)
     ∧ (n ≤ 31 → s.marks.getD n none = none →
         (¬place → run = turnedAway st .markSet .badParam s)
         ∧ (place → run = taken st .markSet (byte 0)
             (fun t => { t with marks := t.marks.set n (some { pos := pos, label := label, owner := st }) }) s))
     ∧ ∀ m : Mark, n ≤ 31 → s.marks.getD n none = some m →
         (classOf s st = .pilot → m.owner ≠ st → run = turnedAway st .markSet .notOwner s)
         ∧ ((classOf s st = .pilot → m.owner = st) →
             (¬place → run = turnedAway st .markSet .badParam s)
             ∧ (place → run = taken st .markSet (byte 1)
                 (fun t => { t with marks := t.marks.set n (some { pos := pos, label := label, owner := m.owner }) }) s)))
     ∧ ∀ (s : State) (st n : Nat), MaySend s .markRetire st →
         let run := exec (.markRetire st n) s
         (31 < n → run = turnedAway st .markRetire .badParam s)
         ∧ (n ≤ 31 → s.marks.getD n none = none → run = turnedAway st .markRetire .wrongState s)
         ∧ ∀ m : Mark, n ≤ 31 → s.marks.getD n none = some m →
             (classOf s st = .pilot → m.owner ≠ st → run = turnedAway st .markRetire .notOwner s)
             ∧ ((classOf s st = .pilot → m.owner = st) →
                 ((∃ e ∈ s.cue.entries, e.mark = n) → run = turnedAway st .markRetire .inUse s)
                 ∧ ((∀ e ∈ s.cue.entries, e.mark ≠ n) →
                     run = taken st .markRetire [] (fun t => { t with marks := t.marks.set n none }) s)))
  ∧ ((∀ (s : State) (st n cruise dwell flags : Nat), MaySend s .cueAppend st →
       let run := exec (.cueAppend st n cruise dwell flags) s
       let count := s.cue.entries.length
       (s.auth.holder ≠ some st → run = turnedAway st .cueAppend .notHolder s)
       ∧ (s.auth.holder = some st → (31 < n ∨ s.marks.getD n none = none ∨ 1 < flags) →
           run = turnedAway st .cueAppend .badParam s)
       ∧ (s.auth.holder = some st → n ≤ 31 → (s.marks.getD n none).isSome = true → flags ≤ 1 →
           (16 ≤ count → run = turnedAway st .cueAppend .noRoom s)
           ∧ (count < 16 →
               run = taken st .cueAppend (byte count ++ byte (count + 1) ++ boolByte (decide (count + 1 < s.cue.window)))
                 (fun t => { t with cue := { t.cue with entries := t.cue.entries
                   ++ [{ mark := n, cruise := min cruise s.span.settings.vh, dwell := dwell
                         haltAfter := decide (flags = 1) }] } }) s)))
       ∧ (∀ (s : State) (st w : Nat), MaySend s .setCueWindow st →
           let kept := max 1 (min 16 w)
           exec (.setCueWindow st w) s
             = taken st .setCueWindow
                 (byte kept ++ byte s.cue.entries.length ++ boolByte (decide (s.cue.entries.length < kept)))
                 (fun t => { t with cue := { t.cue with window := kept } }) s)
       ∧ (∀ (s : State) (st : Nat), MaySend s .cueHalt st →
           (s.auth.holder ≠ some st → classOf s st ≠ .safety → exec (.cueHalt st) s = turnedAway st .cueHalt .notHolder s)
           ∧ (s.auth.holder = some st ∨ classOf s st = .safety → s.motion.mode ≠ .cue →
               exec (.cueHalt st) s = taken st .cueHalt (byte 0) id s))
       ∧ ∀ (s : State) (st : Nat), MaySend s .cueFlush st →
           (s.auth.holder ≠ some st → classOf s st ≠ .safety → exec (.cueFlush st) s = turnedAway st .cueFlush .notHolder s)
           ∧ (s.auth.holder = some st ∨ classOf s st = .safety → s.motion.mode ≠ .cue →
               exec (.cueFlush st) s
                 = taken st .cueFlush (byte s.cue.entries.length)
                     (fun t => { t with
                       cue := { t.cue with entries := [], failure := none }
                       station := { t.station with
                         events := if s.cue.window ≤ s.cue.entries.length ∧ 0 < s.cue.window then
                             t.station.events ||| 0x10#14
                           else t.station.events } }) s))

/-- CUE_HALT and CUE_FLUSH over a running cue: the entry stays at the head or the list is emptied, the copy is lost,
the CUE basis clears, authority that rested on it alone ends, and the mode is HOLD, or EVICT when O is not empty; a
computation in flight makes no cue checks any more (R36, R38, R102, R103, R104, R117). CUE_GO (R57, R61, R98, R99):
the holder in HOLD or STICK with an entry starts the head; the stick is flushed, the CUE basis set and the copy taken;
a target that is unreachable fails the entry at once. A removal that takes the count below W raises CUE_WANT (R106). -/
def Obligations.CueGoAndHalt : Prop :=
  (∀ (s : State) (st : Nat) (c : Instr) (r : Req) (h : Nat),
     (c = .cueHalt st ∧ r = .cueHalt ∨ c = .cueFlush st ∧ r = .cueFlush) → MaySend s r st →
     (s.auth.holder = some st ∨ classOf s st = .safety) → s.motion.mode = .cue → s.auth.holder = some h →
       ∃ t v, exec c s = .next t ∧ t.station.inService = some v ∧ v.status = .ok
         ∧ v.payload = (if r = .cueHalt then byte 1 else byte s.cue.entries.length)
         ∧ t.cue.running = false ∧ t.motion.copy = none ∧ t.cue.window = s.cue.window
         ∧ (r = .cueHalt → t.cue.entries = s.cue.entries ∧ t.cue.failure = s.cue.failure)
         ∧ (r = .cueFlush → t.cue.entries = [] ∧ t.cue.failure = none)
         ∧ t.motion.mode = (if anyOccupied s then .evict else .hold)
         ∧ t.motion.flight = s.motion.flight.map (fun f => { f with cueLive := false })
         ∧ CueBasisOver s.auth s t ∧ WantsByCount s t
         ∧ t.motion.p = s.motion.p ∧ t.motion.vOld = s.motion.vOld ∧ t.motion.lengths = s.motion.lengths
         ∧ t.air = s.air ∧ t.span = s.span ∧ t.marks = s.marks ∧ t.ports = s.ports ∧ t.stop = s.stop
         ∧ t.period = s.period)
  ∧ (∀ (s : State) (st : Nat), MaySend s .cueGo st →
       let run := exec (.cueGo st) s
       (s.auth.holder ≠ some st → run = turnedAway st .cueGo .notHolder s)
       ∧ (s.auth.holder = some st → s.motion.mode ≠ .hold → s.motion.mode ≠ .stick →
           run = turnedAway st .cueGo .wrongState s)
       ∧ (s.auth.holder = some st → (s.motion.mode = .hold ∨ s.motion.mode = .stick) →
           (s.cue.entries = [] → run = turnedAway st .cueGo .empty s)
           ∧ ∀ (e : CueEntry) (rest : List CueEntry) (m : Mark) (p : Vec3), s.cue.entries = e :: rest →
               s.marks.getD e.mark none = some m → s.motion.p = some p →
               let target : Vec3 := ⟨m.pos.x * 1000, m.pos.y * 1000, m.pos.z * 1000⟩
               let barred := s.span.flightBox.has target = false
                 ∨ ∃ z ∈ liveZones s.air, z.kind = .keepOut ∧ z.state = .active ∧ Inside z s.motion.lim.standoff target
               let copy : CueCopy :=
                 { target := target
                   cruise := if e.cruise = 0 then s.motion.lim.cueDefault else speedPer s.period.configured e.cruise
                   dwell := e.dwell, dwellLeft := none
                   lastD := isqrt ((target.x - p.x) * (target.x - p.x) + (target.y - p.y) * (target.y - p.y)
                     + (target.z - p.z) * (target.z - p.z)).toNat
                   noProgress := 0 }
               (¬barred →
                 run = taken st .cueGo (byte 0)
                   (fun t => { t with
                     motion := { t.motion with mode := .cue, copy := some copy }
                     cue := { t.cue with running := true }
                     auth := if s.motion.mode = .stick then
                         { t.auth with
                           cue := true, buffer := [], filling := true, lastDemand := none, miss := 0, stale := false }
                       else { t.auth with cue := true } }) s)
               ∧ (barred → ∃ t v, run = .next t ∧ t.station.inService = some v ∧ v.status = .ok ∧ v.payload = byte 1
                   ∧ t.cue.entries = rest ∧ t.cue.running = false ∧ t.motion.copy = none ∧ t.cue.window = s.cue.window
                   ∧ t.cue.failure = some { reason := .unreachable, mark := e.mark } ∧ eventSet t .cueFailed = true
                   ∧ CueBasisOver
                       (if s.motion.mode = .stick then
                         { s.auth with buffer := [], filling := true, lastDemand := none, miss := 0, stale := false }
                       else s.auth) s t
                   ∧ WantsByCount s t ∧ t.motion.mode = (if anyOccupied s then .evict else .hold)
                   ∧ t.motion.p = s.motion.p ∧ t.motion.vOld = s.motion.vOld ∧ t.air = s.air ∧ t.span = s.span
                   ∧ t.marks = s.marks ∧ t.ports = s.ports ∧ t.stop = s.stop ∧ t.period = s.period)))

/-- Every step keeps at most 16 entries in the list and every entry naming a SET mark (R94, R96, R107). -/
def Obligations.CuesKept : Prop :=
  ∀ s t : State, CuesOk s → step s = .next t → CuesOk t

/-! ## The Authority Arbiter -/

/-- CLAIM, WITHDRAW and RELEASE (R113, R114, R116, R117). -/
def Obligations.ClaimWithdrawRelease : Prop :=
  (∀ (s : State) (st : Nat), MaySend s .claim st →
    let run := exec (.claim st) s
    (s.auth.holder = some st →
      run = taken st .claim (byte 0) (fun t => { t with auth := { t.auth with explicit := true } }) s)
    ∧ (s.auth.holder ≠ some st → st ∈ s.auth.pending → run = taken st .claim (byte 1) id s)
    ∧ (s.auth.holder ≠ some st → st ∉ s.auth.pending → 7 ≤ s.auth.pending.length →
        run = turnedAway st .claim .noRoom s)
    ∧ (s.auth.holder ≠ some st → st ∉ s.auth.pending → s.auth.pending.length < 7 →
        run = taken st .claim (byte 1)
          (fun t => { t with auth := { t.auth with
            pending := s.auth.pending.filter (fun n => decide (n < st)) ++ st
              :: s.auth.pending.filter (fun n => decide (st < n)) } }) s))
    ∧ (∀ (s : State) (st : Nat), MaySend s .withdraw st →
        exec (.withdraw st) s
          = taken st .withdraw (if st ∈ s.auth.pending then byte 1 else byte 0)
              (fun t => { t with auth := { t.auth with pending := s.auth.pending.filter (fun n => n != st) } }) s)
    ∧ ∀ (s : State) (st : Nat), MaySend s .release st →
        let run := exec (.release st) s
        (s.auth.holder ≠ some st → run = turnedAway st .release .notHolder s)
        ∧ (s.auth.holder = some st → s.auth.cue = true →
            run = taken st .release (byte 1) (fun t => { t with auth := { t.auth with explicit := false } }) s)
        ∧ (s.auth.holder = some st → s.auth.cue = false →
            run = taken st .release (byte 0)
              (fun t => { t with
                motion := { t.motion with
                  mode := if s.motion.mode = .stick then (if anyOccupied s then .evict else .hold) else s.motion.mode }
                auth := { t.auth with
                  holder := none, explicit := false, cue := false, backoff := s.auth.backoff.set st 2
                  buffer := [], filling := true, lastDemand := none, miss := 0, stale := false }
                station := { t.station with events := t.station.events ||| 0x2#14 } }) s)

/-- PREEMPT (R118): the sender holds authority with the EXPLICIT basis alone, out of the pending set and with no
backoff; the displaced holder's backoff is 2, its stick is flushed and its cue halted, and the mode leaves STICK and
CUE. SELECT_MODE (R36, R37, R121): by the mode, for the holder; a cue halts, and a holder whose authority rested on it
alone loses it. The mode is judged before the value, the model's choice (log 12). -/
def Obligations.PreemptAndSelectMode : Prop :=
  (∀ (s : State) (st : Nat), MaySend s .preempt st →
     (s.auth.holder = some st →
       exec (.preempt st) s
         = taken st .preempt (byte st) (fun t => { t with auth := { t.auth with explicit := true } }) s)
     ∧ (s.auth.holder = none →
       exec (.preempt st) s
         = taken st .preempt (byte 255)
             (fun t => { t with
               auth := { t.auth with
                 holder := some st, explicit := true, cue := false
                 pending := s.auth.pending.filter (fun n => n != st), backoff := s.auth.backoff.set st 0 }
               station := { t.station with events := t.station.events ||| 0x2#14 } }) s)
     ∧ ∀ h, s.auth.holder = some h → h ≠ st →
         ∃ t v, exec (.preempt st) s = .next t ∧ t.station.inService = some v ∧ v.status = .ok ∧ v.payload = byte h
           ∧ t.auth = { s.auth with
               holder := some st, explicit := true, cue := false
               pending := s.auth.pending.filter (fun n => n != st)
               backoff := (s.auth.backoff.set h 2).set st 0
               buffer := [], filling := true, lastDemand := none, miss := 0, stale := false }
           ∧ eventSet t .authority = true
           ∧ t.cue.entries = s.cue.entries ∧ (s.motion.mode = .cue → t.cue.running = false ∧ t.motion.copy = none)
           ∧ (s.motion.mode = .cue ∨ s.motion.mode = .stick → t.motion.mode = if anyOccupied s then .evict else .hold)
           ∧ (s.motion.mode ≠ .cue → s.motion.mode ≠ .stick → t.motion = s.motion)
           ∧ t.motion.p = s.motion.p ∧ t.motion.vOld = s.motion.vOld ∧ t.air = s.air ∧ t.stop = s.stop ∧ t.ports = s.ports)
  ∧ (∀ (s : State) (st n : Nat), MaySend s .selectMode st →
       let run := exec (.selectMode st n) s
       let rest : Mode := if anyOccupied s then .evict else .hold
       let flushed := { s.auth with buffer := [], filling := true, lastDemand := none, miss := 0, stale := false }
       (s.auth.holder ≠ some st → run = turnedAway st .selectMode .notHolder s)
       ∧ (s.auth.holder = some st → s.motion.mode ≠ .hold → s.motion.mode ≠ .stick → s.motion.mode ≠ .cue →
           run = turnedAway st .selectMode .wrongState s)
       ∧ (s.auth.holder = some st →
           (s.motion.mode = .hold ∨ s.motion.mode = .stick ∨ s.motion.mode = .cue → n ≠ 1 → n ≠ 2 →
             run = turnedAway st .selectMode .badParam s)
           ∧ (s.motion.mode = .hold → n = 2 →
               run = taken st .selectMode (byte 2 ++ byte 1) (fun t => { t with motion := { t.motion with mode := .stick } }) s)
           ∧ (s.motion.mode = .hold → n = 1 → run = taken st .selectMode (byte 1 ++ byte 1) id s)
           ∧ (s.motion.mode = .stick → n = 2 → run = taken st .selectMode (byte 2 ++ byte 1) id s)
           ∧ (s.motion.mode = .stick → n = 1 →
               run = taken st .selectMode (byte rest.code ++ byte 1)
                 (fun t => { t with motion := { t.motion with mode := rest }, auth := flushed }) s)
           ∧ (s.motion.mode = .cue → n = 1 ∨ n = 2 → s.auth.explicit = true →
               let m : Mode := if n = 2 then .stick else rest
               run = taken st .selectMode (byte m.code ++ byte 1)
                 (fun t => { t with
                   motion := { t.motion with
                     mode := m, copy := none, flight := s.motion.flight.map (fun f => { f with cueLive := false }) }
                   cue := { t.cue with running := false }
                   auth := { t.auth with cue := false } }) s)
           ∧ (s.motion.mode = .cue → n = 1 ∨ n = 2 → s.auth.explicit = false →
               run = taken st .selectMode (byte rest.code ++ byte 0)
                 (fun t => { t with
                   motion := { t.motion with
                     mode := rest, copy := none, flight := s.motion.flight.map (fun f => { f with cueLive := false }) }
                   cue := { t.cue with running := false }
                   auth := { flushed with
                     holder := none, explicit := false, cue := false, backoff := s.auth.backoff.set st 2 }
                   station := { t.station with events := t.station.events ||| 0x2#14 } }) s)))

/-- STICK, SET_ORIENTATION, END_SWAP, SET_STICK, and READ_AUTHORITY with its clear option (R112, R122, R123, R127,
R129, R130). The shaping of a sample (R127, R128): zero within the deadband and with the deadman clear, SWAP before
the mirrors, and otherwise the rule's quotient with the sign of the deflection, never above the speed setting. The order of the
READ_AUTHORITY answer, its count of the pending set and its last byte are the model's choice (log 10). -/
def Obligations.StickRequestsAndShaping : Prop :=
  ((∀ (s : State) (st : Nat) (d : Vec3) (scale flags : Nat), MaySend s .stick st →
     let run := exec (.stick st d scale flags) s
     let c := fun (x : Int) => max (-1000) (min 1000 x)
     let q : Sample := { deflection := ⟨c d.x, c d.y, c d.z⟩, scale := min 100 scale, deadman := decide (flags = 1) }
     let n := s.auth.buffer.length
     (s.auth.holder ≠ some st → run = turnedAway st .stick .notHolder s)
     ∧ (s.auth.holder = some st → s.motion.mode ≠ .stick → run = turnedAway st .stick .wrongState s)
     ∧ (s.auth.holder = some st → s.motion.mode = .stick → 1 < flags → run = turnedAway st .stick .badParam s)
     ∧ (s.auth.holder = some st → s.motion.mode = .stick → flags ≤ 1 → n < 4 →
         run = taken st .stick (byte (n + 1) ++ byte 0 ++ byte s.auth.overrun)
           (fun t => { t with auth := { t.auth with buffer := s.auth.buffer ++ [q] } }) s)
     ∧ (s.auth.holder = some st → s.motion.mode = .stick → flags ≤ 1 → n = 4 →
         let count := if s.auth.overrun < 255 then s.auth.overrun + 1 else s.auth.overrun
         run = taken st .stick (byte 4 ++ byte 1 ++ byte count)
           (fun t => { t with auth := { t.auth with buffer := s.auth.buffer.tail ++ [q], overrun := count } }) s))
     ∧ (∀ (s : State) (st flags : Nat), MaySend s .setOrientation st →
         let run := exec (.setOrientation st flags) s
         let may := s.auth.holder = some st ∨ classOf s st = .supervisor
         (¬may → run = turnedAway st .setOrientation .notHolder s)
         ∧ (may → 8 ≤ flags → run = turnedAway st .setOrientation .badParam s)
         ∧ (may → flags < 8 →
             run = taken st .setOrientation (byte flags)
               (fun t => { t with auth := { t.auth with
                 swap := decide (flags % 2 = 1), mirrorX := decide (flags / 2 % 2 = 1)
                 mirrorY := decide (flags / 4 % 2 = 1) } }) s))
     ∧ (∀ (s : State) (st : Nat), MaySend s .endSwap st →
         (s.auth.holder ≠ some st → exec (.endSwap st) s = turnedAway st .endSwap .notHolder s)
         ∧ (s.auth.holder = some st →
             exec (.endSwap st) s
               = taken st .endSwap (byte (s.auth.swap.toNat + 2 * (!s.auth.mirrorX).toNat + 4 * (!s.auth.mirrorY).toNat))
                   (fun t => { t with auth := { t.auth with
                     mirrorX := !t.auth.mirrorX, mirrorY := !t.auth.mirrorY } }) s))
     ∧ (∀ (s : State) (st start hold deadband : Nat), MaySend s .setStick st →
         let run := exec (.setStick st start hold deadband) s
         let may := s.auth.holder = some st ∨ classOf s st = .supervisor
         let a := max 1 (min 3 start)
         let b := max 1 (min 250 hold)
         let c := min 200 deadband
         (¬may → run = turnedAway st .setStick .notHolder s)
         ∧ (may → run = taken st .setStick (byte a ++ byte b ++ byte c)
             (fun t => { t with auth := { t.auth with start := a, hold := b, deadband := c } }) s))
     ∧ ∀ (s : State) (st n : Nat), MaySend s .readAuthority st →
         let run := exec (.readAuthority st n) s
         let may := s.auth.holder = some st ∨ classOf s st = .supervisor
         (1 < n → run = turnedAway st .readAuthority .badParam s)
         ∧ (n = 1 → may → run = taken st .readAuthority (authorityBytes s.auth true)
             (fun t => { t with auth := { t.auth with overrun := 0 } }) s)
         ∧ (n = 1 → ¬may → run = taken st .readAuthority (authorityBytes s.auth false) id s))
  ∧ (∀ (a : Authority) (lim : Limits) (q : Sample),
       let d := q.deflection
       let x := (if a.swap then d.y else d.x) * (if a.mirrorX then -1 else 1)
       let y := (if a.swap then d.x else d.y) * (if a.mirrorY then -1 else 1)
       let one := fun (vmax : Nat) (e v : Int) =>
         (e.natAbs ≤ a.deadband → v = 0)
         ∧ (a.deadband < e.natAbs →
             v.natAbs = (e.natAbs - a.deadband) * vmax * q.scale / ((1000 - a.deadband) * 100)
             ∧ (0 < e → 0 ≤ v) ∧ (e < 0 → v ≤ 0))
         ∧ (a.deadband ≤ 200 → e.natAbs ≤ 1000 → q.scale ≤ 100 → v.natAbs ≤ vmax)
       let v := shapeSample a lim q
       (q.deadman = false → v = ⟨0, 0, 0⟩)
       ∧ (q.deadman = true → one lim.vh x v.x ∧ one lim.vh y v.y ∧ one lim.vz d.z v.z))

/-- The Arbiter's work at a period expiry and its two thresholds (R115, R124, R125): the backoffs count down, the
lowest-numbered pending station with no backoff becomes holder when there is none, in STICK the oldest sample is
consumed once the buffer has started, and a miss past the stick hold raises STICK_STALE once. BACKOFF_EXPIRY and
STICK_HOLD_EXPIRY are the expiry's share of one count, and change nothing where it does not stand one short, the
model's choice (log 5). A sample consumed at an expiry in STICK, in order of arrival, once the buffer held the start
threshold; its shaped value is the demand of the computation that begins (R124, R128). With a holder the backoffs count
down all the same, and a holder whose authority ends in that expiry has its backoff at 2 behind the count, the order of log 4;
a miss in STICK counts, keeps the last demand, which goes on as the demand up to the hold, and past it the demand is zero. -/
def Obligations.ArbiterAtExpiry : Prop :=
  ((∀ s : State, s.resetHeld = false → s.motion.flight = none → NoFrameWaits s → s.auth.holder = none →
     s.auth.pending.Pairwise (· < ·) → ∃ t, exec .periodExpiry s = .next t ∧ t.auth.backoff = (s.auth.backoff.map (fun n => n - 1)).set
         (t.auth.holder.getD s.auth.backoff.length) 0
       ∧ (∀ st, t.auth.holder = some st ↔ st ∈ s.auth.pending ∧ s.auth.backoff.getD st 0 ≤ 1
           ∧ ∀ n ∈ s.auth.pending, s.auth.backoff.getD n 0 ≤ 1 → st ≤ n)
       ∧ (∀ st, t.auth.holder = some st → t.auth.explicit = true ∧ t.auth.cue = false
           ∧ t.auth.pending = s.auth.pending.filter (fun n => n != st) ∧ eventSet t .authority = true)
       ∧ (t.auth.holder = none → t.auth.pending = s.auth.pending))
     ∧ (∀ (s : State) (st : Nat), s.resetHeld = false →
         (s.auth.backoff.getD st 0 = 1 → s.auth.holder = none → st ∈ s.auth.pending →
           (∀ n ∈ s.auth.pending, n ≠ st → s.auth.backoff.getD n 0 ≠ 0) →
           exec (.backoffExpiry st) s
             = .next { s with
                 auth := { s.auth with
                   holder := some st, explicit := true, cue := false
                   pending := s.auth.pending.filter (fun n => n != st), backoff := s.auth.backoff.set st 0 }
                 station := { s.station with events := s.station.events ||| 0x2#14 } })
         ∧ (s.auth.backoff.getD st 0 = 1 → s.auth.holder = none →
             let counted := s.auth.backoff.set st 0
             ((∀ n ∈ s.auth.pending, counted.getD n 0 ≠ 0) →
               exec (.backoffExpiry st) s = .next { s with auth := { s.auth with backoff := counted } })
             ∧ ∀ h ∈ s.auth.pending, s.auth.pending.Pairwise (· < ·) → counted.getD h 0 = 0 →
                 (∀ n ∈ s.auth.pending, counted.getD n 0 = 0 → h ≤ n) →
                 exec (.backoffExpiry st) s
                   = .next { s with
                       auth := { s.auth with
                         holder := some h, explicit := true, cue := false
                         pending := s.auth.pending.filter (fun n => n != h), backoff := counted.set h 0 }
                       station := { s.station with events := s.station.events ||| 0x2#14 } })
         ∧ (s.auth.backoff.getD st 0 = 1 → s.auth.holder.isSome = true →
             exec (.backoffExpiry st) s = .next { s with auth := { s.auth with backoff := s.auth.backoff.set st 0 } })
         ∧ (s.auth.backoff.getD st 0 ≠ 1 → exec (.backoffExpiry st) s = .next s))
     ∧ ∀ s : State, s.resetHeld = false →
         (s.motion.mode = .stick → s.auth.stale = false → s.auth.miss = s.auth.hold →
           (s.auth.buffer = [] ∨ s.auth.filling = true ∧ s.auth.buffer.length < s.auth.start) →
             exec .stickHoldExpiry s
               = .next { s with
                   auth := { s.auth with filling := true, miss := s.auth.hold + 1, stale := true }
                   station := { s.station with events := s.station.events ||| 0x100#14 } })
         ∧ (s.auth.miss < s.auth.hold ∨ s.auth.stale = true → exec .stickHoldExpiry s = .next s))
  ∧ (∀ (s t : State) (q : Sample) (rest : List Sample), s.resetHeld = false → s.motion.flight = none → NoFrameWaits s →
       s.motion.mode = .stick → s.auth.buffer = q :: rest →
       (s.auth.filling = false ∨ s.auth.start ≤ s.auth.buffer.length) → anyOccupied s = false → s.stop.causes = 0#8 →
       exec .periodExpiry s = .next t → t.stop.causes = 0#8 →
         t.auth.buffer = rest ∧ t.auth.filling = false ∧ t.auth.miss = 0 ∧ t.auth.stale = false
         ∧ t.auth.lastDemand = some (shapeSample s.auth s.motion.lim q)
         ∧ ∃ c, t.motion.flight = some c ∧ c.mode = .stick ∧ c.demand = shapeSample s.auth s.motion.lim q)
  ∧ ∀ (s : State) (h : Nat), s.resetHeld = false → s.motion.flight = none → NoFrameWaits s → s.auth.holder = some h →
      let counted := s.auth.backoff.map (fun n => n - 1)
      (∃ t, exec .periodExpiry s = .next t ∧ t.auth.pending = s.auth.pending
        ∧ (t.auth.holder = some h → t.auth.backoff = counted)
        ∧ (t.auth.holder ≠ some h → t.auth.holder = none ∧ t.auth.backoff = counted.set h 2)
        ∧ (s.auth.explicit = true → t.auth.holder = some h))
      ∧ ((s.auth.buffer = [] ∨ s.auth.filling = true ∧ s.auth.buffer.length < s.auth.start) →
          s.motion.mode = .stick → s.motion.p.isSome = true → anyOccupied s = false →
          (∀ q ∈ s.ports.list, q.state = .up → q.good = true ∨ q.lastSent = none) →
          s.station.silence + 1 < s.station.watchdog →
            let n := if s.auth.miss ≤ s.auth.hold then s.auth.miss + 1 else s.auth.miss
            ∃ t c, exec .periodExpiry s = .next t
              ∧ t.auth = { s.auth with
                  backoff := counted, filling := true, miss := n, stale := s.auth.stale || decide (s.auth.hold < n) }
              ∧ (eventSet t .stickStale = true
                  ↔ eventSet s .stickStale = true ∨ s.auth.stale = false ∧ s.auth.hold < n)
              ∧ t.motion.mode = .stick ∧ t.motion.flight = some c ∧ c.mode = .stick
              ∧ c.demand = if s.auth.hold < n then ⟨0, 0, 0⟩ else s.auth.lastDemand.getD ⟨0, 0, 0⟩)

/-- Every step keeps the authority record as R110, R111 and R122 say. -/
def Obligations.AuthorityKept : Prop :=
  ∀ s t : State, AuthorityOk s → step s = .next t → AuthorityOk t

/-! ## The winch ports -/

/-- PORT_CONTROL: its five actions by the state of the port, in SAFE and STOPPED/BRAKED (R133, R134, R139, R155). PORT
is raised when the state changes (R132); a RETRAIN of a port in BREAK raises none, and the number of the port is
judged before the mode, the model's choices (logs 12 and 23). SET_ABILITY, PORT_TEST, PORT_CLEAR, SET_PORT_LIMITS, and
PORT_READ with its clear option (R142, R143, R156, R158, R159, R160, R161), with their answers in the bytes of the
model's choice (log 10). -/
def Obligations.PortRequestsTaken : Prop :=
  (∀ (s : State) (st i : Nat), MaySend s .portControl st →
     let q := s.ports.get i
     let moved := fun (r : Port) (t : State) =>
       { t with
         ports := t.ports.put i r
         station := { t.station with
           events := if r.state = q.state then t.station.events else t.station.events ||| 0x200#14 } }
     let run := fun (c : Instr) (r : Port) => exec c s = taken st .portControl (byte r.state.code) (moved r) s
     let no := fun (c : Instr) => exec c s = turnedAway st .portControl .wrongState s
     let all := [Instr.portControlEnable st i, .portControlDisable st i, .portControlRetrain st i, .portControlSleep st i,
       .portControlWake st i]
     (3 < i → ∀ c ∈ all, exec c s = turnedAway st .portControl .badParam s)
     ∧ (i ≤ 3 → s.motion.mode ≠ .safe → s.motion.mode ≠ .stopped .braked → ∀ c ∈ all, no c)
     ∧ (i ≤ 3 → s.motion.mode = .safe ∨ s.motion.mode = .stopped .braked →
         (q.state ≠ .off → no (.portControlEnable st i))
         ∧ (q.state = .off → run (.portControlEnable st i) (trainingAfresh q))
         ∧ (q.state = .off → run (.portControlDisable st i) q)
         ∧ (q.state ≠ .off → run (.portControlDisable st i) { linkDropped q with state := .off })
         ∧ (q.state = .off → no (.portControlRetrain st i))
         ∧ (q.state ≠ .off →
             run (.portControlRetrain st i) { linkDropped q with state := .break_, breakCause := .retrain, breakLeft := 300 })
         ∧ (q.state ≠ .up → no (.portControlSleep st i))
         ∧ (q.state = .up → run (.portControlSleep st i) { linkDropped q with state := .sleep })
         ∧ (q.state ≠ .sleep → no (.portControlWake st i))
         ∧ (q.state = .sleep → run (.portControlWake st i) (trainingAfresh q))))
  ∧ ((∀ (s : State) (st i n : Nat), MaySend s .setAbility st →
       let run := exec (.setAbility st i n) s
       let q := s.ports.get i
       let set := BitVec.ofNat 4 n
       (n = 0 ∨ 15 < n ∨ 3 < i → run = turnedAway st .setAbility .badParam s)
       ∧ (1 ≤ n → n ≤ 15 → i ≤ 3 →
           (q.state ≠ .up →
             run = taken st .setAbility (byte n ++ byte (speedClassCode q.resolved))
               (fun t => { t with ports := t.ports.put i { q with allowed := set } }) s)
           ∧ ∀ (a : Ability) (k old : SpeedClass), q.state = .up → q.abilities = some a → q.resolved = some old →
               highestClass (set &&& a.classes) = some k →
               run = taken st .setAbility (byte n ++ byte k.rank)
                 (fun t => { t with
                   ports := t.ports.put i { q with allowed := set, resolved := some k }
                   station := { t.station with
                     events := if k.rank < old.rank then t.station.events ||| 0x800#14 else t.station.events } }) s))
       ∧ (∀ (s : State) (st i pattern loop : Nat), MaySend s .portTest st →
           let run := exec (.portTestStart st i pattern loop) s
           let q := s.ports.get i
           (1 < pattern ∨ 1 < loop ∨ 3 < i → run = turnedAway st .portTest .badParam s)
           ∧ (pattern ≤ 1 → loop ≤ 1 → i ≤ 3 →
               (s.motion.mode ≠ .safe → run = turnedAway st .portTest .wrongState s)
               ∧ (s.motion.mode = .safe → q.state = .off ∨ q.state = .sleep → run = turnedAway st .portTest .wrongState s)
               ∧ (s.motion.mode = .safe → q.state ≠ .off → q.state ≠ .sleep →
                   (loop = 1 → (∀ a, q.abilities = some a → a.test = false) →
                     run = turnedAway st .portTest .notPermitted s)
                   ∧ ((loop = 0 ∨ ∃ a, q.abilities = some a ∧ a.test = true) →
                       let ones := if pattern = 0 then 511 else 32767
                       let test : TestRecord :=
                         { pattern := if pattern = 0 then .prbs9 else .prbs15
                           loop := if loop = 0 then .internal else .external
                           result := .running, compared := 0, errors := 0, sendGen := ones, checkGen := ones
                           outstanding := .none }
                       run = taken st .portTest
                         (byte 5 ++ byte pattern ++ byte loop ++ byte 1 ++ beBytes 2 0 ++ beBytes 2 0)
                         (fun t => { t with
                           ports := t.ports.put i { linkDropped q with state := .test, test := test }
                           station := { t.station with
                             events := if q.state = .test then t.station.events else t.station.events ||| 0x200#14 } }) s))))
       ∧ (∀ (s : State) (st i : Nat), MaySend s .portTest st →
           let run := exec (.portTestStop st i) s
           let q := s.ports.get i
           (3 < i → run = turnedAway st .portTest .badParam s)
           ∧ (i ≤ 3 → q.state = .test →
               run = taken st .portTest (byte 1 ++ testBytes q.test)
                 (fun t => { t with
                   ports := t.ports.put i (trainingAfresh q)
                   station := { t.station with events := t.station.events ||| 0x200#14 } }) s)
           ∧ (i ≤ 3 → q.state ≠ .test → run = taken st .portTest (byte q.state.code ++ testBytes q.test) id s))
       ∧ (∀ (s : State) (st i : Nat), MaySend s .portClear st →
           let run := exec (.portClear st i) s
           let cleared := fun (q : Port) =>
             let ones := if q.test.pattern = .prbs9 then 511 else 32767
             { q with
               badFrames := 0, missTotal := 0, tensionWindow := none
               test := { q.test with
                 result := if q.state = .test then .running else .none, compared := 0, errors := 0, sendGen := ones
                 checkGen := ones, outstanding := .none } }
           (3 < i → i ≠ 255 → run = turnedAway st .portClear .badParam s)
           ∧ (i ≤ 3 → run = taken st .portClear [] (fun t => { t with ports := t.ports.put i (cleared (t.ports.get i)) }) s)
           ∧ (i = 255 → run = taken st .portClear [] (fun t => { t with ports := t.ports.map cleared }) s))
       ∧ (∀ (s : State) (st following tMin tMax tolerance : Nat), MaySend s .setPortLimits st →
           let run := exec (.setPortLimits st following tMin tMax tolerance) s
           let a := max 1 (min 1000 following)
           let b := min 65534 tMin
           let c := min 65534 tMax
           let d := max 1 (min 1000 tolerance)
           (s.motion.mode ≠ .safe → run = turnedAway st .setPortLimits .wrongState s)
           ∧ (s.motion.mode = .safe →
               run = taken st .setPortLimits (beBytes 2 a ++ beBytes 2 b ++ beBytes 2 c ++ beBytes 2 d)
                 (fun t => { t with portLimits := { following := a, tMin := b, tMax := c, tolerance := d } }) s))
       ∧ ∀ (s : State) (st i n : Nat), MaySend s .portRead st →
           let run := exec (.portRead st i n) s
           let may := classOf s st = .safety ∨ classOf s st = .supervisor
           let q := s.ports.get i
           (1 < n ∨ 3 < i → run = turnedAway st .portRead .badParam s)
           ∧ (n = 1 → i ≤ 3 → may → run = taken st .portRead (portBytes q s.portLimits true)
               (fun t => { t with ports := t.ports.put i { q with tensionWindow := none } }) s)
           ∧ (n = 1 → i ≤ 3 → ¬may → run = taken st .portRead (portBytes q s.portLimits false) id s))

/-- The class a drive offers again in UP (R142): by an ABILITY frame, the highest class of the intersection is taken,
with DERATE when it is lower; an empty one, by an ABILITY frame or by SET_ABILITY (R143), breaks the link with LOST_CLASS
and raises PORT_LOST, which stops a following carriage. Training (R135 to R140): a third identical ABILITY frame resolves the
link to the highest common class or breaks it with NO_COMMON_CLASS, a sixteenth FEEDBACK frame takes a legacy drive as
class A, a frame of the other kind or of another offer starts its run again, and a frame with a bad check sequence
starts both. -/
def Obligations.TrainingAndClasses : Prop :=
  (∀ (s : State) (i byte_ : Nat), s.resetHeld = false → i ≤ 3 → byte_ < 64 →
     let q := s.ports.get i
     let a : Ability :=
       { classes := BitVec.ofNat 4 (byte_ % 16), tension := decide (byte_ / 16 % 2 = 1), test := decide (byte_ / 32 % 2 = 1) }
     ∀ old, q.state = .up → q.resolved = some old →
       (∀ k, highestClass (q.allowed &&& a.classes) = some k →
         exec (.driveAbilityFrame i byte_) s
           = .next { s with
               ports := s.ports.put i { q with abilities := some a, legacy := false, resolved := some k }
               station := { s.station with
                 events := if k.rank < old.rank then s.station.events ||| 0x800#14 else s.station.events } })
       ∧ (q.allowed &&& a.classes = 0#4 → ∃ t, exec (.driveAbilityFrame i byte_) s = .next t
           ∧ (t.ports.get i).state = .break_ ∧ (t.ports.get i).breakCause = .lostClass
           ∧ (t.ports.get i).breakLeft = 300 ∧ (t.ports.get i).resolved = none
           ∧ t.stop.has .portLost = true ∧ t.stop.attribution.portLost.getLsbD i = true ∧ eventSet t .port = true
           ∧ StopTaken s t .brake
           ∧ ∀ j, j ≤ 3 → j ≠ i → t.ports.get j = s.ports.get j))
  ∧ (∀ (s : State) (st i n : Nat) (a : Ability), MaySend s .setAbility st → 1 ≤ n → n ≤ 15 → i ≤ 3 →
       (s.ports.get i).state = .up → (s.ports.get i).abilities = some a → BitVec.ofNat 4 n &&& a.classes = 0#4 →
         ∃ t v, exec (.setAbility st i n) s = .next t ∧ t.station.inService = some v ∧ v.status = .ok
           ∧ v.payload = byte n ++ byte 0
           ∧ t.ports.get i = { linkDropped (s.ports.get i) with
               allowed := BitVec.ofNat 4 n, state := .break_, breakCause := .lostClass, breakLeft := 300 }
           ∧ t.stop.has .portLost = true ∧ t.stop.attribution.portLost.getLsbD i = true ∧ eventSet t .port = true
           ∧ StopTaken s t .brake
           ∧ ∀ j, j ≤ 3 → j ≠ i → t.ports.get j = s.ports.get j)
  ∧ (∀ (s : State) (i : Nat), s.resetHeld = false → i ≤ 3 →
       let q := s.ports.get i
       let put := fun (r : Port) => { s with ports := s.ports.put i r }
       let moved := fun (r : Port) => { put r with station := { s.station with events := s.station.events ||| 0x200#14 } }
       let fresh := fun (r : Port) =>
         { r with
           misses := 0, followRun := 0, highRun := 0, slackRun := 0, good := false
           status := { ready := false, brakeReleased := false, tempWarn := false, fault := 0 }
           candidate := none, lastSent := none }
       q.state = .training →
         (∀ b : Nat, b < 64 →
           let a := abilityOf b
           let same := 0 < q.abilityRun ∧ q.runAbility = some a
           let heard : Port := { q with silence := 0, feedbackRun := 0, runAbility := some a }
           (¬same → exec (.driveAbilityFrame i b) s = .next (put { heard with abilityRun := 1 }))
           ∧ (same → q.abilityRun = 1 → exec (.driveAbilityFrame i b) s = .next (put { heard with abilityRun := 2 }))
           ∧ (same → q.abilityRun = 2 →
               (∀ k, highestClass (q.allowed &&& a.classes) = some k →
                 exec (.driveAbilityFrame i b) s
                   = .next (moved (fresh { heard with
                       abilityRun := 3, state := .up, abilities := some a, resolved := some k, legacy := false
                       measured := none, tension := none })))
               ∧ (q.allowed &&& a.classes = 0#4 →
                 exec (.driveAbilityFrame i b) s
                   = .next (moved { heard with
                       abilityRun := 3, state := .break_, breakCause := .noCommonClass, breakLeft := 300 }))))
         ∧ (∀ echo measured tension status : Nat,
           let heard : Port := { q with silence := 0, abilityRun := 0, runAbility := none }
           (q.feedbackRun < 15 →
             exec (.driveFeedbackFrame i echo measured tension status) s
               = .next (put { heard with feedbackRun := q.feedbackRun + 1 }))
           ∧ (q.feedbackRun = 15 → q.allowed.getLsbD 0 = true →
               exec (.driveFeedbackFrame i echo measured tension status) s
                 = .next (moved (fresh { heard with
                     feedbackRun := 16, state := .up, legacy := true, resolved := some .a
                     abilities := some { classes := 1#4, tension := true, test := false }
                     measured := some measured, tension := if tension = 65535 then none else some tension })))
           ∧ (q.feedbackRun = 15 → q.allowed.getLsbD 0 = false →
               exec (.driveFeedbackFrame i echo measured tension status) s
                 = .next (moved { heard with
                     feedbackRun := 16, state := .break_, breakCause := .noCommonClass, breakLeft := 300 })))
         ∧ exec (.winchFrameBadCheck i) s
             = .next (put { q with
                 badFrames := if q.badFrames < 65535 then q.badFrames + 1 else q.badFrames
                 abilityRun := 0, feedbackRun := 0, runAbility := none }))

/-- Frames to a port in UP, SLEEP and TEST, and those a state discards: ABILITY and FEEDBACK frames in OFF, BREAK, SLEEP
and TEST, WAKE frames outside SLEEP and TEST frames outside TEST (R132, R145, R147, R149, R155, R157). A good
FEEDBACK frame is the first that echoes the last sequence number; it sets what the port holds of the drive and, with
the runs below their limits and the status unchanged, raises nothing. What the port raises on a good FEEDBACK frame
whose checks fail (R150 to R153, R165, R166): a third consecutive frame off the followed length FOLLOWING, a second
above T_max TENSION_HIGH, a fifth below T_min while followed SLACK, and a debounced fault DRIVE_FAULT, and so does a READY
lost while followed; each joins the cause set with the port in its attribution. A debounced TEMP_WARN raises PORT. A frame
with a bad check sequence is an error of a test on the EXTERNAL loop; the next period expiry judges what came back (R157).
That it takes a bad check sequence for the frame come back, or for a further one, is the model's choice (log 13). Last, the
port after any good FEEDBACK frame, whatever it answers and whatever the drive senses: measured length, tension, misses,
window, debounce and the three runs (R146, R149 to R154); that with no check tripping nothing else changes but PORT; and
what the checks that trip do: FOLLOWING and DRIVE_FAULT are of kind BRAKE, TENSION_HIGH and SLACK of kind QUICK (R165), and
the harshest of them acts on the kind in force and the mode (R164, R167, R168).
The model's reading there: a frame before the first setpoint is good and ends the following and the slack run (log 15), and
a drive without tension sense makes the tension absent, whatever the port held, and ends the high and the slack run
(log 17). -/
def Obligations.DriveFramesAndChecks : Prop :=
  (∀ (s : State) (i : Nat), s.resetHeld = false → i ≤ 3 →
     let q := s.ports.get i
     let put := fun (r : Port) => { s with ports := s.ports.put i r }
     (∀ echo measured tension status : Nat, q.state = .up →
       (echo ≠ q.sequence ∨ q.good = true → exec (.driveFeedbackFrame i echo measured tension status) s = .next s)
       ∧ ∀ (a : Ability) (n : Int), echo = q.sequence → q.good = false → driveStatusOf status = q.status →
           q.abilities = some a → a.tension = true → tension < 65535 →
           q.lastSent = some { command := .follow, length := n } → (n - measured).natAbs ≤ s.portLimits.following * 1000 →
           s.portLimits.tMin ≤ tension → tension ≤ s.portLimits.tMax →
           exec (.driveFeedbackFrame i echo measured tension status) s
             = .next (put { q with
                 good := true, measured := some measured, tension := some tension, misses := 0, candidate := none
                 followRun := 0, highRun := 0, slackRun := 0
                 tensionWindow := match q.tensionWindow with
                   | none => some (tension, tension)
                   | some (lo, hi) => some (min lo tension, max hi tension) }))
     ∧ (q.state = .sleep →
         exec (.driveWakeFrame i) s
           = .next { put (trainingAfresh q) with
               station := { s.station with events := s.station.events ||| 0x600#14 } })
     ∧ (q.state ≠ .sleep → exec (.driveWakeFrame i) s = .next s)
     ∧ (∀ payload : List Byte,
         (q.state = .test → q.test.loop = .external → ∀ due back n, q.test.outstanding = .sent due back n →
           exec (.driveTestFrame i payload) s
             = .next (put { q with test := { q.test with
                 outstanding := if back = none then .sent due (some (decide (payload = due))) n
                   else .sent due back (n + 1) } }))
         ∧ (q.state ≠ .test ∨ q.test.outstanding = .none → exec (.driveTestFrame i payload) s = .next s))
     ∧ (q.state = .test → q.test.loop = .internal →
         exec (.winchFrameBadCheck i) s = .next s ∧ ∀ payload, exec (.driveTestFrame i payload) s = .next s)
     ∧ (q.state = .test → q.test.loop = .external →
         (q.test.outstanding = .none → exec (.winchFrameBadCheck i) s = .next s)
         ∧ ∀ due back n, q.test.outstanding = .sent due back n →
             exec (.winchFrameBadCheck i) s
               = .next (put { q with test := { q.test with
                   outstanding := if back = none then .sent due (some false) n else .sent due back (n + 1) } }))
     ∧ (q.state = .up ∨ q.state = .sleep →
         exec (.winchFrameBadCheck i) s
           = .next (put { q with badFrames := if q.badFrames < 65535 then q.badFrames + 1 else q.badFrames }))
     ∧ (q.state = .off ∨ q.state = .break_ → exec (.winchFrameBadCheck i) s = .next s)
     ∧ (q.state = .off ∨ q.state = .break_ ∨ q.state = .sleep ∨ q.state = .test →
         (∀ b, exec (.driveAbilityFrame i b) s = .next s)
         ∧ ∀ echo measured tension status, exec (.driveFeedbackFrame i echo measured tension status) s = .next s))
  ∧ (∀ (s : State) (i measured tension status : Nat) (a : Ability), s.resetHeld = false → i ≤ 3 →
       let q := s.ports.get i
       let w := driveStatusOf status
       q.state = .up → q.good = false → q.abilities = some a →
         ∃ t, exec (.driveFeedbackFrame i q.sequence measured tension status) s = .next t
           ∧ (∀ n, q.lastSent = some { command := .follow, length := n } → q.followRun = 2 →
               s.portLimits.following * 1000 < (n - measured).natAbs →
                 t.stop.has .following = true ∧ t.stop.attribution.following.getLsbD i = true)
           ∧ (a.tension = true → tension < 65535 → s.portLimits.tMax < tension → q.highRun = 1 →
               t.stop.has .tensionHigh = true ∧ t.stop.attribution.tensionHigh.getLsbD i = true)
           ∧ (a.tension = true → tension < s.portLimits.tMin → tension < 65535 → q.slackRun = 4 →
               ∀ n, q.lastSent = some { command := .follow, length := n } →
                 t.stop.has .slack = true ∧ t.stop.attribution.slack.getLsbD i = true)
           ∧ (w.fault ≠ 0 → w.fault ≠ q.status.fault → q.candidate = some w →
               t.stop.has .driveFault = true ∧ t.stop.attribution.driveFault.getLsbD i = true)
           ∧ (q.status.ready = true → w.ready = false → q.candidate = some w →
               ∀ n, q.lastSent = some { command := .follow, length := n } →
                 t.stop.has .driveFault = true ∧ t.stop.attribution.driveFault.getLsbD i = true)
           ∧ (q.status.tempWarn = false → w.tempWarn = true → q.candidate = some w → eventSet t .port = true)
           ∧ (w ≠ q.status → q.candidate ≠ some w →
               (t.ports.get i).status = q.status ∧ (t.ports.get i).candidate = some w)
           ∧ (w ≠ q.status → q.candidate = some w → (t.ports.get i).status = w ∧ (t.ports.get i).candidate = none))
  ∧ ∀ (s : State) (i measured tension status : Nat), s.resetHeld = false → i ≤ 3 →
      let q := s.ports.get i
      let lim := s.portLimits
      let w := driveStatusOf status
      let x : Option Nat := match q.abilities with
        | some a => if a.tension = true ∧ tension ≠ 65535 then some tension else none
        | none => none
      let followed : Option Int := match q.lastSent with
        | some { command := .follow, length := n } => some n
        | _ => none
      let far := ∃ n, followed = some n ∧ lim.following * 1000 < (n - measured).natAbs
      let high := ∃ v, x = some v ∧ lim.tMax < v
      let slack := ∃ v n, x = some v ∧ followed = some n ∧ v < lim.tMin
      let believed := w ≠ q.status ∧ q.candidate = some w
      let run := fun (n most : Nat) => if n < most then n + 1 else n
      let trips : Cause → Prop := fun c => match c with
        | .following => far ∧ q.followRun = 2
        | .tensionHigh => high ∧ q.highRun = 1
        | .slack => slack ∧ q.slackRun = 4
        | .driveFault => believed ∧ (w.fault ≠ 0 ∧ w.fault ≠ q.status.fault
            ∨ q.status.ready = true ∧ w.ready = false ∧ followed ≠ none)
        | .operator | .stationSilent | .portLost | .estop => False
      let braking := trips .following ∨ trips .driveFault
      let quick := trips .tensionHigh ∨ trips .slack
      q.state = .up → q.good = false →
        ∃ (t : State) (r : Port), exec (.driveFeedbackFrame i q.sequence measured tension status) s = .next t
          ∧ t.ports = s.ports.put i r
          ∧ r = { q with
              good := true, measured := some measured, tension := x, misses := 0
              tensionWindow := match x, q.tensionWindow with
                | none, o => o
                | some v, none => some (v, v)
                | some v, some (lo, hi) => some (min lo v, max hi v)
              status := r.status, candidate := r.candidate, followRun := r.followRun, highRun := r.highRun
              slackRun := r.slackRun }
          ∧ (believed → r.status = w) ∧ (¬believed → r.status = q.status)
          ∧ (believed ∨ w = q.status → r.candidate = none) ∧ (¬believed → w ≠ q.status → r.candidate = some w)
          ∧ (far → r.followRun = run q.followRun 3) ∧ (¬far → r.followRun = 0)
          ∧ (high → r.highRun = run q.highRun 2) ∧ (¬high → r.highRun = 0)
          ∧ (slack → r.slackRun = run q.slackRun 5) ∧ (¬slack → r.slackRun = 0)
          ∧ ((r.followRun = 3 → q.followRun = 3) → (r.highRun = 2 → q.highRun = 2) → (r.slackRun = 5 → q.slackRun = 5) →
              (r.status.fault = 0 ∨ r.status.fault = q.status.fault) →
              (q.status.ready = true → r.status.ready = true ∨ followed = none) →
                t = { s with
                  ports := s.ports.put i r
                  station := { s.station with
                    events := if q.status.tempWarn = false ∧ r.status.tempWarn = true then s.station.events ||| 0x200#14
                      else s.station.events } })
          ∧ (∀ c, (t.stop.has c = true ↔ s.stop.has c = true ∨ trips c)
              ∧ (trips c → t.stop.attribution.ports c = s.stop.attribution.ports c ||| BitVec.twoPow 4 i)
              ∧ (¬trips c → t.stop.attribution.ports c = s.stop.attribution.ports c)
              ∧ (trips c → s.stop.causes = 0#8 → (∀ d, trips d → d = c) →
                  t.stop.first = some { cause := c, port := some i }))
          ∧ (s.stop.causes ≠ 0#8 → t.stop.first = s.stop.first)
          ∧ t.stop.requested = s.stop.requested ∧ t.stop.estopOpen = s.stop.estopOpen
          ∧ (braking → StopTaken s t .brake) ∧ (¬braking → quick → StopTaken s t .quick)
          ∧ (¬braking → ¬quick → StopTaken s t .none)
          ∧ (eventSet t .stop = true
              ↔ eventSet s .stop = true ∨ t.stop.kind ≠ s.stop.kind ∨ ∃ c, trips c ∧ s.stop.has c = false)
          ∧ t.motion.p = s.motion.p ∧ t.air = s.air ∧ t.span = s.span ∧ t.marks = s.marks ∧ t.period = s.period

/-- The thresholds of a port (R138, R139, R147): TRAINING gives up after 200 silent periods, BREAK ends after its 300,
and a third consecutive miss breaks the link with MISSED and raises PORT_LOST, which stops a following carriage. A
command whose count does not stand one short changes nothing, the model's choice (log 5). -/
def Obligations.PortThresholds : Prop :=
  ∀ (s : State) (i : Nat), s.resetHeld = false → i ≤ 3 →
    let q := s.ports.get i
    let moved := fun (r : Port) =>
      { s with
        ports := s.ports.put i r
        station := { s.station with events := s.station.events ||| 0x200#14 } }
    (q.state = .training → q.silence = 199 →
      exec (.trainingSilenceExpiry i) s
        = .next (moved { q with
            silence := 200, state := .break_, breakCause := .silent, breakLeft := 300, lineOut := abilityFrame q }))
    ∧ (q.state ≠ .training ∨ q.silence < 199 → exec (.trainingSilenceExpiry i) s = .next s)
    ∧ (q.state = .break_ → q.breakLeft ≤ 1 →
        exec (.breakExpiry i) s = .next (moved (trainingAfresh { q with breakLeft := 0, lineOut := [] })))
    ∧ (q.state ≠ .break_ ∨ 1 < q.breakLeft → exec (.breakExpiry i) s = .next s)
    ∧ (q.state ≠ .up ∨ q.good = true ∨ q.lastSent = none ∨ q.misses < 2 → exec (.consecutiveMissLimit i) s = .next s)
    ∧ (q.state = .up → q.good = false → q.lastSent.isSome = true → q.misses = 2 →
        ∃ t, exec (.consecutiveMissLimit i) s = .next t
          ∧ (t.ports.get i).state = .break_ ∧ (t.ports.get i).breakCause = .missed ∧ (t.ports.get i).breakLeft = 300
          ∧ (t.ports.get i).missTotal = (if q.missTotal < 65535 then q.missTotal + 1 else q.missTotal)
          ∧ t.stop.has .portLost = true ∧ t.stop.attribution.portLost.getLsbD i = true ∧ eventSet t .port = true
          ∧ StopTaken s t .brake
          ∧ ∀ j, j ≤ 3 → j ≠ i → t.ports.get j = s.ports.get j)

/-- After a period expiry every UP port has sent a setpoint: FOLLOW with its last length and its feed-forward exactly when
the mode is a following mode and all four ports are UP, else BRAKE with the measured length and a feed-forward of 0 (R35,
R144), in a SETPOINT frame that carries the sequence and the system speed class too (R141, R213); every port's miss check comes before any
setpoint, the model's choice (log 14). The system speed class
(R141): none unless all four ports are UP, else the lowest of the four resolved classes. -/
def Obligations.FollowOnlyWhenAllUp : Prop :=
  (∀ s t : State, s.resetHeld = false → NoFrameWaits s → exec .periodExpiry s = .next t →
     ∀ i, i ≤ 3 → (t.ports.get i).state = .up →
       let all := ∀ j, j ≤ 3 → (t.ports.get j).state = .up
       ∃ sent, (t.ports.get i).lastSent = some sent ∧ (t.ports.get i).good = false
         ∧ (s.ports.get i).state = .up
         ∧ (t.ports.get i).sequence = ((s.ports.get i).sequence + 1) % 256
         ∧ (sent.command = .follow ↔ t.motion.mode.following = true ∧ all)
         ∧ (sent.command = .brake → sent.length = ((t.ports.get i).measured.getD 0 : Nat))
         ∧ (sent.command = .follow → ∀ l, t.motion.lengths = some l → sent.length = l.get i)
         ∧ (t.ports.get i).lineOut
           = linkFrame 2 (byte (t.ports.get i).sequence ++ byte (if sent.command = .follow then 1 else 0)
               ++ beInt 4 sent.length ++ beInt 4 (if sent.command = .follow then t.motion.feed.get i else 0)
               ++ byte (match systemClass t.ports with
                 | none => 0
                 | some k => k.rank)))
  ∧ (∀ p : Quad Port,
       ((∃ i, i ≤ 3 ∧ (p.get i).state ≠ .up) → systemClass p = none)
       ∧ ∀ c : Nat → SpeedClass, (∀ i, i ≤ 3 → (p.get i).state = .up ∧ (p.get i).resolved = some (c i)) →
           ∃ k, systemClass p = some k ∧ (∃ i, i ≤ 3 ∧ c i = k) ∧ ∀ i, i ≤ 3 → k.rank ≤ (c i).rank)

/-- The ports at a period expiry, by their state (R133, R135, R138, R139, R147, R155, R157): in TRAINING the ABILITY
frame is sent and silence counted, up to SILENT; in BREAK one period of the break passes, up to TRAINING; in UP a setpoint
not answered is a miss, the third of which breaks the link and raises PORT_LOST; in TEST the frame of the last expiry is
judged, good when it came back as it should be and an error when it did not, and every further frame that came back for it
is an error; the thousandth frame without an error is a PASS, and the next frame is sent, on the line of the EXTERNAL loop
alone, while the INTERNAL one takes it back from inside; OFF and SLEEP are quiet. The bytes of a TEST frame are the model's
(log 11), and so is that a further frame advances the compared count (log 13). -/
def Obligations.PortsAtExpiry : Prop :=
  ∀ (s : State) (i : Nat), s.resetHeld = false → NoFrameWaits s → i ≤ 3 →
    let q := s.ports.get i
    let sat := fun (n : Nat) => if n < 65535 then n + 1 else n
    ∃ t, exec .periodExpiry s = .next t
      ∧ (q.state = .off ∨ q.state = .sleep → t.ports.get i = { q with lineOut := [] })
      ∧ (q.state = .training →
          let sent := linkFrame 1 (byte q.allowed.toNat)
          (q.silence < 199 → t.ports.get i = { q with silence := q.silence + 1, lineOut := sent })
          ∧ (q.silence = 199 → eventSet t .port = true
              ∧ t.ports.get i = { q with
                  silence := 200, lineOut := sent, state := .break_, breakCause := .silent, breakLeft := 300 }))
      ∧ (q.state = .break_ →
          (1 < q.breakLeft → t.ports.get i = { q with breakLeft := q.breakLeft - 1, lineOut := [] })
          ∧ (q.breakLeft ≤ 1 → eventSet t .port = true
              ∧ t.ports.get i = trainingAfresh { q with breakLeft := 0, lineOut := [] }))
      ∧ (q.state = .up →
          let missed := q.good = false ∧ q.lastSent ≠ none
          (¬missed → (t.ports.get i).state = .up ∧ (t.ports.get i).misses = q.misses
            ∧ (t.ports.get i).missTotal = q.missTotal)
          ∧ (missed → q.misses < 2 → (t.ports.get i).state = .up ∧ (t.ports.get i).misses = q.misses + 1
              ∧ (t.ports.get i).missTotal = sat q.missTotal ∧ (t.ports.get i).followRun = q.followRun
              ∧ (t.ports.get i).highRun = q.highRun ∧ (t.ports.get i).slackRun = q.slackRun)
          ∧ (missed → q.misses = 2 → eventSet t .port = true ∧ t.stop.has .portLost = true
              ∧ t.stop.attribution.portLost.getLsbD i = true
              ∧ t.ports.get i = { linkDropped q with
                  state := .break_, breakCause := .missed, breakLeft := 300, missTotal := sat q.missTotal
                  lineOut := [] }))
      ∧ (q.state = .test →
          let u := (t.ports.get i).test
          (t.ports.get i).state = .test ∧ u.pattern = q.test.pattern ∧ u.loop = q.test.loop
            ∧ (let out := (genBytes q.test.pattern 32 q.test.sendGen).1
              let due := (genBytes q.test.pattern 32 q.test.checkGen).1
              u.outstanding
                = .sent due (if q.test.loop = .internal then some (decide (out = due)) else none) 0)
            ∧ u.sendGen = (genBytes q.test.pattern 32 q.test.sendGen).2
            ∧ u.checkGen = (genBytes q.test.pattern 32 q.test.checkGen).2
            ∧ (t.ports.get i).lineOut
              = (if q.test.loop = .internal then [] else linkFrame 4 (genBytes q.test.pattern 32 q.test.sendGen).1)
            ∧ (q.test.outstanding = .none →
                u.compared = q.test.compared ∧ u.errors = q.test.errors ∧ u.result = q.test.result)
            ∧ ∀ due back n, q.test.outstanding = .sent due back n → q.test.compared ≤ 65535 → q.test.errors ≤ 65535 →
                let bad := if back = some true then n else n + 1
                u.compared = min 65535 (q.test.compared + 1 + n) ∧ u.errors = min 65535 (q.test.errors + bad)
                ∧ (q.test.result = .none → u.result = .none)
                ∧ (q.test.result ≠ .none → bad ≠ 0 → u.result = .fail)
                ∧ (bad = 0 →
                    (q.test.result = .running → q.test.errors = 0 → 999 ≤ q.test.compared → u.result = .pass)
                    ∧ (q.test.result = .running → q.test.errors ≠ 0 ∨ q.test.compared < 999 → u.result = .running)
                    ∧ (q.test.result ≠ .running → u.result = q.test.result)))

/-- Every step keeps the four winch ports and their limits as R131, R134, R141 and R159 say, and the Station Port's
registers and receiver as R194, R197 and R207 say. -/
def Obligations.PortsKept : Prop :=
  (∀ s t : State, PortsOk s → step s = .next t → PortsOk t)
  ∧ ∀ s t : State, StationOk s → step s = .next t → StationOk t

/-! ## The Stop Unit -/

/-- The raising of a cause by STOP, by the ESTOP line and by the watchdog (R164 to R167, R172, R173, R206): the set,
the first cause, the requested kind, the kind in force by the mode, the mode that follows, and STOP when the set or
the kind changed. A stop out of CUE ends the CUE basis: a holder on that basis alone loses authority with backoff 2 and
AUTHORITY, and one with EXPLICIT keeps it (R117, R168). In a steered mode the kind in force is NONE. At a period expiry at which no setpoint was missed, the
silence counter advances in STICK, CUE and EVICT, the mode of the computation that begins, and STATION_SILENT is raised
where it reaches the watchdog setting; in the other modes it stands. That the counter goes by the mode of the computation
beginning at that expiry is the model's choice (log 4), and so is that the STOP answer carries the mode without its sub-kind
(log 10). WATCHDOG_EXPIRY short of the setting changes nothing, the model's choice (log 5). -/
def Obligations.CausesRaised : Prop :=
  ∀ s : State, s.resetHeld = false → ModeOk s →
    let m := s.motion.mode
    let harsher := fun (k : StopKind) => if s.stop.kind.severity < k.severity then k else s.stop.kind
    let after := fun (k : StopKind) => if m = .safe ∨ m = .stopped .braked then s.stop.kind else harsher k
    let raised := fun (c : Cause) (k : StopKind) (t : State) =>
      t.stop.causes = s.stop.causes ||| BitVec.twoPow 8 c.bit
      ∧ t.stop.first = (if s.stop.causes = 0#8 then some { cause := c, port := none } else s.stop.first)
      ∧ t.stop.attribution = s.stop.attribution ∧ t.stop.kind = after k
      ∧ (eventSet t .stop = true ↔ eventSet s .stop = true ∨ s.stop.has c = false ∨ after k ≠ s.stop.kind)
      ∧ StopTaken s t k
      ∧ (after k ≠ s.stop.kind → m.steered = true → t.cue.running = false ∧ t.motion.copy = none ∧ t.motion.exit = none
          ∧ t.motion.trapped = false ∧ t.auth.buffer = [] ∧ t.auth.cue = false ∧ t.cue.entries = s.cue.entries
          ∧ (s.auth.explicit = true → t.auth.holder = s.auth.holder))
      ∧ t.motion.p = s.motion.p ∧ t.motion.lim = s.motion.lim ∧ t.motion.lengths = s.motion.lengths ∧ t.air = s.air
      ∧ t.span = s.span ∧ t.marks = s.marks ∧ t.ports = s.ports ∧ t.period = s.period
    (∀ (st n : Nat), MaySend s .stop st →
      let may := classOf s st = .safety ∨ classOf s st = .supervisor ∨ s.auth.holder = some st
      (¬may → exec (.stop st n) s = turnedAway st .stop .notHolder s)
      ∧ (may → n = 0 ∨ 3 < n → exec (.stop st n) s = turnedAway st .stop .badParam s)
      ∧ (may → ∀ k : StopKind, (n = 1 ∧ k = .controlled ∨ n = 2 ∧ k = .quick ∨ n = 3 ∧ k = .brake) →
          let asked := if s.stop.requested.severity < k.severity then k else s.stop.requested
          ∃ t v, exec (.stop st n) s = .next t ∧ raised .operator asked t ∧ t.stop.requested = asked
            ∧ t.stop.estopOpen = s.stop.estopOpen ∧ t.station.inService = some v ∧ v.status = .ok
            ∧ v.payload = byte t.stop.kind.severity ++ byte t.motion.mode.code))
    ∧ (∃ t, exec (.estopLineChange true) s = .next t ∧ raised .estop .brake t ∧ t.stop.requested = s.stop.requested
        ∧ t.stop.estopOpen = true)
    ∧ exec (.estopLineChange false) s
        = .next { s with estopLineOpen := false, stop := { s.stop with estopOpen := false } }
    ∧ (m = .stick ∨ m = .cue ∨ m = .evict → s.station.watchdog = s.station.silence + 1 → s.station.silence < 1000 →
        ∃ t, exec .watchdogExpiry s = .next t ∧ raised .stationSilent .controlled t
          ∧ t.stop.requested = s.stop.requested ∧ t.station.silence = s.station.silence + 1)
    ∧ (s.station.silence + 1 < s.station.watchdog → exec .watchdogExpiry s = .next s)
    ∧ (NoFrameWaits s → (∀ q ∈ s.ports.list, q.state = .up → q.good = true ∨ q.lastSent = none) →
        let n := if s.station.silence < 1000 then s.station.silence + 1 else s.station.silence
        ∃ t, exec .periodExpiry s = .next t
          ∧ (m = .safe ∨ m.isStopped = true → t.station.silence = s.station.silence ∧ t.stop = s.stop)
          ∧ ∀ c, t.motion.flight = some c →
              (c.mode = .hold ∨ c.mode = .stopping → t.station.silence = s.station.silence ∧ t.stop = s.stop)
              ∧ (c.mode = .stick ∨ c.mode = .cue ∨ c.mode = .evict → t.station.silence = n
                  ∧ (n < s.station.watchdog → t.stop = s.stop ∧ t.motion.mode = c.mode)
                  ∧ (s.station.watchdog ≤ n → t.stop.causes = 2#8 ∧ t.stop.kind = .controlled
                      ∧ t.stop.first = some { cause := .stationSilent, port := none } ∧ eventSet t .stop = true
                      ∧ t.motion.mode = .stopping ∧ t.cue.running = false ∧ t.auth.buffer = []
                      ∧ (let counted := { s.auth with backoff := s.auth.backoff.map (fun b => b - 1) }
                        c.mode = .cue → ∀ h, s.auth.holder = some h →
                          (s.auth.explicit = true → t.auth = { counted with
                            cue := false, buffer := [], filling := true, lastDemand := none, miss := 0, stale := false })
                          ∧ (s.auth.explicit = false →
                              t.auth = authorityOver h counted ∧ eventSet t .authority = true)))))

/-- CLEAR_STOP (R67, R175, R176): its checks in order, the set emptied with the ESTOP state kept, and the Motion
Generator moved by its mode. The bytes of the answer's causes and of its flag byte are the model's choice (log 10). -/
def Obligations.ClearStopTaken : Prop :=
  ∀ (s : State) (st : Nat), MaySend s .clearStop st →
    let run := exec (.clearStop st) s
    let present := fun (b : Nat) => run = .next (answer st Req.clearStop.code ⟨.causePresent, byte b⟩ (takeFrame s))
    let a := s.stop.attribution
    let named := fun (i : Nat) => (a.tensionHigh ||| a.slack ||| a.portLost ||| a.driveFault ||| a.following).getLsbD i = true
    let standing := fun (i : Nat) => named i ∧ (s.ports.get i).state ≠ .up
    let cleared : StopUnit :=
      { kind := .none, causes := 0#8, requested := .none
        attribution := { tensionHigh := 0#4, slack := 0#4, portLost := 0#4, driveFault := 0#4, following := 0#4 }
        first := none, estopOpen := false }
    let told := fun (m : Mode) =>
      byte m.code ++ countedList (s.stop.inSet.map (fun c => byte c.bit ++ byte (a.ports c).toNat))
        ++ match s.stop.first with
          | none => byte 0 ++ byte 255 ++ byte 255
          | some { cause := c, port := none } => byte 1 ++ byte c.bit ++ byte 255
          | some { cause := c, port := some p } => byte 3 ++ byte c.bit ++ byte p
    let resume : Mode := if anyOccupied s then .evict else .hold
    (s.motion.mode = .stopping → run = turnedAway st .clearStop .wrongState s)
    ∧ (s.motion.mode ≠ .stopping → s.stop.estopOpen = true → present 16)
    ∧ (s.motion.mode ≠ .stopping → s.stop.estopOpen = false →
        (∀ i, i ≤ 3 → standing i → (∀ j, j < i → ¬standing j) → present i)
        ∧ ((∀ i, i ≤ 3 → ¬standing i) →
            (s.motion.mode = .safe ∨ s.motion.mode.steered = true →
              run = taken st .clearStop (told s.motion.mode) (fun t => { t with stop := cleared }) s)
            ∧ (s.motion.mode = .stopped .held →
              run = taken st .clearStop (told resume)
                (fun t => { t with stop := cleared, motion := { t.motion with mode := resume } }) s)
            ∧ (s.motion.mode = .stopped .braked →
              run = taken st .clearStop (told .safe)
                (fun t => { t with
                  stop := cleared
                  air := t.air.map (fun sl => { sl with zone := sl.zone.map (fun z => { z with occupied := false }) })
                  motion := { t.motion with mode := .safe, p := none, exit := none, trapped := false, flight := none } })
                s)))

/-- The law of R164: between two CLEAR_STOPs or resets the kind in force only moves toward BRAKE, and no cause leaves
the set (R166). The commands that may serve a frame waiting in the receiver are left out, since it may be a
CLEAR_STOP's; so is a PERIOD_EXPIRY with a frame still coming in on the station line. -/
def Obligations.StopsOnlyHarden : Prop :=
  ∀ (c : Instr) (s t : State), exec c s = .next t →
    (∀ st, c ≠ .clearStop st ∧ c ≠ .restart st) → c ≠ .resetAsserted → (∀ a b l, c ≠ .powerOnReset a b l) →
    (∀ b, c ≠ .stationCharacter b) → c ≠ .stationFrameTimeout → c ≠ .answerSent →
    (c = .periodExpiry → s.station.receiver = .hunting) →
      s.stop.kind.severity ≤ t.stop.kind.severity ∧ s.stop.causes &&& t.stop.causes = s.stop.causes

/-! ## The Period Generator -/

/-- REF_PULSE (R184 to R188, R190, R191): no interval yet, an invalid interval, a pulse of another standard, and one
of the configured standard with its phase error, its trim and the lock state it leaves. REFERENCE_LOSS by the lock
state (R185, R187, R191): whatever the loss timer stood at, and with the accumulator and the interval timer left where
they stand, the model's choice (log 6). One CLK50 period, which a step on an empty queue passes, the model's choice (log
2): the timers advance, the frames coming in wait on, and the accumulator adds N, as it stood when the last CLK50 period was
over (R181, R182; the CLK50 period that a change of N belongs to is the model's choice, log 33); a loss of reference, a winch
frame's time-out and a station frame's time-out (R197, R214; rounded up, log 6) that fall due in it are taken in it, and
where the accumulator wraps in it, it is a PERIOD_EXPIRY. PERIOD_EXPIRY with the reference lost already:
the clock adds up to the wrap and the remainder is kept (R181; log 3). -/
def Obligations.ReferenceAndClock : Prop :=
  (∀ s : State, s.resetHeld = false →
     let g := s.period
     let becomes := fun (h : PeriodGen) (event : Prop) =>
       ∃ t, exec .refPulse s = .next t ∧ t = { s with period := h, station := { s.station with events := t.station.events } }
         ∧ (event → t.station.events = s.station.events ||| 0x1000#14) ∧ (¬event → t.station.events = s.station.events)
     (g.interval = none → becomes { g with interval := some 0 } False)
     ∧ ∀ n, g.interval = some n →
         let s50 := 999800 ≤ n ∧ n ≤ 1000200
         let s5994 := 833967 ≤ n ∧ n ≤ 834367
         let s60 := 833133 ≤ n ∧ n ≤ 833533
         (¬s50 → ¬s5994 → ¬s60 →
           becomes { g with interval := some 0, errors := if g.errors < 65535 then g.errors + 1 else g.errors } False)
         ∧ ∀ std : Standard, (s50 ∧ std = .s50 ∨ s5994 ∧ std = .s5994 ∨ s60 ∧ std = .s60) →
             let heard : PeriodGen := { g with interval := some 0, detected := some std, loss := 0 }
             let changed := g.detected ≠ some std
             let nominal : Int := match g.configured with
               | .s50 => 17180
               | .s5994 => 20595
               | .s60 => 20616
             let most : Int := match g.configured with
               | .s50 => 85
               | .s5994 => 102
               | .s60 => 103
             (std ≠ g.configured →
               (g.lock = .free → becomes heard changed)
               ∧ (g.lock ≠ .free →
                   becomes { heard with lock := .free, increment := nominal.toNat, lockRun := 0, unlockRun := 0 } True))
             ∧ (std = g.configured →
                 let phase : Int := g.index * 2 ^ 32 + g.acc
                 let e : Int := if phase < 2 ^ 33 then phase else phase - 2 ^ 34
                 let trim : Int := max (-most) (min most (Int.tdiv (-e) (2 ^ 20)))
                 let trimmed : PeriodGen := { heard with increment := (nominal + trim).toNat, lastE := some e }
                 let close := e.natAbs < 2 ^ 26
                 let far := 2 ^ 28 ≤ e.natAbs
                 (g.lock = .free ∨ g.lock = .holdover →
                   becomes { trimmed with lock := .acquiring, lockRun := if close then 1 else 0 } True)
                 ∧ (g.lock = .acquiring → close → g.lockRun < 7 → becomes { trimmed with lockRun := g.lockRun + 1 } changed)
                 ∧ (g.lock = .acquiring → close → g.lockRun = 7 →
                     becomes { trimmed with lock := .locked, lockRun := 0, unlockRun := 0 } True)
                 ∧ (g.lock = .acquiring → ¬close → becomes { trimmed with lockRun := 0 } changed)
                 ∧ (g.lock = .locked → ¬far → becomes { trimmed with unlockRun := 0 } changed)
                 ∧ (g.lock = .locked → far → g.unlockRun < 3 → becomes { trimmed with unlockRun := g.unlockRun + 1 } changed)
                 ∧ (g.lock = .locked → far → g.unlockRun = 3 →
                     becomes { trimmed with lock := .acquiring, lockRun := 0, unlockRun := 0 } True)))
  ∧ ((∀ s : State, s.resetHeld = false →
       let g := s.period
       let limit := match g.configured with
         | .s50 => 3000000
         | .s5994 => 2502501
         | .s60 => 2499999
       let nominal := match g.configured with
         | .s50 => 17180
         | .s5994 => 20595
         | .s60 => 20616
       let lost := { g with loss := limit, detected := none }
       let raised := { s.station with events := s.station.events ||| 0x1000#14 }
       (limit ≤ g.loss → exec .referenceLoss s = .next s)
       ∧ (g.loss < limit → g.lock = .locked →
           exec .referenceLoss s
             = .next { s with period := { lost with lock := .holdover, unlockRun := 0 }, station := raised })
       ∧ (g.loss < limit → g.lock = .acquiring →
           exec .referenceLoss s
             = .next { s with
                 period := { lost with lock := .free, increment := nominal, lockRun := 0, unlockRun := 0 }
                 station := raised })
       ∧ (g.loss < limit → g.lock = .free ∨ g.lock = .holdover →
           exec .referenceLoss s
             = .next { s with period := lost, station := if g.detected = none then s.station else raised }))
       ∧ (∀ s : State, s.pending = [] → s.resetHeld = false →
           let g := s.period
           let n := if g.wrapped then g.increment else g.adding
           let limit := g.configured.lossLimit
           let passed := fun (h : PeriodGen) => { h with
             acc := g.acc + n, adding := h.increment, wrapped := false
             interval := g.interval.map (fun n => if n < 16777215 then n + 1 else 16777215) }
           let counted := { g with loss := if g.loss < limit then g.loss + 1 else g.loss }
           let timeOut := match s.station.rate with
             | 0 => 1111112
             | 1 => 277778
             | 2 => 138889
             | _ => 69445
           let lineWaits := ∀ k b rest, s.station.receiver = .inFrame k → s.station.buffer = b :: rest →
             frameBehind rest = .incomplete → k + 1 < timeOut
           let linkWaits := fun (q : Port) => q.rx = [] ∨ q.rxSince + 1 < 10000
           let noLoss := g.loss + 1 < limit ∨ g.loss = limit
           (2 ^ 32 ≤ g.acc + n → s.motion.flight = none ∨ NoFrameWaits s → step s = exec .periodExpiry s)
           ∧ (g.acc + n < 2 ^ 32 →
               (lineWaits → (∀ q ∈ s.ports.list, linkWaits q) → noLoss →
                 step s = .next { s with
                   period := passed counted
                   ports := s.ports.map (fun q => if q.rx = [] then q else { q with rxSince := q.rxSince + 1 })
                   station := { s.station with receiver := match s.station.receiver with
                     | .hunting => .hunting
                     | .inFrame k => .inFrame (k + 1) } })
               ∧ (NoFrameWaits s → g.loss + 1 = limit →
                   ∃ r, exec .referenceLoss s = .next r ∧ step s = .next { r with period := passed r.period })
               ∧ (∀ i b rest, i ≤ 3 → s.station.receiver = .hunting → (s.ports.get i).rx = b :: rest → 0xA5#8 ∉ rest →
                   (s.ports.get i).rxSince = 9999 → (∀ j, j ≤ 3 → j ≠ i → (s.ports.get j).rx = []) → noLoss →
                     ∃ r, exec (.winchFrameTimeout i) s = .next r ∧ step s = .next { r with period := passed counted })
               ∧ (∀ k rest, s.station.receiver = .inFrame k → timeOut ≤ k + 1 → s.station.buffer = 0x5C#8 :: rest →
                   frameBehind rest = .incomplete → 0x5C#8 ∉ rest → (∀ q ∈ s.ports.list, q.rx = []) → noLoss →
                     ∃ r, exec .stationFrameTimeout s = .next r ∧ step s = .next { r with period := passed counted })))
       ∧ ∀ s : State, PeriodOk s → s.resetHeld = false → NoFrameWaits s →
           s.period.loss = s.period.configured.lossLimit →
             let n := if s.period.wrapped then s.period.increment else s.period.adding
             ∃ (k : Nat) (t : State), exec .periodExpiry s = .next t
               ∧ 2 ^ 32 ≤ s.period.acc + n + k * s.period.increment
               ∧ (∀ j, j < k → s.period.acc + n + j * s.period.increment < 2 ^ 32)
               ∧ t.period = { s.period with
                   acc := s.period.acc + n + k * s.period.increment - 2 ^ 32
                   adding := s.period.increment, wrapped := true, index := (s.period.index + 1) % 4
                   interval := s.period.interval.map (fun m => min (m + (k + 1)) 16777215) })

/-- Every step keeps N within the trim of the configured standard, and the other fields of the generator in their
ranges (R180, R182, R185 to R188). -/
def Obligations.PeriodKept : Prop :=
  ∀ s t : State, PeriodOk s → step s = .next t → PeriodOk t
end

