-- ==== Sys2Proof/Laws/State.lean ====
section
/-! SUPPORT. What each update of the whole state leaves in each field: one lemma per field per update, true by rfl. -/

namespace Sys2Proof.Machine

/-! ## setMode -/

@[simp] theorem setMode_air (m : Mode) (s : State) : (setMode m s).air = s.air := rfl
@[simp] theorem setMode_motion (m : Mode) (s : State) : (setMode m s).motion = { s.motion with mode := m } := rfl
@[simp] theorem setMode_span (m : Mode) (s : State) : (setMode m s).span = s.span := rfl
@[simp] theorem setMode_marks (m : Mode) (s : State) : (setMode m s).marks = s.marks := rfl
@[simp] theorem setMode_cue (m : Mode) (s : State) : (setMode m s).cue = s.cue := rfl
@[simp] theorem setMode_auth (m : Mode) (s : State) : (setMode m s).auth = s.auth := rfl
@[simp] theorem setMode_ports (m : Mode) (s : State) : (setMode m s).ports = s.ports := rfl
@[simp] theorem setMode_portLimits (m : Mode) (s : State) : (setMode m s).portLimits = s.portLimits := rfl
@[simp] theorem setMode_stop (m : Mode) (s : State) : (setMode m s).stop = s.stop := rfl
@[simp] theorem setMode_period (m : Mode) (s : State) : (setMode m s).period = s.period := rfl
@[simp] theorem setMode_station (m : Mode) (s : State) : (setMode m s).station = s.station := rfl
@[simp] theorem setMode_estopLineOpen (m : Mode) (s : State) : (setMode m s).estopLineOpen = s.estopLineOpen := rfl
@[simp] theorem setMode_resetHeld (m : Mode) (s : State) : (setMode m s).resetHeld = s.resetHeld := rfl
@[simp] theorem setMode_pending (m : Mode) (s : State) : (setMode m s).pending = s.pending := rfl

/-! ## flushStick -/

@[simp] theorem flushStick_air (s : State) : (flushStick s).air = s.air := rfl
@[simp] theorem flushStick_motion (s : State) : (flushStick s).motion = s.motion := rfl
@[simp] theorem flushStick_span (s : State) : (flushStick s).span = s.span := rfl
@[simp] theorem flushStick_marks (s : State) : (flushStick s).marks = s.marks := rfl
@[simp] theorem flushStick_cue (s : State) : (flushStick s).cue = s.cue := rfl
@[simp] theorem flushStick_auth (s : State) : (flushStick s).auth = flush s.auth := rfl
@[simp] theorem flushStick_ports (s : State) : (flushStick s).ports = s.ports := rfl
@[simp] theorem flushStick_portLimits (s : State) : (flushStick s).portLimits = s.portLimits := rfl
@[simp] theorem flushStick_stop (s : State) : (flushStick s).stop = s.stop := rfl
@[simp] theorem flushStick_period (s : State) : (flushStick s).period = s.period := rfl
@[simp] theorem flushStick_station (s : State) : (flushStick s).station = s.station := rfl
@[simp] theorem flushStick_estopLineOpen (s : State) : (flushStick s).estopLineOpen = s.estopLineOpen := rfl
@[simp] theorem flushStick_resetHeld (s : State) : (flushStick s).resetHeld = s.resetHeld := rfl
@[simp] theorem flushStick_pending (s : State) : (flushStick s).pending = s.pending := rfl

/-! ## dropCopy -/

@[simp] theorem dropCopy_air (s : State) : (dropCopy s).air = s.air := rfl
@[simp] theorem dropCopy_motion (s : State) :
    (dropCopy s).motion = { s.motion with
      copy := none, flight := s.motion.flight.map (fun c => { c with cueLive := false }) } := rfl
@[simp] theorem dropCopy_span (s : State) : (dropCopy s).span = s.span := rfl
@[simp] theorem dropCopy_marks (s : State) : (dropCopy s).marks = s.marks := rfl
@[simp] theorem dropCopy_cue (s : State) : (dropCopy s).cue = { s.cue with running := false } := rfl
@[simp] theorem dropCopy_auth (s : State) : (dropCopy s).auth = s.auth := rfl
@[simp] theorem dropCopy_ports (s : State) : (dropCopy s).ports = s.ports := rfl
@[simp] theorem dropCopy_portLimits (s : State) : (dropCopy s).portLimits = s.portLimits := rfl
@[simp] theorem dropCopy_stop (s : State) : (dropCopy s).stop = s.stop := rfl
@[simp] theorem dropCopy_period (s : State) : (dropCopy s).period = s.period := rfl
@[simp] theorem dropCopy_station (s : State) : (dropCopy s).station = s.station := rfl
@[simp] theorem dropCopy_estopLineOpen (s : State) : (dropCopy s).estopLineOpen = s.estopLineOpen := rfl
@[simp] theorem dropCopy_resetHeld (s : State) : (dropCopy s).resetHeld = s.resetHeld := rfl
@[simp] theorem dropCopy_pending (s : State) : (dropCopy s).pending = s.pending := rfl

/-! ## freeze -/

@[simp] theorem freeze_air (s : State) : (freeze s).air = s.air := rfl
@[simp] theorem freeze_motion (s : State) :
    (freeze s).motion = { s.motion with mode := .stopped .braked, vOld := zero3, flight := none } := rfl
@[simp] theorem freeze_span (s : State) : (freeze s).span = s.span := rfl
@[simp] theorem freeze_marks (s : State) : (freeze s).marks = s.marks := rfl
@[simp] theorem freeze_cue (s : State) : (freeze s).cue = s.cue := rfl
@[simp] theorem freeze_auth (s : State) : (freeze s).auth = s.auth := rfl
@[simp] theorem freeze_ports (s : State) : (freeze s).ports = s.ports := rfl
@[simp] theorem freeze_portLimits (s : State) : (freeze s).portLimits = s.portLimits := rfl
@[simp] theorem freeze_stop (s : State) : (freeze s).stop = s.stop := rfl
@[simp] theorem freeze_period (s : State) : (freeze s).period = s.period := rfl
@[simp] theorem freeze_station (s : State) : (freeze s).station = s.station := rfl
@[simp] theorem freeze_estopLineOpen (s : State) : (freeze s).estopLineOpen = s.estopLineOpen := rfl
@[simp] theorem freeze_resetHeld (s : State) : (freeze s).resetHeld = s.resetHeld := rfl
@[simp] theorem freeze_pending (s : State) : (freeze s).pending = s.pending := rfl

/-! ## becomeSafe -/

@[simp] theorem becomeSafe_air (s : State) : (becomeSafe s).air = emptyOccupied s.air := rfl
@[simp] theorem becomeSafe_motion (s : State) :
    (becomeSafe s).motion = { s.motion with mode := .safe, p := none, exit := none, trapped := false, flight := none } := rfl
@[simp] theorem becomeSafe_span (s : State) : (becomeSafe s).span = s.span := rfl
@[simp] theorem becomeSafe_marks (s : State) : (becomeSafe s).marks = s.marks := rfl
@[simp] theorem becomeSafe_cue (s : State) : (becomeSafe s).cue = s.cue := rfl
@[simp] theorem becomeSafe_auth (s : State) : (becomeSafe s).auth = s.auth := rfl
@[simp] theorem becomeSafe_ports (s : State) : (becomeSafe s).ports = s.ports := rfl
@[simp] theorem becomeSafe_portLimits (s : State) : (becomeSafe s).portLimits = s.portLimits := rfl
@[simp] theorem becomeSafe_stop (s : State) : (becomeSafe s).stop = s.stop := rfl
@[simp] theorem becomeSafe_period (s : State) : (becomeSafe s).period = s.period := rfl
@[simp] theorem becomeSafe_station (s : State) : (becomeSafe s).station = s.station := rfl
@[simp] theorem becomeSafe_estopLineOpen (s : State) : (becomeSafe s).estopLineOpen = s.estopLineOpen := rfl
@[simp] theorem becomeSafe_resetHeld (s : State) : (becomeSafe s).resetHeld = s.resetHeld := rfl
@[simp] theorem becomeSafe_pending (s : State) : (becomeSafe s).pending = s.pending := rfl

/-! ## enterHold -/

@[simp] theorem enterHold_air (s : State) : (enterHold s).air = s.air := rfl
@[simp] theorem enterHold_motion (s : State) :
    (enterHold s).motion = { s.motion with mode := if anyOccupied s then .evict else .hold } := rfl
@[simp] theorem enterHold_span (s : State) : (enterHold s).span = s.span := rfl
@[simp] theorem enterHold_marks (s : State) : (enterHold s).marks = s.marks := rfl
@[simp] theorem enterHold_cue (s : State) : (enterHold s).cue = s.cue := rfl
@[simp] theorem enterHold_auth (s : State) : (enterHold s).auth = s.auth := rfl
@[simp] theorem enterHold_ports (s : State) : (enterHold s).ports = s.ports := rfl
@[simp] theorem enterHold_portLimits (s : State) : (enterHold s).portLimits = s.portLimits := rfl
@[simp] theorem enterHold_stop (s : State) : (enterHold s).stop = s.stop := rfl
@[simp] theorem enterHold_period (s : State) : (enterHold s).period = s.period := rfl
@[simp] theorem enterHold_station (s : State) : (enterHold s).station = s.station := rfl
@[simp] theorem enterHold_estopLineOpen (s : State) : (enterHold s).estopLineOpen = s.estopLineOpen := rfl
@[simp] theorem enterHold_resetHeld (s : State) : (enterHold s).resetHeld = s.resetHeld := rfl
@[simp] theorem enterHold_pending (s : State) : (enterHold s).pending = s.pending := rfl

/-! ## raiseEvent -/

@[simp] theorem raiseEvent_air (e : Event) (s : State) : (raiseEvent e s).air = s.air := rfl
@[simp] theorem raiseEvent_motion (e : Event) (s : State) : (raiseEvent e s).motion = s.motion := rfl
@[simp] theorem raiseEvent_span (e : Event) (s : State) : (raiseEvent e s).span = s.span := rfl
@[simp] theorem raiseEvent_marks (e : Event) (s : State) : (raiseEvent e s).marks = s.marks := rfl
@[simp] theorem raiseEvent_cue (e : Event) (s : State) : (raiseEvent e s).cue = s.cue := rfl
@[simp] theorem raiseEvent_auth (e : Event) (s : State) : (raiseEvent e s).auth = s.auth := rfl
@[simp] theorem raiseEvent_ports (e : Event) (s : State) : (raiseEvent e s).ports = s.ports := rfl
@[simp] theorem raiseEvent_portLimits (e : Event) (s : State) : (raiseEvent e s).portLimits = s.portLimits := rfl
@[simp] theorem raiseEvent_stop (e : Event) (s : State) : (raiseEvent e s).stop = s.stop := rfl
@[simp] theorem raiseEvent_period (e : Event) (s : State) : (raiseEvent e s).period = s.period := rfl
@[simp] theorem raiseEvent_station (e : Event) (s : State) :
    (raiseEvent e s).station = { s.station with events := s.station.events ||| BitVec.twoPow 14 e.bit } := rfl
@[simp] theorem raiseEvent_estopLineOpen (e : Event) (s : State) :
    (raiseEvent e s).estopLineOpen = s.estopLineOpen := rfl
@[simp] theorem raiseEvent_resetHeld (e : Event) (s : State) : (raiseEvent e s).resetHeld = s.resetHeld := rfl
@[simp] theorem raiseEvent_pending (e : Event) (s : State) : (raiseEvent e s).pending = s.pending := rfl

/-! ## takeFrame -/

@[simp] theorem takeFrame_air (s : State) : (takeFrame s).air = s.air := rfl
@[simp] theorem takeFrame_motion (s : State) : (takeFrame s).motion = s.motion := rfl
@[simp] theorem takeFrame_span (s : State) : (takeFrame s).span = s.span := rfl
@[simp] theorem takeFrame_marks (s : State) : (takeFrame s).marks = s.marks := rfl
@[simp] theorem takeFrame_cue (s : State) : (takeFrame s).cue = s.cue := rfl
@[simp] theorem takeFrame_auth (s : State) : (takeFrame s).auth = s.auth := rfl
@[simp] theorem takeFrame_ports (s : State) : (takeFrame s).ports = s.ports := rfl
@[simp] theorem takeFrame_portLimits (s : State) : (takeFrame s).portLimits = s.portLimits := rfl
@[simp] theorem takeFrame_stop (s : State) : (takeFrame s).stop = s.stop := rfl
@[simp] theorem takeFrame_period (s : State) : (takeFrame s).period = s.period := rfl
@[simp] theorem takeFrame_station (s : State) : (takeFrame s).station = { s.station with silence := 0 } := rfl
@[simp] theorem takeFrame_estopLineOpen (s : State) : (takeFrame s).estopLineOpen = s.estopLineOpen := rfl
@[simp] theorem takeFrame_resetHeld (s : State) : (takeFrame s).resetHeld = s.resetHeld := rfl
@[simp] theorem takeFrame_pending (s : State) : (takeFrame s).pending = s.pending := rfl

/-! ## answer -/

@[simp] theorem answer_air (st code : Nat) (r : Reply) (s : State) : (answer st code r s).air = s.air := rfl
@[simp] theorem answer_motion (st code : Nat) (r : Reply) (s : State) : (answer st code r s).motion = s.motion := rfl
@[simp] theorem answer_span (st code : Nat) (r : Reply) (s : State) : (answer st code r s).span = s.span := rfl
@[simp] theorem answer_marks (st code : Nat) (r : Reply) (s : State) : (answer st code r s).marks = s.marks := rfl
@[simp] theorem answer_cue (st code : Nat) (r : Reply) (s : State) : (answer st code r s).cue = s.cue := rfl
@[simp] theorem answer_auth (st code : Nat) (r : Reply) (s : State) : (answer st code r s).auth = s.auth := rfl
@[simp] theorem answer_ports (st code : Nat) (r : Reply) (s : State) : (answer st code r s).ports = s.ports := rfl
@[simp] theorem answer_portLimits (st code : Nat) (r : Reply) (s : State) :
    (answer st code r s).portLimits = s.portLimits := rfl
@[simp] theorem answer_stop (st code : Nat) (r : Reply) (s : State) : (answer st code r s).stop = s.stop := rfl
@[simp] theorem answer_period (st code : Nat) (r : Reply) (s : State) : (answer st code r s).period = s.period := rfl
@[simp] theorem answer_station (st code : Nat) (r : Reply) (s : State) :
    (answer st code r s).station = { s.station with
      inService := some { station := st, code := code, status := r.status, payload := r.payload } } := rfl
@[simp] theorem answer_estopLineOpen (st code : Nat) (r : Reply) (s : State) :
    (answer st code r s).estopLineOpen = s.estopLineOpen := rfl
@[simp] theorem answer_resetHeld (st code : Nat) (r : Reply) (s : State) :
    (answer st code r s).resetHeld = s.resetHeld := rfl
@[simp] theorem answer_pending (st code : Nat) (r : Reply) (s : State) :
    (answer st code r s).pending = s.pending := rfl

/-! ## withZone -/

@[simp] theorem withZone_air (s : State) (n : Nat) (z : Zone) : (withZone s n z).air = putZone s.air n z := rfl
@[simp] theorem withZone_motion (s : State) (n : Nat) (z : Zone) : (withZone s n z).motion = s.motion := rfl
@[simp] theorem withZone_span (s : State) (n : Nat) (z : Zone) : (withZone s n z).span = s.span := rfl
@[simp] theorem withZone_marks (s : State) (n : Nat) (z : Zone) : (withZone s n z).marks = s.marks := rfl
@[simp] theorem withZone_cue (s : State) (n : Nat) (z : Zone) : (withZone s n z).cue = s.cue := rfl
@[simp] theorem withZone_auth (s : State) (n : Nat) (z : Zone) : (withZone s n z).auth = s.auth := rfl
@[simp] theorem withZone_ports (s : State) (n : Nat) (z : Zone) : (withZone s n z).ports = s.ports := rfl
@[simp] theorem withZone_portLimits (s : State) (n : Nat) (z : Zone) :
    (withZone s n z).portLimits = s.portLimits := rfl
@[simp] theorem withZone_stop (s : State) (n : Nat) (z : Zone) : (withZone s n z).stop = s.stop := rfl
@[simp] theorem withZone_period (s : State) (n : Nat) (z : Zone) : (withZone s n z).period = s.period := rfl
@[simp] theorem withZone_station (s : State) (n : Nat) (z : Zone) : (withZone s n z).station = s.station := rfl
@[simp] theorem withZone_estopLineOpen (s : State) (n : Nat) (z : Zone) :
    (withZone s n z).estopLineOpen = s.estopLineOpen := rfl
@[simp] theorem withZone_resetHeld (s : State) (n : Nat) (z : Zone) : (withZone s n z).resetHeld = s.resetHeld := rfl
@[simp] theorem withZone_pending (s : State) (n : Nat) (z : Zone) : (withZone s n z).pending = s.pending := rfl

/-! ## withPort -/

@[simp] theorem withPort_air (i : Nat) (q : Port) (s : State) : (withPort i q s).air = s.air := rfl
@[simp] theorem withPort_motion (i : Nat) (q : Port) (s : State) : (withPort i q s).motion = s.motion := rfl
@[simp] theorem withPort_span (i : Nat) (q : Port) (s : State) : (withPort i q s).span = s.span := rfl
@[simp] theorem withPort_marks (i : Nat) (q : Port) (s : State) : (withPort i q s).marks = s.marks := rfl
@[simp] theorem withPort_cue (i : Nat) (q : Port) (s : State) : (withPort i q s).cue = s.cue := rfl
@[simp] theorem withPort_auth (i : Nat) (q : Port) (s : State) : (withPort i q s).auth = s.auth := rfl
@[simp] theorem withPort_ports (i : Nat) (q : Port) (s : State) : (withPort i q s).ports = s.ports.put i q := rfl
@[simp] theorem withPort_portLimits (i : Nat) (q : Port) (s : State) :
    (withPort i q s).portLimits = s.portLimits := rfl
@[simp] theorem withPort_stop (i : Nat) (q : Port) (s : State) : (withPort i q s).stop = s.stop := rfl
@[simp] theorem withPort_period (i : Nat) (q : Port) (s : State) : (withPort i q s).period = s.period := rfl
@[simp] theorem withPort_station (i : Nat) (q : Port) (s : State) : (withPort i q s).station = s.station := rfl
@[simp] theorem withPort_estopLineOpen (i : Nat) (q : Port) (s : State) :
    (withPort i q s).estopLineOpen = s.estopLineOpen := rfl
@[simp] theorem withPort_resetHeld (i : Nat) (q : Port) (s : State) : (withPort i q s).resetHeld = s.resetHeld := rfl
@[simp] theorem withPort_pending (i : Nat) (q : Port) (s : State) : (withPort i q s).pending = s.pending := rfl

/-! ## withBuffer -/

@[simp] theorem withBuffer_air (buf : List Byte) (r : Receiver) (s : State) : (withBuffer buf r s).air = s.air := rfl
@[simp] theorem withBuffer_motion (buf : List Byte) (r : Receiver) (s : State) :
    (withBuffer buf r s).motion = s.motion := rfl
@[simp] theorem withBuffer_span (buf : List Byte) (r : Receiver) (s : State) :
    (withBuffer buf r s).span = s.span := rfl
@[simp] theorem withBuffer_marks (buf : List Byte) (r : Receiver) (s : State) :
    (withBuffer buf r s).marks = s.marks := rfl
@[simp] theorem withBuffer_cue (buf : List Byte) (r : Receiver) (s : State) : (withBuffer buf r s).cue = s.cue := rfl
@[simp] theorem withBuffer_auth (buf : List Byte) (r : Receiver) (s : State) :
    (withBuffer buf r s).auth = s.auth := rfl
@[simp] theorem withBuffer_ports (buf : List Byte) (r : Receiver) (s : State) :
    (withBuffer buf r s).ports = s.ports := rfl
@[simp] theorem withBuffer_portLimits (buf : List Byte) (r : Receiver) (s : State) :
    (withBuffer buf r s).portLimits = s.portLimits := rfl
@[simp] theorem withBuffer_stop (buf : List Byte) (r : Receiver) (s : State) :
    (withBuffer buf r s).stop = s.stop := rfl
@[simp] theorem withBuffer_period (buf : List Byte) (r : Receiver) (s : State) :
    (withBuffer buf r s).period = s.period := rfl
@[simp] theorem withBuffer_station (buf : List Byte) (r : Receiver) (s : State) :
    (withBuffer buf r s).station = { s.station with buffer := buf, receiver := r } := rfl
@[simp] theorem withBuffer_estopLineOpen (buf : List Byte) (r : Receiver) (s : State) :
    (withBuffer buf r s).estopLineOpen = s.estopLineOpen := rfl
@[simp] theorem withBuffer_resetHeld (buf : List Byte) (r : Receiver) (s : State) :
    (withBuffer buf r s).resetHeld = s.resetHeld := rfl
@[simp] theorem withBuffer_pending (buf : List Byte) (r : Receiver) (s : State) :
    (withBuffer buf r s).pending = s.pending := rfl

/-! ## setCueBasis -/

@[simp] theorem setCueBasis_air (s : State) : (setCueBasis s).air = s.air := rfl
@[simp] theorem setCueBasis_motion (s : State) : (setCueBasis s).motion = s.motion := rfl
@[simp] theorem setCueBasis_span (s : State) : (setCueBasis s).span = s.span := rfl
@[simp] theorem setCueBasis_marks (s : State) : (setCueBasis s).marks = s.marks := rfl
@[simp] theorem setCueBasis_cue (s : State) : (setCueBasis s).cue = s.cue := rfl
@[simp] theorem setCueBasis_auth (s : State) : (setCueBasis s).auth = { s.auth with cue := true } := rfl
@[simp] theorem setCueBasis_ports (s : State) : (setCueBasis s).ports = s.ports := rfl
@[simp] theorem setCueBasis_portLimits (s : State) : (setCueBasis s).portLimits = s.portLimits := rfl
@[simp] theorem setCueBasis_stop (s : State) : (setCueBasis s).stop = s.stop := rfl
@[simp] theorem setCueBasis_period (s : State) : (setCueBasis s).period = s.period := rfl
@[simp] theorem setCueBasis_station (s : State) : (setCueBasis s).station = s.station := rfl
@[simp] theorem setCueBasis_estopLineOpen (s : State) : (setCueBasis s).estopLineOpen = s.estopLineOpen := rfl
@[simp] theorem setCueBasis_resetHeld (s : State) : (setCueBasis s).resetHeld = s.resetHeld := rfl
@[simp] theorem setCueBasis_pending (s : State) : (setCueBasis s).pending = s.pending := rfl

/-! ## countBackoffs -/

@[simp] theorem countBackoffs_air (s : State) : (countBackoffs s).air = s.air := rfl
@[simp] theorem countBackoffs_motion (s : State) : (countBackoffs s).motion = s.motion := rfl
@[simp] theorem countBackoffs_span (s : State) : (countBackoffs s).span = s.span := rfl
@[simp] theorem countBackoffs_marks (s : State) : (countBackoffs s).marks = s.marks := rfl
@[simp] theorem countBackoffs_cue (s : State) : (countBackoffs s).cue = s.cue := rfl
@[simp] theorem countBackoffs_auth (s : State) :
    (countBackoffs s).auth = { s.auth with backoff := s.auth.backoff.map (· - 1) } := rfl
@[simp] theorem countBackoffs_ports (s : State) : (countBackoffs s).ports = s.ports := rfl
@[simp] theorem countBackoffs_portLimits (s : State) : (countBackoffs s).portLimits = s.portLimits := rfl
@[simp] theorem countBackoffs_stop (s : State) : (countBackoffs s).stop = s.stop := rfl
@[simp] theorem countBackoffs_period (s : State) : (countBackoffs s).period = s.period := rfl
@[simp] theorem countBackoffs_station (s : State) : (countBackoffs s).station = s.station := rfl
@[simp] theorem countBackoffs_estopLineOpen (s : State) : (countBackoffs s).estopLineOpen = s.estopLineOpen := rfl
@[simp] theorem countBackoffs_resetHeld (s : State) : (countBackoffs s).resetHeld = s.resetHeld := rfl
@[simp] theorem countBackoffs_pending (s : State) : (countBackoffs s).pending = s.pending := rfl

/-! ## endEviction -/

@[simp] theorem endEviction_air (s : State) : (endEviction s).air = s.air := rfl
@[simp] theorem endEviction_motion (s : State) :
    (endEviction s).motion = { s.motion with mode := .hold, exit := none, trapped := false } := rfl
@[simp] theorem endEviction_span (s : State) : (endEviction s).span = s.span := rfl
@[simp] theorem endEviction_marks (s : State) : (endEviction s).marks = s.marks := rfl
@[simp] theorem endEviction_cue (s : State) : (endEviction s).cue = s.cue := rfl
@[simp] theorem endEviction_auth (s : State) : (endEviction s).auth = s.auth := rfl
@[simp] theorem endEviction_ports (s : State) : (endEviction s).ports = s.ports := rfl
@[simp] theorem endEviction_portLimits (s : State) : (endEviction s).portLimits = s.portLimits := rfl
@[simp] theorem endEviction_stop (s : State) : (endEviction s).stop = s.stop := rfl
@[simp] theorem endEviction_period (s : State) : (endEviction s).period = s.period := rfl
@[simp] theorem endEviction_station (s : State) : (endEviction s).station = s.station := rfl
@[simp] theorem endEviction_estopLineOpen (s : State) : (endEviction s).estopLineOpen = s.estopLineOpen := rfl
@[simp] theorem endEviction_resetHeld (s : State) : (endEviction s).resetHeld = s.resetHeld := rfl
@[simp] theorem endEviction_pending (s : State) : (endEviction s).pending = s.pending := rfl

/-! ## convertAll -/

@[simp] theorem convertAll_air (std : Standard) (s : State) : (convertAll std s).air = s.air := rfl
@[simp] theorem convertAll_motion (std : Standard) (s : State) :
    (convertAll std s).motion = { s.motion with lim := convertLimits std s.span.settings } := rfl
@[simp] theorem convertAll_span (std : Standard) (s : State) :
    (convertAll std s).span = { s.span with classCaps := convertCaps std } := rfl
@[simp] theorem convertAll_marks (std : Standard) (s : State) : (convertAll std s).marks = s.marks := rfl
@[simp] theorem convertAll_cue (std : Standard) (s : State) : (convertAll std s).cue = s.cue := rfl
@[simp] theorem convertAll_auth (std : Standard) (s : State) : (convertAll std s).auth = s.auth := rfl
@[simp] theorem convertAll_ports (std : Standard) (s : State) : (convertAll std s).ports = s.ports := rfl
@[simp] theorem convertAll_portLimits (std : Standard) (s : State) :
    (convertAll std s).portLimits = s.portLimits := rfl
@[simp] theorem convertAll_stop (std : Standard) (s : State) : (convertAll std s).stop = s.stop := rfl
@[simp] theorem convertAll_period (std : Standard) (s : State) : (convertAll std s).period = s.period := rfl
@[simp] theorem convertAll_station (std : Standard) (s : State) : (convertAll std s).station = s.station := rfl
@[simp] theorem convertAll_estopLineOpen (std : Standard) (s : State) :
    (convertAll std s).estopLineOpen = s.estopLineOpen := rfl
@[simp] theorem convertAll_resetHeld (std : Standard) (s : State) : (convertAll std s).resetHeld = s.resetHeld := rfl
@[simp] theorem convertAll_pending (std : Standard) (s : State) : (convertAll std s).pending = s.pending := rfl

/-! ## expirySeen, activated, heldBack and suspended -/

@[simp] theorem Zone.expirySeen_handle (z : Zone) : z.expirySeen.handle = z.handle := rfl
@[simp] theorem Zone.expirySeen_kind (z : Zone) : z.expirySeen.kind = z.kind := rfl
@[simp] theorem Zone.expirySeen_box (z : Zone) : z.expirySeen.box = z.box := rfl
@[simp] theorem Zone.expirySeen_state (z : Zone) : z.expirySeen.state = z.state := rfl
@[simp] theorem Zone.expirySeen_policy (z : Zone) : z.expirySeen.policy = z.policy := rfl
@[simp] theorem Zone.expirySeen_owner (z : Zone) : z.expirySeen.owner = z.owner := rfl
@[simp] theorem Zone.expirySeen_standing (z : Zone) : z.expirySeen.standing = z.standing := rfl
@[simp] theorem Zone.expirySeen_cap (z : Zone) : z.expirySeen.cap = z.cap := rfl
@[simp] theorem Zone.expirySeen_lifetime (z : Zone) : z.expirySeen.lifetime = z.lifetime := rfl
@[simp] theorem Zone.expirySeen_label (z : Zone) : z.expirySeen.label = z.label := rfl
@[simp] theorem Zone.expirySeen_occupied (z : Zone) : z.expirySeen.occupied = z.occupied := rfl
@[simp] theorem Zone.expirySeen_clear (z : Zone) : z.expirySeen.clear = z.clear := rfl
@[simp] theorem Zone.expirySeen_fresh (z : Zone) : z.expirySeen.fresh = false := rfl
@[simp] theorem Zone.expirySeen_reboxed (z : Zone) : z.expirySeen.reboxed = false := rfl
@[simp] theorem Zone.activated_state (z : Zone) (o : Bool) : (z.activated o).state = .active := rfl
@[simp] theorem Zone.activated_occupied (z : Zone) (o : Bool) : (z.activated o).occupied = o := rfl
@[simp] theorem Zone.activated_clear (z : Zone) (o : Bool) : (z.activated o).clear = 0 := rfl
@[simp] theorem Zone.activated_fresh (z : Zone) (o : Bool) : (z.activated o).fresh = false := rfl
@[simp] theorem Zone.activated_reboxed (z : Zone) (o : Bool) : (z.activated o).reboxed = false := rfl
@[simp] theorem Zone.heldBack_state (z : Zone) : (z.heldBack).state = .pending := rfl
@[simp] theorem Zone.heldBack_occupied (z : Zone) : (z.heldBack).occupied = false := rfl
@[simp] theorem Zone.heldBack_clear (z : Zone) : (z.heldBack).clear = 0 := rfl
@[simp] theorem Zone.heldBack_fresh (z : Zone) : (z.heldBack).fresh = true := rfl
@[simp] theorem Zone.heldBack_reboxed (z : Zone) : (z.heldBack).reboxed = false := rfl
@[simp] theorem Zone.suspended_state (z : Zone) : (z.suspended).state = .suspended := rfl
@[simp] theorem Zone.suspended_occupied (z : Zone) : (z.suspended).occupied = false := rfl
@[simp] theorem Zone.suspended_clear (z : Zone) : (z.suspended).clear = 0 := rfl
@[simp] theorem Zone.suspended_fresh (z : Zone) : (z.suspended).fresh = false := rfl
@[simp] theorem Zone.suspended_reboxed (z : Zone) : (z.suspended).reboxed = false := rfl

end Sys2Proof.Machine
end

