-- ==== Sys2Proof/Laws/Clock.lean ====
section
/-! SUPPORT. The clock: the CLK50 periods up to the wrap, and the clock while no frame is coming in on any line. -/

namespace Sys2Proof.Machine

/-! ## The accumulator (R181, R182) -/

@[simp] theorem PeriodGen.added_zero (g : PeriodGen) : g.added 0 = 0 := rfl
@[simp] theorem PeriodGen.added_succ (g : PeriodGen) (k : Nat) : g.added (k + 1) = g.now + k * g.increment := rfl

@[simp] theorem PeriodGen.run_increment (k : Nat) (g : PeriodGen) : (g.run k).increment = g.increment := rfl
@[simp] theorem PeriodGen.run_configured (k : Nat) (g : PeriodGen) : (g.run k).configured = g.configured := rfl
@[simp] theorem PeriodGen.run_acc (k : Nat) (g : PeriodGen) : (g.run k).acc = g.acc + g.added k := rfl
@[simp] theorem PeriodGen.over_acc (g : PeriodGen) : g.over.acc = g.acc := rfl
@[simp] theorem PeriodGen.over_increment (g : PeriodGen) : g.over.increment = g.increment := rfl
@[simp] theorem PeriodGen.over_now (g : PeriodGen) : g.over.now = g.increment := rfl
@[simp] theorem PeriodGen.wrap_now (g : PeriodGen) : g.wrap.now = g.increment := rfl
@[simp] theorem PeriodGen.wrap_acc (g : PeriodGen) : g.wrap.acc = g.acc % 2 ^ 32 := rfl

/-- The wrap comes in the CLK50 period that `toWrap` counts. -/
theorem PeriodGen.toWrap_reaches (g : PeriodGen) (h : 0 < g.increment) : 2 ^ 32 ≤ g.acc + g.added g.toWrap := by
  have hd := Nat.div_add_mod (2 ^ 32 - (g.acc + g.now) + g.increment - 1) g.increment
  have hm := Nat.mod_lt (2 ^ 32 - (g.acc + g.now) + g.increment - 1) h
  have hs : g.added g.toWrap
      = g.now + (2 ^ 32 - (g.acc + g.now) + g.increment - 1) / g.increment * g.increment := by
    rw [PeriodGen.toWrap, Nat.add_comm 1, PeriodGen.added_succ]
  rw [hs, Nat.mul_comm]
  omega

/-- No CLK50 period before it brings the wrap. -/
theorem PeriodGen.toWrap_first (g : PeriodGen) (h : 0 < g.increment) (ha : g.acc < 2 ^ 32) {k : Nat}
    (hk : k < g.toWrap) : g.acc + g.added k < 2 ^ 32 := by
  cases k with
  | zero => simpa using ha
  | succ n =>
    rw [PeriodGen.added_succ]
    have hn : n + 1 ≤ (2 ^ 32 - (g.acc + g.now) + g.increment - 1) / g.increment := by
      rw [PeriodGen.toWrap] at hk; omega
    have hmul := (Nat.le_div_iff_mul_le h).1 hn
    rw [Nat.succ_mul] at hmul
    omega

/-! ## No frame coming in (R197, R214) -/

/-- The receiver of a port with no character stands still. -/
theorem runPort_of_empty (i k : Nat) (s : State) (h : (s.ports.get i).rx = []) : runPort i k s = s := by
  rw [runPort, runReceiver, if_pos h]

/-- With no frame coming in the receivers stand still. -/
theorem runReceivers_of_noFrame (k : Nat) (s : State) (h : NoFrameWaits s) : runReceivers k s = s := by
  have hp : ∀ i, runPort i k s = s := by
    intro i
    apply runPort_of_empty
    apply h.2
    match i with
    | 0 | 1 | 2 => simp [Quad.get, Quad.list]
    | n + 3 => simp [Quad.get, Quad.list]
  simp only [runReceivers, hp, h.1, Receiver.run]
  rw [← h.1]

/-- With no frame coming in no station frame time-out is on its way. -/
theorem toStationTimeout_of_noFrame (s : State) (h : s.station.receiver = .hunting) : toStationTimeout s = none := by
  simp [toStationTimeout, h]

/-- With no frame coming in there is no station frame time-out to take. -/
theorem stationTimer_of_noFrame (s : State) (h : s.station.receiver = .hunting) : stationTimer s = s := by
  simp [stationTimer, h]

@[simp] theorem withPeriod_period (g : PeriodGen) (s : State) : (withPeriod g s).period = g := by
  rw [withPeriod, raiseIf]; split <;> rfl

@[simp] theorem withPeriod_receiver (g : PeriodGen) (s : State) :
    (withPeriod g s).station.receiver = s.station.receiver := by
  rw [withPeriod, raiseIf]; split <;> rfl

/-- With no frame coming in `k` CLK50 periods change the Period Generator alone, and REFERENCE. -/
theorem runTimers_of_noFrame (k : Nat) (s : State) (h : NoFrameWaits s) :
    runTimers k s
      = let g := s.period.run k
        let g1 := if 0 < s.period.toLoss ∧ s.period.toLoss ≤ k then g.lose else g
        { withPeriod g1 s with period := g1.over } := by
  simp only [runTimers, runClock, runReceivers_of_noFrame k s h]
  rw [stationTimer_of_noFrame _ (by simpa using h.1), withPeriod_period]

/-- With no frame coming in and the reference lost already, the clock runs up to the wrap at the same N. -/
theorem clockToWrap_of_lost (s : State) (h : NoFrameWaits s) (hl : s.period.toLoss = 0) :
    clockToWrap s = { s with period := (s.period.run s.period.toWrap).over.wrap } := by
  have hn : toNext s = s.period.toWrap := by simp [toNext, toStationTimeout_of_noFrame s h.1, hl]
  simp only [clockToWrap, runToWrap, hn, Nat.lt_irrefl, if_false, runTimers_of_noFrame _ s h, hl]
  simp [withPeriod, raiseIf, PeriodGen.run]

end Sys2Proof.Machine
end

