-- ==== Sys2Proof/Laws/Ops.lean ====
section
/-! SUPPORT. What the shared arithmetic, the quads, the boxes, the bytes and the flags do, one lemma each. -/

namespace Sys2Proof

/-! ## Arithmetic (R2) -/

theorem isqrtFrom_spec (k n r : Nat) (lo : r * r ≤ n) (hi : n < (r + 2 ^ k) * (r + 2 ^ k)) :
    isqrtFrom k n r * isqrtFrom k n r ≤ n ∧ n < (isqrtFrom k n r + 1) * (isqrtFrom k n r + 1) := by
  induction k generalizing r with
  | zero => simpa [isqrtFrom] using ⟨lo, hi⟩
  | succ k ih =>
    unfold isqrtFrom
    split
    · next h => exact ih _ h (by rw [pow_succ] at hi; convert hi using 2 <;> omega)
    · next h => exact ih _ lo (by omega)

/-- isqrt(n) is the largest integer whose square does not exceed n. -/
theorem isqrt_spec (n : Nat) : isqrt n * isqrt n ≤ n ∧ n < (isqrt n + 1) * (isqrt n + 1) := by
  refine isqrtFrom_spec _ _ _ (by simp) ?_
  have h : n < 2 ^ (Nat.log2 n + 1) := Nat.lt_log2_self
  rw [Nat.zero_add, ← pow_add]
  exact h.trans_le (Nat.pow_le_pow_right (by omega) (by omega))

theorem le_isqrt {m n : Nat} : m ≤ isqrt n ↔ m * m ≤ n := by
  have h := isqrt_spec n
  constructor
  · intro hm; exact (Nat.mul_le_mul hm hm).trans h.1
  · intro hm; by_contra hc
    have : (isqrt n + 1) * (isqrt n + 1) ≤ m * m := Nat.mul_le_mul (by omega) (by omega)
    omega

theorem isqrt_mul_self (n : Nat) : isqrt (n * n) = n := by
  apply le_antisymm
  · have h := (isqrt_spec (n * n)).1
    by_contra hc
    have : (n + 1) * (n + 1) ≤ isqrt (n * n) * isqrt (n * n) := Nat.mul_le_mul (by omega) (by omega)
    have : n * n < (n + 1) * (n + 1) := by nlinarith
    omega
  · exact le_isqrt.2 le_rfl

theorem clampNat_eq (x lo hi : Nat) (h : lo ≤ hi) : clampNat x lo hi = max lo (min hi x) := by
  unfold clampNat; split <;> [skip; split] <;> omega

theorem clampNat_zero (x hi : Nat) : clampNat x 0 hi = min hi x := by rw [clampNat_eq _ _ _ (by omega)]; omega

theorem clamp_eq (x lo hi : Int) (h : lo ≤ hi) : clamp x lo hi = max lo (min hi x) := by
  unfold clamp; split <;> [skip; split] <;> omega

theorem le_saturate (n limit : Nat) : n ≤ saturate n limit := by unfold saturate; split <;> omega

theorem saturate_le (n limit : Nat) (h : n ≤ limit) : saturate n limit ≤ limit := by unfold saturate; split <;> omega

/-- Truncation toward zero never enlarges a magnitude. -/
theorem natAbs_quot (a b : Int) : (quot a b).natAbs = a.natAbs / b.natAbs := Int.natAbs_tdiv a b

/-! ## Points, boxes and quads -/

theorem Vec3.byAxis_get (f : Axis → Int) (k : Axis) : (Vec3.byAxis f).get k = f k := by cases k <;> rfl

theorem Vec3.ext_get {u v : Vec3} (h : ∀ k, u.get k = v.get k) : u = v := by
  obtain ⟨a, b, c⟩ := u; obtain ⟨d, e, f⟩ := v
  have hx := h .x; have hy := h .y; have hz := h .z
  simp only [Vec3.get] at hx hy hz; subst hx hy hz; rfl

theorem Vec3.put_get_self (v : Vec3) (k : Axis) (i : Int) : (v.put k i).get k = i := by cases k <;> rfl

theorem Vec3.put_get_of_ne (v : Vec3) (j k : Axis) (i : Int) (h : k ≠ j) : (v.put j i).get k = v.get k := by
  cases j <;> cases k <;> first | rfl | exact absurd rfl h

/-- A point is inside a box when each coordinate lies within the range, faces included (R1). -/
theorem Box.has_iff (b : Box) (p : Vec3) : b.has p = true ↔ ∀ k, b.lo k ≤ p.get k ∧ p.get k ≤ b.hi k := by
  constructor
  · intro h k
    simp [Box.has, Box.spans, Box.lo, Box.hi] at h
    cases k <;> simp only [Box.lo, Box.hi, Vec3.get] <;> omega
  · intro h
    have hx := h .x; have hy := h .y; have hz := h .z
    simp only [Box.lo, Box.hi, Vec3.get] at hx hy hz
    simp [Box.has, Box.spans, Box.lo, Box.hi]; omega

theorem Quad.put_get_self {α : Type} (q : Quad α) (i : Nat) (x : α) (h : i ≤ 3) : (q.put i x).get i = x := by
  interval_cases i <;> rfl

theorem Quad.put_get_of_ne {α : Type} (q : Quad α) (i j : Nat) (x : α) (hj : j ≤ 3) (h : j ≠ i) :
    (q.put i x).get j = q.get j := by
  unfold Quad.put; split <;> interval_cases j <;> first | rfl | exact absurd rfl h

theorem Quad.put_put {α : Type} (q : Quad α) (i : Nat) (x y : α) : (q.put i x).put i y = q.put i y := by
  unfold Quad.put; split <;> simp_all

theorem Quad.put_self {α : Type} (q : Quad α) (i : Nat) : q.put i (q.get i) = q := by
  unfold Quad.put; split <;> simp [Quad.get]

theorem Quad.mem_list {α : Type} (q : Quad α) (x : α) : x ∈ q.list ↔ ∃ i, i ≤ 3 ∧ q.get i = x := by
  constructor
  · intro h
    simp [Quad.list] at h
    rcases h with rfl | rfl | rfl | rfl
    exacts [⟨0, by omega, rfl⟩, ⟨1, by omega, rfl⟩, ⟨2, by omega, rfl⟩, ⟨3, by omega, rfl⟩]
  · rintro ⟨i, hi, rfl⟩
    interval_cases i <;> simp [Quad.list, Quad.get]

/-! ## Bytes (10.1) -/

/-- The bytes the model writes are those of 10.1. -/
theorem beBytes_eq_wire (k n : Nat) : beBytes k n = Machine.wire k n := by
  induction k with
  | zero => rfl
  | succ k ih =>
    simp only [beBytes, ih, Machine.wire, List.range_succ_eq_map, List.map_cons, List.map_map]
    refine congrArg₂ _ rfl (List.map_congr_left fun j _ => ?_)
    simp only [Function.comp, Nat.succ_eq_add_one]
    congr 3; omega

theorem beInt_eq_wireInt (k : Nat) (i : Int) : beInt k i = Machine.wireInt k i := by
  rw [beInt, Machine.wireInt, beBytes_eq_wire, pow_mul]; rfl

theorem beBytes_length (k n : Nat) : (beBytes k n).length = k := by
  induction k with
  | zero => rfl
  | succ k ih => simp [beBytes, ih]

theorem beNat_append (a : List Byte) (b : Byte) : beNat (a ++ [b]) = beNat a * 256 + b.toNat := by
  simp [beNat, List.foldl_append]

theorem foldl_be (bs : List Byte) (n : Nat) :
    bs.foldl (fun n b => n * 256 + b.toNat) n = n * 256 ^ bs.length + beNat bs := by
  induction bs generalizing n with
  | nil => simp [beNat]
  | cons b bs ih =>
    simp only [beNat, List.foldl_cons, List.length_cons, pow_succ]
    rw [ih, ih (0 * 256 + b.toNat)]; ring

/-- The number that `k` bytes carry is the number they were made from, when it fits them. -/
theorem beNat_beBytes (k n : Nat) (h : n < 256 ^ k) : beNat (beBytes k n) = n := by
  have key : ∀ k n, beNat (beBytes k n) = n % 256 ^ k := by
    intro k
    induction k with
    | zero => intro n; simp [beBytes, beNat, Nat.mod_one]
    | succ k ih =>
      intro n
      simp only [beBytes, beNat, List.foldl_cons]
      rw [foldl_be, beBytes_length, ih]
      simp only [Nat.zero_mul, Nat.zero_add, BitVec.toNat_ofNat]
      rw [show 256 ^ (k + 1) = 256 ^ k * 256 from rfl, Nat.mod_mul, Nat.mul_comm, Nat.add_comm]
  rw [key, Nat.mod_eq_of_lt h]

/-- A signed number in two's complement reads back, when it fits (10.1). -/
theorem toSigned_beInt (k : Nat) (i : Int) (hk : 0 < k) (lo : -2 ^ (8 * k - 1) ≤ i) (hi : i < 2 ^ (8 * k - 1)) :
    toSigned (8 * k) (beNat (beInt k i)) = i := by
  have h2 : (2 : Int) ^ (8 * k) = 2 * 2 ^ (8 * k - 1) := by rw [← pow_succ']; congr 1; omega
  have hp : (0 : Int) < 2 ^ (8 * k - 1) := by positivity
  have hb : (256 : Nat) ^ k = 2 ^ (8 * k) := by rw [pow_mul]; rfl
  have hm0 := Int.emod_nonneg i (show (2 : Int) ^ (8 * k) ≠ 0 by omega)
  have hm1 := Int.emod_lt_of_pos i (show (0 : Int) < 2 ^ (8 * k) by omega)
  have hc : ((2 ^ (8 * k) : Nat) : Int) = 2 ^ (8 * k) := by push_cast; rfl
  have hd : ((2 ^ (8 * k - 1) : Nat) : Int) = 2 ^ (8 * k - 1) := by push_cast; rfl
  rw [beInt, beNat_beBytes _ _ (by rw [hb]; omega), toSigned]
  rcases lt_or_ge i 0 with hn | hn
  · have : i % 2 ^ (8 * k) = i + 2 ^ (8 * k) := by
      rw [← Int.add_emod_right, Int.emod_eq_of_lt (by omega) (by omega)]
    rw [if_neg (by omega)]; omega
  · have : i % 2 ^ (8 * k) = i := Int.emod_eq_of_lt hn (by omega)
    rw [if_pos (by omega)]; omega

end Sys2Proof

namespace Sys2Proof.Machine

/-- The guarded box holds a point exactly when every coordinate lies in the box grown by the standoff (R6). -/
theorem guarded_has_iff (z : Zone) (n : Nat) (p : Vec3) : (z.guarded n).has p = true ↔ Inside z n p := by
  rw [Box.has_iff]
  constructor <;> intro h k <;> have := h k <;> cases k <;>
    simpa [Zone.guarded, Box.grow, Box.um, Box.lo, Box.hi] using this

/-- The system speed class never exceeds the class of any port (R141). -/
theorem systemClass_none_of_down (ports : Quad Port) (i : Nat) (hi : i ≤ 3) (h : (ports.get i).state ≠ .up) :
    systemClass ports = none := by
  interval_cases i <;> simp only [Quad.get] at h <;> unfold systemClass <;> simp only [h, if_false] <;> split <;> simp_all

theorem anyOccupied_iff (s : State) : anyOccupied s = true ↔ ∃ z ∈ liveZones s.air, z.occupied = true := by
  simp [anyOccupied]

theorem mem_liveZones (air : List Slot) (z : Zone) :
    z ∈ liveZones air ↔ ∃ (k : Nat) (sl : Slot), air[k]? = some sl ∧ sl.zone = some z := by
  simp only [liveZones, List.mem_filterMap]
  constructor
  · rintro ⟨sl, hm, hz⟩; obtain ⟨k, hk⟩ := List.mem_iff_getElem?.1 hm; exact ⟨k, sl, hk, hz⟩
  · rintro ⟨k, sl, hk, hz⟩; exact ⟨sl, List.mem_iff_getElem?.2 ⟨k, hk⟩, hz⟩

/-! ## Flags -/

theorem raiseIf_eq (b : Bool) (e : Event) (s : State) :
    raiseIf b e s = { s with station := { s.station with
      events := if b then s.station.events ||| BitVec.twoPow 14 e.bit else s.station.events } } := by
  cases b <;> rfl

/-- Raising a flag sets it and no flag that was set is cleared by it (R203). -/
theorem eventSet_raiseEvent (e f : Event) (s : State) :
    eventSet (raiseEvent e s) f = (eventSet s f || decide (f = e)) := by
  simp only [eventSet, raiseEvent_station, BitVec.getLsbD_or, BitVec.getLsbD_twoPow]
  congr 1
  cases e <;> cases f <;> rfl

end Sys2Proof.Machine
end

