-- ==== Sys2Proof/Laws/Requests.lean ====
section
/-! SUPPORT. What taking a request can do, once for every request: nothing while RESET is asserted, NOT_PERMITTED from a
class the table bars, and otherwise what the owner makes of it. -/

namespace Sys2Proof.Machine

theorem unlessHeld_free (s : State) (f : State → State) (h : s.resetHeld = false) : unlessHeld s f = f s := by
  simp [unlessHeld, h]

theorem unlessHeld_held (s : State) (f : State → State) (h : s.resetHeld = true) : unlessHeld s f = s := by
  simp [unlessHeld, h]

/-- Everything that a request can do. -/
theorem request_cases (r : Req) (st : Nat) (s t : State) (own : StationClass → State → State × Reply)
    (h : request r st s own = .next t) :
    (s.resetHeld = true ∧ t = s)
      ∨ (s.resetHeld = false ∧ permitted r (classOf s st) = false ∧ t = answer st r.code ⟨.notPermitted, []⟩ (takeFrame s))
      ∨ (MaySend s r st ∧ ∃ u p, own (classOf s st) (takeFrame s) = (u, p) ∧ t = answer st r.code p u) := by
  unfold request at h
  split at h
  · next hr => left; cases h; exact ⟨hr, rfl⟩
  · next hr =>
    have hr' : s.resetHeld = false := by simpa using hr
    split at h
    · next hp => right; right; cases h; exact ⟨⟨hr', hp⟩, _, _, rfl, rfl⟩
    · next hp => right; left; cases h; exact ⟨hr', by simpa using hp, rfl⟩

theorem request_of_maySend (r : Req) (st : Nat) (s : State) (own : StationClass → State → State × Reply)
    (h : MaySend s r st) :
    request r st s own
      = .next (answer st r.code (own (classOf s st) (takeFrame s)).2 (own (classOf s st) (takeFrame s)).1) := by
  simp [request, h.1, h.2]

theorem request_of_barred (r : Req) (st : Nat) (s : State) (own : StationClass → State → State × Reply)
    (hr : s.resetHeld = false) (hp : permitted r (classOf s st) = false) :
    request r st s own = turnedAway st r .notPermitted s := by
  simp [request, turnedAway, hr, hp]

/-- A request completes in every state. -/
theorem request_completes (r : Req) (st : Nat) (s : State) (own : StationClass → State → State × Reply) :
    ∃ t, request r st s own = .next t := by
  unfold request; split <;> [skip; split] <;> exact ⟨_, rfl⟩

/-- A handle names a live record exactly when its slot is live and of its generation (R4). -/
theorem zoneNamed_eq_some (s : State) (handle : Nat) (z : Zone) :
    zoneNamed s.air handle = some z ↔ ∃ sl, Names s handle sl z := by
  unfold zoneNamed Names
  rcases h : s.air[handle / 256]? with _ | sl
  · simp
  · by_cases hg : sl.generation = handle % 256 <;> simp [hg]

/-- Everything that a request naming a zone can do before its own effect (R11, checks 1 to 3). -/
theorem onZone_cases (c : StationClass) (st handle : Nat) (s : State) (own : Zone → State × Reply) :
    ((∀ sl z, ¬Names s handle sl z) ∧ onZone c st handle s own = refuse .staleHandle s)
      ∨ ∃ sl z, Names s handle sl z
          ∧ ((c = .pilot ∧ z.owner ≠ st ∧ onZone c st handle s own = refuse .notOwner s)
            ∨ (c = .pilot ∧ z.owner = st ∧ z.standing = true ∧ onZone c st handle s own = refuse .notPermitted s)
            ∨ ((c = .pilot → z.owner = st ∧ z.standing = false) ∧ onZone c st handle s own = own z)) := by
  rcases h : zoneNamed s.air handle with _ | z
  · left
    refine ⟨fun sl z hn => ?_, by simp [onZone, h]⟩
    rw [(zoneNamed_eq_some s handle z).2 ⟨sl, hn⟩] at h; cases h
  · right
    obtain ⟨sl, hn⟩ := (zoneNamed_eq_some s handle z).1 h
    refine ⟨sl, z, hn, ?_⟩
    by_cases hc : c = .pilot <;> by_cases ho : z.owner = st <;> rcases hs : z.standing <;>
      simp [onZone, h, pilotCheck, hc, ho, hs]

/-- A record written over the one of a slot whose content is known. -/
theorem withZone_eq_setZone (s : State) (n : Nat) (sl : Slot) (z : Zone) (h : s.air[n]? = some sl) :
    withZone s n z = setZone n sl z s := by
  simp only [withZone, setZone, putZone]; congr 1
  rw [List.modify_eq_set_getElem?]; simp [h]

end Sys2Proof.Machine
end

