-- ==== Sys2Proof/Laws/Control.lean ====
section
/-! SUPPORT. What the shared transitions between blocks can do: halts, failures, completions and starts of a cue, the end
of authority, and the raising of a stop cause. -/

namespace Sys2Proof.Machine

/-- What no shared transition between blocks changes: the zones, the geometry, the marks, the ports, the period
generator, the pins, the queue, and of the Motion Generator its position, lengths and limits; of the Station Port only
event flags are set. -/
structure ControlFrame (s t : State) : Prop where
  air : t.air = s.air
  span : t.span = s.span
  marks : t.marks = s.marks
  ports : t.ports = s.ports
  portLimits : t.portLimits = s.portLimits
  period : t.period = s.period
  estopLineOpen : t.estopLineOpen = s.estopLineOpen
  resetHeld : t.resetHeld = s.resetHeld
  pending : t.pending = s.pending
  p : t.motion.p = s.motion.p
  lim : t.motion.lim = s.motion.lim
  lengths : t.motion.lengths = s.motion.lengths
  feed : t.motion.feed = s.motion.feed
  window : t.cue.window = s.cue.window
  station : t.station = { s.station with events := t.station.events }
  events : s.station.events &&& t.station.events = s.station.events

theorem ControlFrame.refl (s : State) : ControlFrame s s := by
  constructor <;> first | rfl | simp

theorem ControlFrame.trans {s t u : State} (h : ControlFrame s t) (k : ControlFrame t u) : ControlFrame s u := by
  constructor
  any_goals first
    | rw [k.air, h.air] | rw [k.span, h.span] | rw [k.marks, h.marks] | rw [k.ports, h.ports]
    | rw [k.portLimits, h.portLimits] | rw [k.period, h.period] | rw [k.estopLineOpen, h.estopLineOpen]
    | rw [k.resetHeld, h.resetHeld] | rw [k.pending, h.pending] | rw [k.p, h.p] | rw [k.lim, h.lim]
    | rw [k.lengths, h.lengths] | rw [k.feed, h.feed] | rw [k.window, h.window]
  · rw [k.station, h.station]
  · have a := h.events; have b := k.events
    rw [← a, BitVec.and_assoc, b]

theorem and_or_self {w : Nat} (a b : BitVec w) : a &&& (a ||| b) = a := by
  ext i; simp; intro h; exact Or.inl h

theorem frame_raiseEvent (e : Event) (s : State) : ControlFrame s (raiseEvent e s) := by
  constructor <;> first | rfl | exact and_or_self _ _

theorem frame_raiseIf (b : Bool) (e : Event) (s : State) : ControlFrame s (raiseIf b e s) := by
  cases b
  · exact .refl s
  · exact frame_raiseEvent e s

theorem frame_setMode (m : Mode) (s : State) : ControlFrame s (setMode m s) := by
  constructor <;> first | rfl | simp

theorem frame_enterHold (s : State) : ControlFrame s (enterHold s) := frame_setMode _ s

theorem frame_flushStick (s : State) : ControlFrame s (flushStick s) := by
  constructor <;> first | rfl | simp

theorem frame_dropCopy (s : State) : ControlFrame s (dropCopy s) := by
  constructor <;> first | rfl | simp

theorem frame_freeze (s : State) : ControlFrame s (freeze s) := by
  constructor <;> first | rfl | simp

theorem frame_auth (a : Authority) (s : State) : ControlFrame s { s with auth := a } := by
  constructor <;> first | rfl | simp

theorem frame_entries (es : List CueEntry) (s : State) :
    ControlFrame s { s with cue := { s.cue with entries := es } } := by
  constructor <;> first | rfl | simp

theorem frame_endAuthority (s : State) : ControlFrame s (endAuthority s) := by
  unfold endAuthority
  refine .trans ?_ (frame_raiseEvent _ _)
  split
  · exact (frame_auth _ s).trans (frame_enterHold _)
  · exact frame_auth _ s

theorem frame_clearCueBasis (s : State) : ControlFrame s (clearCueBasis s) := by
  unfold clearCueBasis
  split
  · exact .refl s
  · split
    · exact frame_auth _ s
    · exact (frame_auth _ s).trans (frame_endAuthority _)

theorem frame_haltCue (s : State) : ControlFrame s (haltCue s) := (frame_dropCopy s).trans (frame_clearCueBasis _)

theorem frame_loseAuthority (s : State) : ControlFrame s (loseAuthority s) := by
  have h1 : ControlFrame s (if s.motion.mode = .cue then dropCopy s else s) := by
    split
    · exact frame_dropCopy s
    · exact .refl s
  unfold loseAuthority
  dsimp only
  by_cases h : s.motion.mode = .cue ∨ s.motion.mode = .stick
  · rw [if_pos h]; exact (h1.trans (frame_auth _ _)).trans (frame_enterHold _)
  · rw [if_neg h]; exact h1.trans (frame_auth _ _)

theorem frame_removeTo (rest : List CueEntry) (s : State) : ControlFrame s (removeTo rest s) :=
  (frame_entries rest s).trans (frame_raiseIf _ _ _)

theorem frame_cueRecord (r : Bool) (f : Option Failure) (s : State) :
    ControlFrame s { s with cue := { s.cue with running := r, failure := f } } := by
  constructor <;> first | rfl | simp

theorem frame_failHead (why : FailReason) (s : State) : ControlFrame s (failHead why s) := by
  unfold failHead
  exact ((((frame_removeTo _ s).trans (frame_cueRecord _ _ _)).trans (frame_raiseEvent _ _)).trans
    ((frame_dropCopy _).trans (frame_clearCueBasis _))).trans (frame_enterHold _)

theorem frame_startHead (s : State) : ControlFrame s (startHead s) := by
  unfold startHead
  split
  · exact .refl s
  · split
    · exact frame_failHead _ s
    · constructor <;> first | rfl | simp

theorem frame_completeCue (s : State) : ControlFrame s (completeCue s) := by
  unfold completeCue
  split
  · exact ((frame_dropCopy s).trans (frame_clearCueBasis _)).trans (frame_enterHold _)
  · next e rest _ =>
    have h := ((frame_removeTo rest s).trans (frame_dropCopy _)).trans (frame_raiseEvent .cueDone _)
    dsimp only
    split
    · exact (h.trans (frame_clearCueBasis _)).trans (frame_enterHold _)
    · exact h.trans (frame_startHead _)

theorem frame_leaveSteered (kind : StopKind) (s : State) : ControlFrame s (leaveSteered kind s) := by
  have h1 : ControlFrame s { s with motion := { s.motion with exit := none, trapped := false } } := by
    constructor <;> first | rfl | simp
  unfold leaveSteered
  dsimp only
  refine .trans ?_ (frame_flushStick _)
  have h2 := h1.trans (if h : kind = .brake then
      (show ControlFrame _ (if kind = .brake then freeze _ else setMode .stopping _) by rw [if_pos h]; exact frame_freeze _)
    else (by rw [if_neg h]; exact frame_setMode _ _))
  split
  · exact h2.trans (frame_haltCue _)
  · exact h2

theorem frame_reportKind (kind : StopKind) (s : State) : ControlFrame s (reportKind kind s) := by
  unfold reportKind
  split
  any_goals exact frame_leaveSteered kind s
  any_goals exact .refl s
  all_goals
    split
    · exact frame_freeze s
    · exact .refl s

/-- The raising of a cause changes what the frame leaves free alone: the mode and what goes with it, the cue, the
authority, the Stop Unit and the event flags. -/
theorem frame_raiseCause (c : Cause) (port : Option Nat) (asked : StopKind) (s : State) :
    ControlFrame s (raiseCause c port asked s) := by
  unfold raiseCause
  dsimp only
  refine .trans ?_ (frame_raiseIf _ _ _)
  have h : ∀ u : StopUnit, ControlFrame s { s with stop := u } := fun u => by constructor <;> first | rfl | simp
  split
  · exact h _
  · exact (h _).trans (frame_reportKind _ _)

/-- Every way the Motion Generator can act on the report of a kind (R63 to R66). -/
theorem reportKind_cases (kind : StopKind) (s : State) :
    (s.motion.mode.steered = true ∧ reportKind kind s = leaveSteered kind s)
      ∨ ((s.motion.mode = .stopping ∨ s.motion.mode = .stopped .held) ∧ kind = .brake ∧ reportKind kind s = freeze s)
      ∨ ((s.motion.mode = .stopping ∨ s.motion.mode = .stopped .held) ∧ kind ≠ .brake ∧ reportKind kind s = s)
      ∨ ((s.motion.mode = .safe ∨ s.motion.mode = .stopped .braked) ∧ reportKind kind s = s) := by
  unfold reportKind
  split <;> rename_i h <;> by_cases hk : kind = .brake <;> simp [h, hk, Mode.steered]

/-- The authority record after the holder's CUE basis clears (R117). -/
theorem clearCueBasis_auth (s : State) :
    (s.auth.holder = none → (clearCueBasis s).auth = s.auth)
      ∧ (∀ h, s.auth.holder = some h → s.auth.explicit = true → (clearCueBasis s).auth = { s.auth with cue := false })
      ∧ (∀ h, s.auth.holder = some h → s.auth.explicit = false →
          (clearCueBasis s).auth = flush { s.auth with
            holder := none, explicit := false, cue := false, backoff := s.auth.backoff.set h 2 }) := by
  refine ⟨?_, ?_, ?_⟩
  · intro h; simp [clearCueBasis, h]
  · intro h a b; simp [clearCueBasis, a, b]
  · intro h a b
    simp only [clearCueBasis, a, b, endAuthority]
    simp only [Option.isNone_some, Bool.false_eq_true, if_false]
    split <;> simp [Authority.vacate]

end Sys2Proof.Machine
end

