-- ==== Sys2Proof/Laws/Motion.lean ====
section
/-! SUPPORT. What the stages of a period computation, the table's commit, a move of a port and the pattern test do, one lemma
each. -/

namespace Sys2Proof.Machine

/-! ## Stages -/

/-- Stage 2 on one axis: at most `a` from the old velocity, toward the demand, and never past it (R44). -/
theorem rateLimit_get (a : Nat) (vOld demand : Vec3) (k : Axis) :
    (rateLimit a vOld demand).get k = max (vOld.get k - a) (min (vOld.get k + a) (demand.get k)) := by
  rw [rateLimit, Vec3.byAxis_get, clamp_eq _ _ _ (by omega)]; omega

/-- A rate limit with a demand of zero takes `a` off the magnitude (R44, R64). -/
theorem rateLimit_zero_natAbs (a : Nat) (vOld : Vec3) (k : Axis) :
    ((rateLimit a vOld zero3).get k).natAbs = (vOld.get k).natAbs - a := by
  rw [rateLimit_get]
  have : zero3.get k = 0 := by cases k <;> rfl
  rw [this]; omega

theorem approach_get (std : Standard) (lim : Limits) (flightBox : Box) (zones : List Zone) (p v : Vec3) (k : Axis) :
    (approach std lim flightBox zones p v).get k = approachAxis std lim flightBox zones p k (v.get k) :=
  Vec3.byAxis_get _ k

theorem foldl_min_le (f : Int × Nat → Nat) (l : List (Int × Nat)) (n : Nat) :
    l.foldl (fun m q => min m (f q)) n ≤ n ∧ ∀ q ∈ l, l.foldl (fun m q => min m (f q)) n ≤ f q := by
  induction l generalizing n with
  | nil => simp
  | cons q l ih =>
    have h := ih (min n (f q))
    refine ⟨by simp only [List.foldl_cons]; omega, ?_⟩
    intro r hr
    simp only [List.mem_cons] at hr
    simp only [List.foldl_cons]
    rcases hr with rfl | hr
    · omega
    · exact h.2 r hr

/-- Stage 4 leaves at most the magnitude it was given and at most the limit of each surface ahead (R47). -/
theorem approachBound_le (aBrk n : Nat) (surfaces : List (Int × Nat)) :
    approachBound aBrk n surfaces ≤ n ∧ ∀ q ∈ surfaces, approachBound aBrk n surfaces ≤ surfaceLimit aBrk q :=
  foldl_min_le (surfaceLimit aBrk) surfaces n

/-- The clamp puts a coordinate within the box and, from a point of the box, shortens the step (R48). -/
theorem clamp_mem (x lo hi : Int) (h : lo ≤ hi) : lo ≤ clamp x lo hi ∧ clamp x lo hi ≤ hi := by
  rw [clamp_eq _ _ _ h]; omega

/-- The zone clip either ends in a pass that changes no coordinate, or the step is abandoned (R49, R50). -/
theorem clipFrom_fixed (boxes : List Box) (p : Vec3) (n : Nat) (q r : Vec3) (h : clipFrom boxes p n q = some r) :
    clipPass boxes p r = r := by
  induction n generalizing q with
  | zero =>
    unfold clipFrom at h; split at h
    · next hq => cases h; exact hq
    · cases h
  | succ n ih =>
    unfold clipFrom at h; split at h
    · next hq => cases h; exact hq
    · exact ih _ h

/-! ## The commit -/

/-- A zone that became PENDING since the last expiry is passed over by the promotion test (R17, R25). -/
theorem Zone.promoteStep_of_fresh (z : Zone) (p : Vec3) (standoff : Nat) (h : z.fresh = true) :
    z.promoteStep p standoff = z := by
  simp [Zone.promoteStep, Zone.counting, h]

/-- Such a zone is not promoted at a commit. -/
theorem Zone.promotes_of_fresh (z : Zone) (p : Vec3) (standoff : Nat) (h : z.fresh = true) :
    z.promotes p standoff = false := by
  simp [Zone.promotes, Zone.counting, h]

/-- The promotion test of a record whose clear periods count: back to 0 inside, one more outside, ACTIVE at the second
(R25). -/
theorem Zone.promoteStep_of_counting (z : Zone) (p : Vec3) (standoff : Nat) (h : z.counting = true) :
    z.promoteStep p standoff
      = if (z.guarded standoff).has p then { z with clear := 0 }
        else if z.clear = 1 then z.activated false else { z with clear := 1 } := by
  simp [Zone.promoteStep, h]

/-- The table's work at a commit leaves every other block as it was, short of event flags. -/
theorem tableCommit_eq (ran : Mode) (p : Vec3) (s : State) :
    tableCommit ran p s = { s with
      air := (tableCommit ran p s).air
      station := { s.station with events := (tableCommit ran p s).station.events } } := by
  simp only [tableCommit, raiseIf_eq]

/-- Stage 8 sets the lengths and the feed-forward alone (R52). -/
theorem handLengths_eq (abandoned : Bool) (p : Vec3) (s : State) :
    handLengths abandoned p s = { s with motion := { s.motion with
      lengths := some (demandLengths s.span p), feed := (handLengths abandoned p s).motion.feed } } := rfl

/-! ## Ports -/

/-- A move of a port: the port replaced, and PORT raised when its state changed (R132). -/
theorem movePort_eq (i : Nat) (q : Port) (s : State) :
    movePort i q s = { s with
      ports := s.ports.put i q
      station := { s.station with
        events := if q.state = (s.ports.get i).state then s.station.events else s.station.events ||| 0x200#14 } } := by
  simp only [movePort, raiseIf_eq, withPort_ports, withPort_station]
  by_cases h : q.state = (s.ports.get i).state
  · simp [h, withPort]
  · have : (q.state != (s.ports.get i).state) = true := by simpa using h
    simp [this, h, withPort, Event.bit]; rfl

theorem dropLink_eq (q : Port) : q.dropLink = linkDropped q := rfl

theorem enterTraining_eq (q : Port) : q.enterTraining = trainingAfresh q := rfl

/-! ## The pattern test (R157) -/

/-- `n` errors: both counts rise by `n` up to 65,535, and a record with a result then reports FAIL. -/
theorem TestRecord.judgeErrors_eq (n : Nat) (r : TestRecord) (hc : r.compared ≤ 65535) (he : r.errors ≤ 65535) :
    TestRecord.judgeErrors n r
      = { r with
          compared := min 65535 (r.compared + n), errors := min 65535 (r.errors + n)
          result := if n = 0 ∨ r.result = .none then r.result else .fail } := by
  induction n generalizing r with
  | zero => simp [TestRecord.judgeErrors, Nat.min_eq_right hc, Nat.min_eq_right he]
  | succ n ih =>
    rw [TestRecord.judgeErrors, ih _ (saturate_le _ _ hc) (saturate_le _ _ he)]
    have step : ∀ m : Nat, m ≤ 65535 → min 65535 (saturate m 65535 + n) = min 65535 (m + (n + 1)) := by
      intro m hm; unfold saturate; split <;> omega
    simp only [TestRecord.judge, Bool.false_eq_true, if_false, step _ hc, step _ he]
    cases h : r.result <;> simp [judgedResult]

/-- A frame taken back is only recorded: it is judged and counted at the next expiry. -/
theorem TestRecord.takeBack_records (payload : Option (List Byte)) (r : TestRecord) :
    r.takeBack payload = { r with outstanding := (r.takeBack payload).outstanding } := by
  unfold TestRecord.takeBack; split <;> rfl

end Sys2Proof.Machine
end

