-- ==== Sys2Proof/Tests/Slice0.lean ====
section
/-! SUPPORT. The model's own tests: ill-formed terms that the checks refuse, frames written out byte by byte, the
manual's worked examples one step at a time, and for each statement with hypotheses a witness that they can be met
together. Expected values are the manual's, or worked by hand from its rules; the CRCs were worked outside the model. -/

namespace Sys2Proof.Tests

open Sys2Proof Sys2Proof.Machine

set_option Elab.async false

/-! ## Ill-formed terms (10.1, 10.5) -/

theorem test_wf_station : (Instr.claim 8).wf = false := by decide
theorem test_wf_byte : (Instr.markRead 0 256).wf = false := by decide
theorem test_wf_half : (Instr.setWatchdog 0 65536).wf = false := by decide
theorem test_wf_three : (Instr.zoneCreate 0 0 ⟨0, 0, 0, 0, 0, 0⟩ 1 0 0 0 16777216 []).wf = false := by decide
theorem test_wf_word : (Instr.setPayout 0 4294967296 0 0).wf = false := by decide
theorem test_wf_signed_half : (Instr.stick 0 ⟨-32769, 0, 0⟩ 0 0).wf = false := by decide
theorem test_wf_signed_word : (Instr.enable 0 ⟨0, 2147483648, 0⟩).wf = false := by decide
theorem test_wf_port : (Instr.driveWakeFrame 4).wf = false := by decide
theorem test_wf_slot : (Instr.zoneLifetimeExpiry 48).wf = false := by decide
theorem test_wf_backoff : (Instr.backoffExpiry 8).wf = false := by decide
theorem test_wf_box : (Instr.setFlightBox 0 ⟨0, 0, 0, 0, 0, -2147483649⟩).wf = false := by decide
theorem test_wf_quad : (Instr.setAnchors 0 ⟨⟨0, 0, 0⟩, ⟨0, 0, 0⟩, ⟨0, 0, 0⟩, ⟨0, 0, 0⟩⟩
    ⟨⟨0, 0, 0⟩, ⟨0, 0, 0⟩, ⟨0, 0, 0⟩, ⟨0, 0, 32768⟩⟩).wf = false := by decide
theorem test_wf_settings : (Instr.setLimits 0 { defaultSettings with margin := 65536 }).wf = false := by decide
theorem test_wf_no_values : (Instr.corrWrite 0 []).wf = false := by decide
theorem test_wf_values : (Instr.corrWrite 0 (List.replicate 61 0)).wf = false := by decide +kernel
theorem test_wf_create_label :
    (Instr.zoneCreate 0 0 ⟨0, 0, 0, 0, 0, 0⟩ 1 0 0 0 0 (List.replicate 213 0)).wf = false := by decide +kernel
theorem test_wf_amend_label :
    (Instr.zoneAmend 0 0 0 ⟨0, 0, 0, 0, 0, 0⟩ 0 0 (List.replicate 214 0)).wf = false := by decide +kernel
theorem test_wf_mark_label : (Instr.markSet 0 0 ⟨0, 0, 0⟩ (List.replicate 233 0)).wf = false := by decide +kernel
theorem test_wf_test_payload : (Instr.driveTestFrame 0 (List.replicate 31 0)).wf = false := by decide +kernel

/-! ## Frames (10.2, 10.3, 10.5, R196, R213) -/

/-- The CRC of R196 has the check value 0x29B1 over the digits 1 to 9. -/
theorem test_crc : crc [0x31#8, 0x32#8, 0x33#8, 0x34#8, 0x35#8, 0x36#8, 0x37#8, 0x38#8, 0x39#8] = 0x29B1 := by
  decide +kernel

theorem test_frame_read_status : requestFrame 0 0x01 [] = [0x5C#8, 0x02#8, 0x00#8, 0x01#8, 0xB2#8, 0xDD#8] := by
  decide +kernel

theorem test_frame_claim : requestFrame 2 0x50 [] = [0x5C#8, 0x02#8, 0x02#8, 0x50#8, 0x9E#8, 0x6B#8] := by
  decide +kernel

/-- "N GOAL". -/
def nGoal : List Byte := [0x4E#8, 0x20#8, 0x47#8, 0x4F#8, 0x41#8, 0x4C#8]

/-- The goal mouth of the worked example of the Airspace Table chapter. -/
def goalMouth : Box := ⟨47000, 52500, -9200, 9200, 0, 9000⟩

/-- The ZONE_CREATE of that example, and of the example of 10.5. -/
def closeGoal : Instr := .zoneCreate 3 0 goalMouth 1 0 0 0 36000 nGoal

/-- Its 40 parameter bytes, written out from 10.5. -/
def closeGoalBytes : List Byte :=
  [0x00#8, 0x00#8, 0x00#8, 0xB7#8, 0x98#8, 0x00#8, 0x00#8, 0xCD#8, 0x14#8, 0xFF#8, 0xFF#8, 0xDC#8, 0x10#8, 0x00#8,
    0x00#8, 0x23#8, 0xF0#8, 0x00#8, 0x00#8, 0x00#8, 0x00#8, 0x00#8, 0x00#8, 0x23#8, 0x28#8, 0x01#8, 0x00#8, 0x00#8,
    0x00#8, 0x00#8, 0x00#8, 0x8C#8, 0xA0#8, 0x06#8] ++ nGoal

theorem test_decode_create : decodeRequest .zoneCreate 3 closeGoalBytes = .command closeGoal := by decide +kernel

theorem test_encode_create : encodeRequest closeGoal = some (3, .zoneCreate, closeGoalBytes) := by decide +kernel

/-- The whole frame is 46 bytes, and its length byte holds 42. -/
theorem test_create_frame_size :
    (requestFrame 3 0x10 closeGoalBytes).length = 46 ∧ (requestFrame 3 0x10 closeGoalBytes)[1]? = some 42#8
      ∧ (requestFrame 3 0x10 closeGoalBytes).drop 44 = [0xD6#8, 0x12#8] := by decide +kernel

/-- One label byte stripped: the declared length disagrees with the frame. -/
theorem test_create_stripped : decodeRequest .zoneCreate 3 closeGoalBytes.dropLast = .badLength := by decide +kernel

theorem test_decode_cue_append :
    decodeRequest .cueAppend 2 [0x07#8, 0x1F#8, 0x40#8, 0x01#8, 0x90#8, 0x01#8] = .command (.cueAppend 2 7 8000 400 1) := by
  decide +kernel

theorem test_decode_stick :
    decodeRequest .stick 2 [0x02#8, 0xBC#8, 0xFF#8, 0xD8#8, 0xFC#8, 0x18#8, 0x50#8, 0x01#8]
      = .command (.stick 2 ⟨700, -40, -1000⟩ 80 1) := by
  decide +kernel

theorem test_decode_port_control : decodeRequest .portControl 0 [0x03#8, 0x04#8] = .command (.portControlWake 0 3) := by
  decide +kernel

theorem test_decode_port_control_action : decodeRequest .portControl 0 [0x03#8, 0x05#8] = .badParam := by decide

theorem test_decode_stop : decodeRequest .stop 3 [0x02#8] = .command (.stop 3 2) := by decide

theorem test_decode_corr_write :
    decodeRequest .corrWrite 0 [0x02#8, 0xFF#8, 0xFF#8, 0xFE#8, 0x0C#8, 0x00#8, 0x00#8, 0x04#8, 0xB0#8]
      = .command (.corrWrite 0 [-500, 1200]) := by decide +kernel

theorem test_decode_corr_write_none : decodeRequest .corrWrite 0 [0x00#8] = .badLength := by decide

theorem test_decode_set_standard : decodeRequest .setStandard 0 [0x02#8] = .command (.setStandard 0 2) := by decide

theorem test_request_codes :
    Req.ofCode 0x2C = some .corrWrite ∧ Req.ofCode 0x3A = some .markRead ∧ Req.ofCode 0x65 = some .portRead
      ∧ Req.ofCode 0x79 = some .readPeriod ∧ Req.ofCode 0x07 = none ∧ Req.ofCode 0x7A = none := by decide +kernel

/-- The table gives its rows no bits. -/
theorem test_no_word (nbits w : Nat) : decodeTableWord nbits w = none := rfl

/-- An ABILITY frame of the four classes with a tension field and a test loop, and a WAKE frame. -/
theorem test_link_frames :
    linkFrame 1 [0x37#8] = [0xA5#8, 0x01#8, 0x37#8, 0x68#8, 0x8A#8] ∧ linkFrame 5 [] = [0xA5#8, 0x05#8, 0xB1#8, 0x55#8] := by
  decide +kernel

/-! ## Small states -/

/-- The state after one command. -/
def after (c : Instr) (s : State) : State := stateAfter s (exec c s)

/-- The status of the answer to a command. -/
def status (c : Instr) (s : State) : Option Status := (after c s).station.inService.map Service.status

/-- The payload of the answer to a command. -/
def payload (c : Instr) (s : State) : Option (List Byte) := (after c s).station.inService.map Service.payload

/-- The rig that validates in the Span Solver chapter. -/
def rig : Span :=
  ({ spanPowerOn with
    anchors := ⟨⟨-60000000, -45000000, 40000000⟩, ⟨60000000, -45000000, 40000000⟩, ⟨60000000, 45000000, 40000000⟩,
      ⟨-60000000, 45000000, 40000000⟩⟩
    offsets := ⟨⟨-300000, -300000, 0⟩, ⟨300000, -300000, 0⟩, ⟨300000, 300000, 0⟩, ⟨-300000, 300000, 0⟩⟩
    flightBox := ⟨-50000000, 50000000, -40000000, 40000000, 3000000, 30000000⟩ }).validate

/-- The classes of the worked examples: 2 PILOT, 3 SAFETY, 5 VIEWER. -/
def crew : List StationClass := [.absent, .pilot, .safety, .absent, .viewer, .absent, .absent]

/-- The part with the rig of the example and its crew, in SAFE. -/
def rigged : State :=
  { State.reset with span := rig, station := { State.reset.station with classes := crew, mask := 16383#14 } }

/-- A port UP at a class, its drive READY with the brake released. -/
def upPort (k : SpeedClass) (classes : BitVec 4) (measured : Nat) : Port :=
  { portPowerOn with
    state := .up, resolved := some k, abilities := some { classes := classes, tension := true, test := true }
    status := { statusClear with ready := true, brakeReleased := true }, measured := some measured, sequence := 40 }

/-- The centre spot, 15 m up, in µm. -/
def centre : Vec3 := ⟨0, 0, 15000000⟩

/-- The cable length of every winch at the centre spot, in µm. -/
def centreLength : Nat := geometricLength rig.anchors.w0 rig.offsets.w0 centre

/-- The rig with its four ports UP at class D and the carriage hung at the centre. -/
def ready : State := { rigged with ports := quadOf (upPort .d 15#4 centreLength) }

/-- The rig in a mode with a P, station 2 holding authority. -/
def flyingAt (m : Mode) (p vOld : Vec3) : State :=
  { ready with
    motion := { motionPowerOn with mode := m, p := some p, vOld := vOld, lengths := some (demandLengths rig p) }
    auth := { authorityPowerOn with holder := some 2, explicit := true } }

/-- The rig hovering at the centre in a mode. -/
def flying (m : Mode) : State := flyingAt m centre ⟨0, 0, 0⟩

/-- A mode that a stop left, with its kind in force. -/
def stopped (m : Mode) (k : StopKind) (causes : BitVec 8) : State :=
  { flying m with stop := { (flying m).stop with kind := k, causes := causes } }

/-- A keep-out record. -/
def keepOut (handle : Nat) (box : Box) (st : ZoneState) (policy : Policy) (occupied : Bool) (owner : Nat) : Zone :=
  { handle := handle, kind := .keepOut, box := box, state := st, policy := policy, owner := owner, standing := false
    cap := none, lifetime := none, label := [], occupied := occupied, clear := 0, fresh := false, reboxed := false }

/-- A SLOW record. -/
def slowZone (handle : Nat) (box : Box) (cap : Nat) : Zone :=
  { keepOut handle box .active .defer false 3 with kind := .slow, cap := some cap }

/-- A table with records in its lowest slots, each slot at generation 0. -/
def airOf (zs : List Zone) : List Slot :=
  zs.map (fun z => { generation := 0, zone := some z }) ++ List.replicate (48 - zs.length) freeSlot

/-- The state with a table. -/
def withAir (zs : List Zone) (s : State) : State := { s with air := airOf zs }

/-- The state with a computation in flight that has read it. -/
def begun (s : State) : State := { s with motion := { s.motion with flight := some (snapshot s) } }

/-- A mark without a label. -/
def markOf (pos : Vec3) (owner : Nat) : Mark := { pos := pos, label := [], owner := owner }

/-- A cue list entry without a dwell. -/
def entryOf (mark : Nat) : CueEntry := { mark := mark, cruise := 0, dwell := 0, haltAfter := false }

/-- The copy of a running cue toward the centre spot. -/
def copyNow : CueCopy :=
  { target := centre, cruise := 20000, dwell := 0, dwellLeft := none, lastD := 0, noProgress := 0 }

/-- A cue running over a list of two entries that name marks 7 and 3. -/
def cueing : State :=
  { flying .cue with
    marks := (State.reset.marks.set 7 (some (markOf ⟨0, 0, 15000⟩ 0))).set 3 (some (markOf ⟨46000, 6000, 12000⟩ 2))
    motion := { (flying .cue).motion with copy := some copyNow }
    cue := { cuePowerOn with entries := [entryOf 7, entryOf 3], running := true }
    auth := { (flying .cue).auth with cue := true } }

/-- One port replaced. -/
def portOf (i : Nat) (q : Port) (s : State) : State := { s with ports := s.ports.put i q }

/-! ## The worked examples, one step at a time -/

/-- Pass the corner of the Airspace Table chapter: over the goal mouth at 9.49 m, climbing in STICK. -/
def overGoal : State := flyingAt .stick ⟨49000000, 2000000, 9490000⟩ ⟨0, 0, 10000⟩

/-- Its table: the gantry in slot 0, the SLOW zone in slot 1, slot 2 free at generation 4. -/
def cornerAir : List Slot :=
  [{ generation := 1, zone := some { keepOut 1 ⟨-6000, 6000, 33000, 36000, 0, 14000⟩ .active .defer false 0 with
      standing := true } },
    { generation := 0, zone := some (slowZone 256 ⟨-50000, 0, -32000, 32000, 0, 8000⟩ 3000) },
    { generation := 4, zone := none }] ++ List.replicate 45 freeSlot

/-- The corner before the first request. -/
def corner : State := { overGoal with air := cornerAir }

/-- Step 1: handle 516, PENDING, not occupied. -/
theorem test_corner_create : payload closeGoal corner = some [0x02#8, 0x04#8, 0x00#8, 0x00#8] := by decide +kernel

/-- Zone 516 with a box, a state, a clear count and an occupied flag. -/
def zone516 (box : Box) (st : ZoneState) (clear : Nat) : Zone :=
  { keepOut 516 box st .defer false 3 with lifetime := some 35998, label := nGoal, clear := clear }

/-- The corner with zone 516 in slot 2, the carriage at a P and a v_old. -/
def cornerWith (z : Zone) (p vOld : Vec3) : State :=
  { flyingAt .stick p vOld with air := cornerAir.set 2 { generation := 4, zone := some z } }

/-- The box raised for a header, step 5. -/
def headerBox : Box := { goalMouth with zMax := 12000 }

/-- The carriage hovering over the raised box. -/
def hovering : State := cornerWith (zone516 goalMouth .active 0) ⟨49000000, 2000000, 10400000⟩ ⟨0, 0, 0⟩

/-- Step 5: the amended box holds P and the policy is DEFER, so PENDING, not occupied. -/
theorem test_corner_amend :
    payload (.zoneAmend 3 516 1 headerBox 0 0 []) hovering = some [0x00#8, 0x00#8] := by decide +kernel

/-- Step 5: the pilot does not own the zone. -/
theorem test_corner_not_owner : status (.zoneRetire 2 516) hovering = some .notOwner := by decide +kernel

/-- Step 5: the viewer finds 516 alone, its box raised. -/
theorem test_corner_find :
    payload (.zoneFind 5 ⟨49000, 2000, 10400⟩)
        (cornerWith (zone516 headerBox .pending 0) ⟨49000000, 2000000, 10400000⟩ ⟨0, 0, 0⟩)
      = some [0x01#8, 0x02#8, 0x04#8] := by decide +kernel

/-- Step 6: resumed with EVICT, 516 is ACTIVE and occupied. -/
theorem test_corner_resume :
    payload (.zoneResume 3 516 1)
        (cornerWith (zone516 headerBox .suspended 0) ⟨49000000, 2000000, 10400000⟩ ⟨0, 0, 0⟩)
      = some [0x01#8, 0x01#8] := by decide +kernel

/-- A stale generation. -/
theorem test_stale_handle : status (.zoneLookup 5 515) hovering = some .staleHandle := by decide +kernel

/-- What an expiry's commit leaves of zone 516 when the carriage climbs by 10,000 µm. -/
def climb (z : Int) (clear : Nat) : Option Slot :=
  (after .periodCommit (begun { cornerWith (zone516 goalMouth .pending clear) ⟨49000000, 2000000, z⟩ ⟨0, 0, 10000⟩ with
    auth := { overGoal.auth with lastDemand := some ⟨0, 0, 10000⟩ } })).air[2]?

/-- Steps 2 to 4: on the face counts as inside, then two positions outside promote. -/
theorem test_corner_promotion :
    climb 9490000 0 = some { generation := 4, zone := some (zone516 goalMouth .pending 0) }
      ∧ climb 9500000 0 = some { generation := 4, zone := some (zone516 goalMouth .pending 1) }
      ∧ climb 9510000 1 = some { generation := 4, zone := some (zone516 goalMouth .active 0) } := by decide +kernel

/-- The rig of the worked period at S50: a_per 100, a_brk 50, class C, K ahead at x 14,500 mm. -/
def workedPeriod : State :=
  let s := flyingAt .stick ⟨10000000, -5000000, 15000000⟩ ⟨20060, 0, 0⟩
  begun { s with
    motion := { s.motion with lim := { s.motion.lim with a := 100, aBrk := 50 } }
    span := { s.span with corr := s.span.corr.put 0 (((List.replicate 33 0).set 10 1200).set 11 1360) }
    air := airOf [keepOut 0 ⟨14500, 20000, -20000, 20000, 0, 30000⟩ .active .defer false 3]
    ports := quadOf (upPort .c 7#4 centreLength)
    auth := { s.auth with lastDemand := some ⟨40000, 12000, 0⟩ } }

/-- One period: v_old becomes (20,000; 100; 0) and the demand length of winch 0 is 84,036,845 µm. -/
theorem test_worked_period :
    (after .periodCommit workedPeriod).motion.p = some ⟨10020000, -4999900, 15000000⟩
      ∧ (after .periodCommit workedPeriod).motion.vOld = ⟨20000, 100, 0⟩
      ∧ (after .periodCommit workedPeriod).motion.lengths.map (fun l => l.w0) = some 84036845 := by decide +kernel

/-- The law of the approach limit at K's face: isqrt(2 · 50 · 4,000,000) is 20,000. -/
theorem test_isqrt : isqrt 400000000 = 20000 ∧ isqrt 406435600 = 20160 ∧ isqrt 4500000000 = 67082 := by decide +kernel

/-- Clipping at a corner: Y has the lesser penetration. -/
theorem test_corner_clip :
    clipZone ⟨19990000, 9995000, 0⟩ ⟨20005000, 10003000, 0⟩ ⟨20000000, 30000000, 10000000, 15000000, -1, 1⟩
      = ⟨20005000, 9999999, 0⟩ := by decide

/-- The guarded boxes of the squeeze. -/
def squeeze : List Box :=
  [⟨20001000, 20020000, 5002000, 5006000, 0, 30000000⟩, ⟨20003000, 20008000, 5006000, 5020000, 0, 30000000⟩,
    ⟨20007000, 20020000, 5005000, 5009000, 0, 30000000⟩, ⟨20004000, 20020000, 5009000, 5020000, 0, 30000000⟩]

/-- The squeeze between two zones ends in the third pass; with all four live the step is abandoned. -/
theorem test_squeeze :
    stepped rig.flightBox (squeeze.drop 2) ⟨20000000, 5000000, 12000000⟩ ⟨10000, 10000, 0⟩
        = some ⟨20006999, 5008999, 12000000⟩
      ∧ stepped rig.flightBox squeeze ⟨20000000, 5000000, 12000000⟩ ⟨10000, 10000, 0⟩ = none := by decide +kernel

/-- A derate in flight: class B cuts (36,000; 27,000; 0) to (24,000; 18,000; 0) in one period. -/
theorem test_derate_cap : speedCap 30000 10000 ⟨36000, 27000, 0⟩ = ⟨24000, 18000, 0⟩ := by decide +kernel

/-- The rig of the example validates, and a box up to 39.5 m is too high for winch 0. -/
theorem test_validation :
    rig.validity = .valid
      ∧ validityOf { rig with flightBox := { rig.flightBox with zMax := 39500000 } } = .boxTooHigh 0
      ∧ validityOf { rig with flightBox := { rig.flightBox with zMax := 39000000 } } = .valid := by decide +kernel

/-- The table of the worked correction. -/
def surveyed : List Int :=
  ((((((List.replicate 33 0).set 0 (-500)).set 10 1200).set 11 1360).set 12 1310).set 32 2400)

/-- The rows of the worked correction, and one below L_base. -/
theorem test_corrections :
    correction 0 8000000 surveyed 84035565 = 1280 ∧ correction 0 8000000 surveyed 93000000 = 1329
      ∧ correction 0 8000000 surveyed 88000000 = 1360 ∧ correction 0 8000000 surveyed 257500000 = 2400
      ∧ correction 20000000 8000000 surveyed 18500000 = -500 := by decide +kernel

/-- The window of the example: winches 1 to 2, points 10 to 12, WINCH_MAJOR. -/
def windowed : Span :=
  { rig with window := { w0 := 1, w1 := 2, j0 := 10, j1 := 12, order := .winchMajor }, ptrW := 1, ptrJ := 10 }

/-- The eight values of the example. -/
def eight : List Int := [900, 1020, 1110, 1240, 60000, 1300, 950, 1060]

/-- A window that wraps: the cells and the pointer after the write, and what a read of three returns. -/
theorem test_window_wraps :
    ((windowed.writeAll eight).corr.w1.drop 10).take 3 = [950, 1110, 50000]
      ∧ ((windowed.writeAll eight).corr.w2.drop 10).take 3 = [1060, 1240, 1300]
      ∧ ((windowed.writeAll eight).ptrW, (windowed.writeAll eight).ptrJ) = (1, 11)
      ∧ ((windowed.writeAll eight).readMany 3).1 = [1110, 1240, 50000] := by decide +kernel

/-- A conversion by hand at S5994, and the limits at each standard (R85, R86). -/
theorem test_conversions :
    accelPer .s5994 3000 = 52 ∧ accelPer .s50 3000 = 75 ∧ speedPer .s5994 6000 = 25024 ∧ speedPer .s50 6000 = 30000
      ∧ speedPer .s60 100 = 416 ∧ accelPer .s60 100 = 1 := by decide +kernel

/-- The second entry of the example asks for 8,000 mm/s and is stored as 6,000; the fourth fills the window. -/
theorem test_cue_append :
    (after (.cueAppend 2 3 8000 0 0) cueing).cue.entries.getLast?.map CueEntry.cruise = some 6000
      ∧ payload (.cueAppend 2 3 8000 0 0) cueing = some [0x02#8, 0x03#8, 0x01#8] := by decide +kernel

/-- CUE_GO takes the mark as it stands and the cue default for a cruise of 0. -/
theorem test_cue_go :
    let s := { cueing with
      motion := { cueing.motion with mode := .stick, copy := none }
      cue := { cueing.cue with running := false }, auth := { cueing.auth with cue := false } }
    (after (.cueGo 2) s).motion.copy.map (fun c => (c.target, c.cruise)) = some (centre, 20000)
      ∧ (after (.cueGo 2) s).motion.mode = .cue ∧ (after (.cueGo 2) s).auth.cue = true := by decide +kernel

/-- The samples of the console that stutters. -/
theorem test_stick_shaping :
    shapeSample authorityPowerOn motionPowerOn.lim { deflection := ⟨700, -40, -1000⟩, scale := 80, deadman := true }
      = ⟨16421, 0, -8000⟩ := by decide +kernel

/-- END_SWAP toggles both mirrors and leaves SWAP (R127). -/
theorem test_end_swap : payload (.endSwap 2) (flying .hold) = some [0x06#8] := by decide +kernel

/-- A fifth sample drops the oldest: four samples, one dropped, overrun 1. -/
theorem test_stick_overrun :
    let q : Sample := { deflection := ⟨700, 0, 0⟩, scale := 80, deadman := true }
    let s := { flying .stick with auth := { (flying .stick).auth with buffer := List.replicate 4 q } }
    payload (.stick 2 ⟨700, 0, 0⟩ 80 1) s = some [0x04#8, 0x01#8, 0x01#8] := by decide +kernel

/-- Port W1 of the following trip: FOLLOW 61,100,000 sent with sequence 45, the following run at 2. -/
def trip : State :=
  let q := { upPort .d 15#4 61060000 with
    sequence := 45, lastSent := some { command := .follow, length := 61100000 }, followRun := 2 }
  portOf 1 q (flying .stick)

/-- Expiry 6 of the trip: FOLLOWING is raised with W1 in its attribution, and the rig is STOPPED/BRAKED. -/
theorem test_following_trip :
    (after (.driveFeedbackFrame 1 45 61045000 500 3) trip).stop.has .following = true
      ∧ (after (.driveFeedbackFrame 1 45 61045000 500 3) trip).stop.attribution.following = 2#4
      ∧ (after (.driveFeedbackFrame 1 45 61045000 500 3) trip).motion.mode = .stopped .braked
      ∧ ((after (.driveFeedbackFrame 1 45 61045000 500 3) trip).ports.get 1).measured = some 61045000 := by
  decide +kernel

/-- A stale echo is discarded. -/
theorem test_stale_echo : exec (.driveFeedbackFrame 1 44 61045000 500 3) trip = .next trip := by rfl

/-- The drive that settles: a third identical ABILITY of classes A to C makes W2 UP at class C. -/
theorem test_settles :
    let q := { portPowerOn with abilityRun := 2, runAbility := some (abilityOf 0x37) }
    ((after (.driveAbilityFrame 2 0x37) (portOf 2 q rigged)).ports.get 2).resolved = some .c := by decide +kernel

/-- The derate: classes A and B alone bring the system speed class to B with DERATE. -/
theorem test_derate :
    systemClass (after (.driveAbilityFrame 2 0x33) (portOf 2 (upPort .c 7#4 0) ready)).ports = some .b
      ∧ eventSet (after (.driveAbilityFrame 2 0x33) (portOf 2 (upPort .c 7#4 0) ready)) .derate = true := by
  decide +kernel

/-- The first bytes of PRBS9 (R157, log 11). -/
theorem test_prbs9 : (genBytes .prbs9 4 (genStart .prbs9)).1 = [0xFF#8, 0xC1#8, 0xFB#8, 0xE8#8] := by decide +kernel

/-- A quick stop that becomes a brake stop: the pull on W3 stops QUICK, W0's third miss BRAKE, and the first cause
stays. -/
theorem test_quick_then_brake :
    let s := raisePortCause .tensionHigh 3 (flyingAt .stick centre ⟨30000, 0, 0⟩)
    (s.stop.kind = .quick ∧ s.motion.mode = .stopping)
      ∧ (raisePortCause .portLost 0 s).stop.kind = .brake
      ∧ (raisePortCause .portLost 0 s).motion.mode = .stopped .braked
      ∧ (raisePortCause .portLost 0 s).stop.first = some { cause := .tensionHigh, port := some 3 } := by decide +kernel

/-- The clear is refused while the port of an attribution is not UP: CAUSE_PRESENT, port 0. -/
theorem test_clear_cause_present :
    let s := portOf 0 portPowerOn (raisePortCause .portLost 0 (flying .stick))
    status (.clearStop 3) s = some .causePresent ∧ payload (.clearStop 3) s = some [0x00#8]
      ∧ status (.clearStop 2) s = some .notPermitted := by decide +kernel

/-- The generator at a pulse of the acquisition at S50. -/
def pulsed (index acc increment lockRun : Nat) (lock : Lock) : PeriodGen :=
  ({ periodPowerOn with index := index, acc := acc, increment := increment, lock := lock, lockRun := lockRun
                        interval := some 1000000 } : PeriodGen).pulse

/-- P1: E is 2^32, the trim is clamped to −85, N becomes 17,095. P51: trim −49, lock run 1. P58: LOCKED. -/
theorem test_acquisition :
    (pulsed 1 0 17180 0 .free).lastE = some 4294967296 ∧ (pulsed 1 0 17180 0 .free).increment = 17095
      ∧ (pulsed 1 0 17180 0 .free).lock = .acquiring ∧ (pulsed 1 0 17180 0 .free).lockRun = 0
      ∧ (pulsed 0 51508096 17095 0 .acquiring).increment = 17131 ∧ (pulsed 0 51508096 17095 0 .acquiring).lockRun = 1
      ∧ (pulsed 0 423808 17180 7 .acquiring).lock = .locked := by decide +kernel

/-- A cable pulled: HOLDOVER, no standard detected, N kept. -/
theorem test_cable_pulled :
    let g := { periodPowerOn with lock := .locked, detected := some .s50, loss := 2999999 }
    let t := after .referenceLoss { State.reset with period := g }
    t.period.lock = .holdover ∧ t.period.detected = none ∧ t.period.increment = 17180
      ∧ eventSet t .reference = true := by decide +kernel

/-- The damaged CLAIM and the READ_STATUS behind it, at step 5: five bytes behind the false sync, and then nothing. -/
def damaged : State :=
  { State.reset with station := { State.reset.station with
      buffer := [0x5C#8, 0x5C#8, 0x02#8, 0x00#8, 0x01#8, 0xB2#8, 0xDD#8], receiver := .inFrame 0, frameErrors := 1 } }

/-- Steps 5 and 6: the false sync is dropped, the count is 2, and READ_STATUS is taken and answered. -/
theorem test_damaged_frame :
    (after .stationFrameTimeout damaged).station.frameErrors = 2
      ∧ (after .stationFrameTimeout damaged).station.inService.map Service.code = some 0x01
      ∧ (after .stationFrameTimeout damaged).station.buffer = [] := by decide +kernel

/-- A PENDING zone amended with a new box in SAFE is not promoted by the next expiry, and is by the one after (R28,
row 4; R26). -/
def reboxedZone : State :=
  after (.zoneAmend 0 0 1 goalMouth 0 0 []) (withAir [keepOut 0 ⟨0, 1, 0, 1, 0, 1⟩ .pending .defer false 0] rigged)

theorem test_reboxed_waits :
    let state := fun (s : State) => (s.air[0]?.bind Slot.zone).map Zone.state
    state reboxedZone = some .pending ∧ state (after .periodExpiry reboxedZone) = some .pending
      ∧ eventSet (after .periodExpiry reboxedZone) .zoneActive = false
      ∧ state (after .periodExpiry (after .periodExpiry reboxedZone)) = some .active := by decide +kernel

/-- The part in the CLK50 period of a wrap, 20,000 short of it, at the S60 increment. -/
def wrapping : State :=
  { State.reset with period := { periodPowerOn with acc := 2 ^ 32 - 20000, increment := 20616, adding := 20616, configured := .s60 } }

/-- SET_STANDARD in the CLK50 period of a wrap: the wrap uses the old N, in either order, and the new N acts from the next
CLK50 period (R182, R192). -/
theorem test_wrap_uses_old_n :
    let request := after (.setStandard 0 1)
    let clock := fun (s : State) => stateAfter s (step s)
    (clock (request wrapping)).period.acc = 616 ∧ (clock (request wrapping)).period.index = 1
      ∧ (request (clock wrapping)).period.acc = 616
      ∧ (clock (clock (request wrapping))).period.acc = 616 + 17180
      ∧ (clock (request (clock wrapping))).period.acc = 616 + 17180
      ∧ (after .periodExpiry (request wrapping)).period.acc = 616 := by decide +kernel

/-- A winch frame cut short fails within PERIOD_EXPIRY: no character behind the expiry completes it (R214). -/
theorem test_cut_frame_fails :
    let s := portOf 3 { upPort .d 15#4 0 with rx := (linkFrame 5 []).dropLast } rigged
    ((after .periodExpiry s).ports.get 3).rx = [] ∧ ((after .periodExpiry s).ports.get 3).badFrames = 1
      ∧ ((after (.winchCharacter 3 0x55#8) (after .periodExpiry s)).ports.get 3).state = .up := by decide +kernel

/-- A station frame cut short, 1 ms before its time-out at 115,200 bit/s: the time-out comes within PERIOD_EXPIRY (R197). -/
theorem test_cut_request_fails :
    let s := { State.reset with station := { State.reset.station with
      buffer := [0x5C#8, 0x02#8], receiver := .inFrame 1061112 } }
    (after .periodExpiry s).station.frameErrors = 1 ∧ (after .periodExpiry s).station.receiver = .hunting
      ∧ (after .periodExpiry s).station.buffer = [] := by decide +kernel

/-- The answers to STOP, READ_STOP and CLEAR_STOP: the mode alone, or with its sub-kind; the causes with or without their
kinds; a flag byte before the fields that may be absent (R172, R176, R178, R212; log 10). -/
theorem test_stop_answers :
    let s := after (.stop 3 3) ready
    payload (.stop 3 3) ready = some [0x00#8, 0x00#8]
      ∧ payload (.readStop 3) s
        = some [0x00#8, 0x00#8, 0x00#8, 0x01#8, 0x00#8, 0x03#8, 0x00#8, 0x03#8, 0x03#8, 0x00#8, 0xFF#8, 0x00#8]
      ∧ payload (.clearStop 3) s = some [0x00#8, 0x01#8, 0x00#8, 0x00#8, 0x01#8, 0x00#8, 0xFF#8]
      ∧ payload (.clearStop 3) ready = some [0x00#8, 0x00#8, 0x00#8, 0xFF#8, 0xFF#8]
      ∧ payload (.cueRead 3) ready = some [0x00#8, 0x04#8, 0x01#8, 0x00#8, 0x00#8, 0x00#8, 0x00#8, 0x00#8] := by
  decide +kernel

/-! ## Witnesses: states and operands that meet the hypotheses of each statement together -/

theorem test_meets_StepRunsTheFrontCommand :
    ({ rigged with pending := [.periodExpiry, .claim 2] } : State).pending = .periodExpiry :: [.claim 2] := rfl

theorem test_meets_ResetsAndRestart :
    ({ rigged with resetHeld := true } : State).resetHeld = true
      ∧ (MaySend (flying .hold) .restart 0 ∧ (flying .hold).motion.mode ≠ .safe
        ∧ (flying .hold).motion.mode ≠ .stopped .braked)
      ∧ (MaySend rigged .restart 0 ∧ rigged.motion.mode = .safe ∧ rigged.estopLineOpen = false)
      ∧ (let s := { stopped (.stopped .braked) .brake 128#8 with air := cornerAir, estopLineOpen := true }
        MaySend s .restart 0 ∧ s.motion.mode = .stopped .braked ∧ s.estopLineOpen = true
        ∧ (s.air[0]?.bind Slot.zone).map Zone.standing = some true
        ∧ (s.air[1]?.bind Slot.zone).map Zone.standing = some false ∧ s.air[47]? = some freeSlot) := by
  unfold MaySend; decide +kernel

theorem test_meets_RequestsAnsweredOrRefusedAtThePort :
    (encodeRequest (.claim 2) = some (2, .claim, []) ∧ rigged.resetHeld = false)
      ∧ (Req.ofCode 0x7A = none ∧ classOf rigged 1 = .absent) ∧ Req.ofCode 0 = none ∧ classOf rigged 0 ≠ .absent := by
  decide +kernel

theorem test_meets_RefusedRequestChangesNothing :
    encodeRequest (.zoneRetire 2 516) = some (2, .zoneRetire, [0x02#8, 0x04#8]) ∧ hovering.resetHeld = false
      ∧ exec (.zoneRetire 2 516) hovering = .next (after (.zoneRetire 2 516) hovering)
      ∧ (after (.zoneRetire 2 516) hovering).station.inService
        = some { station := 2, code := 0x14, status := .notOwner, payload := [] } := by
  refine ⟨by decide, rfl, rfl, by decide +kernel⟩

theorem test_meets_ClassTable :
    encodeRequest (.clearStop 2) = some (2, .clearStop, []) ∧ rigged.resetHeld = false
      ∧ permitted .clearStop (classOf rigged 2) = false := by decide +kernel

/-- A ZONE_CREATE with the longest label a frame can carry. -/
def widest : Instr := .zoneCreate 7 255 goalMouth 255 255 255 65535 16777215 (List.replicate 212 0xFF#8)

theorem test_meets_DecodeOfEncodedRequest :
    (closeGoal.wf = true ∧ encodeRequest closeGoal = some (3, .zoneCreate, closeGoalBytes))
      ∧ (widest.wf = true ∧ (encodeRequest widest).map (fun x => x.2.2.length) = some 246)
      ∧ (Instr.corrWrite 0 (List.replicate 60 (-2147483648))).wf = true := by decide +kernel

/-- The receiver that holds READ_STATUS up to its last byte. -/
def almost : State :=
  { rigged with station := { rigged.station with
      buffer := [0x5C#8, 0x02#8, 0x00#8, 0x01#8, 0xB2#8], receiver := .inFrame 0 } }

theorem test_meets_LastCharacterTakesTheFrame :
    (Instr.readStatus 0).wf = true ∧ encodeRequest (.readStatus 0) = some (0, .readStatus, [])
      ∧ requestFrame 0 Req.readStatus.code [] = [0x5C#8, 0x02#8, 0x00#8, 0x01#8, 0xB2#8] ++ [0xDD#8]
      ∧ almost.resetHeld = false ∧ almost.station.inService = none
      ∧ almost.station.buffer = [0x5C#8, 0x02#8, 0x00#8, 0x01#8, 0xB2#8] := by decide +kernel

/-- A frame of READ_STATUS with a byte too many, a PORT_CONTROL with an action outside its table, an unknown code. -/
theorem test_meets_RequestsAnsweredOrRefusedAtThePort_frames :
    let split := fun (f : List Byte) => f = f.dropLast ++ [f.getLastD 0#8]
    split (requestFrame 0 0x01 [1#8]) ∧ Req.ofCode 0x01 = some .readStatus ∧ permitted .readStatus (classOf rigged 0) = true
      ∧ ¬RightLength .readStatus [1#8]
      ∧ split (requestFrame 0 0x60 [0#8, 5#8]) ∧ Req.ofCode 0x60 = some .portControl ∧ RightLength .portControl [0#8, 5#8]
      ∧ 4 < (([0#8, 5#8] : List Byte).getD 1 0#8).toNat ∧ RightLength .portTest [0#8, 2#8, 0#8, 0#8]
      ∧ split (requestFrame 2 0x60 []) ∧ permitted .portControl (classOf rigged 2) = false
      ∧ split (requestFrame 0 0x0F []) ∧ Req.ofCode 0x0F = none ∧ classOf rigged 1 = .absent ∧ classOf rigged 0 ≠ .absent
      ∧ almost.resetHeld = false ∧ almost.station.inService = none := by
  unfold RightLength; decide +kernel

/-- A receive buffer with a receiver. -/
def received (buf : List Byte) (r : Receiver) : State :=
  { rigged with station := { rigged.station with buffer := buf, receiver := r } }

/-- A link receiver that holds bytes, in a state. -/
def heard (st : PortState) (loop : Loop) (rx : List Byte) : State :=
  portOf 3 { portPowerOn with state := st, test := { testPowerOn with loop := loop }, rx := rx } rigged

theorem test_meets_StationAndWinchLines :
    512 ≤ (received (List.replicate 512 0x00#8) .hunting).station.buffer.length
      ∧ ((received [] .hunting).station.buffer = [] ∧ (received [] .hunting).station.receiver = .hunting
        ∧ (0x00#8 : Byte) ≠ 0x5C#8)
      ∧ ((received [0x5C#8, 0x02#8] (.inFrame 255)).station.receiver = .inFrame 255
        ∧ (received [0x5C#8, 0x02#8] (.inFrame 255)).station.buffer = 0x5C#8 :: [0x02#8]
        ∧ frameBehind [0x02#8] = .incomplete ∧ 0x5C#8 ∉ [(0x02#8 : Byte)])
      ∧ ({ rigged.station with inService := some { station := 0, code := 1, status := .ok, payload := [] } }).buffer = []
      ∧ (((heard .test .internal []).ports.get 3).state = .test
        ∧ ((heard .test .internal []).ports.get 3).test.loop = .internal)
      ∧ (((heard .test .external []).ports.get 3).test.loop = .external ∧ ((heard .test .external []).ports.get 3).rx = [])
      ∧ (((heard .up .internal (linkFrame 1 (byte 63)).dropLast).ports.get 3).rx
          ++ [(linkFrame 1 (byte 63)).getLastD 0#8] = linkFrame 1 (byte 63))
      ∧ (((heard .up .internal (linkFrame 5 []).dropLast).ports.get 3).rx ++ [0x55#8] = linkFrame 5 [])
      ∧ (let good := fun (f : List Byte) => ((heard .up .internal f.dropLast).ports.get 3).rx ++ [f.getLastD 0#8] = f
        good (linkFrame 2 (List.replicate 11 0#8))
        ∧ good (linkFrame 3 (byte 255 ++ beBytes 4 (2 ^ 32 - 1) ++ beBytes 2 65535 ++ byte 255))
        ∧ good (linkFrame 4 (List.replicate 32 0xA5#8))
        ∧ good (0xA5#8 :: (byte 3 ++ List.replicate 8 0#8 ++ [0#8, 0#8]))
        ∧ [0#8, 0#8] ≠ beBytes 2 (crc (byte 3 ++ List.replicate 8 0#8)) ∧ 0xA5#8 ∉ List.replicate 8 0#8 ++ [0#8, 0#8]
        ∧ good (0xA5#8 :: (byte 5 ++ [] ++ [0#8, 0#8])) ∧ [0#8, 0#8] ≠ beBytes 2 (crc (byte 5 ++ [])))
      ∧ ((heard .up .internal [0xA5#8]).ports.get 3).rx = 0xA5#8 :: []
      ∧ ((heard .up .internal [0xA5#8, 0x03#8, 0x00#8]).ports.get 3).rx = 0xA5#8 :: [0x03#8, 0x00#8]
      ∧ 0xA5#8 ∉ [(0x03#8 : Byte), 0x00#8] := by decide +kernel

theorem test_meets_StationAndWinchLines_more :
    (received [0x5C#8] (.inFrame 3)).station.buffer = [0x5C#8] ∧ (1#8 : Byte).toNat < 2 ∧ 248 < (249#8 : Byte).toNat
      ∧ (let f := 0x5C#8 :: 2#8 :: ([0#8, 1#8] ++ [0#8, 0#8])
        [0#8, 0#8] ≠ beBytes 2 (crc (2#8 :: [0#8, 1#8])) ∧ 0x5C#8 ∉ 2#8 :: ([0#8, 1#8] ++ [0#8, 0#8])
        ∧ f.dropLast ++ [0#8] = f ∧ (after (.stationCharacter 0#8) (received f.dropLast (.inFrame 3))).station.frameErrors = 1)
      ∧ (let f := requestFrame 8 1 []
        f.dropLast ++ [f.getLastD 0#8] = f ∧ 0x5C#8 ∉ f.tail
        ∧ (after (.stationCharacter (f.getLastD 0#8)) (received f.dropLast (.inFrame 3))).station.frameErrors = 1)
      ∧ (let s := received (requestFrame 0 Req.readStatus.code []) (.inFrame 3)
        let u := { s with station := { s.station with
          inService := some { station := 0, code := 2, status := .ok, payload := [] } } }
        u.station.inService.isSome = true ∧ (after .answerSent u).station.inService.map Service.code = some 1
        ∧ (after .answerSent u).station.buffer = [])
      ∧ (let run := fun (q : Port) => (after (.winchFrameTimeout 2) (portOf 2 { q with rx := [0xA5#8, 3#8] } rigged)).ports.get 2
        let q := { portPowerOn with
          state := .test, test := { testStart .prbs9 .external with outstanding := .sent (List.replicate 32 0#8) none 0 } }
        (run portPowerOn).badFrames = 1 ∧ (run { portPowerOn with state := .sleep }).badFrames = 1
        ∧ (run { portPowerOn with state := .off }).rx = []
        ∧ (run q).test.outstanding = .sent (List.replicate 32 0#8) (some false) 0
        ∧ (run { q with test := (run q).test }).test.outstanding = .sent (List.replicate 32 0#8) (some false) 1
        ∧ (run { q with test := testStart .prbs9 .internal }).test.errors = 0) := by decide +kernel

/-- STATION_FRAME_TIMEOUT with nothing to time out: an empty buffer in hunting, and a frame complete behind an answer. -/
theorem test_meets_StationAndWinchLines_noFrame :
    (received [] .hunting).resetHeld = false ∧ (received [] .hunting).station.buffer = []
      ∧ (received [] .hunting).station.receiver = .hunting
      ∧ frameBehind (requestFrame 0 Req.readStatus.code []).tail ≠ .incomplete
      ∧ after .stationFrameTimeout (received (requestFrame 0 Req.readStatus.code []) (.inFrame 3))
        = received (requestFrame 0 Req.readStatus.code []) (.inFrame 3) := by decide +kernel

theorem test_meets_StationPortRequestsTaken :
    MaySend rigged .readEvents 0 ∧ MaySend rigged .setAttentionMask 0 ∧ (16383 < 16384) ∧ MaySend rigged .setWatchdog 0
      ∧ MaySend (flying .stick) .setStationClass 0 ∧ givenClassOf 1 = some .safety ∧ steeringClass .safety = true
      ∧ givenClassOf 3 = some .viewer ∧ givenClassOf 4 = some .absent ∧ steeringClass .viewer = false
      ∧ (flying .stick).auth.holder ≠ some 7 ∧ (flying .stick).auth.holder = some 2
      ∧ (flying .stick).motion.mode = .stick ∧ cueing.motion.mode = .cue ∧ cueing.auth.holder = some 2 := by
  unfold MaySend; decide +kernel

theorem test_meets_ReadingRequestsChangeNothing :
    MaySend cueing .readStatus 5 ∧ MaySend cueing .readMotion 5 ∧ MaySend cueing .readGeometry 5
      ∧ MaySend cueing .readLimits 5 ∧ MaySend cueing .readPeriod 5 ∧ MaySend cueing .readStop 5
      ∧ MaySend cueing .cueRead 5 ∧ MaySend cueing .readAuthority 5 ∧ MaySend cueing .markRead 5
      ∧ MaySend cueing .portRead 5
      ∧ (MaySend hovering .zoneLookup 5 ∧ hovering.air[516 / 256]?.map Slot.generation = some (516 % 256)
        ∧ (hovering.air[516 / 256]?.bind Slot.zone).isSome = true)
      ∧ (MaySend cueing .zoneFind 5 ∧ inRange ⟨100000, -100000, 0⟩ = true) ∧ MaySend cueing .zoneList 5 := by
  unfold MaySend; decide +kernel

/-- 10.1: the most significant byte first, two's complement. -/
theorem test_wire_is_big_endian_two_complement :
    wire 3 0x123456 = [0x12#8, 0x34#8, 0x56#8] ∧ wireInt 2 (-2) = [0xFF#8, 0xFE#8] ∧ wireInt 4 1 = [0#8, 0#8, 0#8, 1#8] := by
  decide

theorem test_meets_ReadingRequestsChangeNothing_refused :
    MaySend cueing .markRead 5 ∧ MaySend cueing .zoneFind 5 ∧ MaySend cueing .zoneList 5 ∧ MaySend cueing .portRead 5
      ∧ MaySend cueing .readAuthority 5 ∧ inRange ⟨100001, 0, 0⟩ = false
      ∧ status (.markRead 5 32) cueing = some .badParam ∧ status (.zoneFind 5 ⟨100001, 0, 0⟩) cueing = some .badParam
      ∧ status (.zoneList 5 0 255) cueing = some .badParam ∧ status (.zoneList 5 1 8) cueing = some .badParam
      ∧ status (.portRead 5 4 0) cueing = some .badParam ∧ status (.readAuthority 5 2) cueing = some .badParam := by
  unfold MaySend; decide +kernel

/-- A table with no free slot. -/
def fullTable : State := withAir (List.replicate 48 (keepOut 0 goalMouth .active .defer false 3)) rigged

theorem test_meets_ZoneCreateTaken :
    (MaySend corner .zoneCreate 2 ∧ classOf corner 2 = .pilot)
      ∧ (MaySend corner .zoneCreate 3 ∧ classOf corner 3 ≠ .pilot)
      ∧ (zoneKindOf 0 = some .keepOut ∧ zoneKindOf 1 = some .slow ∧ initialStateOf 1 = some .active
        ∧ initialStateOf 2 = some .suspended ∧ policyOf 1 = some .evict ∧ yesNo 1 = some true
        ∧ boxInRange ⟨-100000, 100000, -100000, 100000, 0, 80000⟩ = true
        ∧ boxInRange ⟨1, 0, 0, 0, 0, 0⟩ = false ∧ (nGoal ++ nGoal).length = 12)
      ∧ (MaySend fullTable .zoneCreate 0 ∧ ∀ sl ∈ fullTable.air, sl.zone ≠ none)
      ∧ corner.air[2]? = some { generation := 4, zone := none }
      ∧ (corner.air.take 2).all (fun sl => sl.zone.isSome) = true := by
  unfold MaySend; decide +kernel

/-- A keep-out with the centre spot on the face of its guarded box at a standoff of 500 mm. -/
def facing (policy : Policy) : Zone := keepOut 0 ⟨500, 2000, -1000, 1000, 0, 20000⟩ .active policy false 3

theorem inside_facing (policy : Policy) : Inside (facing policy) 500000 centre :=
  (guarded_has_iff _ _ _).1 (by cases policy <;> decide +kernel)

theorem outside_facing (policy : Policy) : ¬Inside (facing policy) 499999 centre := fun h =>
  absurd ((guarded_has_iff _ _ _).2 h) (by cases policy <;> decide +kernel)

/-- A zone that became PENDING while a computation was in flight counts no clear period at its commit; one that was
PENDING before the expiry does (R17, R25). -/
theorem test_fresh_waits :
    let zones := [{ facing .defer with state := .pending, fresh := true }, { facing .defer with state := .pending }]
    let t := after .periodCommit (begun (withAir zones (flyingAt .hold ⟨-5000000, 0, 15000000⟩ ⟨0, 0, 0⟩)))
    let clear := fun (k : Nat) => (t.air[k]?.bind Slot.zone).map Zone.clear
    clear 0 = some 0 ∧ clear 1 = some 1 := by decide +kernel

theorem test_meets_ActivationTable :
    (slowZone 0 goalMouth 3000).kind = .slow
      ∧ ((facing .evict).kind = .keepOut ∧ ¬Inside (facing .evict) 499999 centre ∧ Mode.hold ≠ .safe)
      ∧ (Inside (facing .evict) 500000 centre ∧ (Mode.stopped .held).isStopped = true ∧ Mode.cue.steered = true
        ∧ (facing .evict).policy = .evict)
      ∧ (Inside (facing .defer) 500000 centre ∧ (facing .defer).policy = .defer) :=
  ⟨rfl, ⟨rfl, outside_facing _, by decide⟩, ⟨inside_facing _, rfl, rfl, rfl⟩, inside_facing _, rfl⟩

/-- The slot of zone 516 as it hovers. -/
def slot516 : Slot := { generation := 4, zone := some (zone516 goalMouth .active 0) }

theorem test_meets_ZoneAmendTaken :
    MaySend hovering .zoneAmend 3 ∧ Names hovering 516 slot516 (zone516 goalMouth .active 0)
      ∧ MayChange hovering 3 (zone516 goalMouth .active 0) ∧ boxInRange headerBox = true
      ∧ Nat.testBit 31 0 = true ∧ Nat.testBit 4 2 = true ∧ Nat.testBit 12 3 = true := by
  unfold MaySend Names MayChange; decide +kernel

theorem test_meets_ZoneRequestsTakenAndChecked :
    (Names hovering 516 slot516 (zone516 goalMouth .active 0) ∧ MayChange hovering 3 (zone516 goalMouth .active 0)
        ∧ MaySend hovering .zoneSuspend 3 ∧ MaySend hovering .zoneResume 3 ∧ MaySend hovering .zoneRetire 3
        ∧ MaySend hovering .zoneClear 3)
      ∧ (MaySend hovering .zoneRetire 2 ∧ classOf hovering 2 = .pilot ∧ (zone516 goalMouth .active 0).owner ≠ 2)
      ∧ (let z := { keepOut 0 goalMouth .suspended .defer false 2 with standing := true }
        Names (withAir [z] rigged) 0 { generation := 0, zone := some z } z ∧ z.owner = 2 ∧ z.state = .suspended
        ∧ z.standing = true) := by
  unfold MaySend Names MayChange; decide +kernel

theorem test_meets_stale_handle : ∀ sl z, ¬Names hovering 515 sl z := by
  intro sl z h
  have : zoneNamed hovering.air 515 = none := by decide +kernel
  rw [(zoneNamed_eq_some hovering 515 z).2 ⟨sl, h⟩] at this; cases this

/-- Three records with lifetimes 1, 2 and none. -/
def ageing : State :=
  withAir [{ facing .defer with lifetime := some 1 }, { facing .defer with lifetime := some 2 }, facing .defer] rigged

theorem test_meets_ZoneLifetimesAndPromotionAtRest_lifetimes :
    ageing.resetHeld = false ∧ NoFrameWaits ageing ∧ exec .periodExpiry ageing = .next (after .periodExpiry ageing)
      ∧ (ageing.air[0]?.bind Slot.zone).map Zone.lifetime = some (some 1)
      ∧ (ageing.air[1]?.bind Slot.zone).map Zone.lifetime = some (some (0 + 2))
      ∧ (ageing.air[2]?.bind Slot.zone).map Zone.lifetime = some none := by
  refine ⟨rfl, ⟨rfl, by decide +kernel⟩, rfl, by decide +kernel⟩

/-- A table with a record for each case of a commit: SLOW, ACTIVE outside, occupied inside, inside with either policy,
and PENDING outside at either clear count and inside. -/
def mixed : List Zone :=
  [slowZone 0 goalMouth 3000, keepOut 256 goalMouth .active .defer false 3,
    { facing .evict with handle := 512, occupied := true }, { facing .evict with handle := 768 },
    { facing .defer with handle := 1024 }, keepOut 1280 goalMouth .pending .defer false 3,
    { keepOut 1536 goalMouth .pending .defer false 3 with clear := 1 }, { facing .defer with handle := 1792, state := .pending }]

theorem test_meets_CommitDecidesEveryZone :
    (begun (withAir mixed (flying .evict))).resetHeld = false
      ∧ (begun (withAir mixed (flying .evict))).motion.flight = some (snapshot (withAir mixed (flying .evict)))
      ∧ exec .periodCommit (begun (withAir mixed (flying .evict)))
        = .next (after .periodCommit (begun (withAir mixed (flying .evict))))
      ∧ (after .periodCommit (begun (withAir mixed (flying .evict)))).motion.p = some centre
      ∧ mixed.map (fun z => (z.guarded 500000).has centre) = [false, false, true, true, true, false, false, true] := by
  refine ⟨rfl, rfl, rfl, by decide +kernel⟩

theorem test_meets_ZoneLifetimesAndPromotionAtRest :
    let s := withAir [{ facing .defer with state := .pending }, { facing .defer with state := .pending, reboxed := true }]
      (stopped (.stopped .held) .quick 1#8)
    s.resetHeld = false ∧ s.motion.flight = none ∧ NoFrameWaits s ∧ s.motion.mode.isStopped = true
      ∧ exec .periodExpiry s = .next (after .periodExpiry s)
      ∧ s.air[0]? = some { generation := 0, zone := some { facing .defer with state := .pending } }
      ∧ s.air[1]? = some { generation := 0, zone := some { facing .defer with state := .pending, reboxed := true } }
      ∧ (facing .defer).reboxed = false
      ∧ (facing .defer).lifetime ≠ some 0 ∧ (facing .defer).lifetime ≠ some 1 ∧ rigged.motion.mode = .safe := by
  refine ⟨rfl, rfl, ⟨rfl, by decide +kernel⟩, rfl, rfl, by decide +kernel, by decide +kernel, rfl, by decide, by decide, rfl⟩


theorem airOk_corner : AirOk corner := by
  refine ⟨by decide +kernel, ?_⟩
  intro k sl h
  match k, h with
  | 0, h => cases h; refine ⟨by decide, ?_⟩; rintro z ⟨⟩; unfold ZoneOk; refine ⟨by decide, by decide, by decide, by decide, by decide, by decide, by decide, by decide⟩
  | 1, h =>
    cases h; refine ⟨by decide, ?_⟩; rintro z ⟨⟩; unfold ZoneOk
    exact ⟨by decide, by decide, by decide, fun _ => ⟨3000, rfl, by decide, by decide⟩, by decide, by decide, by decide, by decide⟩
  | 2, h => cases h; exact ⟨by decide, by rintro z ⟨⟩⟩
  | k + 3, h =>
    have hk : (List.replicate 45 freeSlot)[k]? = some sl := h
    rw [List.getElem?_replicate] at hk
    split at hk
    · cases hk; exact ⟨by decide, by rintro z ⟨⟩⟩
    · cases hk

theorem test_meets_AirKept : AirOk corner ∧ (∀ c ∈ corner.pending, c.wf = true)
    ∧ step corner = .next (stateAfter corner (step corner)) := ⟨airOk_corner, by decide +kernel, rfl⟩

/-- The mode law in a steered mode at rest, no cue running and no computation in flight, checked field by field. -/
theorem modeOk_flying (m : Mode) (p v : Vec3) (h : m = .hold ∨ m = .stick ∨ m = .evict) : ModeOk (flyingAt m p v) := by
  unfold ModeOk
  and_intros
  all_goals try (rcases h with rfl | rfl | rfl <;> simp [flyingAt, ready, rigged, State.reset, powerOnValues,
    motionPowerOn, authorityPowerOn, cuePowerOn, stopEmpty, kindFits, StopUnit.has, Mode.isStopped, Mode.steered])

/-- A computation read in a steered mode fits the state it was read in. -/
theorem modeOk_begun (zs : List Zone) (m : Mode) (p v : Vec3) (h : m = .hold ∨ m = .stick ∨ m = .evict) :
    ModeOk (begun (withAir zs (flyingAt m p v))) := by
  obtain ⟨h1, h2, h3, h4, h5, h6, h7, h8, h9, h10, h11, h12, h13, -⟩ := modeOk_flying m p v h
  refine ⟨h1, h2, h3, h4, h5, h6, h7, h8, h9, h10, h11, h12, h13, ?_⟩
  intro c hc
  obtain rfl := (Option.some.inj hc).symm
  have hs : m.steered = true := by rcases h with rfl | rfl | rfl <;> rfl
  have hn : m ≠ .stopping := by rcases h with rfl | rfl | rfl <;> decide
  refine ⟨rfl, rfl, .inl hs, .inl hs, fun hc => absurd hc hn, ?_⟩
  intro hl
  have : (m == .cue) = true := hl
  rcases h with rfl | rfl | rfl <;> cases this

theorem inBox_of (s : State) (p : Vec3) (hp : s.motion.p = some p) (h : s.span.flightBox.has p = true) :
    InFlightBox s := by
  intro q hq; rw [hp] at hq; cases hq; exact h

theorem centre_inBox : rig.flightBox.has centre = true := by decide +kernel

theorem test_meets_OccupiedKept :
    OccupiedExact (withAir [{ facing .evict with occupied := true }] (flying .evict))
      ∧ ModeOk (withAir [{ facing .evict with occupied := true }] (flying .evict)) := by
  refine ⟨?_, modeOk_flying .evict centre ⟨0, 0, 0⟩ (.inr (.inr rfl))⟩
  unfold OccupiedExact; decide +kernel

/-- The ports of a rig whose winch 0 reads short by a number of µm. -/
def shortBy (n : Nat) : State := portOf 0 (upPort .d 15#4 (centreLength - n)) ready

theorem test_meets_EnableAndDisable :
    (MaySend ready .enable 0 ∧ ready.motion.mode = .safe ∧ ready.span.validity = .valid ∧ ready.stop.causes = 0#8
        ∧ (∀ q ∈ ready.ports.list, q.state = .up ∧ q.status.ready = true ∧ q.status.fault = 0)
        ∧ ready.span.flightBox.has centre = true
        ∧ ready.ports.map Port.measured = quadOf (some centreLength)
        ∧ (demandLengths ready.span centre) = quadOf (centreLength : Int))
      ∧ (rigged.span.validity = .valid ∧ rigged.ports.list.all (fun q => q.state == .up) = false)
      ∧ State.reset.span.validity ≠ .valid
      ∧ ready.span.flightBox.has ⟨50001000, 0, 15000000⟩ = false ∧ ready.span.flightBox.has ⟨50000000, 0, 15000000⟩ = true
      ∧ (shortBy 100000).portLimits.tolerance * 1000 = 100000
      ∧ (demandLength rig centre 0 - (((shortBy 100001).ports.get 0).measured.getD 0 : Nat)).natAbs = 100001
      ∧ (MaySend (flying .hold) .disable 0 ∧ (flying .hold).motion.mode = .hold
        ∧ (flying .hold).motion.vOld = ⟨0, 0, 0⟩) := by
  unfold MaySend; decide +kernel

theorem test_meets_EnableAndDisable_barred :
    facing .evict ∈ liveZones (withAir [facing .evict] ready).air ∧ (facing .evict).kind = .keepOut
      ∧ (facing .evict).state = .active ∧ Inside (facing .evict) ready.motion.lim.standoff centre :=
  ⟨by decide +kernel, rfl, rfl, inside_facing _⟩

theorem test_meets_PeriodCommitCommits :
    (begun (flying .stick)).resetHeld = false ∧ (flying .stick).motion.flight = none
      ∧ (begun (flying .stick)).motion.flight = some (snapshot (flying .stick))
      ∧ (begun (flying .stick)).motion.lengths = some (demandLengths rig centre)
      ∧ (nextPosition (begun (flying .stick)) (snapshot (flying .stick))).isSome = true
      ∧ (snapshot (flying .stick)).mode ≠ .cue ∧ (snapshot (flying .stick)).mode ≠ .stopping := by
  refine ⟨rfl, rfl, rfl, rfl, by decide +kernel, by decide, by decide⟩

theorem test_meets_AccelerationLawAndStoppingRunsDown :
    let s := withAir [] (flyingAt .stick centre ⟨30000, 0, 0⟩)
    ModeOk (begun s) ∧ InFlightBox (begun s) ∧ (begun s).resetHeld = false
      ∧ (begun s).motion.flight = some (snapshot s)
      ∧ exec .periodCommit (begun s) = .next (after .periodCommit (begun s)) :=
  ⟨modeOk_begun [] .stick centre ⟨30000, 0, 0⟩ (.inr (.inl rfl)), inBox_of _ centre rfl centre_inBox, rfl, rfl, rfl⟩

theorem test_meets_SpeedLaw :
    let z := slowZone 0 ⟨0, 5000, 0, 5000, 0, 20000⟩ 3000
    let s := withAir [z] (flyingAt .stick centre ⟨30000, 0, 0⟩)
    ModeOk (begun s) ∧ InFlightBox (begun s) ∧ (begun s).motion.flight = some (snapshot s)
      ∧ z ∈ (snapshot s).zones ∧ z.kind = .slow ∧ z.box.um.has (snapshot s).p = true ∧ z.cap = some 3000 := by
  refine ⟨modeOk_begun _ .stick centre ⟨30000, 0, 0⟩ (.inr (.inl rfl)), inBox_of _ centre rfl centre_inBox, rfl,
    by decide +kernel, rfl, by decide +kernel, rfl⟩

theorem test_meets_ApproachLaw :
    (0 < (⟨1, 0, 0⟩ : Vec3).get .x ∧ (⟨50000000, 0, 15000000⟩ : Vec3).get .x = rig.flightBox.hi .x)
      ∧ ((⟨-1, 0, 0⟩ : Vec3).get .x < 0 ∧ (⟨-50000000, 0, 15000000⟩ : Vec3).get .x = rig.flightBox.lo .x)
      ∧ rig.flightBox.has ⟨50000000, 0, 15000000⟩ = true
      ∧ (let z := keepOut 0 goalMouth .active .defer false 3
        z ∈ [z] ∧ z.kind = .keepOut ∧ z.occupied = false
        ∧ (z.box.lo .y * 1000 - 500000 - 2000000 ≤ -11700000 ∧ -11700000 ≤ z.box.hi .y * 1000 + 500000 + 2000000)
        ∧ (z.box.lo .z * 1000 - 500000 - 2000000 ≤ (11500000 : Int) ∧ (11500000 : Int) ≤ z.box.hi .z * 1000 + 500000 + 2000000)
        ∧ (46499999 : Int) < z.box.lo .x * 1000 - 500000)
      ∧ (let z := slowZone 0 goalMouth 3000
        z ∈ [z] ∧ z.kind = .slow ∧ z.cap = some 3000
        ∧ (z.box.lo .y * 1000 - 2000000 ≤ -11200000 ∧ -11200000 ≤ z.box.hi .y * 1000 + 2000000)
        ∧ (z.box.lo .z * 1000 - 2000000 ≤ (11000000 : Int) ∧ (11000000 : Int) ≤ z.box.hi .z * 1000 + 2000000)
        ∧ (46999999 : Int) < z.box.lo .x * 1000 ∧ (1 : Int) = z.box.lo .x * 1000 - 46999999
        ∧ (approach .s50 motionPowerOn.lim rig.flightBox [slowZone 0 ⟨0, 5000, 0, 5000, 0, 20000⟩ 3000] ⟨-1, 0, 15000000⟩
          ⟨30000, 0, 0⟩).x = 15000) := by
  decide +kernel

/-- A keep-out whose guarded face the carriage touches from outside, flown at. -/
def touching : State := withAir [keepOut 0 ⟨1000, 2000, -1000, 1000, 0, 30000⟩ .active .defer false 3]
  (flyingAt .stick ⟨499999, 0, 15000000⟩ ⟨5000, 0, 0⟩)

theorem test_meets_ClipLaw :
    ModeOk (begun touching) ∧ InFlightBox (begun touching)
      ∧ (begun touching).motion.flight = some (snapshot touching)
      ∧ (begun touching).motion.p = some ⟨499999, 0, 15000000⟩
      ∧ (after .periodCommit (begun touching)).motion.p = some ⟨499999, 0, 15000000⟩
      ∧ keepOut 0 ⟨1000, 2000, -1000, 1000, 0, 30000⟩ .active .defer false 3 ∈ (snapshot touching).zones
      ∧ ¬Inside (keepOut 0 ⟨1000, 2000, -1000, 1000, 0, 30000⟩ .active .defer false 3)
          (begun touching).motion.lim.standoff ⟨499999, 0, 15000000⟩ := by
  refine ⟨modeOk_begun _ .stick ⟨499999, 0, 15000000⟩ ⟨5000, 0, 0⟩ (.inr (.inl rfl)),
    inBox_of _ ⟨499999, 0, 15000000⟩ rfl (by decide +kernel), rfl, rfl, by decide +kernel, by decide +kernel, ?_⟩
  intro h; exact absurd ((guarded_has_iff _ _ _).2 h) (by decide +kernel)

theorem test_meets_InFlightBoxKept : InFlightBox (flying .hold) ∧ ModeOk (flying .hold)
    ∧ step (flying .hold) = .next (stateAfter (flying .hold) (step (flying .hold))) :=
  ⟨inBox_of _ centre rfl centre_inBox, modeOk_flying _ _ _ (.inl rfl), rfl⟩

/-- A quick stop running down. -/
def running (vx : Int) : State :=
  let s := flyingAt .stopping centre ⟨vx, 0, 0⟩
  { s with stop := { s.stop with kind := .quick, causes := 4#8 } }

theorem modeOk_running (vx : Int) : ModeOk (begun (running vx)) := by
  unfold ModeOk
  and_intros
  all_goals try (simp [running, begun, flyingAt, ready, rigged, State.reset, powerOnValues, motionPowerOn,
    authorityPowerOn, cuePowerOn, stopEmpty, kindFits, StopUnit.has, Cause.bit, Mode.isStopped, Mode.steered]; done)
  intro c hc
  obtain rfl := (Option.some.inj hc).symm
  exact ⟨rfl, rfl, .inr rfl, .inr rfl, fun _ => ⟨rfl, rfl⟩, fun h => by cases h⟩

theorem test_meets_AccelerationLawAndStoppingRunsDown_stopping :
    ModeOk (begun (running 125)) ∧ InFlightBox (begun (running 125)) ∧ (begun (running 125)).resetHeld = false
      ∧ (begun (running 125)).motion.flight = some (snapshot (running 125)) ∧ (snapshot (running 125)).mode = .stopping
      ∧ (after .periodCommit (begun (running 125))).motion.vOld = ⟨0, 0, 0⟩
      ∧ (after .periodCommit (begun (running 126))).motion.vOld = ⟨1, 0, 0⟩ := by
  exact ⟨modeOk_running 125, inBox_of _ centre rfl centre_inBox, rfl, rfl, rfl, by decide +kernel, by decide +kernel⟩

theorem test_meets_ExpiryBeginsComputation_noFrame :
    NoFrameWaits (flying .hold) ∧ NoFrameWaits cueing ∧ NoFrameWaits (running 30000) :=
  ⟨⟨rfl, by decide +kernel⟩, ⟨rfl, by decide +kernel⟩, ⟨rfl, by decide +kernel⟩⟩

theorem test_meets_ExpiryBeginsComputation :
    (∀ m ∈ [Mode.hold, .stick, .evict, .cue, .safe, .stopped .held],
        (flying m).resetHeld = false ∧ (flying m).motion.flight = none
        ∧ (∀ q ∈ (flying m).ports.list, q.state = .up → q.good = true ∨ q.lastSent = none)
        ∧ (flying m).station.silence + 1 < (flying m).station.watchdog)
      ∧ (running 30000).motion.flight = none ∧ (running 30000).motion.mode = .stopping
      ∧ (flying .hold).motion.p = some centre ∧ cueing.motion.copy = some copyNow
      ∧ { facing .evict with occupied := true } ∈ liveZones (withAir [{ facing .evict with occupied := true }] (flying .hold)).air
      ∧ (snapshot (flying .stick)).mode = .stick ∧ (snapshot cueing).mode = .cue
      ∧ (flying .stick).auth.holder.isSome = true ∧ cueing.auth.holder.isSome = true ∧ cueing.auth.explicit = true
      ∧ cueing.cue.entries = entryOf 7 :: [entryOf 3]
      ∧ (after .periodExpiry (withAir [{ facing .evict with occupied := true }] cueing)).motion.mode = .evict
      ∧ (after .periodExpiry (withAir [facing .evict] cueing)).motion.mode = .hold
      ∧ (after .periodExpiry (withAir [{ facing .evict with occupied := true }] (flying .stick))).motion.mode = .evict := by
  decide +kernel

/-- The limits of the stages at their edges: the demand one acceleration away and one further, the speed at its limit and
one above, a step into a guarded box and out of it, and a demand that nothing cuts. -/
theorem test_meets_StagesOfTheStep :
    (rateLimit 50 ⟨100, 100, 100⟩ ⟨150, 151, 49⟩ = ⟨150, 150, 50⟩)
      ∧ (speedCap 5 7 ⟨3, 4, -8⟩ = ⟨3, 4, -7⟩ ∧ speedCap 4 8 ⟨3, 4, 8⟩ = ⟨2, 3, 8⟩)
      ∧ (let g : Box := ⟨0, 10, 0, 10, 0, 10⟩
        g.has ⟨0, 5, 5⟩ = true ∧ (-1 < g.lo .x) ∧ clipZone ⟨-1, 5, 5⟩ ⟨0, 5, 5⟩ g = ⟨-1, 5, 5⟩
        ∧ clipZone ⟨-1, 11, 5⟩ ⟨0, 10, 5⟩ g = ⟨-1, 10, 5⟩ ∧ clipZone ⟨5, 5, 5⟩ ⟨5, 5, 6⟩ g = ⟨5, 5, 6⟩
        ∧ clipZone ⟨-1, 5, 5⟩ ⟨-2, 5, 5⟩ g = ⟨-2, 5, 5⟩)
      ∧ rig.flightBox.ordered = true
      ∧ (let s := begun { withAir [facing .evict] (flyingAt .stick centre ⟨0, 0, 0⟩) with
            auth := { authorityPowerOn with lastDemand := some ⟨-50, 0, 50⟩, holder := some 2 } }
        let c := snapshot { withAir [facing .evict] (flyingAt .stick centre ⟨0, 0, 0⟩) with
            auth := { authorityPowerOn with lastDemand := some ⟨-50, 0, 50⟩, holder := some 2 } }
        let goal : Vec3 := ⟨-50, 0, 15000050⟩
        s.resetHeld = false ∧ s.motion.flight = some c ∧ c.demand = ⟨-50, 0, 50⟩ ∧ c.mode = .stick
        ∧ (∀ k, (c.demand.get k - c.vOld.get k).natAbs ≤ s.motion.lim.a) ∧ c.speedClass = some .d
        ∧ isqrt (50 * 50 + 0 * 0) ≤ s.motion.lim.vh ∧ isqrt (50 * 50 + 0 * 0) ≤ s.span.classCaps.w3
        ∧ 50 ≤ s.motion.lim.vz
        ∧ approach s.period.configured s.motion.lim s.span.flightBox c.zones c.p c.demand = c.demand
        ∧ s.span.flightBox.has goal = true ∧ (∀ z ∈ c.zones, z.kind ≠ .slow ∧ (z.guarded s.motion.lim.standoff).has goal = false)
        ∧ (after .periodCommit s).motion.p = some goal)
      ∧ (let v := cueProfile 50 20000 ⟨0, 0, 0⟩ centre ⟨0, 0, 15000050⟩
        isqrt (Vec3.minus ⟨0, 0, 15000050⟩ centre).sq = 50 ∧ v = ⟨0, 0, 50⟩)
      ∧ cueProfile 50 20000 ⟨0, 0, 0⟩ centre ⟨0, 0, 15000051⟩ = ⟨0, 0, 50⟩
      ∧ evictDemand 50 5000 ⟨0, 0, 0⟩ centre { dir := .xMinus, pos := ⟨-1, 0, 15000000⟩ } = ⟨-1, 0, 0⟩
      ∧ evictDemand 50 5000 ⟨0, 0, 0⟩ centre { dir := .zPlus, pos := ⟨0, 0, 15000051⟩ } = ⟨0, 0, 50⟩ := by
  refine ⟨by decide +kernel, by decide +kernel, by decide +kernel, by decide +kernel, ⟨by decide +kernel, rfl,
    by decide +kernel, by decide +kernel, ?_, by decide +kernel⟩, by decide +kernel⟩
  intro k; cases k <;> decide +kernel

/-- The nearest exit of the occupied zone is across its face at x 0. -/
theorem test_meets_ExitSearchIsNearest :
    exitSearch rig.flightBox 500000 [{ facing .evict with occupied := true }] centre
        = some { dir := .xMinus, pos := ⟨-1, 0, 15000000⟩ }
      ∧ exitSearch rig.flightBox 500000 [] centre = none := by decide +kernel

/-- The running cue at its dwell, or blocked at a no-progress count. -/
def cueAt (dwellLeft : Option Nat) (noProgress : Nat) (es : List CueEntry) : State :=
  { cueing with
    motion := { cueing.motion with copy := some { copyNow with dwellLeft := dwellLeft, noProgress := noProgress } }
    cue := { cueing.cue with entries := es } }

theorem test_meets_CueThresholds :
    let s := cueAt (some 1) 0 [entryOf 7, entryOf 3]
    (s.resetHeld = false ∧ s.motion.mode = .cue ∧ s.cue.entries = entryOf 7 :: [entryOf 3]
        ∧ s.auth.holder.isSome = true ∧ s.motion.copy = some { copyNow with dwellLeft := some 1 } ∧ s.auth.explicit = true
        ∧ (entryOf 7).haltAfter = false
        ∧ unreachable s.span.flightBox s.motion.lim.standoff (liveZones s.air) (markTarget s (entryOf 3).mark) = false)
      ∧ (after .cueDwellExpiry s).motion.copy = some (copyOf s (entryOf 3))
      ∧ (cueAt none 15 [entryOf 7]).motion.copy = some { copyNow with noProgress := 15 }
      ∧ (after .cueBlocked (cueAt none 15 [entryOf 7])).cue.failure = some { reason := .blocked, mark := 7 }
      ∧ (after .cueDwellExpiry (cueAt (some 1) 0 [entryOf 7])).motion.mode = .hold := by decide +kernel

/-- A cue in flight toward a mark, at a distance, at the mark, in its dwell and blocked. -/
def cueFlight (target : Vec3) (dwell : Nat) (dwellLeft : Option Nat) (noProgress : Nat) (es : List CueEntry) : State :=
  begun { cueing with
    motion := { cueing.motion with copy := some { copyNow with
      target := target, dwell := dwell, dwellLeft := dwellLeft, noProgress := noProgress
      lastD := if target = centre then 0 else 1000 } }
    cue := { cueing.cue with entries := es } }

theorem test_meets_CueAtCommit :
    let goal : Vec3 := ⟨0, 0, 15001000⟩
    let s := cueFlight goal 0 none 14 [entryOf 7, entryOf 3]
    let both := [entryOf 7, entryOf 3]
    let next := fun (u : State) => after .periodCommit u
    (s.resetHeld = false ∧ s.motion.flight.map Computation.mode = some .cue
        ∧ s.motion.flight.map Computation.cueLive = some true ∧ s.motion.mode = .cue
        ∧ s.cue.entries = entryOf 7 :: [entryOf 3] ∧ s.auth.holder.isSome = true)
      ∧ (s.motion.copy.map CueCopy.dwellLeft = some none ∧ (next s).motion.p = some ⟨0, 0, 15000050⟩
        ∧ (next s).motion.copy.map CueCopy.noProgress = some 0 ∧ (next s).motion.copy.map CueCopy.lastD = some 950)
      ∧ (let far := cueFlight ⟨60000000, 0, 15000000⟩ 0 none 14 both
        (next far).motion.copy.map CueCopy.noProgress = some 15 ∧ (next far).motion.mode = .cue)
      ∧ (next (cueFlight ⟨60000000, 0, 15000000⟩ 0 none 15 both)).cue.failure = some { reason := .blocked, mark := 7 }
      ∧ (next (cueFlight centre 3 none 0 both)).motion.copy.map CueCopy.dwellLeft = some (some 3)
      ∧ (next (cueFlight centre 3 (some 2) 0 both)).motion.copy.map CueCopy.dwellLeft = some (some 1)
      ∧ (next (cueFlight centre 0 none 0 both)).cue.entries = [entryOf 3]
      ∧ (next (cueFlight centre 3 (some 1) 0 both)).motion.mode = .cue
      ∧ (next (cueFlight centre 3 (some 1) 0 [{ entryOf 7 with haltAfter := true }])).motion.mode = .hold
      ∧ (next { s with motion := { s.motion with flight := s.motion.flight.map (fun c => { c with cueLive := false }) } }).motion.copy
        = s.motion.copy := by
  decide +kernel

theorem test_meets_ModeKept : ModeOk (flying .stick) ∧ step (flying .stick)
    = .next (stateAfter (flying .stick) (step (flying .stick))) := ⟨modeOk_flying _ _ _ (.inr (.inl rfl)), rfl⟩


theorem test_meets_GeometryRequestsAndValidity :
    MaySend rigged .setAnchors 0 ∧ MaySend rigged .setFlightBox 0 ∧ MaySend rigged .setPayout 0
      ∧ rigged.motion.mode = .safe ∧ (flying .hold).motion.mode ≠ .safe ∧ MaySend (flying .hold) .setPayout 0
      ∧ boxInRange ⟨-100000, 100000, -100000, 100000, 0, 80000⟩ = true ∧ boxInRange ⟨0, 0, 0, 0, 0, 80001⟩ = false := by
  unfold MaySend; decide +kernel

/-- The details of checks 2 and 4 (R74, R75): the box past the anchors on Y max; a cable longer than the payout max. -/
theorem test_meets_GeometryRequestsAndValidity_details :
    validityOf { rig with flightBox := { rig.flightBox with yMax := 45000001 } } = .boxOutsideAnchors .y true
      ∧ validityOf { rig with flightBox := { rig.flightBox with xMin := -60000001, yMax := 45000001 } }
        = .boxOutsideAnchors .x false
      ∧ validityOf { rig with payoutMax := 60000 } = .payoutRange 0 1 false true
      ∧ validityOf { rig with corr := rig.corr.put 0 ((List.replicate 32 0) ++ [-50000000000]) }
        = .payoutRange 0 0 true false := by decide +kernel

theorem test_meets_CorrectionRequestsAndReadBack :
    MaySend rigged .corrWindow 0 ∧ MaySend rigged .corrWrite 0 ∧ MaySend rigged .corrRead 0 ∧ rigged.motion.mode = .safe
      ∧ MaySend (flying .hold) .corrWrite 0 ∧ (flying .hold).motion.mode ≠ .safe
      ∧ (List.replicate 60 (0 : Int)).length = 60 ∧ (List.replicate 61 (0 : Int)).length = 61
      ∧ (rig.window.order = .pointMajor ∧ rig.ptrJ < rig.window.j1)
      ∧ (windowed.window.order = .winchMajor ∧ windowed.ptrW < windowed.window.w1 ∧ windowed.ptrW < 4
        ∧ windowed.ptrJ < (windowed.corr.get windowed.ptrW).length)
      ∧ (let g := { windowed with ptrW := 2, ptrJ := 12 }
        ¬g.ptrW < g.window.w1 ∧ ¬g.ptrJ < g.window.j1) := by
  unfold MaySend; decide +kernel

theorem spanOk_rigged : SpanOk rigged := by unfold SpanOk; decide +kernel

theorem test_meets_CorrectionRequestsAndReadBack_readBack :
    SpanOk rigged ∧ rigged.resetHeld = false ∧ rigged.motion.mode = .safe ∧ (eight.take 6).length = 6
      ∧ 6 ≤ (2 - 1 + 1) * (12 - 10 + 1) :=
  ⟨spanOk_rigged, rfl, rfl, rfl, by decide⟩

theorem test_meets_DemandLengthLaw :
    (0 < 8000000) ∧ (18500000 < 20000000) ∧ (0 + 32 * 8000000 ≤ 257500000)
      ∧ (10 < 32 ∧ 0 + 10 * 8000000 ≤ 84035565 ∧ 84035565 < 0 + (10 + 1) * 8000000)
      ∧ (∀ v ∈ surveyed, v.natAbs ≤ 50000) := by decide +kernel

theorem test_meets_LimitsAndStandardTaken :
    MaySend rigged .setLimits 0 ∧ MaySend rigged .setStandard 0 ∧ rigged.motion.mode = .safe
      ∧ MaySend (flying .hold) .setLimits 0 ∧ (flying .hold).motion.mode ≠ .safe
      ∧ Standard.s50 = rigged.period.configured ∧ Standard.s60 ≠ rigged.period.configured := by
  unfold MaySend; decide +kernel

theorem test_meets_SpanKept : SpanOk rigged ∧ step rigged = .next (stateAfter rigged (step rigged)) := ⟨spanOk_rigged, rfl⟩

theorem test_meets_MarkAndCueListRequests :
    MaySend cueing .markSet 2 ∧ MaySend cueing .markRetire 2 ∧ MaySend cueing .cueAppend 2 ∧ MaySend cueing .setCueWindow 2
      ∧ MaySend cueing .cueHalt 3 ∧ MaySend cueing .cueFlush 2
      ∧ cueing.marks.getD 31 none = none ∧ cueing.marks.getD 7 none = some (markOf ⟨0, 0, 15000⟩ 0)
      ∧ cueing.marks.getD 3 none = some (markOf ⟨46000, 6000, 12000⟩ 2) ∧ classOf cueing 2 = .pilot
      ∧ classOf cueing 3 = .safety ∧ cueing.auth.holder = some 2
      ∧ inRange ⟨50000, -40000, 3000⟩ = true ∧ cueing.span.flightBox.has ⟨50000000, -40000000, 3000000⟩ = true
      ∧ (∃ e ∈ cueing.cue.entries, e.mark = 7) ∧ (∀ e ∈ cueing.cue.entries, e.mark ≠ 31)
      ∧ (List.replicate 16 (entryOf 7)).length = 16 ∧ (flying .hold).motion.mode ≠ .cue
      ∧ (flying .hold).auth.holder = some 2 := by
  unfold MaySend; decide +kernel

theorem test_meets_CueGoAndHalt :
    (MaySend cueing .cueHalt 2 ∧ MaySend cueing .cueFlush 3 ∧ cueing.auth.holder = some 2 ∧ classOf cueing 3 = .safety
        ∧ cueing.motion.mode = .cue ∧ cueing.auth.explicit = true)
      ∧ (let s := { flying .stick with marks := cueing.marks, cue := { cuePowerOn with entries := cueing.cue.entries } }
        MaySend s .cueGo 2 ∧ s.auth.holder = some 2 ∧ s.motion.mode = .stick ∧ s.cue.entries = entryOf 7 :: [entryOf 3]
        ∧ s.marks.getD (entryOf 7).mark none = some (markOf ⟨0, 0, 15000⟩ 0) ∧ s.motion.p = some centre
        ∧ s.span.flightBox.has ⟨0 * 1000, 0 * 1000, 15000 * 1000⟩ = true ∧ liveZones s.air = [])
      ∧ (flying .hold).cue.entries = [] ∧ (flying .evict).motion.mode ≠ .hold ∧ (flying .evict).motion.mode ≠ .stick := by
  unfold MaySend; decide +kernel

/-- An unreachable target, for CUE_GO's other outcome. -/
theorem test_meets_CueGoAndHalt_barred :
    facing .evict ∈ liveZones (withAir [facing .evict] (flying .hold)).air ∧ (facing .evict).kind = .keepOut
      ∧ (facing .evict).state = .active ∧ Inside (facing .evict) (flying .hold).motion.lim.standoff centre :=
  ⟨by decide +kernel, rfl, rfl, inside_facing _⟩

theorem test_meets_CuesKept : CuesOk cueing ∧ step cueing = .next (stateAfter cueing (step cueing)) := by
  refine ⟨?_, rfl⟩
  unfold CuesOk; decide +kernel

/-- Authority free, with stations pending. -/
def waitingFor (ps : List Nat) (backoff : List Nat) : State :=
  { flying .hold with auth := { authorityPowerOn with pending := ps, backoff := backoff } }

theorem test_meets_ClaimWithdrawRelease :
    (MaySend (flying .hold) .claim 2 ∧ (flying .hold).auth.holder = some 2)
      ∧ (MaySend (waitingFor [2, 3] []) .claim 3 ∧ 3 ∈ (waitingFor [2, 3] []).auth.pending)
      ∧ (MaySend (waitingFor [1, 2, 3, 4, 5, 6, 7] []) .claim 0 ∧ 0 ∉ (waitingFor [1, 2, 3, 4, 5, 6, 7] []).auth.pending
        ∧ 7 ≤ (waitingFor [1, 2, 3, 4, 5, 6, 7] []).auth.pending.length)
      ∧ (MaySend (waitingFor [2] []) .withdraw 2) ∧ (MaySend (flying .stick) .release 2 ∧ (flying .stick).auth.cue = false)
      ∧ (MaySend cueing .release 2 ∧ cueing.auth.cue = true ∧ cueing.auth.holder = some 2) := by
  unfold MaySend; decide +kernel

theorem test_meets_PreemptAndSelectMode :
    (MaySend (flying .stick) .preempt 3 ∧ (flying .stick).auth.holder = some 2 ∧ 2 ≠ 3)
      ∧ (MaySend (waitingFor [2] []) .preempt 3 ∧ (waitingFor [2] []).auth.holder = none)
      ∧ (MaySend (flying .hold) .selectMode 2 ∧ (flying .hold).motion.mode = .hold)
      ∧ (MaySend cueing .selectMode 2 ∧ cueing.motion.mode = .cue ∧ cueing.auth.explicit = true)
      ∧ (let s := { cueing with auth := { cueing.auth with explicit := false } }
        MaySend s .selectMode 2 ∧ s.auth.holder = some 2 ∧ s.motion.mode = .cue ∧ s.auth.explicit = false)
      ∧ (flying .evict).motion.mode ≠ .hold := by
  unfold MaySend; decide +kernel

/-- The steered rig with samples in the buffer. -/
def buffered (n : Nat) (filling : Bool) : State :=
  { flying .stick with auth := { (flying .stick).auth with
      buffer := List.replicate n { deflection := ⟨700, 0, 0⟩, scale := 80, deadman := true }, filling := filling } }

theorem test_meets_StickRequestsAndShaping :
    (MaySend (buffered 3 false) .stick 2 ∧ (buffered 3 false).auth.holder = some 2
        ∧ (buffered 3 false).motion.mode = .stick ∧ (buffered 3 false).auth.buffer.length < 4)
      ∧ (buffered 4 false).auth.buffer.length = 4 ∧ (flying .hold).motion.mode ≠ .stick
      ∧ MaySend (flying .hold) .setOrientation 2 ∧ MaySend (flying .hold) .endSwap 2 ∧ MaySend (flying .hold) .setStick 0
      ∧ classOf (flying .hold) 0 = .supervisor ∧ MaySend (flying .hold) .readAuthority 5
      ∧ (flying .hold).auth.holder ≠ some 5 ∧ classOf (flying .hold) 5 ≠ .supervisor
      ∧ ((50 : Int).natAbs ≤ authorityPowerOn.deadband ∧ authorityPowerOn.deadband < (51 : Int).natAbs) := by
  unfold MaySend; decide +kernel

theorem test_meets_ArbiterAtExpiry_noFrame :
    NoFrameWaits (waitingFor [2, 3] [0, 0, 2, 1, 0, 0, 0, 0]) ∧ NoFrameWaits (buffered 2 true) :=
  ⟨⟨rfl, by decide +kernel⟩, ⟨rfl, by decide +kernel⟩⟩

theorem test_meets_ArbiterAtExpiry :
    (let s := waitingFor [2, 3] [0, 0, 2, 1, 0, 0, 0, 0];
      s.resetHeld = false ∧ s.motion.flight = none ∧ s.auth.holder = none ∧ s.auth.pending.Pairwise (· < ·)
      ∧ s.auth.backoff.getD 3 0 = 1 ∧ 3 ∈ s.auth.pending ∧ (∀ n ∈ s.auth.pending, n ≠ 3 → s.auth.backoff.getD n 0 ≠ 0))
      ∧ (let s := waitingFor [3] [0, 0, 2, 1, 1, 0, 0, 0]
        s.auth.holder = none ∧ s.auth.backoff.getD 4 0 = 1 ∧ (after (.backoffExpiry 4) s).auth.holder = none)
      ∧ (after (.backoffExpiry 4) (waitingFor [2, 3] [0, 0, 0, 0, 1, 0, 0, 0])).auth.holder = some 2
      ∧ (let s := { buffered 0 false with auth := { (buffered 0 false).auth with miss := 10 } }
        s.motion.mode = .stick ∧ s.auth.stale = false ∧ s.auth.miss = s.auth.hold ∧ s.auth.buffer = [])
      ∧ (let s := buffered 2 true
        s.resetHeld = false ∧ s.motion.flight = none ∧ s.motion.mode = .stick ∧ s.auth.buffer.length = 1 + 1
        ∧ s.auth.start ≤ s.auth.buffer.length ∧ anyOccupied s = false ∧ s.stop.causes = 0#8
        ∧ (after .periodExpiry s).stop.causes = 0#8
        ∧ (after .periodExpiry s).auth.lastDemand = some ⟨16421, 0, 0⟩) := by decide +kernel

/-- A miss in STICK that passes the hold, and a holder on the CUE basis alone whose cue an eviction ends. -/
theorem test_meets_ArbiterAtExpiry_holder :
    (let s := { buffered 1 true with auth := { (buffered 1 true).auth with miss := 10, backoff := [0, 1, 0, 2, 0, 0, 0, 0] } };
      s.resetHeld = false ∧ s.motion.flight = none ∧ s.auth.holder = some 2 ∧ s.auth.filling = true
      ∧ s.auth.buffer.length < s.auth.start ∧ s.motion.p.isSome = true ∧ anyOccupied s = false
      ∧ (∀ q ∈ s.ports.list, q.state = .up → q.good = true ∨ q.lastSent = none)
      ∧ s.station.silence + 1 < s.station.watchdog
      ∧ (after .periodExpiry s).auth.stale = true ∧ (after .periodExpiry s).auth.backoff = [0, 0, 0, 1, 0, 0, 0, 0])
      ∧ (let s := withAir [{ keepOut 0 ⟨-1000, 1000, -1000, 1000, 0, 20000⟩ .active .evict true 3 with label := [] }]
          { cueing with auth := { cueing.auth with explicit := false } }
        s.motion.flight = none ∧ s.auth.holder = some 2 ∧ (after .periodExpiry s).auth.holder = none
        ∧ (after .periodExpiry s).auth.backoff.getD 2 0 = 2) := by decide +kernel

theorem test_meets_ArbiterAtExpiry_holderNoFrame : NoFrameWaits (buffered 1 true) ∧ NoFrameWaits cueing :=
  ⟨⟨rfl, by decide +kernel⟩, ⟨rfl, by decide +kernel⟩⟩

theorem test_meets_AuthorityKept : AuthorityOk (flying .stick)
    ∧ step (flying .stick) = .next (stateAfter (flying .stick) (step (flying .stick))) := by
  refine ⟨?_, rfl⟩
  unfold AuthorityOk
  refine ⟨by decide, by decide, ?_, by decide⟩
  rintro h ⟨⟩; decide

theorem test_meets_PortRequestsTaken :
    (MaySend ready .portControl 0 ∧ (ready.ports.get 3).state = .up)
      ∧ ((portOf 0 { portPowerOn with state := .off } ready).ports.get 0).state = .off
      ∧ ((portOf 0 { portPowerOn with state := .sleep } ready).ports.get 0).state = .sleep
      ∧ ((flying .hold).motion.mode ≠ .safe ∧ (flying .hold).motion.mode ≠ .stopped .braked
        ∧ MaySend (flying .hold) .portControl 0)
      ∧ (stopped (.stopped .braked) .brake 128#8).motion.mode = .stopped .braked
      ∧ (MaySend ready .setAbility 0 ∧ (ready.ports.get 0).resolved = some .d
        ∧ (ready.ports.get 0).abilities.isSome = true ∧ highestClass (BitVec.ofNat 4 1 &&& 15#4) = some .a)
      ∧ (MaySend ready .portTest 0 ∧ (ready.ports.get 0).abilities.map Ability.test = some true
        ∧ ((heard .test .external []).ports.get 3).state = .test ∧ (rigged.ports.get 0).abilities = none)
      ∧ MaySend ready .portClear 0 ∧ MaySend ready .setPortLimits 0 ∧ ready.motion.mode = .safe
      ∧ (MaySend ready .portRead 3 ∧ classOf ready 3 = .safety) ∧ MaySend ready .portRead 5
      ∧ classOf ready 5 = .viewer := by
  unfold MaySend; decide +kernel

/-- A port in TRAINING with its runs. -/
def trainingAt (abilityRun feedbackRun : Nat) (allowed : BitVec 4) : State :=
  portOf 3 { portPowerOn with
    abilityRun := abilityRun, feedbackRun := feedbackRun, runAbility := some (abilityOf 63), allowed := allowed } rigged

theorem test_meets_TrainingAndClasses :
    (flying .stick).resetHeld = false ∧ ((flying .stick).ports.get 3).state = .up
      ∧ ((flying .stick).ports.get 3).resolved = some .d ∧ highestClass (15#4 &&& BitVec.ofNat 4 (33 % 16)) = some .a
      ∧ 15#4 &&& BitVec.ofNat 4 (48 % 16) = 0#4 ∧ (flying .stick).motion.mode.following = true
      ∧ (flying .stick).stop.kind ≠ .brake
      ∧ ((trainingAt 2 0 15#4).ports.get 3).state = .training ∧ 0 < ((trainingAt 2 0 15#4).ports.get 3).abilityRun
      ∧ ((trainingAt 2 0 15#4).ports.get 3).runAbility = some (abilityOf 63)
      ∧ highestClass (15#4 &&& (abilityOf 63).classes) = some .d ∧ 15#4 &&& (abilityOf 48).classes = 0#4
      ∧ ((trainingAt 0 15 15#4).ports.get 3).feedbackRun = 15 ∧ (15#4).getLsbD 0 = true ∧ (14#4).getLsbD 0 = false
      ∧ (let s := portOf 3 (upPort .c 7#4 0) (flying .stick)
        (classOf s 0 = .supervisor ∧ permitted .setAbility .supervisor = true ∧ (s.ports.get 3).state = .up)
        ∧ (s.ports.get 3).abilities = some { classes := 7#4, tension := true, test := true }
        ∧ BitVec.ofNat 4 8 &&& 7#4 = 0#4 ∧ status (.setAbility 0 3 8) s = some .ok
        ∧ payload (.setAbility 0 3 8) s = some [0x08#8, 0x00#8]
        ∧ (after (.setAbility 0 3 8) s).motion.mode = .stopped .braked) := by
  decide +kernel

/-- The trip's port with its runs and its candidate one short of each check. -/
def short : Port :=
  { upPort .d 15#4 61060000 with
    sequence := 255, lastSent := some { command := .follow, length := 61100000 }, followRun := 2, highRun := 1, slackRun := 4
    candidate := some (driveStatusOf 0x33) }

theorem test_meets_DriveFramesAndChecks :
    (trip.resetHeld = false ∧ (trip.ports.get 1).state = .up ∧ (trip.ports.get 1).good = false
        ∧ (trip.ports.get 1).sequence = 45 ∧ driveStatusOf 3 = (trip.ports.get 1).status
        ∧ (trip.ports.get 1).abilities.map Ability.tension = some true
        ∧ (trip.ports.get 1).lastSent = some { command := .follow, length := 61100000 }
        ∧ ((61100000 : Int) - (61050000 : Nat)).natAbs ≤ trip.portLimits.following * 1000
        ∧ trip.portLimits.tMin ≤ 200 ∧ 12000 ≤ trip.portLimits.tMax)
      ∧ short.state = .up ∧ short.good = false ∧ (50000 < ((61100000 : Int) - (61049999 : Nat)).natAbs)
      ∧ (12000 < 12001 ∧ short.highRun = 1) ∧ (199 < 200 ∧ short.slackRun = 4)
      ∧ ((driveStatusOf 0x33).fault ≠ 0 ∧ (driveStatusOf 0x33).fault ≠ short.status.fault
        ∧ short.candidate = some (driveStatusOf 0x33))
      ∧ (driveStatusOf 7 ≠ short.status ∧ short.candidate ≠ some (driveStatusOf 7))
      ∧ ((heard .sleep .internal []).ports.get 3).state = .sleep ∧ ((heard .off .internal []).ports.get 3).state = .off
      ∧ (let q := { portPowerOn with
          state := .test
          test := { testStart .prbs9 .external with outstanding := .sent (List.replicate 32 0#8) none 0 } }
        let back := (after (.driveTestFrame 3 (List.replicate 32 0#8)) (portOf 3 q rigged)).ports.get 3
        q.test.loop = .external ∧ back.test.outstanding = .sent (List.replicate 32 0#8) (some true) 0
        ∧ ((after (.winchFrameBadCheck 3) (portOf 3 back rigged)).ports.get 3).test.outstanding
          = .sent (List.replicate 32 0#8) (some true) 1
        ∧ back.test.compared = 0 ∧ (List.replicate 32 1#8 : List Byte) ≠ List.replicate 32 0#8)
      ∧ ((heard .test .external []).ports.get 3).test.outstanding = .none
      ∧ (let q := { short with candidate := some (driveStatusOf 2) }
        q.status.ready = true ∧ (driveStatusOf 2).ready = false ∧ q.candidate = some (driveStatusOf 2)
        ∧ q.lastSent = some { command := .follow, length := 61100000 })
      ∧ (let q := { short with candidate := some (driveStatusOf 7) }
        q.status.tempWarn = false ∧ (driveStatusOf 7).tempWarn = true ∧ q.candidate = some (driveStatusOf 7)) := by
  decide +kernel

/-- A good FEEDBACK frame to the port `short` whatever it answers: BRAKE and no tension sense end the runs that rest on
them, 65,535 is no tension, and a run goes on below its limit (R146, R151 to R154). -/
theorem test_meets_DriveFramesAndChecks_any :
    let run := fun (q : Port) (measured tension : Nat) =>
      (after (.driveFeedbackFrame 1 255 measured tension 3) (portOf 1 q (flying .stick))).ports.get 1
    (flying .stick).resetHeld = false ∧ short.state = .up ∧ short.good = false
      ∧ (let r := run { short with lastSent := some { command := .brake, length := 0 } } 7 100
        r.measured = some 7 ∧ r.followRun = 0 ∧ r.slackRun = 0 ∧ r.tension = some 100)
      ∧ (let r := run { short with abilities := some { classes := 15#4, tension := false, test := true } } 61100000 100
        r.tension = none ∧ r.slackRun = 0 ∧ r.tensionWindow = none)
      ∧ (run short 61100000 65535).tension = none
      ∧ (let r := run { short with followRun := 1, slackRun := 2 } 61049999 199
        r.followRun = 2 ∧ r.slackRun = 3 ∧ r.highRun = 0)
      ∧ (run { short with highRun := 0 } 61100000 12001).highRun = 1 := by decide +kernel

/-- What a check that trips does by its kind: BRAKE for FOLLOWING, QUICK for TENSION_HIGH and for SLACK, and nothing to a
quick stop from a check of kind QUICK (R164, R165). -/
theorem test_meets_DriveFramesAndChecks_kinds :
    let run := fun (s : State) (measured tension : Nat) => after (.driveFeedbackFrame 1 255 measured tension 3) (portOf 1 short s)
    let end_ := fun (t : State) => (t.stop.kind, t.motion.mode)
    end_ (run (flying .stick) 61049999 300) = (.brake, .stopped .braked)
      ∧ end_ (run (flying .stick) 61100000 12001) = (.quick, .stopping)
      ∧ end_ (run (flying .stick) 61100000 199) = (.quick, .stopping)
      ∧ end_ (run (flying .stick) 61049999 199) = (.brake, .stopped .braked)
      ∧ end_ (run (running 125) 61100000 199) = (.quick, .stopping)
      ∧ end_ (run rigged 61049999 199) = (.none, .safe) := by decide +kernel

theorem test_meets_PortThresholds :
    (rigged.resetHeld = false
        ∧ ((portOf 3 { portPowerOn with silence := 199 } rigged).ports.get 3).state = .training
        ∧ ((portOf 3 { portPowerOn with silence := 199 } rigged).ports.get 3).silence = 199)
      ∧ ((portOf 3 { portPowerOn with state := .break_, breakLeft := 1 } rigged).ports.get 3).breakLeft ≤ 1
      ∧ (let q := { short with misses := 2 }
        q.state = .up ∧ q.good = false ∧ q.lastSent.isSome = true ∧ q.misses = 2)
      ∧ (after (.consecutiveMissLimit 1) (portOf 1 { short with misses := 2 } (flying .stick))).motion.mode
        = .stopped .braked := by decide +kernel

theorem test_meets_FollowOnlyWhenAllUp :
    (flying .stick).resetHeld = false ∧ NoFrameWaits (flying .stick) ∧ exec .periodExpiry (flying .stick) = .next (after .periodExpiry (flying .stick))
      ∧ ((after .periodExpiry (flying .stick)).ports.get 3).state = .up
      ∧ ((after .periodExpiry (flying .stick)).ports.get 3).lastSent
        = some { command := .follow, length := (centreLength : Int) }
      ∧ ((after .periodExpiry (flying .stick)).ports.get 3).lineOut.length = 15
      ∧ ((after .periodExpiry (flying .stick)).ports.get 3).lineOut.take 4
        = [0xA5#8, 2#8, 41#8, 1#8]
      ∧ (rigged.ports.get 0).state ≠ .up
      ∧ (∀ i ∈ [0, 1, 2, 3], (ready.ports.get i).state = .up ∧ (ready.ports.get i).resolved = some .d) := by
  refine ⟨rfl, ⟨rfl, by decide +kernel⟩, rfl, by decide +kernel⟩

/-- A port in TEST with its last frame sent, what came back for it, and its counts. -/
def tested (loop : Loop) (compared : Nat) (back : Option Bool) (further : Nat) : Port :=
  { portPowerOn with
    state := .test
    test := { testStart .prbs9 loop with
      compared := compared, outstanding := .sent (List.replicate 32 0#8) back further } }

/-- R162, row 4: a frame that came back is not judged when the test stops before the expiry. -/
theorem test_stop_leaves_last_frame_unjudged :
    let q := (after (.portTestStop 0 1) (portOf 1 (tested .external 5 (some true) 0) rigged)).ports.get 1
    q.test.compared = 5 ∧ q.test.result = .running ∧ q.state = .training := by decide +kernel

/-- R145, 10.7: the absent tension is 65,535; the tension of PORT_READ stands behind 22 bytes. -/
theorem test_absent_tension_is_sent_as_65535 :
    tensionBytes none = [0xFF#8, 0xFF#8] ∧ tensionBytes (some 0) = [0x00#8, 0x00#8]
      ∧ (payload (.portRead 0 1 0) rigged).map (fun p => (p.drop 22).take 2) = some [0xFF#8, 0xFF#8] := by decide +kernel

theorem test_meets_PortsAtExpiry_noFrame (q : Port) (h : q.rx = []) : NoFrameWaits (portOf 1 q (flying .stick)) :=
  ⟨rfl, by intro r hr; simp only [portOf, Quad.put, Quad.list, List.mem_cons, List.not_mem_nil, or_false] at hr
           rcases hr with rfl | rfl | rfl | rfl <;> first | exact h | rfl⟩

theorem test_meets_PortsAtExpiry :
    let run := fun (q : Port) => (after .periodExpiry (portOf 1 q (flying .stick))).ports.get 1
    (flying .stick).resetHeld = false
      ∧ ((run { portPowerOn with silence := 198 }).silence = 199 ∧ (run { portPowerOn with silence := 199 }).state = .break_)
      ∧ ((run { portPowerOn with state := .break_, breakLeft := 2 }).breakLeft = 1
        ∧ (run { portPowerOn with state := .break_, breakLeft := 1 }).state = .training)
      ∧ (let q := { upPort .d 15#4 0 with lastSent := some { command := .brake, length := 0 } }
        (run { q with good := true }).misses = 0 ∧ (run { q with misses := 1 }).misses = 2
        ∧ (run { q with misses := 2 }).breakCause = .missed)
      ∧ ((run (tested .internal 998 (some true) 0)).test.result = .running
        ∧ (run (tested .external 999 (some true) 0)).test.result = .pass
        ∧ (run (tested .external 999 none 0)).test.result = .fail
        ∧ (run (tested .external 999 (some true) 2)).test.errors = 2
        ∧ (run (tested .external 999 (some true) 2)).test.compared = 1002
        ∧ (run (tested .internal 999 (some true) 0)).lineOut = []) := by
  decide +kernel

theorem test_meets_PortsKept : PortsOk ready ∧ step ready = .next (stateAfter ready (step ready)) := by
  refine ⟨⟨?_, by decide⟩, rfl⟩
  intro q hq
  have : q = upPort .d 15#4 centreLength := by
    have h : ∀ x ∈ (quadOf (upPort .d 15#4 centreLength)).list, x = upPort .d 15#4 centreLength := by
      simp [quadOf, Quad.list]
    exact h q hq
  subst this
  unfold PortOk
  refine ⟨by decide, by decide, ?_, by decide⟩
  rintro k ⟨⟩; exact ⟨_, rfl, by decide⟩

theorem test_meets_PortsKept_station :
    StationOk almost ∧ StationOk rigged ∧ step almost = .next (stateAfter almost (step almost)) := by
  refine ⟨?_, ?_, rfl⟩ <;> unfold StationOk <;> decide +kernel

theorem test_meets_CausesRaised :
    ModeOk (flying .stick) ∧ (flying .stick).resetHeld = false ∧ MaySend (flying .stick) .stop 2
      ∧ (flying .stick).auth.holder = some 2 ∧ MaySend (flying .stick) .stop 3 ∧ classOf (flying .stick) 3 = .safety
      ∧ (let s := { flying .stick with station := { (flying .stick).station with silence := 99 } }
        s.motion.mode = .stick ∧ s.station.watchdog = s.station.silence + 1 ∧ s.station.silence < 1000
        ∧ (after .watchdogExpiry s).motion.mode = .stopping)
      ∧ (flying .stick).station.silence + 1 < (flying .stick).station.watchdog
      ∧ (∀ q ∈ (flying .stick).ports.list, q.state = .up → q.good = true ∨ q.lastSent = none)
      ∧ (after .periodExpiry (flying .stick)).station.silence = 1
      ∧ (after .periodExpiry
          { flying .stick with station := { (flying .stick).station with silence := 99 } }).motion.mode = .stopping := by
  refine ⟨modeOk_flying _ _ _ (.inr (.inl rfl)), ?_⟩
  unfold MaySend; decide +kernel

/-- A cue whose holder is there on the CUE basis alone. -/
def cueAlone : State := { cueing with auth := { cueing.auth with explicit := false } }

theorem modeOk_cueAlone : ModeOk cueAlone := by
  unfold ModeOk
  and_intros
  all_goals try (simp [cueAlone, cueing, flyingAt, flying, ready, rigged, State.reset, powerOnValues, motionPowerOn,
    authorityPowerOn, cuePowerOn, stopEmpty, kindFits, StopUnit.has, Mode.isStopped, Mode.steered])

/-- A stop that ends such a cue ends the authority with it, by STOP and at an expiry (R117, R168). -/
theorem test_meets_CausesRaised_cueAlone :
    ModeOk cueAlone ∧ NoFrameWaits cueAlone ∧ cueAlone.auth.holder = some 2
      ∧ (let t := after (.stop 3 1) cueAlone
        t.auth.holder = none ∧ t.auth.backoff.getD 2 0 = 2 ∧ eventSet t .authority = true ∧ t.motion.mode = .stopping)
      ∧ (let s := { cueAlone with station := { cueAlone.station with silence := 99 } }
        let t := after .periodExpiry s
        t.motion.flight.map Computation.mode = some .cue ∧ t.auth.holder = none ∧ t.auth.backoff.getD 2 0 = 2) :=
  ⟨modeOk_cueAlone, ⟨rfl, by decide +kernel⟩, rfl, by decide +kernel, by decide +kernel⟩

/-- The same where a failure or a request ends the cue. Of two entries, the removal of one raises CUE_WANT with W = 2, and
not with W = 3, below which the count was before, or W = 1 (R106). -/
theorem test_meets_cueAlone_ends :
    let two := fun (w : Nat) => { cueAlone with cue := { cueAlone.cue with window := w } }
    let blocked := { copyNow with noProgress := 15 }
    let at16 := fun (w : Nat) => { two w with motion := { (two w).motion with copy := some blocked } }
    let lost := fun (t : State) => t.auth.holder = none ∧ t.auth.backoff.getD 2 0 = 2 ∧ eventSet t .authority = true
    let wants := fun (t : State) => eventSet t .cueWant
    lost (after .cueBlocked (at16 2)) ∧ lost (after (.cueHalt 2) (two 2)) ∧ lost (after (.cueFlush 2) (two 2))
      ∧ wants (after .cueBlocked (at16 2)) = true ∧ wants (after .cueBlocked (at16 3)) = false
      ∧ wants (after .cueBlocked (at16 1)) = false ∧ wants (after (.cueFlush 2) (two 1)) = true
      ∧ wants (after .periodExpiry (withAir [facing .evict] (two 2))) = true
      ∧ wants (after .periodCommit (begun (two 2))) = true := by decide +kernel

theorem test_meets_CausesRaised_noFrame : NoFrameWaits (flying .stick) := ⟨rfl, by decide +kernel⟩

theorem test_meets_ClearStopTaken :
    (MaySend (running 125) .clearStop 3 ∧ (running 125).motion.mode = .stopping)
      ∧ (let s := { stopped (.stopped .held) .quick 4#8 with estopLineOpen := true }
        MaySend s .clearStop 3 ∧ ({ s.stop with estopOpen := true }).estopOpen = true)
      ∧ (let s := portOf 3 portPowerOn (stopped (.stopped .braked) .brake 16#8)
        (s.ports.get 3).state ≠ .up ∧ ({ noAttribution with portLost := 8#4 }).portLost.getLsbD 3 = true)
      ∧ (let s := stopped (.stopped .held) .quick 4#8
        s.motion.mode = .stopped .held ∧ s.stop.estopOpen = false ∧ s.stop.attribution = noAttribution)
      ∧ (stopped (.stopped .braked) .brake 128#8).motion.mode = .stopped .braked ∧ rigged.motion.mode = .safe
      ∧ (flying .hold).motion.mode.steered = true := by
  unfold MaySend; decide +kernel

theorem test_meets_StopsOnlyHarden :
    exec (.estopLineChange true) (running 125) = .next (after (.estopLineChange true) (running 125))
      ∧ (running 125).stop.kind = .quick ∧ (after (.estopLineChange true) (running 125)).stop.kind = .brake
      ∧ (after (.estopLineChange true) (running 125)).stop.causes = 132#8 := by
  refine ⟨rfl, rfl, by decide +kernel⟩

theorem test_meets_ReferenceAndClock :
    (rigged.resetHeld = false ∧ rigged.period.interval = none)
      ∧ ((pulsed 1 0 17180 0 .free).interval = some 0 ∧ ¬(999800 ≤ 0 ∧ 0 ≤ 1000200))
      ∧ (999800 ≤ 999800 ∧ 999800 ≤ 1000200) ∧ (833133 ≤ 833533 ∧ 833533 ≤ 833533) ∧ ¬(833967 ≤ 833533)
      ∧ (pulsed 0 51508096 17095 7 .acquiring).lock = .locked
      ∧ (let s := { rigged with period := { periodPowerOn with loss := 2999999 } }
        s.period.loss < 3000000 ∧ s.period.lock = .free)
      ∧ (let s := { rigged with period := { periodPowerOn with loss := 0 } }
        s.pending = [] ∧ NoFrameWaits s
        ∧ s.period.acc + s.period.adding < 2 ^ 32 ∧ s.period.wrapped = false ∧ s.period.loss + 1 < s.period.configured.lossLimit
        ∧ step s = .next (stateAfter s (step s))) := by
  and_intros <;> first | rfl | decide +kernel

/-- The reference lost already, as at reset: PERIOD_EXPIRY runs the clock to the wrap. -/
theorem test_meets_ReferenceAndClock_expiry :
    NoFrameWaits rigged ∧ rigged.resetHeld = false ∧ rigged.period.loss = rigged.period.configured.lossLimit
      ∧ (after .periodExpiry rigged).period.acc = 17180 * 249999 - 2 ^ 32 ∧ 17180 * 249998 < 2 ^ 32 :=
  ⟨⟨rfl, by decide +kernel⟩, rfl, rfl, by decide +kernel, by decide⟩

/-- Idle steps at which a loss, a winch frame's time-out, a station frame's time-out and a wrap fall due. -/
theorem test_meets_ReferenceAndClock_idle :
    let idle := fun (s : State) => stateAfter s (step s)
    (let s := { rigged with period := { periodPowerOn with loss := 2999999, lock := .acquiring } };
      s.pending = [] ∧ s.period.loss + 1 = s.period.configured.lossLimit ∧ (idle s).period.lock = .free)
      ∧ (let s := portOf 2 { upPort .d 15#4 0 with rx := [0xA5#8, 3#8], rxSince := 9999 } rigged
        s.period.loss = s.period.configured.lossLimit ∧ ((idle s).ports.get 2).badFrames = 1)
      ∧ (let s := portOf 2 { upPort .d 15#4 0 with rx := [0xA5#8, 3#8], rxSince := 9998 } rigged
        ((idle s).ports.get 2).rxSince = 9999)
      ∧ (let s := received [0x5C#8, 2#8] (.inFrame 1111111)
        frameBehind [2#8] = .incomplete ∧ (idle s).station.frameErrors = 1)
      ∧ (received [0x5C#8, 2#8] (.inFrame 1111110)).station.rate = 0
      ∧ (let s := { rigged with period := { periodPowerOn with acc := 2 ^ 32 - 17180 } }
        2 ^ 32 ≤ s.period.acc + s.period.adding ∧ s.motion.flight = none ∧ (idle s).period.index = 1) := by decide +kernel

theorem test_meets_PeriodKept : PeriodOk rigged ∧ step rigged = .next (stateAfter rigged (step rigged)) := by
  refine ⟨?_, rfl⟩
  unfold PeriodOk
  decide

end Sys2Proof.Tests
end

