-- ==== Sys2Proof/Proofs/Edits.lean ====
section
/-! PROOFS. What the shared transitions and the winch ports are made of: each is a chain of a few small edits of the state,
so a relation that every edit satisfies, and that chains, holds across the whole transition. -/

namespace Sys2Proof.Machine

/-- The two flags that the Airspace Table alone raises (R24, R25). -/
def zoneEvents : List Event := [.zoneActive, .zoneExpired]

/-- The relation chains, and holds across every edit that the shared transitions of Control.lean are made of. None of them
makes the mode SAFE, and none raises a flag of the Airspace Table. -/
structure ControlEdits (R : State → State → Prop) : Prop where
  refl : ∀ s, R s s
  trans : ∀ {s t u}, R s t → R t u → R s u
  raise : ∀ e s, e ∉ zoneEvents → R s (raiseEvent e s)
  mode : ∀ m s, m ≠ .safe → R s (setMode m s)
  auth : ∀ a s, R s { s with auth := a }
  cue : ∀ c s, R s { s with cue := c }
  stop : ∀ u s, R s { s with stop := u }
  copy : ∀ c s, R s { s with motion := { s.motion with copy := c } }
  exit : ∀ e b s, R s { s with motion := { s.motion with exit := e, trapped := b } }
  lengths : ∀ l f s, R s { s with motion := { s.motion with lengths := l, feed := f } }
  dropCopy : ∀ s, R s (dropCopy s)
  freeze : ∀ s, R s (freeze s)

namespace ControlEdits

variable {R : State → State → Prop}

theorem raiseIf (h : ControlEdits R) (b : Bool) (e : Event) (s : State) (he : e ∉ zoneEvents) :
    R s (raiseIf b e s) := by
  cases b
  · exact h.refl s
  · exact h.raise e s he

theorem enterHold (h : ControlEdits R) (s : State) : R s (enterHold s) :=
  h.mode _ s (by split <;> decide)

theorem flushStick (h : ControlEdits R) (s : State) : R s (flushStick s) := h.auth _ s

/-! ## Authority (R115 to R119) -/

theorem endAuthority (h : ControlEdits R) (s : State) : R s (endAuthority s) := by
  refine h.trans ?_ (h.raise _ _ (by decide))
  split
  · exact h.trans (h.auth _ s) (h.enterHold _)
  · exact h.auth _ s

theorem clearCueBasis (h : ControlEdits R) (s : State) : R s (clearCueBasis s) := by
  unfold Machine.clearCueBasis
  split
  · exact h.refl s
  · split
    · exact h.auth _ s
    · exact h.trans (h.auth _ s) (h.endAuthority _)

theorem haltCue (h : ControlEdits R) (s : State) : R s (haltCue s) := h.trans (h.dropCopy s) (h.clearCueBasis _)

theorem loseAuthority (h : ControlEdits R) (s : State) : R s (loseAuthority s) := by
  have drop : R s (if s.motion.mode = .cue then Machine.dropCopy s else s) := by
    split
    · exact h.dropCopy s
    · exact h.refl s
  unfold Machine.loseAuthority
  dsimp only
  split
  · exact h.trans (h.trans drop (h.auth _ _)) (h.enterHold _)
  · exact h.trans drop (h.auth _ _)

theorem classLoss (h : ControlEdits R) (st : Nat) (s : State) : R s (classLoss st s) := by
  unfold Machine.classLoss
  split
  · exact h.trans (h.loseAuthority s) (h.raise _ _ (by decide))
  · exact h.auth _ s

theorem preempted (h : ControlEdits R) (st : Nat) (s : State) : R s (preempted st s) := by
  have lose : R s (if s.auth.holder.isSome then Machine.loseAuthority s else s) := by
    split
    · exact h.loseAuthority s
    · exact h.refl s
  unfold Machine.preempted
  split
  · exact h.auth _ s
  · exact h.trans (h.trans lose (h.auth _ _)) (h.raise _ _ (by decide))

theorem claimDecision (h : ControlEdits R) (s : State) : R s (claimDecision s) := by
  unfold Machine.claimDecision
  split
  · exact h.trans (h.auth _ s) (h.raise _ _ (by decide))
  · exact h.refl s

theorem stickStep (h : ControlEdits R) (s : State) : R s (stickStep s) := by
  unfold Machine.stickStep
  split
  · split
    · exact h.auth _ s
    · exact h.trans (h.auth _ s) (h.raiseIf _ _ _ (by decide))
  · exact h.refl s

theorem arbiterExpiry (h : ControlEdits R) (s : State) : R s (arbiterExpiry s) :=
  h.trans (h.trans (h.auth _ s) (h.claimDecision _)) (h.stickStep _)

/-! ## Cues (R57 to R62, R98 to R104) -/

theorem removeTo (h : ControlEdits R) (rest : List CueEntry) (s : State) : R s (removeTo rest s) :=
  h.trans (h.cue _ s) (h.raiseIf _ _ _ (by decide))

theorem failHead (h : ControlEdits R) (why : FailReason) (s : State) : R s (failHead why s) :=
  h.trans (h.trans (h.trans (h.removeTo _ s) (h.cue _ _)) (h.raise _ _ (by decide)))
    (h.trans (h.trans (h.dropCopy _) (h.clearCueBasis _)) (h.enterHold _))

theorem startHead (h : ControlEdits R) (s : State) : R s (startHead s) := by
  unfold Machine.startHead
  split
  · exact h.refl s
  · split
    · exact h.failHead _ s
    · exact h.trans (h.trans (h.mode .cue s (by decide)) (h.copy _ _)) (h.cue _ _)

theorem completeCue (h : ControlEdits R) (s : State) : R s (completeCue s) := by
  unfold Machine.completeCue
  split
  · exact h.trans (h.haltCue s) (h.enterHold _)
  · next e rest _ =>
    have done := h.trans (h.trans (h.removeTo rest s) (h.dropCopy _)) (h.raise .cueDone _ (by decide))
    dsimp only
    split
    · exact h.trans (h.trans done (h.clearCueBasis _)) (h.enterHold _)
    · exact h.trans done (h.startHead _)

theorem selected (h : ControlEdits R) (toStick : Bool) (st : Nat) (s : State) : R s (selected toStick st s) := by
  unfold Machine.selected
  split
  · split
    · exact h.mode _ s (by decide)
    · exact h.refl s
  · split
    · exact h.refl s
    · exact h.trans (h.flushStick s) (h.enterHold _)
  · dsimp only
    split
    · exact h.trans (h.haltCue s) (h.mode _ _ (by decide))
    · exact h.trans (h.haltCue s) (h.enterHold _)
  all_goals exact h.refl s

theorem goHead (h : ControlEdits R) (s : State) : R s (goHead s) := by
  have leave : R s (if s.motion.mode = .stick then Machine.flushStick (setMode .hold s) else s) := by
    split
    · exact h.trans (h.mode _ s (by decide)) (h.flushStick _)
    · exact h.refl s
  exact h.trans (h.trans leave (h.auth _ _)) (h.startHead _)

theorem haltIfRunning (h : ControlEdits R) (s : State) : R s (haltIfRunning s) := by
  unfold Machine.haltIfRunning
  split
  · exact h.trans (h.haltCue s) (h.enterHold _)
  · exact h.refl s

/-! ## Stops (R63 to R66, R166) -/

theorem leaveSteered (h : ControlEdits R) (kind : StopKind) (s : State) : R s (leaveSteered kind s) := by
  have broken := h.exit none false s
  have stopped : R s (if kind = .brake
      then Machine.freeze { s with motion := { s.motion with exit := none, trapped := false } }
      else setMode .stopping { s with motion := { s.motion with exit := none, trapped := false } }) := by
    split
    · exact h.trans broken (h.freeze _)
    · exact h.trans broken (h.mode _ _ (by decide))
  unfold Machine.leaveSteered
  dsimp only
  refine h.trans ?_ (h.flushStick _)
  split
  · exact h.trans stopped (h.haltCue _)
  · exact stopped

theorem reportKind (h : ControlEdits R) (kind : StopKind) (s : State) : R s (reportKind kind s) := by
  rcases reportKind_cases kind s with ⟨-, e⟩ | ⟨-, -, e⟩ | ⟨-, -, e⟩ | ⟨-, e⟩ <;> rw [e]
  · exact h.leaveSteered kind s
  · exact h.freeze s
  · exact h.refl s
  · exact h.refl s

theorem raiseCause (h : ControlEdits R) (c : Cause) (port : Option Nat) (asked : StopKind) (s : State) :
    R s (raiseCause c port asked s) := by
  unfold Machine.raiseCause
  dsimp only
  refine h.trans ?_ (h.raiseIf _ _ _ (by decide))
  split
  · exact h.stop _ s
  · exact h.trans (h.stop _ s) (h.reportKind _ _)

theorem takeEstop (h : ControlEdits R) (lineOpen : Bool) (s : State)
    (line : R s { s with estopLineOpen := lineOpen, stop := { s.stop with estopOpen := lineOpen } }) :
    R s (takeEstop lineOpen s) := by
  unfold Machine.takeEstop
  dsimp only
  split
  · exact h.trans line (h.raiseCause _ _ _ _)
  · exact line

/-! ## The beginning of a computation, and the cue at its commit (R37, R42, R54 to R61, R64) -/

theorem beginEviction (h : ControlEdits R) (s : State) : R s (beginEviction s) := by
  have evict := h.mode .evict s (by decide)
  unfold Machine.beginEviction
  dsimp only
  split
  · exact h.trans evict (h.haltCue _)
  · split
    · exact h.trans evict (h.flushStick _)
    · exact evict

theorem settle (h : ControlEdits R) (s : State) : R s (settle s) := by
  have evicting : R s (if anyOccupied s then Machine.beginEviction s else s) := by
    split
    · exact h.beginEviction s
    · exact h.refl s
  unfold Machine.settle
  split
  · exact evicting
  · exact evicting
  · split
    · exact h.beginEviction s
    · split
      · exact h.failHead _ s
      · exact h.refl s
  · split
    · exact h.refl s
    · exact h.trans (h.mode .hold s (by decide)) (h.exit _ _ _)
  all_goals exact h.refl s

theorem searchExit (h : ControlEdits R) (s : State) : R s (searchExit s) :=
  h.trans (h.exit _ _ s) (h.raiseIf _ _ _ (by decide))

theorem progressTest (h : ControlEdits R) (c : CueCopy) (s : State) : R s (progressTest c s) := by
  unfold Machine.progressTest
  dsimp only
  generalize (if ((c.target.minus (heldP s)).norm < c.lastD) then 0 else c.noProgress + 1) = n
  split
  · exact h.trans (h.copy _ s) (h.failHead _ _)
  · exact h.copy _ s

theorem cueChecks (h : ControlEdits R) (s : State) : R s (cueChecks s) := by
  unfold Machine.cueChecks
  split
  · exact h.refl s
  · split
    · unfold dwellStep
      split
      · exact h.completeCue s
      · exact h.copy _ s
    · split
      · unfold arrive
        split
        · exact h.completeCue s
        · exact h.copy _ s
      · exact h.progressTest _ s

theorem heldTest (h : ControlEdits R) (s : State) : R s (heldTest s) := by
  unfold Machine.heldTest
  split
  · exact h.mode _ s (by decide)
  · exact h.refl s

end ControlEdits

/-- The P that a computation commits: its next position, or the P it began at when the step is abandoned (R50, R51). -/
def committedP (c : Computation) (s : State) : Vec3 := (nextPosition s c).getD c.p

/-- A commit as the Airspace Table leaves it, before the rest of its checks (R14, R25, R51). -/
def committedTable (c : Computation) (s : State) : State :=
  tableCommit c.mode (committedP c s)
    { s with motion := { s.motion with p := some (committedP c s), vOld := (committedP c s).minus c.p, flight := none } }

/-- After its table a commit is the checks of the cue, the test for HELD and the lengths (R51, R52, R59, R64). -/
theorem ControlEdits.commit {R : State → State → Prop} (h : ControlEdits R) (c : Computation) (s : State) :
    R (committedTable c s) (Machine.commit c s) := by
  have checks : ∀ t, R t (if c.mode = .cue ∧ c.cueLive = true then Machine.cueChecks t else t) := by
    intro t
    split
    · exact h.cueChecks t
    · exact h.refl t
  have held : ∀ t, R t (if c.mode = .stopping then Machine.heldTest t else t) := by
    intro t
    split
    · exact h.heldTest t
    · exact h.refl t
  exact h.trans (h.trans (checks _) (held _)) (h.lengths _ _ _)

/-! ## The winch ports and the clock -/

/-- The relation chains, and holds across every edit that the work of the ports and of the Period Generator is made of, the
raising of a cause among them. -/
structure PartEdits (R : State → State → Prop) : Prop where
  refl : ∀ s, R s s
  trans : ∀ {s t u}, R s t → R t u → R s u
  raise : ∀ e s, e ∉ zoneEvents → R s (raiseEvent e s)
  cause : ∀ c port s, R s (raiseCause c port .none s)
  port : ∀ i q s, R s (withPort i q s)
  period : ∀ g s, R s { s with period := g }
  silence : ∀ n s, R s { s with station := { s.station with silence := n } }

namespace PartEdits

variable {R : State → State → Prop}

theorem raiseIf (h : PartEdits R) (b : Bool) (e : Event) (s : State) (he : e ∉ zoneEvents) : R s (raiseIf b e s) := by
  cases b
  · exact h.refl s
  · exact h.raise e s he

theorem movePort (h : PartEdits R) (i : Nat) (q : Port) (s : State) : R s (movePort i q s) :=
  h.trans (h.port i q s) (h.raiseIf _ _ _ (by decide))

theorem missCheck (h : PartEdits R) (i : Nat) (s : State) : R s (missCheck i s) := by
  unfold Machine.missCheck
  dsimp only
  split
  · split
    · exact h.trans (h.movePort _ _ s) (h.cause _ _ _)
    · exact h.port _ _ s
  · exact h.port _ _ s

theorem portCheck (h : PartEdits R) (i : Nat) (s : State) : R s (portCheck i s) := by
  unfold Machine.portCheck
  dsimp only
  split
  · exact h.movePort _ _ s
  · exact h.movePort _ _ s
  · exact h.missCheck i s
  all_goals exact h.port _ _ s

theorem sendSetpoint (h : PartEdits R) (i : Nat) (s : State) : R s (sendSetpoint i s) := by
  unfold Machine.sendSetpoint
  dsimp only
  split
  · exact h.port _ _ s
  · exact h.refl s

theorem portsExpiry (h : PartEdits R) (s : State) : R s (portsExpiry s) := by
  have checks : R s (Machine.portCheck 3 (Machine.portCheck 2 (Machine.portCheck 1 (Machine.portCheck 0 s)))) :=
    h.trans (h.trans (h.trans (h.portCheck 0 s) (h.portCheck 1 _)) (h.portCheck 2 _)) (h.portCheck 3 _)
  exact h.trans (h.trans (h.trans (h.trans checks (h.sendSetpoint 0 _)) (h.sendSetpoint 1 _)) (h.sendSetpoint 2 _))
    (h.sendSetpoint 3 _)

theorem reclass (h : PartEdits R) (i : Nat) (q : Port) (classes : BitVec 4) (s : State) :
    R s (reclass i q classes s) := by
  unfold Machine.reclass
  split
  · exact h.trans (h.movePort _ _ s) (h.cause _ _ _)
  · exact h.trans (h.port _ _ s) (h.raiseIf _ _ _ (by decide))

theorem raiseWhen (h : PartEdits R) (b : Bool) (c : Cause) (i : Nat) (s : State) : R s (raiseWhen b c i s) := by
  cases b
  · exact h.refl s
  · exact h.cause _ _ s

theorem takeGood (h : PartEdits R) (i measured tension : Nat) (w : DriveStatus) (s : State) :
    R s (takeGood i measured tension w s) := by
  unfold Machine.takeGood
  dsimp only
  refine h.trans (h.trans (h.trans (h.trans ?_ (h.raiseWhen _ _ i _)) (h.raiseWhen _ _ i _)) (h.raiseWhen _ _ i _))
    (h.raiseWhen _ _ i _)
  exact h.trans (h.port _ _ s) (h.raiseIf _ _ _ (by decide))

theorem driveAbility (h : PartEdits R) (i : Nat) (a : Ability) (s : State) : R s (driveAbility i a s) := by
  unfold Machine.driveAbility
  dsimp only
  split
  · exact h.movePort _ _ s
  · exact h.reclass _ _ _ s
  all_goals exact h.refl s

theorem driveFeedback (h : PartEdits R) (i echo measured tension status : Nat) (s : State) :
    R s (driveFeedback i echo measured tension status s) := by
  unfold Machine.driveFeedback
  dsimp only
  split
  · exact h.movePort _ _ s
  · split
    · exact h.takeGood _ _ _ _ s
    · exact h.refl s
  all_goals exact h.refl s

theorem driveWake (h : PartEdits R) (i : Nat) (s : State) : R s (driveWake i s) := by
  unfold Machine.driveWake
  dsimp only
  split
  · exact h.trans (h.movePort _ _ s) (h.raise _ _ (by decide))
  all_goals exact h.refl s

theorem driveTest (h : PartEdits R) (i : Nat) (payload : List Byte) (s : State) : R s (driveTest i payload s) := by
  unfold Machine.driveTest
  dsimp only
  split
  · exact h.port _ _ s
  · exact h.refl s

theorem badCheck (h : PartEdits R) (i : Nat) (s : State) : R s (badCheck i s) := by
  unfold Machine.badCheck
  dsimp only
  split
  · exact h.port _ _ s
  · exact h.port _ _ s
  · exact h.port _ _ s
  · split
    · exact h.port _ _ s
    · exact h.refl s
  all_goals exact h.refl s

theorem deliver (h : PartEdits R) (i type : Nat) (payload : List Byte) (s : State) : R s (deliver i type payload s) := by
  unfold Machine.deliver
  split
  · exact h.driveAbility _ _ s
  · exact h.driveFeedback _ _ _ _ _ s
  · exact h.driveTest _ _ s
  · exact h.driveWake _ s
  · exact h.refl s

/-! ### The receiver of a link (R214) -/

theorem scanWinch (h : PartEdits R) (fuel i : Nat) (buf : List Byte) (s : State) : R s (scanWinch fuel i buf s) := by
  induction fuel generalizing buf s with
  | zero => exact h.port _ _ s
  | succ fuel ih =>
    unfold Machine.scanWinch
    split
    · exact h.port _ _ s
    · split
      · exact ih _ s
      · split
        · exact h.port _ _ s
        · split
          · exact ih _ s
          · split
            · exact h.port _ _ s
            · split
              · exact h.trans (h.deliver _ _ _ s) (ih _ _)
              · exact h.trans (h.badCheck _ s) (ih _ _)

theorem receive (h : PartEdits R) (i : Nat) (buf : List Byte) (s : State) : R s (receive i buf s) := by
  have scanned := h.scanWinch (buf.length + 1) i buf s
  unfold Machine.receive
  dsimp only
  split
  · exact scanned
  · exact h.trans scanned (h.port _ _ _)

theorem timeOutWinch (h : PartEdits R) (i : Nat) (s : State) : R s (timeOutWinch i s) := by
  unfold Machine.timeOutWinch
  split
  · exact h.refl s
  · exact h.trans (h.trans (h.badCheck i s) (h.port _ _ _)) (h.receive _ _ _)

theorem runReceiver (h : PartEdits R) (fuel i k : Nat) (s : State) : R s (runReceiver fuel i k s) := by
  induction fuel generalizing k s with
  | zero => exact h.refl s
  | succ fuel ih =>
    unfold Machine.runReceiver
    dsimp only
    split
    · exact h.refl s
    · split
      · exact h.port _ _ s
      · exact h.trans (h.timeOutWinch i s) (ih _ _)

/-! ### The clock (R181, R206) -/

theorem withPeriod (h : PartEdits R) (g : PeriodGen) (s : State) : R s (withPeriod g s) :=
  h.trans (h.period g s) (h.raiseIf _ _ _ (by decide))

theorem silenceStep (h : PartEdits R) (s : State) : R s (silenceStep s) := by
  have counted : R s
      (let t := { s with station := { s.station with silence := saturate s.station.silence 1000 } }
       if t.station.watchdog ≤ t.station.silence then raiseCause .stationSilent none .none t else t) := by
    dsimp only
    split
    · exact h.trans (h.silence _ s) (h.cause _ _ _)
    · exact h.silence _ s
  unfold Machine.silenceStep
  split
  any_goals exact counted
  all_goals exact h.refl s

end PartEdits

end Sys2Proof.Machine
end

