-- ==== Sys2Proof/Proofs/Line.lean ====
section
/-! PROOFS. The station line: what a good frame decodes to is a well-formed command, and what the receiver and the clock do
is a chain of edits and of requests served. -/

namespace Sys2Proof

/-! ## The fields of a frame (10.1) -/

theorem beNat_lt (bs : List Byte) : beNat bs < 256 ^ bs.length := by
  induction bs with
  | nil => simp [beNat]
  | cons b bs ih =>
    have fold := foldl_be bs b.toNat
    have hb : b.toNat < 256 := b.isLt
    simp only [beNat, List.foldl_cons, Nat.zero_mul, Nat.zero_add, List.length_cons, pow_succ]
    rw [fold]
    have : (b.toNat + 1) * 256 ^ bs.length ≤ 256 * 256 ^ bs.length := Nat.mul_le_mul_right _ hb
    rw [Nat.succ_mul] at this
    omega

theorem field_lt (ps : List Byte) (off n : Nat) : field ps off n < 256 ^ n :=
  (beNat_lt _).trans_le (Nat.pow_le_pow_right (by omega) (List.length_take_le _ _))

@[simp] theorem fitsByte_field (ps : List Byte) (off : Nat) : fitsByte (field ps off 1) = true := by
  simpa [fitsByte] using field_lt ps off 1

@[simp] theorem fitsHalf_field (ps : List Byte) (off : Nat) : fitsHalf (field ps off 2) = true := by
  simpa [fitsHalf] using field_lt ps off 2

@[simp] theorem fitsThree_field (ps : List Byte) (off : Nat) : fitsThree (field ps off 3) = true := by
  simpa [fitsThree] using field_lt ps off 3

@[simp] theorem fitsWord_field (ps : List Byte) (off : Nat) : fitsWord (field ps off 4) = true := by
  simpa [fitsWord] using field_lt ps off 4

@[simp] theorem fitsSHalf_sfield (ps : List Byte) (off : Nat) : fitsSHalf (sfield ps off 2) = true := by
  have := field_lt ps off 2
  rw [fitsSHalf, decide_eq_true_eq, sfield, toSigned]
  split <;> omega

@[simp] theorem fitsSWord_sfield (ps : List Byte) (off : Nat) : fitsSWord (sfield ps off 4) = true := by
  have := field_lt ps off 4
  rw [fitsSWord, decide_eq_true_eq, sfield, toSigned]
  split <;> omega

@[simp] theorem fitsPos_posField (ps : List Byte) (off : Nat) : fitsPos (posField ps off) = true := by
  simp [fitsPos, posField]

@[simp] theorem fitsOffset_halfField (ps : List Byte) (off : Nat) : fitsOffset (halfField ps off) = true := by
  simp [fitsOffset, halfField]

@[simp] theorem fitsBox_boxField (ps : List Byte) (off : Nat) : fitsBox (boxField ps off) = true := by
  simp [fitsBox, boxField]

@[simp] theorem length_valuesField (ps : List Byte) (off n : Nat) : (valuesField ps off n).length = n := by
  induction n generalizing off with
  | zero => rfl
  | succ n ih => simp [valuesField, ih]

@[simp] theorem fitsSWord_valuesField (ps : List Byte) (off n : Nat) : (valuesField ps off n).all fitsSWord = true := by
  induction n generalizing off with
  | zero => rfl
  | succ n ih => rw [valuesField, List.all_cons, ih, fitsSWord_sfield]; rfl

/-! ## Decoding (R201, check 4) -/

theorem ofLength_eq_command {n : Nat} {ps : List Byte} {d : Decoded} {i : Instr} (h : ofLength n ps d = .command i) :
    ps.length = n ∧ d = .command i := by
  unfold ofLength at h
  split at h
  · next hn => exact ⟨hn, h⟩
  · cases h

/-- A frame has at most 246 parameter bytes, and what it decodes to is a command that the table's step can be. -/
theorem decodeRequest_wf {r : Req} {st : Nat} {ps : List Byte} {i : Instr} (hst : st < 8) (hps : ps.length ≤ 246)
    (h : decodeRequest r st ps = .command i) : i.wf = true := by
  have station : isStation st = true := by simpa [isStation] using hst
  cases r
  case zoneCreate =>
    simp only [decodeRequest] at h
    split at h
    · cases h
    · obtain ⟨-, e⟩ := ofLength_eq_command h
      cases e
      simp [Instr.wf, station]; omega
  case zoneAmend =>
    simp only [decodeRequest] at h
    split at h
    · cases h
    · obtain ⟨-, e⟩ := ofLength_eq_command h
      cases e
      simp [Instr.wf, station]; omega
  case markSet =>
    simp only [decodeRequest] at h
    split at h
    · cases h
    · obtain ⟨-, e⟩ := ofLength_eq_command h
      cases e
      simp [Instr.wf, station]; omega
  case corrWrite =>
    simp only [decodeRequest] at h
    split at h
    · cases h
    · next count =>
      obtain ⟨-, e⟩ := ofLength_eq_command h
      cases e
      simp only [Instr.wf, station, length_valuesField, fitsSWord_valuesField, Bool.true_and, Bool.and_eq_true,
        decide_eq_true_eq]
      omega
  case portControl =>
    obtain ⟨-, e⟩ := ofLength_eq_command h
    split at e <;> cases e <;> simp [Instr.wf, station]
  case portTest =>
    obtain ⟨-, e⟩ := ofLength_eq_command h
    split at e <;> cases e <;> simp [Instr.wf, station]
  all_goals
    obtain ⟨-, e⟩ := ofLength_eq_command h
    cases e
    simp [Instr.wf, station, Quad.all, fitsSettings]

end Sys2Proof

namespace Sys2Proof.Machine

/-- A good frame found behind a sync comes from a station and has at most 246 parameter bytes (R197). -/
theorem frameBehind_good {bs ps rest : List Byte} {st code : Nat} (h : frameBehind bs = .good st code ps rest) :
    st < 8 ∧ ps.length ≤ 246 := by
  cases bs with
  | nil => cases h
  | cons l body =>
    simp only [frameBehind] at h
    split at h
    · cases h
    · next len =>
      split at h
      · cases h
      · split at h
        · cases h
        · split at h
          · cases h
          · next sender =>
            cases h
            refine ⟨by omega, ?_⟩
            simp only [List.length_drop, List.length_take]
            omega

/-- The relation holds across every edit of the Station Port too, and across the serving of a well-formed request. -/
structure LineEdits (R : State → State → Prop) : Prop extends PartEdits R where
  station : ∀ g s, R s { s with station := g }
  serves : ∀ i s t, i.wf = true → serve i s = .next t → R s t

namespace LineEdits

variable {R : State → State → Prop}

/-! ## The receiver (R197 to R201) -/

theorem refuseFrame (h : LineEdits R) (st code : Nat) (why : Status) (s : State) : R s (refuseFrame st code why s) :=
  h.station _ s

theorem takeGoodFrame (h : LineEdits R) {st : Nat} (code : Nat) {ps : List Byte} (s : State) (hst : st < 8)
    (hps : ps.length ≤ 246) : R s (takeGoodFrame st code ps s) := by
  unfold Machine.takeGoodFrame
  split
  · exact h.refuseFrame _ _ _ s
  · split
    · exact h.refuseFrame _ _ _ s
    · split
      · exact h.refuseFrame _ _ _ s
      · split
        · exact h.refuseFrame _ _ _ s
        · exact h.refuseFrame _ _ _ s
        · next i decoded =>
          rcases outcome : serve i s with t | f | r
          · exact h.serves i s t (decodeRequest_wf hst hps decoded) outcome
          · exact h.refl s
          · exact h.refl s

theorem scanStation (h : LineEdits R) (fuel : Nat) (s : State) : R s (scanStation fuel s) := by
  induction fuel generalizing s with
  | zero => exact h.refl s
  | succ fuel ih =>
    unfold Machine.scanStation
    split
    · exact h.station _ s
    · split
      · exact h.trans (h.station _ s) (ih _)
      · split
        · exact h.station _ s
        · exact h.trans (h.station _ s) (ih _)
        · next found =>
          obtain ⟨sender, length⟩ := frameBehind_good found
          split
          · exact h.station _ s
          · exact h.trans (h.trans (h.station _ s) (h.takeGoodFrame _ _ sender length)) (ih _)

theorem scan (h : LineEdits R) (s : State) : R s (scan s) := h.scanStation _ s

theorem arriveChar (h : LineEdits R) (b : Byte) (s : State) : R s (arriveChar b s) := by
  unfold Machine.arriveChar
  split
  · exact h.station _ s
  · exact h.trans (h.station _ s) (h.scan _)

theorem timeOutStation (h : LineEdits R) (s : State) : R s (timeOutStation s) := by
  unfold Machine.timeOutStation
  split
  · split
    · exact h.trans (h.station _ s) (h.scan _)
    · exact h.refl s
  · exact h.refl s

theorem finishAnswer (h : LineEdits R) (s : State) : R s (finishAnswer s) := by
  unfold Machine.finishAnswer
  split
  · exact h.trans (h.station _ s) (h.scan _)
  · exact h.refl s

/-! ## The clock up to the wrap (R181, R197, R214) -/

theorem runReceivers (h : LineEdits R) (k : Nat) (s : State) : R s (runReceivers k s) := by
  have ports : R s (runPort 3 k (runPort 2 k (runPort 1 k (runPort 0 k s)))) :=
    h.trans (h.trans (h.trans (h.runReceiver _ 0 k s) (h.runReceiver _ 1 k _)) (h.runReceiver _ 2 k _))
      (h.runReceiver _ 3 k _)
  exact h.trans ports (h.station _ _)

theorem stationTimer (h : LineEdits R) (s : State) : R s (stationTimer s) := by
  unfold Machine.stationTimer
  split
  · split
    · exact h.timeOutStation s
    · exact h.refl s
  · exact h.refl s

theorem runTimers (h : LineEdits R) (k : Nat) (s : State) : R s (runTimers k s) :=
  h.trans (h.trans (h.trans (h.runReceivers k s) (h.withPeriod _ _)) (h.stationTimer _)) (h.period _ _)

theorem runToWrap (h : LineEdits R) (fuel : Nat) (s : State) : R s (runToWrap fuel s) := by
  induction fuel generalizing s with
  | zero => exact h.runTimers _ s
  | succ fuel ih =>
    unfold Machine.runToWrap
    split
    · exact h.trans (h.runTimers _ s) (ih _)
    · exact h.runTimers _ s

theorem clockToWrap (h : LineEdits R) (s : State) : R s (clockToWrap s) :=
  h.trans (h.runToWrap _ s) (h.period _ _)

end LineEdits

end Sys2Proof.Machine
end

