-- ==== Sys2Proof/Proofs/Zones.lean ====
section
/-! PROOFS. One record of the Airspace Table under each thing that can happen to it: the fields that the requests write, the
fields that its state carries, and its occupied flag against P (R3, R9, R12 to R14, R18 to R28). -/

namespace Sys2Proof.Machine

/-! ## The laws of one record -/

/-- The fields that requests write: the handle of the slot, and the others in their ranges (R3, R9). -/
def ZoneWritten (k g : Nat) (z : Zone) : Prop :=
  z.handle = k * 256 + g ∧ z.label.length ≤ 12
    ∧ (z.kind = .keepOut → z.cap = none)
    ∧ (z.kind = .slow → ∃ c, z.cap = some c ∧ 100 ≤ c ∧ c ≤ 12000)
    ∧ (∀ n, z.lifetime = some n → 1 ≤ n ∧ n ≤ 16777215)
    ∧ z.owner < 8 ∧ boxInRange z.box = true

/-- The fields that go with the record's state (R3, R13, R17, R25, R28). -/
def ZonePhase (z : Zone) : Prop :=
  (z.occupied = true → z.kind = .keepOut ∧ z.state = .active)
    ∧ z.clear ≤ 1 ∧ (z.state ≠ .pending → z.clear = 0)
    ∧ (z.fresh = true → z.state = .pending ∧ z.clear = 0) ∧ (z.reboxed = true → z.state = .pending)

theorem zoneOk_iff (k g : Nat) (z : Zone) : ZoneOk k g z ↔ ZoneWritten k g z ∧ ZonePhase z := by
  unfold ZoneOk ZoneWritten ZonePhase
  constructor
  · rintro ⟨handle, label, keepOut, slow, occ, clear, clear0, lifetime, owner, box, fresh, reboxed⟩
    exact ⟨⟨handle, label, keepOut, slow, lifetime, owner, box⟩, occ, clear, clear0, fresh, reboxed⟩
  · rintro ⟨⟨handle, label, keepOut, slow, lifetime, owner, box⟩, occ, clear, clear0, fresh, reboxed⟩
    exact ⟨handle, label, keepOut, slow, occ, clear, clear0, lifetime, owner, box, fresh, reboxed⟩

/-- The occupied flag of one record is exact (R13). -/
def ZoneExact (standoff : Nat) (p : Option Vec3) (z : Zone) : Prop :=
  z.occupied = (z.activeKeepOut && insideGuarded standoff p z)

theorem insideGuarded_some (standoff : Nat) (p : Vec3) (z : Zone) :
    insideGuarded standoff (some p) z = (z.guarded standoff).has p := rfl

@[simp] theorem insideGuarded_none (standoff : Nat) (z : Zone) : insideGuarded standoff none z = false := rfl

theorem activeKeepOut_eq_true (z : Zone) : z.activeKeepOut = true ↔ z.state = .active ∧ z.kind = .keepOut := by
  simp [Zone.activeKeepOut]

theorem activeKeepOut_of_not_active (z : Zone) (h : z.state ≠ .active) : z.activeKeepOut = false := by
  simp [Zone.activeKeepOut, h]

/-- A record that is not ACTIVE is exact when its flag is no. -/
theorem ZoneExact.of_not_active {standoff : Nat} {p : Option Vec3} {z : Zone} (h : z.state ≠ .active)
    (ho : z.occupied = false) : ZoneExact standoff p z := by
  simp [ZoneExact, activeKeepOut_of_not_active z h, ho]

/-- A record that is not ACTIVE and exact is not in O. -/
theorem ZoneExact.vacant {standoff : Nat} {p : Option Vec3} {z : Zone} (h : ZoneExact standoff p z)
    (hs : z.state ≠ .active) : z.occupied = false := by
  simpa [ZoneExact, activeKeepOut_of_not_active z hs] using h

/-! ## The states a record takes -/

theorem ZonePhase.activated (z : Zone) (occ : Bool) (h : occ = true → z.kind = .keepOut) :
    ZonePhase (z.activated occ) := by
  simpa [ZonePhase, Zone.activated] using h

theorem ZonePhase.heldBack (z : Zone) : ZonePhase z.heldBack := by
  simp [ZonePhase, Zone.heldBack]

theorem ZonePhase.suspended (z : Zone) : ZonePhase z.suspended := by
  simp [ZonePhase, Zone.suspended]

theorem ZoneExact.activated (standoff : Nat) (p : Option Vec3) (z : Zone) :
    ZoneExact standoff p (z.activated (z.kind == .keepOut && insideGuarded standoff p z)) := by
  simp [ZoneExact, Zone.activated, Zone.activeKeepOut, insideGuarded, Zone.guarded]

theorem ZoneExact.heldBack (standoff : Nat) (p : Option Vec3) (z : Zone) : ZoneExact standoff p z.heldBack :=
  .of_not_active (by simp) rfl

theorem ZoneExact.suspended (standoff : Nat) (p : Option Vec3) (z : Zone) : ZoneExact standoff p z.suspended :=
  .of_not_active (by simp) rfl

/-- All that activation can do (R12): ACTIVE, in O for a keep-out that P lies inside, or held back PENDING. In SAFE, where P is
not valid, it reads no P. -/
theorem activate_cases (m : Mode) (p : Option Vec3) (standoff : Nat) (z : Zone) :
    (∃ occ, (occ = true → z.kind = .keepOut)
        ∧ ((m = .safe → p = none) → occ = (z.kind == .keepOut && insideGuarded standoff p z))
        ∧ activate m p standoff z = z.activated occ)
      ∨ activate m p standoff z = z.heldBack := by
  unfold activate
  rcases hk : z.kind with _ | _
  · rcases hi : insideGuarded standoff p z with _ | _
    · cases m <;> exact .inl ⟨false, by simp, by simp, by simp⟩
    · cases m
      case safe =>
        refine .inl ⟨false, by simp, fun h => ?_, rfl⟩
        rw [h rfl] at hi; simp at hi
      case stopped => exact .inl ⟨true, by simp, by simp, rfl⟩
      case stopping => exact .inr rfl
      all_goals
        rcases hp : z.policy with _ | _
        · exact .inr rfl
        · exact .inl ⟨true, by simp, by simp, rfl⟩
  · exact .inl ⟨false, by simp, by simp, rfl⟩

theorem ZoneWritten.activate {k g : Nat} {z : Zone} (h : ZoneWritten k g z) (m : Mode) (p : Option Vec3)
    (standoff : Nat) : ZoneWritten k g (activate m p standoff z) := by
  rcases activate_cases m p standoff z with ⟨occ, -, -, e⟩ | e <;> rw [e] <;> exact h

theorem ZonePhase.activate (m : Mode) (p : Option Vec3) (standoff : Nat) (z : Zone) :
    ZonePhase (activate m p standoff z) := by
  rcases activate_cases m p standoff z with ⟨occ, keepOut, -, e⟩ | e <;> rw [e]
  · exact .activated z occ keepOut
  · exact .heldBack z

theorem ZoneExact.activate (m : Mode) (p : Option Vec3) (standoff : Nat) (z : Zone) (h : m = .safe → p = none) :
    ZoneExact standoff p (activate m p standoff z) := by
  rcases activate_cases m p standoff z with ⟨occ, -, exact, e⟩ | e <;> rw [e]
  · rw [exact h]; exact .activated standoff p z
  · exact .heldBack standoff p z

/-! ## ZONE_AMEND (R18, R19) -/

/-- What a ZONE_AMEND may carry (R18), in words of the parameters. -/
theorem amendOk_iff (changes : Nat) (box : Box) (lifetime : Nat) (label : List Byte) (z : Zone) :
    amendOk changes box lifetime label z = true ↔
      changes < 32 ∧ (changes.testBit 0 = true → boxInRange box = true)
        ∧ (changes.testBit 1 = true → z.kind = .slow) ∧ ¬(changes.testBit 2 = true ∧ changes.testBit 3 = true)
        ∧ (changes.testBit 2 = true → lifetime ≠ 0) ∧ (changes.testBit 4 = true → label.length ≤ 12) := by
  have kind : (¬z.kind = .keepOut) ↔ z.kind = .slow := by cases z.kind <;> decide
  simp [amendOk, kind, and_assoc, or_iff_not_imp_left, -Nat.testBit_zero]

theorem ZoneWritten.amended {k g : Nat} {z : Zone} (h : ZoneWritten k g z) {changes : Nat} {box : Box}
    {cap lifetime : Nat} {label : List Byte} (hl : lifetime ≤ 16777215)
    (ok : amendOk changes box lifetime label z = true) :
    ZoneWritten k g (amended changes box cap lifetime label z) := by
  obtain ⟨handle, labelOk, keepOut, slow, lifetimeOk, owner, boxOk⟩ := h
  obtain ⟨-, newBox, newCap, -, newLifetime, newLabel⟩ := (amendOk_iff ..).1 ok
  refine ⟨handle, ?_, ?_, ?_, ?_, owner, ?_⟩ <;> dsimp only [Machine.amended]
  · split
    · next bit => exact newLabel bit
    · exact labelOk
  · intro hk
    split
    · next bit => rw [newCap bit] at hk; cases hk
    · exact keepOut hk
  · intro hk
    split
    · exact ⟨_, rfl, by rw [clampNat_eq _ _ _ (by omega)]; omega⟩
    · exact slow hk
  · intro n hn
    split at hn
    · next bit => cases hn; exact ⟨Nat.pos_of_ne_zero (newLifetime bit), hl⟩
    · split at hn
      · cases hn
      · exact lifetimeOk n hn
  · split
    · next bit => exact newBox bit
    · exact boxOk

/-- All that an amended record can do (R19): activation, a wait for the expiry after next, or nothing. -/
theorem afterAmend_cases (s : State) (newBox : Bool) (z : Zone) :
    (newBox = true ∧ z.state = .active ∧ z.kind = .keepOut ∧ afterAmend s newBox z = activateIn s z)
      ∨ (newBox = true ∧ z.state = .pending ∧ afterAmend s newBox z = { z with clear := 0, reboxed := true })
      ∨ ((newBox = false ∨ z.state = .active ∧ z.kind = .slow ∨ z.state = .suspended) ∧ afterAmend s newBox z = z) := by
  cases newBox <;> rcases hs : z.state with _ | _ | _ <;> rcases hk : z.kind with _ | _ <;> simp [afterAmend, hs, hk]

theorem ZoneWritten.afterAmend {k g : Nat} {z : Zone} (h : ZoneWritten k g z) (s : State) (newBox : Bool) :
    ZoneWritten k g (afterAmend s newBox z) := by
  rcases afterAmend_cases s newBox z with ⟨-, -, -, e⟩ | ⟨-, -, e⟩ | ⟨-, e⟩ <;> rw [e]
  · exact h.activate _ _ _
  · exact h
  · exact h

theorem ZonePhase.afterAmend {z : Zone} (h : ZonePhase z) (s : State) (newBox : Bool) :
    ZonePhase (afterAmend s newBox z) := by
  rcases afterAmend_cases s newBox z with ⟨-, -, -, e⟩ | ⟨-, hs, e⟩ | ⟨-, e⟩ <;> rw [e]
  · exact .activate _ _ _ z
  · obtain ⟨occ, -, -, -, -⟩ := h
    exact ⟨occ, by simp, by simp, by simp [hs], by simp [hs]⟩
  · exact h

/-- An amended record stays exact: with a new box it goes through activation, and one that cannot be in O stays out. -/
theorem ZoneExact.afterAmend {s : State} {z z1 : Zone} {newBox : Bool} {standoff : Nat} {p : Option Vec3}
    (h : ZoneExact standoff p z) (kind : z1.kind = z.kind) (state : z1.state = z.state)
    (occ : z1.occupied = z.occupied) (box : newBox = false → z1.box = z.box)
    (act : ZoneExact standoff p (activateIn s z1)) : ZoneExact standoff p (afterAmend s newBox z1) := by
  rcases afterAmend_cases s newBox z1 with ⟨-, -, -, e⟩ | ⟨-, hs, e⟩ | ⟨why, e⟩ <;> rw [e]
  · exact act
  · refine .of_not_active (by simp [hs]) ?_
    exact occ.trans (h.vacant (by simp [← state, hs]))
  · rcases why with same | ⟨-, hk⟩ | hs
    · unfold ZoneExact Zone.activeKeepOut insideGuarded Zone.guarded at *
      rw [kind, state, occ, box same]; exact h
    · have out : z.occupied = false := by
        have : z.activeKeepOut = false := by simp [Zone.activeKeepOut, ← kind, hk]
        simpa [ZoneExact, this] using h
      simp [ZoneExact, Zone.activeKeepOut, hk, occ, out]
    · exact .of_not_active (by simp [hs]) (occ.trans (h.vacant (by simp [← state, hs])))

/-! ## A period expiry (R24, R26) -/

/-- The record with one period of its lifetime gone. -/
def Zone.aged (z : Zone) : Zone := { z with lifetime := z.lifetime.map (· - 1) }

/-- One count of a slot (R24): the record retired when its count reaches zero, else one period older. -/
theorem countDown_eq (sl : Slot) :
    sl.countDown = if sl.due then sl.retire else { sl with zone := sl.zone.map Zone.aged } := rfl

theorem due_iff (sl : Slot) : sl.due = true ↔ ∃ z n, sl.zone = some z ∧ z.lifetime = some n ∧ n ≤ 1 := by
  unfold Slot.due
  rcases sl.zone with _ | z
  · simp
  · rcases hl : z.lifetime with _ | n <;> simp [hl]

theorem ZoneWritten.aged {k g : Nat} {z : Zone} (h : ZoneWritten k g z) (hd : ∀ n, z.lifetime = some n → 1 < n) :
    ZoneWritten k g z.aged := by
  obtain ⟨handle, label, keepOut, slow, lifetime, owner, box⟩ := h
  refine ⟨handle, label, keepOut, slow, ?_, owner, box⟩
  intro n hn
  obtain ⟨m, hm, rfl⟩ := Option.map_eq_some_iff.1 hn
  have := lifetime m hm
  have := hd m hm
  omega

theorem restDue_iff (sl : Slot) :
    sl.restDue = true ↔ ∃ z, sl.zone = some z ∧ z.state = .pending ∧ z.reboxed = false := by
  unfold Slot.restDue
  rcases sl.zone with _ | z <;> simp

/-! ## A commit (R14, R25) -/

/-- The commit check leaves the written fields, and the state of every record but an ACTIVE keep-out (R14). -/
theorem commitCheck_cases (ran : Mode) (p : Vec3) (standoff : Nat) (z : Zone) :
    (z.activeKeepOut = false ∧ z.commitCheck ran p standoff = z)
      ∨ (z.activeKeepOut = true
          ∧ z.commitCheck ran p standoff = { z with occupied := (z.guarded standoff).has p })
      ∨ (z.activeKeepOut = true ∧ (z.guarded standoff).has p = true ∧ z.occupied = false
          ∧ z.commitCheck ran p standoff = z.heldBack) := by
  unfold Zone.commitCheck
  rcases ha : z.activeKeepOut with _ | _
  · simp
  · rcases hi : (z.guarded standoff).has p with _ | _
    · simp
    · rcases ho : z.occupied with _ | _
      · by_cases hr : ran = .stopping
        · simp [hr]
        · rcases hp : z.policy with _ | _ <;> simp [hr]
      · have : { z with occupied := true } = z := by rw [← ho]
        simp [this]

theorem ZoneWritten.commitCheck {k g : Nat} {z : Zone} (h : ZoneWritten k g z) (ran : Mode) (p : Vec3)
    (standoff : Nat) : ZoneWritten k g (z.commitCheck ran p standoff) := by
  rcases commitCheck_cases ran p standoff z with ⟨-, e⟩ | ⟨-, e⟩ | ⟨-, -, -, e⟩ <;> rw [e] <;> exact h

theorem ZonePhase.commitCheck {z : Zone} (h : ZonePhase z) (ran : Mode) (p : Vec3) (standoff : Nat) :
    ZonePhase (z.commitCheck ran p standoff) := by
  rcases commitCheck_cases ran p standoff z with ⟨-, e⟩ | ⟨ha, e⟩ | ⟨-, -, -, e⟩ <;> rw [e]
  · exact h
  · obtain ⟨-, clear, clear0, fresh, reboxed⟩ := h
    obtain ⟨state, kind⟩ := (activeKeepOut_eq_true z).1 ha
    exact ⟨fun _ => ⟨kind, state⟩, clear, clear0, fresh, reboxed⟩
  · exact .heldBack z

/-- After the commit check the record is exact against the new P, whatever P was. -/
theorem ZoneExact.commitCheck {standoff : Nat} {q : Option Vec3} {z : Zone} (h : ZoneExact standoff q z) (ran : Mode)
    (p : Vec3) : ZoneExact standoff (some p) (z.commitCheck ran p standoff) := by
  rcases commitCheck_cases ran p standoff z with ⟨ha, e⟩ | ⟨ha, e⟩ | ⟨-, -, -, e⟩ <;> rw [e]
  · have out : z.occupied = false := by simpa [ZoneExact, ha] using h
    simp [ZoneExact, ha, out]
  · have : ({ z with occupied := (z.guarded standoff).has p } : Zone).activeKeepOut = true := ha
    simp [ZoneExact, this]; rfl
  · exact .heldBack standoff _ z

/-- All that the promotion test can do (R25). -/
theorem promoteStep_cases (p : Vec3) (standoff : Nat) (z : Zone) :
    (z.counting = false ∧ z.promoteStep p standoff = z)
      ∨ (z.counting = true ∧ (z.guarded standoff).has p = true ∧ z.promoteStep p standoff = { z with clear := 0 })
      ∨ (z.counting = true ∧ (z.guarded standoff).has p = false ∧ z.clear = 1
          ∧ z.promoteStep p standoff = z.activated false)
      ∨ (z.counting = true ∧ (z.guarded standoff).has p = false ∧ z.clear ≠ 1
          ∧ z.promoteStep p standoff = { z with clear := 1 }) := by
  rcases hc : z.counting with _ | _
  · simp [Zone.promoteStep, hc]
  · rw [Zone.promoteStep_of_counting z p standoff hc]
    rcases hi : (z.guarded standoff).has p with _ | _
    · by_cases h1 : z.clear = 1 <;> simp [h1]
    · simp

theorem counting_iff (z : Zone) : z.counting = true ↔ z.state = .pending ∧ z.kind = .keepOut ∧ z.fresh = false := by
  simp [Zone.counting, and_assoc]

theorem ZoneWritten.promoteStep {k g : Nat} {z : Zone} (h : ZoneWritten k g z) (p : Vec3) (standoff : Nat) :
    ZoneWritten k g (z.promoteStep p standoff) := by
  rcases promoteStep_cases p standoff z with ⟨-, e⟩ | ⟨-, -, e⟩ | ⟨-, -, -, e⟩ | ⟨-, -, -, e⟩ <;> rw [e] <;> exact h

theorem ZonePhase.promoteStep {z : Zone} (h : ZonePhase z) (p : Vec3) (standoff : Nat) :
    ZonePhase (z.promoteStep p standoff) := by
  rcases promoteStep_cases p standoff z with ⟨-, e⟩ | ⟨hc, -, e⟩ | ⟨-, -, -, e⟩ | ⟨hc, -, -, e⟩ <;> rw [e]
  · exact h
  · obtain ⟨occ, -, -, -, reboxed⟩ := h
    obtain ⟨state, -, -⟩ := (counting_iff z).1 hc
    exact ⟨occ, by simp, by simp, fun _ => ⟨state, rfl⟩, reboxed⟩
  · exact .activated z false (by simp)
  · obtain ⟨occ, -, -, -, reboxed⟩ := h
    obtain ⟨state, -, fresh⟩ := (counting_iff z).1 hc
    exact ⟨occ, by simp, by simp [state], by simp [fresh], reboxed⟩

theorem ZoneExact.promoteStep {standoff : Nat} {p : Vec3} {z : Zone} (h : ZoneExact standoff (some p) z) :
    ZoneExact standoff (some p) (z.promoteStep p standoff) := by
  rcases promoteStep_cases p standoff z with ⟨-, e⟩ | ⟨-, -, e⟩ | ⟨-, out, -, e⟩ | ⟨-, -, -, e⟩ <;> rw [e]
  · exact h
  · exact h
  · have : ZoneExact standoff (some p) (z.activated (z.kind == .keepOut && insideGuarded standoff (some p) z)) :=
      .activated standoff (some p) z
    rwa [insideGuarded_some, out, Bool.and_false] at this
  · exact h

end Sys2Proof.Machine
end

