-- ==== Sys2Proof/Proofs/Steers.lean ====
section
/-! PROOFS. What every shared transition and every port does to the Airspace Table and to what it reads: nothing, and a mode
other than SAFE never becomes SAFE by it (R15, R35). -/

namespace Sys2Proof.Machine

/-- The zones, P, the limits and the table's two flags are as they were; no computation has begun, and SAFE was not entered. -/
structure Steers (s t : State) : Prop where
  air : t.air = s.air
  p : t.motion.p = s.motion.p
  lim : t.motion.lim = s.motion.lim
  zoneActive : eventSet t .zoneActive = eventSet s .zoneActive
  zoneExpired : eventSet t .zoneExpired = eventSet s .zoneExpired
  flight : t.motion.flight.isSome = true → s.motion.flight.isSome = true
  leavesSafe : s.motion.mode ≠ .safe → t.motion.mode ≠ .safe

namespace Steers

theorem refl (s : State) : Steers s s := ⟨rfl, rfl, rfl, rfl, rfl, id, id⟩

theorem trans {s t u : State} (h : Steers s t) (k : Steers t u) : Steers s u where
  air := k.air.trans h.air
  p := k.p.trans h.p
  lim := k.lim.trans h.lim
  zoneActive := k.zoneActive.trans h.zoneActive
  zoneExpired := k.zoneExpired.trans h.zoneExpired
  flight := fun hf => h.flight (k.flight hf)
  leavesSafe := fun hm => k.leavesSafe (h.leavesSafe hm)

theorem raise (e : Event) (s : State) (he : e ∉ zoneEvents) : Steers s (raiseEvent e s) := by
  have other : ∀ f ∈ zoneEvents, eventSet (raiseEvent e s) f = eventSet s f := by
    intro f hf
    have : f ≠ e := fun h => he (h ▸ hf)
    simp [eventSet_raiseEvent, this]
  exact ⟨rfl, rfl, rfl, other _ (by simp [zoneEvents]), other _ (by simp [zoneEvents]), id, id⟩

/-- An edit of the mode alone, or of no field that counts here. -/
theorem controlEdits : ControlEdits Steers where
  refl := refl
  trans := trans
  raise := raise
  mode := fun _ _ hm => ⟨rfl, rfl, rfl, rfl, rfl, id, fun _ => hm⟩
  auth := fun _ _ => ⟨rfl, rfl, rfl, rfl, rfl, id, id⟩
  cue := fun _ _ => ⟨rfl, rfl, rfl, rfl, rfl, id, id⟩
  stop := fun _ _ => ⟨rfl, rfl, rfl, rfl, rfl, id, id⟩
  copy := fun _ _ => ⟨rfl, rfl, rfl, rfl, rfl, id, id⟩
  exit := fun _ _ _ => ⟨rfl, rfl, rfl, rfl, rfl, id, id⟩
  lengths := fun _ _ _ => ⟨rfl, rfl, rfl, rfl, rfl, id, id⟩
  dropCopy := fun s => ⟨rfl, rfl, rfl, rfl, rfl, by simp, id⟩
  freeze := fun _ => ⟨rfl, rfl, rfl, rfl, rfl, by simp, fun _ => by simp⟩

theorem partEdits : PartEdits Steers where
  refl := refl
  trans := trans
  raise := raise
  cause := fun c port s => controlEdits.raiseCause c port .none s
  port := fun _ _ _ => ⟨rfl, rfl, rfl, rfl, rfl, id, id⟩
  period := fun _ _ => ⟨rfl, rfl, rfl, rfl, rfl, id, id⟩
  silence := fun _ _ => ⟨rfl, rfl, rfl, rfl, rfl, id, id⟩

end Steers

/-- In SAFE a cause joins the set and the Motion Generator does nothing (R167). -/
theorem raiseCause_motion_of_safe (c : Cause) (port : Option Nat) (asked : StopKind) (s : State)
    (h : s.motion.mode = .safe) : (raiseCause c port asked s).motion = s.motion := by
  simp [raiseCause, kindAfter, h, raiseIf_eq]

end Sys2Proof.Machine
end

