-- ==== Sys2Proof/Proofs/AirKept.lean ====
section
/-! PROOFS. The Airspace Table stays well formed and its occupied flags exact, across everything that a step is made of (R3, R9,
R13, R15). -/

namespace Sys2Proof.Machine

/-! ## The laws slot by slot -/

/-- P is valid except in SAFE, and a computation is in flight only outside SAFE (R35, R42). -/
def PositionFits (m : Motion) : Prop :=
  (m.p = none ↔ m.mode = .safe) ∧ (m.flight.isSome = true → m.mode ≠ .safe)

/-- The occupied flags are exact and P goes with the mode. -/
def AirSound (s : State) : Prop := OccupiedExact s ∧ PositionFits s.motion

/-- One slot of the table is well formed. -/
def SlotOk (k : Nat) (sl : Slot) : Prop := sl.generation < 256 ∧ ∀ z, sl.zone = some z → ZoneOk k sl.generation z

/-- The flag of the record of a slot is exact. -/
def SlotExact (standoff : Nat) (p : Option Vec3) (sl : Slot) : Prop := ∀ z, sl.zone = some z → ZoneExact standoff p z

theorem airOk_iff (s : State) : AirOk s ↔ s.air.length = 48 ∧ ∀ (k : Nat) (sl : Slot), s.air[k]? = some sl → SlotOk k sl := Iff.rfl

theorem occupiedExact_iff (s : State) :
    OccupiedExact s ↔ ∀ (k : Nat) (sl : Slot), s.air[k]? = some sl → SlotExact s.motion.lim.standoff s.motion.p sl := by
  constructor
  · intro h k sl hk z hz
    exact h z ((mem_liveZones s.air z).2 ⟨k, sl, hk, hz⟩)
  · intro h z hz
    obtain ⟨k, sl, hk, hsl⟩ := (mem_liveZones s.air z).1 hz
    exact h k sl hk z hsl

theorem slotOk_free {k g : Nat} (hg : g < 256) : SlotOk k { generation := g, zone := none } := ⟨hg, by simp⟩

theorem slotExact_free (standoff : Nat) (p : Option Vec3) (g : Nat) :
    SlotExact standoff p { generation := g, zone := none } := by
  simp [SlotExact]

theorem SlotOk.retire {k : Nat} (sl : Slot) : SlotOk k sl.retire := slotOk_free (Nat.mod_lt _ (by omega))

/-- A change of the records of a table that keeps each generation. -/
theorem SlotOk.map {k : Nat} {sl : Slot} (h : SlotOk k sl) (f : Zone → Zone)
    (hf : ∀ z, sl.zone = some z → ZoneOk k sl.generation z → ZoneOk k sl.generation (f z)) :
    SlotOk k { sl with zone := sl.zone.map f } := by
  refine ⟨h.1, fun z' hz' => ?_⟩
  obtain ⟨z, hz, rfl⟩ := Option.map_eq_some_iff.1 hz'
  exact hf z hz (h.2 z hz)

theorem SlotExact.map {standoff : Nat} {p q : Option Vec3} {sl : Slot} (h : SlotExact standoff q sl) (f : Zone → Zone)
    (hf : ∀ z, sl.zone = some z → ZoneExact standoff q z → ZoneExact standoff p (f z)) :
    SlotExact standoff p { sl with zone := sl.zone.map f } := by
  intro z' hz'
  obtain ⟨z, hz, rfl⟩ := Option.map_eq_some_iff.1 hz'
  exact hf z hz (h z hz)

/-! ## Moves that keep both laws -/

/-- The move keeps the table's flags exact with P going with the mode, and, where `wf` holds of the command that makes it, the
table well formed. -/
structure AirKeeps (wf : Prop) (s t : State) : Prop where
  ok : wf → AirOk s → AirOk t
  sound : AirSound s → AirSound t

namespace AirKeeps

variable {wf : Prop}

theorem refl (s : State) : AirKeeps wf s s := ⟨fun _ => id, id⟩

theorem trans {s t u : State} (h : AirKeeps wf s t) (k : AirKeeps wf t u) : AirKeeps wf s u :=
  ⟨fun hwf hs => k.ok hwf (h.ok hwf hs), fun hs => k.sound (h.sound hs)⟩

theorem ite {c : Prop} [Decidable c] {s t : State} (h : AirKeeps wf s t) : AirKeeps wf s (if c then t else s) := by
  split
  · exact h
  · exact refl s

/-- A move that keeps both laws whatever makes it, from one by a command that is well formed. -/
theorem of_wf {P : Prop} {s t : State} (h : AirKeeps P s t) (hP : P) : AirKeeps wf s t := ⟨fun _ => h.ok hP, h.sound⟩

/-- A move that touches neither the table nor the Motion Generator. -/
theorem still {s t : State} (air : t.air = s.air) (motion : t.motion = s.motion) : AirKeeps wf s t := by
  constructor
  · rintro -; unfold AirOk; rw [air]; exact id
  · unfold AirSound OccupiedExact; rw [air, motion]; exact id

/-- A move that leaves the zones, P and the limits alone keeps both laws when the mode goes with P after it. -/
theorem of_position {s t : State} (air : t.air = s.air) (p : t.motion.p = s.motion.p)
    (lim : t.motion.lim = s.motion.lim) (fits : PositionFits s.motion → PositionFits t.motion) : AirKeeps wf s t := by
  constructor
  · rintro -; unfold AirOk; rw [air]; exact id
  · rintro ⟨exact, hf⟩
    refine ⟨?_, fits hf⟩
    unfold OccupiedExact at *; rw [air, p, lim]; exact exact

/-- A shared transition keeps both laws, if in SAFE it stays there or P is valid. -/
theorem of_steers {s t : State} (h : Steers s t) (hs : s.motion.mode = .safe → s.motion.p ≠ none ∨ t.motion.mode = .safe) :
    AirKeeps wf s t := by
  refine of_position h.air h.p h.lim ?_
  rintro ⟨valid, flight⟩
  have same : t.motion.mode = .safe ↔ s.motion.mode = .safe := by
    constructor
    · intro ht; by_contra hm; exact h.leavesSafe hm ht
    · intro hm
      rcases hs hm with hp | ht
      · exact absurd (valid.2 hm) hp
      · exact ht
  refine ⟨by rw [h.p, same]; exact valid, fun hf => ?_⟩
  rw [Ne, same]; exact flight (h.flight hf)

theorem of_steers_of_ne {s t : State} (h : Steers s t) (hs : s.motion.mode ≠ .safe) : AirKeeps wf s t :=
  of_steers h fun hm => absurd hm hs

theorem raiseCause (c : Cause) (port : Option Nat) (asked : StopKind) (s : State) :
    AirKeeps wf s (raiseCause c port asked s) :=
  of_steers (Steers.controlEdits.raiseCause c port asked s) fun hm =>
    .inr (by rw [raiseCause_motion_of_safe c port asked s hm, hm])

/-- The table with each slot changed on its own, P and all else of the Motion Generator as it was. -/
theorem of_slots {s t : State} (motion : t.motion = s.motion) (length : t.air.length = s.air.length)
    (slots : ∀ (k : Nat) (sl' : Slot), t.air[k]? = some sl' → ∃ sl, s.air[k]? = some sl ∧ (wf → SlotOk k sl → SlotOk k sl')
      ∧ (PositionFits s.motion → SlotExact s.motion.lim.standoff s.motion.p sl →
          SlotExact s.motion.lim.standoff s.motion.p sl')) : AirKeeps wf s t := by
  constructor
  · intro hwf h
    obtain ⟨len, ok⟩ := (airOk_iff s).1 h
    refine (airOk_iff t).2 ⟨length.trans len, fun k sl' hk => ?_⟩
    obtain ⟨sl, hsl, keeps, -⟩ := slots k sl' hk
    exact keeps hwf (ok k sl hsl)
  · rintro ⟨exact, fits⟩
    refine ⟨(occupiedExact_iff t).2 fun k sl' hk => ?_, by rw [motion]; exact fits⟩
    obtain ⟨sl, hsl, -, keeps⟩ := slots k sl' hk
    rw [motion]
    exact keeps fits ((occupiedExact_iff s).1 exact k sl hsl)

theorem of_map {s t : State} (f : Slot → Slot) (motion : t.motion = s.motion) (air : t.air = s.air.map f)
    (ok : ∀ k sl, SlotOk k sl → SlotOk k (f sl))
    (exact : ∀ sl, PositionFits s.motion → SlotExact s.motion.lim.standoff s.motion.p sl →
      SlotExact s.motion.lim.standoff s.motion.p (f sl)) : AirKeeps wf s t := by
  refine of_slots motion (by simp [air]) fun k sl' hk => ?_
  rw [air, List.getElem?_map] at hk
  obtain ⟨sl, hsl, rfl⟩ := Option.map_eq_some_iff.1 hk
  exact ⟨sl, hsl, fun _ => ok k sl, exact sl⟩

/-- One slot of the table replaced. -/
theorem of_set {s t : State} {n : Nat} {sl sl' : Slot} (hn : s.air[n]? = some sl) (motion : t.motion = s.motion)
    (air : t.air = s.air.set n sl') (ok : wf → SlotOk n sl → SlotOk n sl')
    (exact : PositionFits s.motion → SlotExact s.motion.lim.standoff s.motion.p sl →
      SlotExact s.motion.lim.standoff s.motion.p sl') : AirKeeps wf s t := by
  refine of_slots motion (by simp [air]) fun k x hk => ?_
  rw [air] at hk
  by_cases h : k = n
  · subst h
    rw [List.getElem?_set_self (List.getElem?_eq_some_iff.1 hn).1] at hk
    cases hk
    exact ⟨sl, hn, ok, exact⟩
  · rw [List.getElem?_set_ne (Ne.symm h)] at hk
    exact ⟨x, hk, fun _ => id, fun _ => id⟩

/-- The record of a slot replaced by one that keeps the laws. -/
theorem of_setZone {s : State} {n : Nat} {sl : Slot} {z z' : Zone} (hn : s.air[n]? = some sl) (hz : sl.zone = some z)
    (written : wf → ZoneWritten n sl.generation z → ZoneWritten n sl.generation z') (phase : ZonePhase z → ZonePhase z')
    (exact : PositionFits s.motion → ZoneExact s.motion.lim.standoff s.motion.p z →
      ZoneExact s.motion.lim.standoff s.motion.p z') : AirKeeps wf s (setZone n sl z' s) := by
  refine of_set hn rfl rfl ?_ ?_
  · rintro hwf ⟨gen, ok⟩
    refine ⟨gen, fun x hx => ?_⟩
    cases hx
    obtain ⟨w, ph⟩ := (zoneOk_iff ..).1 (ok z hz)
    exact (zoneOk_iff ..).2 ⟨written hwf w, phase ph⟩
  · intro fits h x hx
    cases hx
    exact exact fits (h z hz)

/-- The mode becomes SAFE: P is not valid and O is empty (R15). -/
theorem becomeSafe (s : State) : AirKeeps wf s (becomeSafe s) := by
  have slots : ∀ {k : Nat} {sl' : Slot}, (Machine.becomeSafe s).air[k]? = some sl' →
      ∃ sl, s.air[k]? = some sl ∧ sl' = { sl with zone := sl.zone.map Zone.vacate } := by
    intro k sl' hk
    simp only [Machine.becomeSafe, emptyOccupied, List.getElem?_map] at hk
    obtain ⟨sl, hsl, e⟩ := Option.map_eq_some_iff.1 hk
    exact ⟨sl, hsl, e.symm⟩
  constructor
  · intro hwf h
    obtain ⟨len, ok⟩ := (airOk_iff s).1 h
    refine (airOk_iff _).2 ⟨by simpa [Machine.becomeSafe, emptyOccupied] using len, fun k sl' hk => ?_⟩
    obtain ⟨sl, hsl, rfl⟩ := slots hk
    refine (ok k sl hsl).map _ fun z _ hz => ?_
    obtain ⟨w, -, phase⟩ := (zoneOk_iff ..).1 hz
    exact (zoneOk_iff ..).2 ⟨w, by simp [Zone.vacate], phase⟩
  · rintro -
    refine ⟨(occupiedExact_iff _).2 fun k sl' hk => ?_, by simp [PositionFits, Machine.becomeSafe]⟩
    obtain ⟨sl, -, rfl⟩ := slots hk
    intro z hz
    obtain ⟨y, -, rfl⟩ := Option.map_eq_some_iff.1 hz
    simp [ZoneExact, Zone.vacate, Machine.becomeSafe]

/-- Every slot free and the Motion Generator at power-on. -/
theorem powerOn {s t : State} (air : t.air = List.replicate 48 freeSlot) (motion : t.motion = motionPowerOn) :
    AirKeeps wf s t := by
  have slots : ∀ {k : Nat} {sl : Slot}, t.air[k]? = some sl → sl = freeSlot := by
    intro k sl hk
    rw [air, List.getElem?_replicate] at hk
    split at hk
    · exact (Option.some.inj hk).symm
    · cases hk
  refine ⟨fun _ _ => (airOk_iff t).2 ⟨by simp [air], fun k sl hk => ?_⟩, fun _ => ⟨(occupiedExact_iff t).2 fun k sl hk => ?_, ?_⟩⟩
  · rw [slots hk]; exact slotOk_free (by omega)
  · rw [slots hk]; exact slotExact_free _ _ _
  · rw [motion]; simp [PositionFits, motionPowerOn]

/-- The limits change in SAFE, where no zone is in O (R15, R84, R183). -/
theorem limits {s t : State} (air : t.air = s.air) (motion : t.motion = { s.motion with lim := t.motion.lim })
    (hs : s.motion.mode = .safe) : AirKeeps wf s t := by
  have p : t.motion.p = s.motion.p := by rw [motion]
  constructor
  · rintro -; unfold AirOk; rw [air]; exact id
  · rintro ⟨exact, fits⟩
    have none : s.motion.p = none := fits.1.2 hs
    refine ⟨?_, by rw [motion]; exact fits⟩
    unfold OccupiedExact at *
    rw [air, p, none]
    rw [none] at exact
    exact exact

end AirKeeps

/-! ## The table's work at an expiry and at a commit (R14, R24 to R26) -/

section

variable {wf : Prop}

theorem airKeeps_retireSlot {s t : State} (n : Nat) (motion : t.motion = s.motion) (air : t.air = s.air.modify n Slot.retire) :
    AirKeeps wf s t := by
  refine .of_slots motion (by simp [air]) fun k sl' hk => ?_
  rw [air, List.getElem?_modify] at hk
  obtain ⟨sl, hsl, e⟩ := Option.map_eq_some_iff.1 hk
  refine ⟨sl, hsl, ?_⟩
  split at e <;> rw [← e]
  · exact ⟨fun _ _ => SlotOk.retire sl, fun _ _ => slotExact_free _ _ _⟩
  · exact ⟨fun _ => id, fun _ => id⟩

theorem airKeeps_countLifetimes (s : State) : AirKeeps wf s (countLifetimes s) := by
  refine .of_map Slot.countDown (by simp [countLifetimes, raiseIf_eq]) (by simp [countLifetimes, raiseIf_eq]) ?_ ?_
  · intro k sl h
    rw [countDown_eq]
    split
    · exact SlotOk.retire sl
    · next notDue =>
      refine h.map _ fun z hz ok => ?_
      obtain ⟨written, phase⟩ := (zoneOk_iff ..).1 ok
      refine (zoneOk_iff ..).2 ⟨written.aged fun n hn => ?_, phase⟩
      by_contra hle
      exact notDue ((due_iff sl).2 ⟨z, n, hz, hn, by omega⟩)
  · intro sl _ h
    rw [countDown_eq]
    split
    · exact slotExact_free _ _ _
    · exact h.map _ fun z _ hz => hz

/-- A record promoted at rest is in O exactly when it is a keep-out that P lies inside; in SAFE none is (R26). -/
theorem airKeeps_promoteSlots {s t : State} (motion : t.motion = s.motion)
    (air : t.air = s.air.map (Slot.promoteAtRest s.motion.mode s.motion.p s.motion.lim.standoff))
    (rest : s.motion.mode = .safe ∨ s.motion.mode.isStopped = true) : AirKeeps wf s t := by
  refine .of_map _ motion air ?_ ?_
  · intro k sl h
    unfold Slot.promoteAtRest
    split
    · refine h.map _ fun z _ hz => ?_
      obtain ⟨written, -⟩ := (zoneOk_iff ..).1 hz
      exact (zoneOk_iff ..).2 ⟨written, .activated z _ (by simp; intro _ hk _; exact hk)⟩
    · exact h
  · intro sl fits h
    unfold Slot.promoteAtRest
    split
    · refine h.map _ fun z _ _ => ?_
      have inO : (s.motion.mode.isStopped && z.kind == .keepOut && insideGuarded s.motion.lim.standoff s.motion.p z)
          = (z.kind == .keepOut && insideGuarded s.motion.lim.standoff s.motion.p z) := by
        rcases rest with hm | hm
        · simp [fits.1.2 hm]
        · simp [hm]
      rw [inO]
      exact .activated _ _ z
    · exact h

theorem airKeeps_seeExpiry {s t : State} (motion : t.motion = s.motion) (air : t.air = seeExpiry s.air) : AirKeeps wf s t := by
  refine .of_map _ motion air ?_ ?_
  · intro k sl h
    refine h.map _ fun z _ hz => ?_
    obtain ⟨written, occ, clear, clear0, -, -⟩ := (zoneOk_iff ..).1 hz
    exact (zoneOk_iff ..).2 ⟨written, occ, clear, clear0, by simp, by simp⟩
  · intro sl _ h
    exact h.map _ fun z _ hz => hz

theorem airKeeps_promoteAtRest (s : State) : AirKeeps wf s (promoteAtRest s) := by
  unfold promoteAtRest
  dsimp only
  split
  · next rest =>
    have promoted : AirKeeps wf s (raiseIf (s.air.any Slot.restDue) .zoneActive
        { s with air := s.air.map (Slot.promoteAtRest s.motion.mode s.motion.p s.motion.lim.standoff) }) :=
      airKeeps_promoteSlots (by simp [raiseIf_eq]) (by simp [raiseIf_eq]) rest
    exact promoted.trans (airKeeps_seeExpiry rfl rfl)
  · exact airKeeps_seeExpiry rfl rfl

/-- The table of a commit, slot by slot: the commit check, then the promotion test (R14, R25). -/
theorem tableCommit_air (ran : Mode) (p : Vec3) (s : State) :
    (tableCommit ran p s).air = s.air.map (fun sl => { sl with
      zone := sl.zone.map (fun z => (z.commitCheck ran p s.motion.lim.standoff).promoteStep p s.motion.lim.standoff) }) := by
  simp [tableCommit, raiseIf_eq, Function.comp_def]

/-- A commit checks the table against the new P, so the flags are exact after it whatever P was; a computation in flight means
that the mode is not SAFE. -/
theorem airKeeps_tableCommit (s : State) (c : Computation) (p v : Vec3) (hc : s.motion.flight = some c) :
    AirKeeps wf s (tableCommit c.mode p { s with motion := { s.motion with p := some p, vOld := v, flight := none } }) := by
  constructor
  · intro hwf h
    obtain ⟨len, ok⟩ := (airOk_iff s).1 h
    refine (airOk_iff _).2 ⟨by simpa [tableCommit_air] using len, fun k sl' hk => ?_⟩
    rw [tableCommit_air, List.getElem?_map] at hk
    obtain ⟨sl, hsl, rfl⟩ := Option.map_eq_some_iff.1 hk
    refine (ok k sl hsl).map _ fun z _ hz => ?_
    obtain ⟨written, phase⟩ := (zoneOk_iff ..).1 hz
    exact (zoneOk_iff ..).2 ⟨(written.commitCheck _ _ _).promoteStep _ _, (phase.commitCheck _ _ _).promoteStep _ _⟩
  · rintro ⟨exact, fits⟩
    have motion := congrArg State.motion (tableCommit_eq c.mode p
      { s with motion := { s.motion with p := some p, vOld := v, flight := none } })
    refine ⟨(occupiedExact_iff _).2 fun k sl' hk => ?_, ?_⟩
    · rw [motion]
      rw [tableCommit_air, List.getElem?_map] at hk
      obtain ⟨sl, hsl, rfl⟩ := Option.map_eq_some_iff.1 hk
      exact ((occupiedExact_iff s).1 exact k sl hsl).map _ fun z _ hz => (hz.commitCheck _ p).promoteStep
    · rw [motion]
      have : s.motion.mode ≠ .safe := fits.2 (by rw [hc]; rfl)
      simp [PositionFits, this]

theorem airKeeps_commit (c : Computation) (s : State) (hc : s.motion.flight = some c) : AirKeeps wf s (commit c s) := by
  have valid : (committedTable c s).motion.p ≠ none := by rw [committedTable, tableCommit_eq]; simp
  exact (airKeeps_tableCommit s c _ _ hc).trans (.of_steers (Steers.controlEdits.commit c s) fun _ => .inl valid)

theorem airKeeps_commitFlight (s : State) : AirKeeps wf s (commitFlight s) := by
  unfold commitFlight
  split
  · next c hc => exact airKeeps_commit c s hc
  · exact .refl s

/-! ## The Motion Generator and the Arbiter at an expiry -/

theorem arbiterExpiry_motion (s : State) : (arbiterExpiry s).motion = s.motion := by
  have decided : (claimDecision (countBackoffs s)).motion = s.motion := by unfold claimDecision; split <;> rfl
  unfold arbiterExpiry stickStep
  split
  · split <;> simp [raiseIf_eq, decided]
  · exact decided

theorem airKeeps_arbiterExpiry (s : State) : AirKeeps wf s (arbiterExpiry s) :=
  .still (Steers.controlEdits.arbiterExpiry s).air (arbiterExpiry_motion s)

/-- A computation begins in the modes in which P is valid alone (R42). -/
theorem airKeeps_beginComputation (s : State) : AirKeeps wf s (beginComputation s) := by
  unfold beginComputation
  split
  · next running =>
    have moving : s.motion.mode ≠ .safe := by intro h; simp [h, Mode.steered] at running
    dsimp only
    have settled := Steers.controlEdits.settle s
    generalize settle s = t at settled ⊢
    have searched : Steers t (if t.motion.mode = .evict then searchExit t else t) := by
      split
      · exact Steers.controlEdits.searchExit t
      · exact .refl t
    generalize (if t.motion.mode = .evict then searchExit t else t) = u at searched ⊢
    have mode : u.motion.mode ≠ .safe := (settled.trans searched).leavesSafe moving
    refine (AirKeeps.of_steers_of_ne (settled.trans searched) moving).trans (.of_position rfl rfl rfl ?_)
    exact fun fits => ⟨fits.1, fun _ => mode⟩
  · exact .of_position rfl rfl rfl id

/-- Every edit of the ports, the clock and the silence counter keeps both laws, and so does a cause (R167). -/
theorem airKeeps_partEdits : PartEdits (AirKeeps wf) where
  refl := .refl
  trans := .trans
  raise := fun _ _ _ => .still rfl rfl
  cause := fun c port s => .raiseCause c port .none s
  port := fun _ _ _ => .still rfl rfl
  period := fun _ _ => .still rfl rfl
  silence := fun _ _ => .still rfl rfl

theorem airKeeps_expiryWork (s : State) : AirKeeps wf s (expiryWork s) :=
  (((((airKeeps_countLifetimes s).trans (airKeeps_promoteAtRest _)).trans (airKeeps_arbiterExpiry _)).trans
    (airKeeps_beginComputation _)).trans (airKeeps_partEdits.portsExpiry _)).trans (airKeeps_partEdits.silenceStep _)

end

end Sys2Proof.Machine
end

