-- ==== Sys2Proof/Proofs/AirRequests.lean ====
section
/-! PROOFS. Every request keeps the Airspace Table well formed and its occupied flags exact: most of them touch neither the zones
nor the Motion Generator, some change the mode by a shared transition, and the zone requests write one slot each. -/

namespace Sys2Proof.Machine

variable {wf : Prop}

/-! ## Requests that touch neither the zones nor the Motion Generator -/

/-- The zones and the Motion Generator stand as they did. -/
def Still (s t : State) : Prop := t.air = s.air ∧ t.motion = s.motion

theorem Still.keeps {s t : State} (h : Still s t) : AirKeeps wf s t := .still h.1 h.2

theorem still_refl (s : State) : Still s s := ⟨rfl, rfl⟩

theorem still_movePort (i : Nat) (q : Port) (s : State) : Still s (movePort i q s) := by
  rw [movePort_eq]; exact ⟨rfl, rfl⟩

/-- All that a request can do that is taken in SAFE alone (R70). -/
theorem inSafe_cases (s : State) (ok : Bool) (own : State → State × Reply) :
    (inSafe s ok own).1 = s ∨ s.motion.mode = .safe ∧ ok = true ∧ inSafe s ok own = own s := by
  unfold inSafe
  split
  · exact .inl rfl
  · next hm =>
    cases ok
    · exact .inl rfl
    · exact .inr ⟨by simpa using hm, rfl, rfl⟩

theorem still_inSafe (s : State) (ok : Bool) (own : State → State × Reply) (h : Still s (own s).1) :
    Still s (inSafe s ok own).1 := by
  rcases inSafe_cases s ok own with e | ⟨-, -, e⟩ <;> rw [e]
  · exact still_refl s
  · exact h

theorem still_setAttentionMask (mask : Nat) (s : State) : Still s (setAttentionMask mask s).1 := by
  unfold setAttentionMask; split <;> exact ⟨rfl, rfl⟩

theorem still_lookupZone (handle : Nat) (s : State) : Still s (lookupZone handle s).1 := by
  unfold lookupZone; split <;> exact ⟨rfl, rfl⟩

theorem still_findZones (point : Vec3) (s : State) : Still s (findZones point s).1 := by
  unfold findZones; split <;> exact ⟨rfl, rfl⟩

theorem still_listZones (states owner : Nat) (s : State) : Still s (listZones states owner s).1 := by
  unfold listZones; split <;> exact ⟨rfl, rfl⟩

theorem still_corrWindow (w0 w1 j0 j1 order : Nat) (s : State) : Still s (corrWindow w0 w1 j0 j1 order s).1 := by
  unfold corrWindow
  split
  · exact still_refl s
  · split <;> exact ⟨rfl, rfl⟩

theorem still_corrRead (n : Nat) (s : State) : Still s (corrRead n s).1 := by
  unfold corrRead
  split
  · exact still_refl s
  · exact still_inSafe _ _ _ ⟨rfl, rfl⟩

theorem still_markSet (n : Nat) (pos : Vec3) (label : List Byte) (st : Nat) (c : StationClass) (s : State) :
    Still s (markSet n pos label st c s).1 := by
  unfold markSet
  split
  · exact still_refl s
  · split
    · split <;> exact ⟨rfl, rfl⟩
    · split
      · exact still_refl s
      · split <;> exact ⟨rfl, rfl⟩

theorem still_markRetire (n st : Nat) (c : StationClass) (s : State) : Still s (markRetire n st c s).1 := by
  unfold markRetire
  split
  · exact still_refl s
  · split
    · exact still_refl s
    · split
      · exact still_refl s
      · split <;> exact ⟨rfl, rfl⟩

theorem still_markRead (n : Nat) (s : State) : Still s (markRead n s).1 := by
  unfold markRead; split <;> exact ⟨rfl, rfl⟩

theorem still_cueAppend (n cruise dwell flags st : Nat) (s : State) : Still s (cueAppend n cruise dwell flags st s).1 := by
  unfold cueAppend
  split
  · exact still_refl s
  · split
    · exact still_refl s
    · split <;> exact ⟨rfl, rfl⟩

theorem still_claim (st : Nat) (s : State) : Still s (claim st s).1 := by
  unfold claim
  split
  · exact ⟨rfl, rfl⟩
  · split
    · exact still_refl s
    · split <;> exact ⟨rfl, rfl⟩

theorem still_stick (d : Vec3) (scale flags st : Nat) (s : State) : Still s (stick d scale flags st s).1 := by
  unfold stick
  split
  · exact still_refl s
  · split
    · exact still_refl s
    · split <;> exact ⟨rfl, rfl⟩

theorem still_setOrientation (flags st : Nat) (c : StationClass) (s : State) : Still s (setOrientation flags st c s).1 := by
  unfold setOrientation
  split
  · exact still_refl s
  · split <;> exact ⟨rfl, rfl⟩

theorem still_endSwap (st : Nat) (s : State) : Still s (endSwap st s).1 := by
  unfold endSwap; split <;> exact ⟨rfl, rfl⟩

theorem still_setStick (start hold deadband st : Nat) (c : StationClass) (s : State) :
    Still s (setStick start hold deadband st c s).1 := by
  unfold setStick; split <;> exact ⟨rfl, rfl⟩

theorem still_readAuthority (clear st : Nat) (c : StationClass) (s : State) : Still s (readAuthority clear st c s).1 := by
  unfold readAuthority
  split
  · exact still_refl s
  · dsimp only [accept]
    split <;> exact ⟨rfl, rfl⟩

theorem still_controlPort (i : Nat) (s : State) (act : Port → Option Port) : Still s (controlPort i s act).1 := by
  unfold controlPort
  split
  · exact still_refl s
  · split
    · exact still_refl s
    · split
      · exact still_refl s
      · exact still_movePort _ _ s

theorem still_portTestStart (i pattern loop : Nat) (s : State) : Still s (portTestStart i pattern loop s).1 := by
  unfold portTestStart
  split
  · dsimp only
    split
    · exact still_refl s
    · split
      · exact still_refl s
      · split
        · exact still_refl s
        · split
          · exact still_refl s
          · exact still_movePort _ _ s
  · exact still_refl s

theorem still_portTestStop (i : Nat) (s : State) : Still s (portTestStop i s).1 := by
  unfold portTestStop
  split
  · exact still_refl s
  · dsimp only [accept]
    split
    · exact still_movePort _ _ s
    · exact still_refl s

theorem still_portClear (i : Nat) (s : State) : Still s (portClear i s).1 := by
  unfold portClear
  split
  · exact ⟨rfl, rfl⟩
  · split <;> exact ⟨rfl, rfl⟩

theorem still_portRead (i clear : Nat) (c : StationClass) (s : State) : Still s (portRead i clear c s).1 := by
  unfold portRead
  split
  · exact still_refl s
  · split
    · exact still_refl s
    · dsimp only [accept]
      split <;> exact ⟨rfl, rfl⟩

/-! ## Requests that change the mode by a shared transition -/

theorem airKeeps_setStationClass (station cls : Nat) (s : State) : AirKeeps wf s (setStationClass station cls s).1 := by
  have lost : ∀ t : State, AirKeeps wf t (classLoss station t) := by
    intro t
    refine .of_steers (Steers.controlEdits.classLoss station t) fun hm => .inr ?_
    unfold classLoss
    split
    · simp [loseAuthority, hm]
    · exact hm
  unfold setStationClass
  split
  · exact .refl s
  · split
    · exact .refl s
    · dsimp only [accept]
      split
      · refine .trans ?_ (lost _)
        exact .still rfl rfl
      · exact .still rfl rfl

theorem airKeeps_release (st : Nat) (s : State) : AirKeeps wf s (release st s).1 := by
  unfold release
  split
  · exact .refl s
  · split
    · exact .still rfl rfl
    · refine .of_steers (.trans (Steers.controlEdits.auth _ s) (Steers.controlEdits.endAuthority _)) fun hm => .inr ?_
      simp [accept, endAuthority, hm]

theorem airKeeps_preempt (st : Nat) (s : State) : AirKeeps wf s (preempt st s).1 := by
  refine .of_steers (Steers.controlEdits.preempted st s) fun hm => .inr ?_
  simp only [preempt, accept, preempted]
  split
  · exact hm
  · dsimp only [raiseEvent_motion]
    split
    · simp [loseAuthority, hm]
    · exact hm

theorem airKeeps_selectMode (mode st : Nat) (s : State) : AirKeeps wf s (selectMode mode st s).1 := by
  unfold selectMode
  split
  · exact .refl s
  · split
    · exact .refl s
    · next moving =>
      split
      · exact .refl s
      · refine .of_steers_of_ne (Steers.controlEdits.selected _ st s) fun hm => moving ?_
        simp [hm]

theorem airKeeps_cueGo (st : Nat) (s : State) : AirKeeps wf s (cueGo st s).1 := by
  unfold cueGo
  split
  · exact .refl s
  · split
    · exact .refl s
    · next moving =>
      split
      · exact .refl s
      · refine .of_steers_of_ne (Steers.controlEdits.goHead s) fun hm => moving ?_
        simp [hm]

theorem airKeeps_haltIfRunning (s : State) : AirKeeps wf s (haltIfRunning s) :=
  .of_steers (Steers.controlEdits.haltIfRunning s) fun hm => .inr (by simp [haltIfRunning, hm])

theorem airKeeps_cueHalt (st : Nat) (c : StationClass) (s : State) : AirKeeps wf s (cueHalt st c s).1 := by
  unfold cueHalt
  split
  · exact .refl s
  · exact airKeeps_haltIfRunning s

theorem airKeeps_cueFlush (st : Nat) (c : StationClass) (s : State) : AirKeeps wf s (cueFlush st c s).1 := by
  unfold cueFlush
  split
  · exact .refl s
  · exact (airKeeps_haltIfRunning s).trans (.still (by simp [accept, removeTo, raiseIf_eq])
      (by simp [accept, removeTo, raiseIf_eq]))

theorem airKeeps_setAbility (i classes : Nat) (s : State) : AirKeeps wf s (setAbility i classes s).1 := by
  unfold setAbility
  split
  · exact .refl s
  · split
    · exact .refl s
    · dsimp only [accept]
      split
      · exact airKeeps_partEdits.reclass _ _ _ s
      · exact airKeeps_partEdits.port _ _ s

theorem airKeeps_stop (kind st : Nat) (c : StationClass) (s : State) : AirKeeps wf s (stop kind st c s).1 := by
  unfold stop
  split
  · exact .refl s
  · split
    · exact .refl s
    · exact .raiseCause _ _ _ s

/-! ## ENABLE, DISABLE, CLEAR_STOP, RESTART and the limits -/

/-- ENABLE makes P valid where no ACTIVE keep-out has it (R39, check 6). -/
theorem airKeeps_enable (p0 : Vec3) (s : State) : AirKeeps wf s (enable p0 s).1 := by
  unfold enable
  dsimp only
  split
  · exact .refl s
  · next inSafe =>
    split
    · exact .refl s
    · split
      · exact .refl s
      · split
        · exact .refl s
        · split
          · exact .refl s
          · split
            · exact .refl s
            · next clear =>
              split
              · exact .refl s
              · refine ⟨fun _ => id, ?_⟩
                rintro ⟨exact, fits⟩
                have none : s.motion.p = none := fits.1.2 (by simpa using inSafe)
                refine ⟨fun z hz => ?_, by simp [accept, PositionFits]⟩
                have out : z.occupied = false := by simpa [none] using exact z hz
                have outside : (z.activeKeepOut && (z.guarded s.motion.lim.standoff).has p0.um) = false := by
                  by_contra h
                  exact clear (List.any_eq_true.2 ⟨z, hz, by simpa using h⟩)
                simpa [accept, insideGuarded_some, out] using outside

theorem airKeeps_disable (s : State) : AirKeeps wf s (disable s).1 := by
  unfold disable
  split
  · exact .becomeSafe s
  · exact .refl s

theorem airKeeps_clearStop (s : State) : AirKeeps wf s (clearStop s).1 := by
  have cleared : ∀ t : State, AirKeeps wf t (clearMotion t) := by
    intro t
    unfold clearMotion
    split
    · next held => exact .of_steers_of_ne (Steers.controlEdits.enterHold t) (by simp [held])
    · exact .becomeSafe t
    all_goals exact .refl t
  unfold clearStop
  split
  · exact .refl s
  · split
    · exact .refl s
    · split
      · exact .refl s
      · refine .trans ?_ (cleared _)
        exact .still rfl rfl

theorem airKeeps_clearAir {s t : State} (motion : t.motion = s.motion) (air : t.air = clearAir s.air) : AirKeeps wf s t := by
  refine .of_map _ motion air ?_ ?_
  · intro k sl h
    split
    · exact SlotOk.retire sl
    · exact h
  · intro sl _ h
    split
    · exact slotExact_free _ _ _
    · exact h

/-- RESTART clears the zones that are not standing, makes the mode SAFE and ends every wait for an expiry (R33, R209). -/
theorem airKeeps_restarted (s : State) : AirKeeps wf s (restarted s) := by
  let cleared : State := { s with air := clearAir s.air }
  let safe : State := becomeSafe cleared
  let seen : State := { safe with air := seeExpiry safe.air }
  have toCleared : AirKeeps wf s cleared := airKeeps_clearAir rfl rfl
  have toSafe : AirKeeps wf cleared safe := .becomeSafe cleared
  have toSeen : AirKeeps wf safe seen := airKeeps_seeExpiry rfl rfl
  have toRestarted : AirKeeps wf seen (restarted s) :=
    .of_position rfl rfl rfl fun _ => by simp [PositionFits, restarted, motionPowerOn]
  exact ((toCleared.trans toSafe).trans toSeen).trans toRestarted

theorem airKeeps_restart (s : State) : AirKeeps wf s (restart s).1 := by
  unfold restart
  split
  · exact airKeeps_restarted s
  · exact .refl s

theorem airKeeps_setLimits (l : LimitSettings) (s : State) : AirKeeps wf s (setLimits l s).1 := by
  unfold setLimits
  rcases inSafe_cases s true _ with e | ⟨hm, -, e⟩ <;> rw [e]
  · exact .refl s
  · exact .limits rfl rfl hm

theorem airKeeps_setStandard (standard : Nat) (s : State) : AirKeeps wf s (setStandard standard s).1 := by
  unfold setStandard
  split
  · exact .refl s
  · rcases inSafe_cases s true _ with e | ⟨hm, -, e⟩ <;> rw [e]
    · exact .refl s
    · exact .limits (by simp [accept, convertAll, raiseIf_eq]) (by simp [accept, convertAll, raiseIf_eq]) hm

/-! ## The zone requests (R16 to R23) -/

theorem getElem?_lowestFree {air : List Slot} {n : Nat} (h : lowestFree air = some n) :
    ∃ sl, air[n]? = some sl ∧ sl.zone = none := by
  obtain ⟨hn, free, -⟩ := List.findIdx?_eq_some_iff_getElem.1 h
  exact ⟨air[n], List.getElem?_eq_getElem hn, by simpa using free⟩

/-- ZONE_CREATE writes a record that is well formed from the start, through activation when it is created ACTIVE (R16, R17). -/
theorem airKeeps_createZone {kind : Nat} {box : Box} {initial policy standing cap lifetime : Nat} {label : List Byte}
    {st : Nat} (c : StationClass) (s : State) (hst : wf → st < 8) (hl : wf → lifetime ≤ 16777215) :
    AirKeeps wf s (createZone kind box initial policy standing cap lifetime label st c s).1 := by
  unfold createZone
  split
  · exact .refl s
  · split
    · next k i pol std _ hi _ _ =>
      split
      · exact .refl s
      · next ok =>
        split
        · exact .refl s
        · next slot found =>
          obtain ⟨boxOk, labelOk⟩ : boxInRange box = true ∧ label.length ≤ 12 := by simpa using ok
          obtain ⟨sl, hn, hz⟩ := getElem?_lowestFree found
          have gen : (s.air.getD slot freeSlot).generation = sl.generation := by simp [hn]
          dsimp only [accept]
          rw [gen]
          generalize hrec : Zone.mk _ _ _ _ _ _ _ _ _ _ _ _ _ _ = z
          have written : wf → ZoneWritten slot sl.generation z := by
            intro hwf
            have hl := hl hwf
            subst hrec
            refine ⟨rfl, labelOk, ?_, ?_, ?_, hst hwf, boxOk⟩
            · rintro rfl; rfl
            · rintro rfl; exact ⟨_, rfl, by rw [clampNat_eq _ _ _ (by omega)]; omega⟩
            · intro n hn
              simp only [lifetimeOf] at hn
              split at hn
              · cases hn
              · cases hn; omega
          have state : z.state = i := by rw [← hrec]
          have parked : z.occupied = false ∧ z.clear = 0 ∧ z.fresh = false ∧ z.reboxed = false := by
            rw [← hrec]; exact ⟨rfl, rfl, rfl, rfl⟩
          obtain ⟨occ, clear, fresh, reboxed⟩ := parked
          rw [withZone_eq_setZone s slot sl _ hn]
          refine .of_set hn rfl rfl ?_ ?_
          · rintro hwf ⟨hg, -⟩
            refine ⟨hg, fun y hy => ?_⟩
            cases hy
            refine (zoneOk_iff ..).2 ?_
            split
            · exact ⟨(written hwf).activate _ _ _, .activate _ _ _ z⟩
            · exact ⟨written hwf, by simp [occ], by simp [clear], by simp [clear], by simp [fresh], by simp [reboxed]⟩
          · intro fits _ y hy
            cases hy
            split
            · exact .activate _ _ _ z fits.1.2
            · next hi => exact .of_not_active (by rwa [state]) occ
    · exact .refl s

/-- A request that names a zone keeps both laws when what it does to the record named does (R11). -/
theorem airKeeps_onZone (c : StationClass) (st handle : Nat) (s : State) (own : Zone → State × Reply)
    (h : ∀ sl z, Names s handle sl z → AirKeeps wf s (own z).1) : AirKeeps wf s (onZone c st handle s own).1 := by
  rcases onZone_cases c st handle s own with ⟨-, e⟩ | ⟨sl, z, named, ⟨-, -, e⟩ | ⟨-, -, -, e⟩ | ⟨-, e⟩⟩ <;> rw [e]
  · exact .refl s
  · exact .refl s
  · exact .refl s
  · exact h sl z named

theorem airKeeps_amendZone {lifetime : Nat} (handle changes : Nat) (box : Box) (cap : Nat) (label : List Byte) (st : Nat)
    (c : StationClass) (s : State) (hl : wf → lifetime ≤ 16777215) :
    AirKeeps wf s (amendZone handle changes box cap lifetime label st c s).1 := by
  refine airKeeps_onZone c st handle s _ fun sl z named => ?_
  obtain ⟨slot, -, zone⟩ := named
  split
  · exact .refl s
  · next ok =>
    have ok : amendOk changes box lifetime label z = true := by simpa using ok
    dsimp only [accept]
    rw [withZone_eq_setZone s _ sl _ slot]
    refine .of_setZone slot zone (fun hwf w => (w.amended (hl hwf) ok).afterAmend _ _) (fun ph => ?_) fun fits exact => ?_
    · exact ZonePhase.afterAmend (z := amended changes box cap lifetime label z) ph s _
    · exact exact.afterAmend rfl rfl rfl (fun same => by simp [amended, same]) (.activate _ _ _ _ fits.1.2)

theorem airKeeps_suspendZone (handle st : Nat) (c : StationClass) (s : State) : AirKeeps wf s (suspendZone handle st c s).1 := by
  refine airKeeps_onZone c st handle s _ fun sl z named => ?_
  obtain ⟨slot, -, zone⟩ := named
  split
  · exact .refl s
  · dsimp only [accept]
    rw [withZone_eq_setZone s _ sl _ slot]
    exact .of_setZone slot zone (fun _ => id) (fun _ => .suspended z) fun _ _ => .suspended _ _ z

theorem airKeeps_resumeZone (handle policy st : Nat) (c : StationClass) (s : State) :
    AirKeeps wf s (resumeZone handle policy st c s).1 := by
  refine airKeeps_onZone c st handle s _ fun sl z named => ?_
  obtain ⟨slot, -, zone⟩ := named
  split
  · exact .refl s
  · next pol _ =>
    split
    · exact .refl s
    · dsimp only [accept]
      rw [withZone_eq_setZone s _ sl _ slot]
      exact .of_setZone slot zone (fun _ w => ZoneWritten.activate (z := { z with policy := pol }) w _ _ _)
        (fun _ => .activate _ _ _ _) fun fits _ => .activate _ _ _ _ fits.1.2

theorem airKeeps_retireZone (handle st : Nat) (c : StationClass) (s : State) : AirKeeps wf s (retireZone handle st c s).1 :=
  airKeeps_onZone c st handle s _ fun _ _ _ => airKeeps_retireSlot (handle / 256) rfl rfl

/-! ## Every request -/

theorem airKeeps_request {r : Req} {st : Nat} {s t : State} {own : StationClass → State → State × Reply}
    (h : request r st s own = .next t) (keeps : ∀ c u, AirKeeps wf u (own c u).1) : AirKeeps wf s t := by
  rcases request_cases r st s t own h with ⟨-, e⟩ | ⟨-, -, e⟩ | ⟨-, u, p, e, rfl⟩
  · rw [e]; exact .refl s
  · rw [e]; exact .still rfl rfl
  · have owner := keeps (classOf s st) (takeFrame s)
    rw [e] at owner
    exact (AirKeeps.still (s := s) (t := takeFrame s) rfl rfl).trans (owner.trans (.still rfl rfl))

theorem airKeeps_corrWrite {st : Nat} {values : List Int} {s t : State} (h : execCorrWrite st values s = .next t) :
    AirKeeps wf s t := by
  unfold execCorrWrite at h
  split at h
  · cases h
    unfold unlessHeld
    split
    · exact .refl s
    · exact .still rfl rfl
  · exact airKeeps_request h fun _ u => (still_inSafe u true _ ⟨rfl, rfl⟩).keeps

/-- Every request keeps the flags exact, and a well-formed one the table. -/
theorem airKeeps_serve (i : Instr) (s t : State) (h : serve i s = .next t) : AirKeeps (i.wf = true) s t := by
  cases i
  all_goals simp only [serve] at h
  case setAttentionMask => exact airKeeps_request h fun _ u => (still_setAttentionMask _ u).keeps
  case setStationClass => exact airKeeps_request h fun _ u => airKeeps_setStationClass _ _ u
  case restart => exact airKeeps_request h fun _ u => airKeeps_restart u
  case zoneCreate =>
    refine airKeeps_request h fun c u => airKeeps_createZone c u ?_ ?_ <;>
      (simp only [Instr.wf, Bool.and_eq_true, isStation, fitsThree, decide_eq_true_eq]; omega)
  case zoneAmend =>
    refine airKeeps_request h fun c u => airKeeps_amendZone _ _ _ _ _ _ c u ?_
    simp only [Instr.wf, Bool.and_eq_true, isStation, fitsThree, decide_eq_true_eq]
    omega
  case zoneSuspend => exact airKeeps_request h fun c u => airKeeps_suspendZone _ _ c u
  case zoneResume => exact airKeeps_request h fun c u => airKeeps_resumeZone _ _ _ c u
  case zoneRetire => exact airKeeps_request h fun c u => airKeeps_retireZone _ _ c u
  case zoneClear => exact airKeeps_request h fun _ u => airKeeps_clearAir rfl rfl
  case zoneLookup => exact airKeeps_request h fun _ u => (still_lookupZone _ u).keeps
  case zoneFind => exact airKeeps_request h fun _ u => (still_findZones _ u).keeps
  case zoneList => exact airKeeps_request h fun _ u => (still_listZones _ _ u).keeps
  case enable => exact airKeeps_request h fun _ u => airKeeps_enable _ u
  case disable => exact airKeeps_request h fun _ u => airKeeps_disable u
  case setAnchors => exact airKeeps_request h fun _ u => (still_inSafe u _ _ ⟨rfl, rfl⟩).keeps
  case setFlightBox => exact airKeeps_request h fun _ u => (still_inSafe u _ _ ⟨rfl, rfl⟩).keeps
  case setPayout => exact airKeeps_request h fun _ u => (still_inSafe u true _ ⟨rfl, rfl⟩).keeps
  case corrWindow => exact airKeeps_request h fun _ u => (still_corrWindow _ _ _ _ _ u).keeps
  case corrWrite => exact airKeeps_corrWrite h
  case corrRead => exact airKeeps_request h fun _ u => (still_corrRead _ u).keeps
  case setLimits => exact airKeeps_request h fun _ u => airKeeps_setLimits _ u
  case markSet => exact airKeeps_request h fun c u => (still_markSet _ _ _ _ c u).keeps
  case markRetire => exact airKeeps_request h fun c u => (still_markRetire _ _ c u).keeps
  case markRead => exact airKeeps_request h fun _ u => (still_markRead _ u).keeps
  case cueAppend => exact airKeeps_request h fun _ u => (still_cueAppend _ _ _ _ _ u).keeps
  case cueGo => exact airKeeps_request h fun _ u => airKeeps_cueGo _ u
  case cueHalt => exact airKeeps_request h fun c u => airKeeps_cueHalt _ c u
  case cueFlush => exact airKeeps_request h fun c u => airKeeps_cueFlush _ c u
  case claim => exact airKeeps_request h fun _ u => (still_claim _ u).keeps
  case release => exact airKeeps_request h fun _ u => airKeeps_release _ u
  case preempt => exact airKeeps_request h fun _ u => airKeeps_preempt _ u
  case selectMode => exact airKeeps_request h fun _ u => airKeeps_selectMode _ _ u
  case stick => exact airKeeps_request h fun _ u => (still_stick _ _ _ _ u).keeps
  case setOrientation => exact airKeeps_request h fun c u => (still_setOrientation _ _ c u).keeps
  case endSwap => exact airKeeps_request h fun _ u => (still_endSwap _ u).keeps
  case setStick => exact airKeeps_request h fun c u => (still_setStick _ _ _ _ c u).keeps
  case readAuthority => exact airKeeps_request h fun c u => (still_readAuthority _ _ c u).keeps
  case portControlEnable => exact airKeeps_request h fun _ u => (still_controlPort _ u _).keeps
  case portControlDisable => exact airKeeps_request h fun _ u => (still_controlPort _ u _).keeps
  case portControlRetrain => exact airKeeps_request h fun _ u => (still_controlPort _ u _).keeps
  case portControlSleep => exact airKeeps_request h fun _ u => (still_controlPort _ u _).keeps
  case portControlWake => exact airKeeps_request h fun _ u => (still_controlPort _ u _).keeps
  case setAbility => exact airKeeps_request h fun _ u => airKeeps_setAbility _ _ u
  case portTestStart => exact airKeeps_request h fun _ u => (still_portTestStart _ _ _ u).keeps
  case portTestStop => exact airKeeps_request h fun _ u => (still_portTestStop _ u).keeps
  case portClear => exact airKeeps_request h fun _ u => (still_portClear _ u).keeps
  case setPortLimits => exact airKeeps_request h fun _ u => (still_inSafe u true _ ⟨rfl, rfl⟩).keeps
  case portRead => exact airKeeps_request h fun c u => (still_portRead _ _ c u).keeps
  case stop => exact airKeeps_request h fun c u => airKeeps_stop _ _ c u
  case clearStop => exact airKeeps_request h fun _ u => airKeeps_clearStop u
  case setStandard => exact airKeeps_request h fun _ u => airKeeps_setStandard _ u
  case readStatus | readEvents | setWatchdog | readMotion | readGeometry | readLimits | cueRead | setCueWindow | withdraw
      | readStop | readPeriod =>
    exact airKeeps_request h fun _ _ => .still rfl rfl
  all_goals cases h; exact .refl s

/-- So do the receivers and the clock. -/
theorem airKeeps_lineEdits : LineEdits (AirKeeps wf) where
  toPartEdits := airKeeps_partEdits
  station := fun _ _ => .still rfl rfl
  serves := fun i s t hwf h => (airKeeps_serve i s t h).of_wf hwf

end Sys2Proof.Machine
end

