-- ==== Sys2Proof/Proofs/AirStep.lean ====
section
/-! PROOFS. Every command and the idle step keep the Airspace Table well formed and its occupied flags exact (R3, R9, R13,
R15). -/

namespace Sys2Proof.Machine

variable {wf : Prop}

theorem airKeeps_unlessHeld (s : State) (f : State → State) (h : AirKeeps wf s (f s)) : AirKeeps wf s (unlessHeld s f) := by
  unfold unlessHeld
  split
  · exact .refl s
  · exact h

theorem airKeeps_periodExpiry (s : State) : AirKeeps wf s (periodExpiry s) :=
  ((airKeeps_commitFlight s).trans (airKeeps_lineEdits.clockToWrap _)).trans (airKeeps_expiryWork _)

theorem airKeeps_tick (s : State) : AirKeeps wf s (tick s) := by
  have timers := (airKeeps_lineEdits (wf := wf)).runTimers 1 s
  unfold tick
  dsimp only
  split
  · exact ((timers.trans (airKeeps_commitFlight _)).trans (airKeeps_partEdits.period _ _)).trans (airKeeps_expiryWork _)
  · exact timers

/-! ## The threshold rows (log 5) -/

theorem airKeeps_cueDwell (s : State) : AirKeeps wf s (if dwellDue s then completeCue s else s) := by
  split
  · next due =>
    refine .of_steers_of_ne (Steers.controlEdits.completeCue s) fun hm => ?_
    unfold dwellDue at due
    split at due <;> simp [hm] at due
  · exact .refl s

theorem airKeeps_cueBlocked (s : State) : AirKeeps wf s (if blockDue s then failHead .blocked s else s) := by
  split
  · next due =>
    refine .of_steers_of_ne (Steers.controlEdits.failHead _ s) fun hm => ?_
    unfold blockDue at due
    split at due <;> simp [hm] at due
  · exact .refl s

theorem airKeeps_auth (a : Authority) (s : State) : AirKeeps wf s { s with auth := a } := .still rfl rfl

theorem airKeeps_claimDecision (s : State) : AirKeeps wf s (claimDecision s) := by
  unfold claimDecision
  split <;> exact .still rfl rfl

theorem stickStep_motion (s : State) : (stickStep s).motion = s.motion := by
  unfold stickStep
  split
  · split <;> simp [raiseIf_eq]
  · rfl

theorem airKeeps_takeEstop (lineOpen : Bool) (s : State) : AirKeeps wf s (takeEstop lineOpen s) := by
  unfold takeEstop
  dsimp only
  split
  · refine .trans ?_ (.raiseCause _ _ _ _)
    exact .still rfl rfl
  · exact .still rfl rfl

/-! ## Every command, and a step -/

/-- Every command keeps the flags exact, and a well-formed one the table. -/
theorem airKeeps_exec (i : Instr) (s t : State) (h : exec i s = .next t) : AirKeeps (i.wf = true) s t := by
  cases i
  case powerOnReset => cases h; exact .powerOn rfl rfl
  case resetAsserted => cases h; exact .powerOn rfl rfl
  case periodExpiry => cases h; exact airKeeps_unlessHeld _ _ (airKeeps_periodExpiry s)
  case periodCommit => cases h; exact airKeeps_unlessHeld _ _ (airKeeps_commitFlight s)
  case cueDwellExpiry => cases h; exact airKeeps_unlessHeld _ _ (airKeeps_cueDwell s)
  case cueBlocked => cases h; exact airKeeps_unlessHeld _ _ (airKeeps_cueBlocked s)
  case zoneLifetimeExpiry slot => cases h; exact airKeeps_unlessHeld _ _ (.ite (airKeeps_retireSlot slot rfl rfl))
  case backoffExpiry station =>
    cases h
    exact airKeeps_unlessHeld _ _ (.ite (.trans (airKeeps_auth _ s) (airKeeps_claimDecision _)))
  case stickHoldExpiry =>
    cases h
    exact airKeeps_unlessHeld _ _ (.ite (.still (Steers.controlEdits.stickStep s).air (stickStep_motion s)))
  case watchdogExpiry => cases h; exact airKeeps_unlessHeld _ _ (.ite (airKeeps_partEdits.silenceStep s))
  case trainingSilenceExpiry => cases h; exact airKeeps_unlessHeld _ _ (.ite (airKeeps_partEdits.movePort _ _ s))
  case breakExpiry => cases h; exact airKeeps_unlessHeld _ _ (.ite (airKeeps_partEdits.movePort _ _ s))
  case consecutiveMissLimit => cases h; exact airKeeps_unlessHeld _ _ (.ite (airKeeps_partEdits.missCheck _ s))
  case refPulse => cases h; exact airKeeps_unlessHeld _ _ (airKeeps_partEdits.withPeriod _ s)
  case referenceLoss => cases h; exact airKeeps_unlessHeld _ _ (.ite (airKeeps_partEdits.withPeriod _ s))
  case estopLineChange =>
    cases h
    split
    · exact .still rfl rfl
    · exact airKeeps_takeEstop _ s
  case stationCharacter => cases h; exact airKeeps_unlessHeld _ _ (airKeeps_lineEdits.arriveChar _ s)
  case stationFrameTimeout => cases h; exact airKeeps_unlessHeld _ _ (airKeeps_lineEdits.timeOutStation s)
  case answerSent => cases h; exact airKeeps_unlessHeld _ _ (airKeeps_lineEdits.finishAnswer s)
  case unknownRequestFrame =>
    cases h
    refine airKeeps_unlessHeld _ _ ?_
    split
    · exact .refl s
    · exact .still rfl rfl
  case driveAbilityFrame => cases h; exact airKeeps_unlessHeld _ _ (airKeeps_partEdits.driveAbility _ _ s)
  case driveFeedbackFrame => cases h; exact airKeeps_unlessHeld _ _ (airKeeps_partEdits.driveFeedback _ _ _ _ _ s)
  case driveWakeFrame => cases h; exact airKeeps_unlessHeld _ _ (airKeeps_partEdits.driveWake _ s)
  case driveTestFrame => cases h; exact airKeeps_unlessHeld _ _ (airKeeps_partEdits.driveTest _ _ s)
  case winchFrameBadCheck => cases h; exact airKeeps_unlessHeld _ _ (airKeeps_partEdits.badCheck _ s)
  case winchFrameTimeout => cases h; exact airKeeps_unlessHeld _ _ (airKeeps_partEdits.timeOutWinch _ s)
  case winchCharacter =>
    cases h
    refine airKeeps_unlessHeld _ _ ?_
    split
    · exact .refl s
    · exact airKeeps_partEdits.receive _ _ s
  all_goals exact airKeeps_serve _ s t h

/-- A step keeps the flags exact, and one of a queue of well-formed commands the table. -/
theorem airKeeps_step (s t : State) (h : step s = .next t) : AirKeeps (∀ c ∈ s.pending, c.wf = true) s t := by
  unfold step at h
  split at h
  · next c rest queue =>
    have front : AirKeeps (∀ c ∈ s.pending, c.wf = true) s { s with pending := rest } := .still rfl rfl
    have run := airKeeps_exec c _ t h
    exact front.trans ⟨fun wf => run.ok (wf c (by simp [queue])), run.sound⟩
  · cases h
    exact airKeeps_unlessHeld _ _ (airKeeps_tick s)

/-- The law of the modes gives what the zones need of it (R35, R42). -/
theorem ModeOk.positionFits {s : State} (h : ModeOk s) : PositionFits s.motion := by
  obtain ⟨valid, -, -, -, -, -, -, -, -, -, -, -, -, flight⟩ := h
  refine ⟨valid, fun hf => ?_⟩
  obtain ⟨c, hc⟩ := Option.isSome_iff_exists.1 hf
  obtain ⟨p, -⟩ := flight c hc
  intro hm
  rw [valid.2 hm] at p
  cases p

/-- Settles O20: every part of a step keeps each slot well formed. -/
theorem airKept : Obligations.AirKept := fun s t ok wf h => (airKeeps_step s t h).ok wf ok

/-- Settles O21: every part of a step keeps the flags exact and P with the mode. -/
theorem occupiedKept : Obligations.OccupiedKept := fun s t exact mode h =>
  ((airKeeps_step s t h).sound ⟨exact, mode.positionFits⟩).1

end Sys2Proof.Machine
end

