-- ==== Sys2Proof/Proofs/ZoneRequests.lean ====
section
/-! PROOFS. The zone requests, each with its checks in order and its effect on the table (R4, R10 to R12, R16 to R23). -/

namespace Sys2Proof.Machine

/-! ## Taking a request (R199, R201) -/

/-- A request that its owner refuses. -/
theorem request_refused {r : Req} {st : Nat} {s : State} {own : StationClass → State → State × Reply} {why : Status}
    (may : MaySend s r st) (h : own (classOf s st) (takeFrame s) = refuse why (takeFrame s)) :
    request r st s own = turnedAway st r why s := by
  rw [request_of_maySend r st s own may, h]; rfl

/-- A request that its owner takes. -/
theorem request_accepted {r : Req} {st : Nat} {s : State} {own : StationClass → State → State × Reply}
    {payload : List Byte} {f : State → State} (may : MaySend s r st)
    (h : own (classOf s st) (takeFrame s) = accept (f (takeFrame s)) payload) :
    request r st s own = taken st r payload f s := by
  rw [request_of_maySend r st s own may, h]; rfl

/-! ## The activation table (R12) -/

theorem insideGuarded_eq_true_iff (standoff : Nat) (p : Vec3) (z : Zone) :
    insideGuarded standoff (some p) z = true ↔ Inside z standoff p := guarded_has_iff z standoff p

theorem insideGuarded_eq_false_iff (standoff : Nat) (p : Vec3) (z : Zone) :
    insideGuarded standoff (some p) z = false ↔ ¬Inside z standoff p := by
  rw [← insideGuarded_eq_true_iff, Bool.not_eq_true]

theorem activate_slow (m : Mode) (p : Option Vec3) (standoff : Nat) {z : Zone} (h : z.kind = .slow) :
    activate m p standoff z = z.activated false := by
  simp [activate, h]

theorem activate_safe (p : Option Vec3) (standoff : Nat) (z : Zone) :
    activate .safe p standoff z = z.activated false := by
  rcases h : z.kind with _ | _ <;> simp [activate, h]

theorem activate_outside {m : Mode} {p : Option Vec3} {standoff : Nat} {z : Zone}
    (h : insideGuarded standoff p z = false) : activate m p standoff z = z.activated false := by
  rcases hk : z.kind with _ | _
  · cases m <;> simp [activate, hk, h]
  · exact activate_slow m p standoff hk

theorem activate_stopped {m : Mode} {p : Option Vec3} {standoff : Nat} {z : Zone} (hk : z.kind = .keepOut)
    (hm : m.isStopped = true) (h : insideGuarded standoff p z = true) : activate m p standoff z = z.activated true := by
  cases m <;> simp_all [activate, Mode.isStopped]

theorem activate_stopping {p : Option Vec3} {standoff : Nat} {z : Zone} (hk : z.kind = .keepOut)
    (h : insideGuarded standoff p z = true) : activate .stopping p standoff z = z.heldBack := by
  simp [activate, hk, h]

/-- In a steered mode the policy of a keep-out that P lies inside decides. -/
theorem activate_steered {m : Mode} {p : Option Vec3} {standoff : Nat} {z : Zone} (hk : z.kind = .keepOut)
    (hm : m.steered = true) (h : insideGuarded standoff p z = true) :
    activate m p standoff z = if z.policy = .evict then z.activated true else z.heldBack := by
  rcases hp : z.policy with _ | _ <;> cases m <;> simp_all [activate, Mode.steered]

/-- Settles O15: one lemma for each row of the table. -/
theorem activationTable : Obligations.ActivationTable := by
  intro m p standoff z
  have inside := (insideGuarded_eq_true_iff standoff p z).2
  refine ⟨fun hk q => activate_slow m q standoff hk, fun hk => ⟨fun q => activate_safe q standoff z, ?_, ?_, ?_, ?_, ?_⟩⟩
  · exact fun _ hi => activate_outside ((insideGuarded_eq_false_iff standoff p z).2 hi)
  · exact fun hm hi => activate_stopped hk hm (inside hi)
  · intro hm hi hp
    exact (activate_steered hk hm (inside hi)).trans (if_pos hp)
  · intro hm hi hp
    exact (activate_steered hk hm (inside hi)).trans (if_neg (by simp [hp]))
  · rintro rfl hi
    exact activate_stopping hk (inside hi)

/-! ## ZONE_CREATE (R10, R16, R17) -/

theorem zoneKindOf_eq_none (n : Nat) : zoneKindOf n = none ↔ 1 < n := by
  rcases n with _ | _ | n <;> simp [zoneKindOf]

theorem policyOf_eq_none (n : Nat) : policyOf n = none ↔ 1 < n := by
  rcases n with _ | _ | n <;> simp [policyOf]

theorem yesNo_eq_none (n : Nat) : yesNo n = none ↔ 1 < n := by
  rcases n with _ | _ | n <;> simp [yesNo]

theorem initialStateOf_eq_none (n : Nat) : initialStateOf n = none ↔ n ≠ 1 ∧ n ≠ 2 := by
  rcases n with _ | _ | _ | n <;> simp [initialStateOf]

theorem createZone_badParam {kind : Nat} {box : Box} {initial policy standing cap lifetime : Nat} {label : List Byte}
    {st : Nat} {c : StationClass} {s : State} (may : ¬(c = .pilot ∧ standing = 1))
    (bad : 1 < kind ∨ (initial ≠ 1 ∧ initial ≠ 2) ∨ 1 < policy ∨ 1 < standing ∨ boxInRange box = false
      ∨ 12 < label.length) :
    createZone kind box initial policy standing cap lifetime label st c s = refuse .badParam s := by
  unfold createZone
  rw [if_neg may]
  split
  · next hk hi hp hs =>
    have placed : (!boxInRange box || decide (12 < label.length)) = true := by
      rw [← zoneKindOf_eq_none, ← initialStateOf_eq_none, ← policyOf_eq_none, ← yesNo_eq_none, hk, hi, hp, hs] at bad
      simpa using bad
    rw [if_pos placed]
  · rfl

/-- The record that a ZONE_CREATE writes, before activation (R16). -/
def createdZone (n g : Nat) (k : ZoneKind) (box : Box) (i : ZoneState) (pol : Policy) (st : Nat) (std : Bool)
    (cap lifetime : Nat) (label : List Byte) : Zone :=
  { handle := n * 256 + g, kind := k, box := box, state := i, policy := pol, owner := st
    standing := std, cap := if k = .slow then some (max 100 (min 12000 cap)) else none
    lifetime := if lifetime = 0 then none else some lifetime, label := label, occupied := false
    clear := 0, fresh := false, reboxed := false }

/-- The checks of a ZONE_CREATE pass, and these are its parameters decoded (R16). -/
structure CreateOk (c : StationClass) (kind : Nat) (box : Box) (initial policy standing : Nat) (label : List Byte)
    (k : ZoneKind) (i : ZoneState) (pol : Policy) (std : Bool) : Prop where
  may : ¬(c = .pilot ∧ standing = 1)
  kind : zoneKindOf kind = some k
  initial : initialStateOf initial = some i
  policy : policyOf policy = some pol
  standing : yesNo standing = some std
  box : boxInRange box = true
  label : label.length ≤ 12

section

variable {kind initial policy standing st : Nat} {box : Box} {label : List Byte} {c : StationClass} {s : State}
  {k : ZoneKind} {i : ZoneState} {pol : Policy} {std : Bool}

theorem CreateOk.placed (h : CreateOk c kind box initial policy standing label k i pol std) :
    (!boxInRange box || decide (12 < label.length)) = false := by
  simp [h.box, h.label]

theorem createZone_noRoom (cap lifetime : Nat) (h : CreateOk c kind box initial policy standing label k i pol std)
    (full : lowestFree s.air = none) :
    createZone kind box initial policy standing cap lifetime label st c s = refuse .noRoom s := by
  unfold createZone
  rw [if_neg h.may, h.kind, h.initial, h.policy, h.standing]
  simp [h.placed, full]

theorem createZone_accepted (cap lifetime : Nat) {n : Nat} {sl : Slot}
    (h : CreateOk c kind box initial policy standing label k i pol std) (free : lowestFree s.air = some n)
    (hn : s.air[n]? = some sl) :
    createZone kind box initial policy standing cap lifetime label st c s
      = let z0 := createdZone n sl.generation k box i pol st std cap lifetime label
        let z := if i = .active then activateIn s z0 else z0
        accept (setZone n sl z s) (handleBytes z.handle ++ zoneStateBytes z) := by
  have gen : (s.air.getD n freeSlot).generation = sl.generation := by simp [hn]
  dsimp only
  rw [← withZone_eq_setZone s n sl _ hn]
  unfold createZone
  rw [if_neg h.may, h.kind, h.initial, h.policy, h.standing]
  simp only [h.placed, free, gen]
  cases k <;> simp [createdZone, clampNat_eq, lifetimeOf]

end

theorem lowestFree_eq_none {air : List Slot} (h : ∀ sl ∈ air, sl.zone ≠ none) : lowestFree air = none :=
  List.findIdx?_eq_none_iff.2 fun sl hsl => by simpa [Option.isSome_iff_ne_none] using h sl hsl

theorem lowestFree_eq_some {air : List Slot} {n : Nat} {sl : Slot} (hn : air[n]? = some sl) (hz : sl.zone = none)
    (first : ∀ (m : Nat) (sl' : Slot), m < n → air[m]? = some sl' → sl'.zone ≠ none) : lowestFree air = some n := by
  obtain ⟨len, e⟩ := List.getElem?_eq_some_iff.1 hn
  refine List.findIdx?_eq_some_iff_getElem.2 ⟨len, by simp [e, hz], fun m hm => ?_⟩
  have := first m _ hm (List.getElem?_eq_getElem (hm.trans len))
  simpa [Option.isSome_iff_ne_none] using this

/-- Settles O14: the checks in order, then the record in the lowest free slot. -/
theorem zoneCreateTaken : Obligations.ZoneCreateTaken := by
  intro s st kind box initial policy standing cap lifetime label may
  refine ⟨fun stands => ?_, fun stands bad => ?_, fun k i pol std stands hk hi hp hs hb hl => ⟨fun full => ?_, ?_⟩⟩
  · exact request_refused may (if_pos (not_not.1 stands))
  · exact request_refused may (createZone_badParam stands bad)
  · exact request_refused may (createZone_noRoom cap lifetime ⟨stands, hk, hi, hp, hs, hb, hl⟩ (lowestFree_eq_none full))
  · intro n sl hn hz first
    exact request_accepted may
      (createZone_accepted cap lifetime ⟨stands, hk, hi, hp, hs, hb, hl⟩ (lowestFree_eq_some hn hz first) hn)

/-! ## The checks of a named zone (R4, R10, R11) -/

/-- A handle names at most one record. -/
theorem Names.unique {s : State} {handle : Nat} {sl sl' : Slot} {z z' : Zone} (h : Names s handle sl z)
    (h' : Names s handle sl' z') : z' = z := by
  obtain ⟨slot, -, zone⟩ := h
  obtain ⟨slot', -, zone'⟩ := h'
  rw [slot] at slot'
  cases slot'
  rw [zone] at zone'
  exact (Option.some.inj zone').symm

theorem onZone_of_mayChange {c : StationClass} {st handle : Nat} {s : State} {sl : Slot} {z : Zone}
    (own : Zone → State × Reply) (named : Names s handle sl z) (may : c = .pilot → z.owner = st ∧ z.standing = false) :
    onZone c st handle s own = own z := by
  rcases onZone_cases c st handle s own with
    ⟨stale, -⟩ | ⟨sl', z', named', ⟨hc, ho, -⟩ | ⟨hc, -, hs, -⟩ | ⟨-, e⟩⟩
  · exact absurd named (stale sl z)
  all_goals obtain rfl := named.unique named'
  · exact absurd (may hc).1 ho
  · rw [(may hc).2] at hs; cases hs
  · exact e

theorem onZone_of_stale {c : StationClass} {st handle : Nat} {s : State} (own : Zone → State × Reply)
    (stale : ∀ sl z, ¬Names s handle sl z) : onZone c st handle s own = refuse .staleHandle s := by
  rcases onZone_cases c st handle s own with ⟨-, e⟩ | ⟨sl, z, named, -⟩
  · exact e
  · exact absurd named (stale sl z)

theorem onZone_of_notOwner {st handle : Nat} {s : State} {sl : Slot} {z : Zone} (own : Zone → State × Reply)
    (named : Names s handle sl z) (ho : z.owner ≠ st) : onZone .pilot st handle s own = refuse .notOwner s := by
  simp [onZone, (zoneNamed_eq_some s handle z).2 ⟨sl, named⟩, pilotCheck, ho]

theorem onZone_of_standing {st handle : Nat} {s : State} {sl : Slot} {z : Zone} (own : Zone → State × Reply)
    (named : Names s handle sl z) (ho : z.owner = st) (hs : z.standing = true) :
    onZone .pilot st handle s own = refuse .notPermitted s := by
  simp [onZone, (zoneNamed_eq_some s handle z).2 ⟨sl, named⟩, pilotCheck, ho, hs]

/-! ## ZONE_AMEND (R18, R19) -/

/-- The record with the changes of a ZONE_AMEND written, and what it then does by its state and kind. -/
theorem afterAmend_amended (s : State) (changes : Nat) (box : Box) (cap lifetime : Nat) (label : List Byte) (z : Zone) :
    afterAmend s (changes.testBit 0) (amended changes box cap lifetime label z)
      = let z1 : Zone :=
          { z with
            box := if changes.testBit 0 then box else z.box
            cap := if changes.testBit 1 then some (max 100 (min 12000 cap)) else z.cap
            lifetime := if changes.testBit 2 then some lifetime else if changes.testBit 3 then none else z.lifetime
            label := if changes.testBit 4 then label else z.label }
        if changes.testBit 0 = true ∧ z.state = .active ∧ z.kind = .keepOut then activateIn s z1
        else if changes.testBit 0 = true ∧ z.state = .pending then { z1 with clear := 0, reboxed := true }
        else z1 := by
  rw [← clampNat_eq cap 100 12000 (by omega)]
  change _ = if _ then activateIn s (amended changes box cap lifetime label z)
    else if _ then { amended changes box cap lifetime label z with clear := 0, reboxed := true }
    else amended changes box cap lifetime label z
  rcases afterAmend_cases s (changes.testBit 0) (amended changes box cap lifetime label z) with
    ⟨bit, state, kind, e⟩ | ⟨bit, state, e⟩ | ⟨why, e⟩ <;> rw [e]
  · exact (if_pos ⟨bit, state, kind⟩).symm
  · have state : z.state = .pending := state
    simp [bit, state]
  · rcases why with bit | ⟨state, kind⟩ | state
    · rw [bit]; simp
    · have state : z.state = .active := state
      have kind : z.kind = .slow := kind
      simp [state, kind]
    · have state : z.state = .suspended := state
      simp [state]

/-- Settles O16: the changes it may carry, then the record written and put through its state's part. -/
theorem zoneAmendTaken : Obligations.ZoneAmendTaken := by
  intro s st handle changes box cap lifetime label sl z may named mayChange
  have own := fun f => onZone_of_mayChange (s := takeFrame s) f named mayChange
  refine ⟨fun bad => request_refused may ?_, fun allowed => request_accepted may ?_⟩
  · rw [amendZone, own, if_pos]
    simpa using mt (amendOk_iff changes box lifetime label z).1 bad
  · rw [amendZone, own, if_neg (by simpa using (amendOk_iff changes box lifetime label z).2 allowed)]
    dsimp only
    rw [withZone_eq_setZone (takeFrame s) _ sl _ named.1, afterAmend_amended]
    rfl

/-! ## ZONE_SUSPEND, ZONE_RESUME, ZONE_RETIRE and ZONE_CLEAR (R20 to R23) -/

theorem resumePolicy_eq_none {n : Nat} (z : Zone) (h0 : n ≠ 0) (h1 : n ≠ 1) (h255 : n ≠ 255) :
    resumePolicy n z = none := by
  rw [resumePolicy, if_neg h255, policyOf_eq_none]; omega

theorem resumePolicy_eq_some {n : Nat} {z : Zone} {pol : Policy}
    (h : n = 0 ∧ pol = .defer ∨ n = 1 ∧ pol = .evict ∨ n = 255 ∧ pol = z.policy) : resumePolicy n z = some pol := by
  rcases h with ⟨rfl, rfl⟩ | ⟨rfl, rfl⟩ | ⟨rfl, rfl⟩ <;> rfl

/-- A record is counted by ZONE_CLEAR exactly when it is live and not standing (R23). -/
theorem countP_clearable (air : List Slot) :
    air.countP Slot.clearable = ((liveZones air).filter (fun z => !z.standing)).length := by
  induction air with
  | nil => rfl
  | cons sl air ih =>
    rcases hz : sl.zone with _ | z
    · have : sl.clearable = false := by simp [Slot.clearable, hz]
      simp [liveZones, hz, this, ih]
    · have : sl.clearable = !z.standing := by simp [Slot.clearable, hz]
      rcases hs : z.standing <;> simp [liveZones, hz, this, hs, ih]

/-- What ZONE_CLEAR and RESTART do to one slot (R23, R33). -/
theorem clearAir_getElem? {air : List Slot} {k : Nat} {sl : Slot} (hk : air[k]? = some sl) :
    (sl.zone = none → (clearAir air)[k]? = some sl)
      ∧ ∀ z, sl.zone = some z → (clearAir air)[k]?
          = some (if z.standing then sl else { generation := (sl.generation + 1) % 256, zone := none }) := by
  have slot : (clearAir air)[k]? = some (if sl.clearable then sl.retire else sl) := by
    rw [clearAir, List.getElem?_map, hk]; rfl
  refine ⟨fun hz => ?_, fun z hz => ?_⟩
  · simpa [Slot.clearable, hz] using slot
  · rw [slot]
    rcases hs : z.standing <;> simp [Slot.clearable, hz, hs, Slot.retire]

section

variable {s : State} {st handle : Nat} {sl : Slot} {z : Zone}

theorem execZoneSuspend_named (named : Names s handle sl z) (mayChange : MayChange s st z)
    (may : MaySend s .zoneSuspend st) :
    exec (.zoneSuspend st handle) s
      = if z.state = .suspended then turnedAway st .zoneSuspend .wrongState s
        else taken st .zoneSuspend (byte 2) (setZone (handle / 256) sl z.suspended) s := by
  have own := fun f => onZone_of_mayChange (s := takeFrame s) f named mayChange
  split
  · next hs => exact request_refused may (by rw [suspendZone, own, if_pos hs])
  · next hs =>
    refine request_accepted may ?_
    rw [suspendZone, own, if_neg hs, withZone_eq_setZone (takeFrame s) _ sl _ named.1]
    rfl

theorem execZoneResume_badPolicy (named : Names s handle sl z) (mayChange : MayChange s st z)
    (may : MaySend s .zoneResume st) {policy : Nat} (bad : resumePolicy policy z = none) :
    exec (.zoneResume st handle policy) s = turnedAway st .zoneResume .badParam s := by
  refine request_refused may ?_
  rw [resumeZone, onZone_of_mayChange (s := takeFrame s) _ named mayChange, bad]

theorem execZoneResume_named (named : Names s handle sl z) (mayChange : MayChange s st z)
    (may : MaySend s .zoneResume st) {policy : Nat} {pol : Policy} (hp : resumePolicy policy z = some pol) :
    exec (.zoneResume st handle policy) s
      = if z.state = .suspended then
          let z' := activateIn s { z with policy := pol }
          taken st .zoneResume (byte z'.state.code ++ boolByte z'.occupied) (setZone (handle / 256) sl z') s
        else turnedAway st .zoneResume .wrongState s := by
  have own := fun f => onZone_of_mayChange (s := takeFrame s) f named mayChange
  split
  · next hs =>
    refine request_accepted may ?_
    rw [resumeZone, own, hp]
    dsimp only
    rw [if_neg (not_not.2 hs), withZone_eq_setZone (takeFrame s) _ sl _ named.1]
    rfl
  · next hs =>
    refine request_refused may ?_
    rw [resumeZone, own, hp]
    exact if_pos hs

theorem execZoneRetire_named (named : Names s handle sl z) (mayChange : MayChange s st z)
    (may : MaySend s .zoneRetire st) :
    exec (.zoneRetire st handle) s
      = taken st .zoneRetire []
          (fun t => { t with air := t.air.set (handle / 256) { generation := (sl.generation + 1) % 256, zone := none } })
          s := by
  refine request_accepted may ?_
  have slot : s.air.modify (handle / 256) Slot.retire
      = s.air.set (handle / 256) { generation := (sl.generation + 1) % 256, zone := none } := by
    rw [List.modify_eq_set_getElem?, named.1]; rfl
  rw [retireZone, onZone_of_mayChange (s := takeFrame s) _ named mayChange, takeFrame_air, slot]

end

/-- The requests that name a zone, each with its row: the four that change it, and ZONE_LOOKUP. -/
inductive NamesZone (st handle : Nat) : Instr → Req → Prop
  | amend (changes : Nat) (box : Box) (cap lifetime : Nat) (label : List Byte) :
      NamesZone st handle (.zoneAmend st handle changes box cap lifetime label) .zoneAmend
  | suspend : NamesZone st handle (.zoneSuspend st handle) .zoneSuspend
  | resume (policy : Nat) : NamesZone st handle (.zoneResume st handle policy) .zoneResume
  | retire : NamesZone st handle (.zoneRetire st handle) .zoneRetire
  | lookup : NamesZone st handle (.zoneLookup st handle) .zoneLookup

section

variable {s : State} {st handle : Nat} {i : Instr} {r : Req}

theorem exec_of_stale (h : NamesZone st handle i r) (may : MaySend s r st) (stale : ∀ sl z, ¬Names s handle sl z) :
    exec i s = turnedAway st r .staleHandle s := by
  have own := fun f => onZone_of_stale (c := classOf s st) (st := st) (s := takeFrame s) f stale
  cases h
  case lookup =>
    have unnamed : zoneNamed s.air handle = none := by
      rcases hz : zoneNamed s.air handle with _ | z
      · rfl
      · obtain ⟨sl, named⟩ := (zoneNamed_eq_some s handle z).1 hz
        exact absurd named (stale sl z)
    exact request_refused (own := fun _ t => lookupZone handle t) may (by simp [lookupZone, unnamed])
  all_goals exact request_refused may (own _)

theorem exec_of_pilotCheck {why : Status} (h : NamesZone st handle i r) (may : MaySend s r st) (hr : r ≠ .zoneLookup)
    (own : ∀ f, onZone (classOf s st) st handle (takeFrame s) f = refuse why (takeFrame s)) :
    exec i s = turnedAway st r why s := by
  cases h
  case lookup => exact absurd rfl hr
  all_goals exact request_refused may (own _)

end

/-- Settles O17: each request by the lemma that says what it does to the record named, and the checks of a named zone. -/
theorem zoneRequestsTakenAndChecked : Obligations.ZoneRequestsTakenAndChecked := by
  refine ⟨⟨fun s st handle sl z named mayChange => ⟨fun may => ⟨fun hs => ?_, fun hs => ?_⟩,
    fun may policy => ⟨fun h0 h1 h255 => ?_, fun pol hp => ⟨fun hs => ?_, fun hs => ?_⟩⟩, fun may => ?_⟩,
    fun s st may => ?_⟩, ?_⟩
  · rw [execZoneSuspend_named named mayChange may, if_pos hs]
  · rw [execZoneSuspend_named named mayChange may, if_neg hs]; rfl
  · exact execZoneResume_badPolicy named mayChange may (resumePolicy_eq_none z h0 h1 h255)
  · rw [execZoneResume_named named mayChange may (resumePolicy_eq_some hp), if_neg hs]
  · rw [execZoneResume_named named mayChange may (resumePolicy_eq_some hp), if_pos hs]; rfl
  · exact execZoneRetire_named named mayChange may
  · exact ⟨clearAir s.air, s.air.countP Slot.clearable, request_accepted (own := fun _ t => clearZones t) may rfl,
      by simp [clearAir],
      countP_clearable s.air, fun k sl hk => clearAir_getElem? hk⟩
  · intro s st handle changes policy box cap lifetime label c r row may
    have names : NamesZone st handle c r := by
      rcases row with ⟨rfl, rfl⟩ | ⟨rfl, rfl⟩ | ⟨rfl, rfl⟩ | ⟨rfl, rfl⟩ | ⟨rfl, rfl⟩ <;> constructor
    refine ⟨exec_of_stale names may, fun hr pilot sl z named => ⟨fun ho => ?_, fun ho hs => ?_⟩⟩
    · exact exec_of_pilotCheck names may hr (by rw [pilot]; exact fun f => onZone_of_notOwner f named ho)
    · exact exec_of_pilotCheck names may hr (by rw [pilot]; exact fun f => onZone_of_standing f named ho hs)

end Sys2Proof.Machine
end

