-- ==== Sys2Proof/Proofs/Enable.lean ====
section
/-! PROOFS. ENABLE with its seven checks in order, and DISABLE (R15, R39 to R41). -/

namespace Sys2Proof.Machine

/-- A request that its owner answers with a status of its own, every block as it was. -/
theorem request_answered {r : Req} {st : Nat} {s : State} {own : StationClass → State → State × Reply} {p : Reply}
    (may : MaySend s r st) (h : own (classOf s st) (takeFrame s) = (takeFrame s, p)) :
    request r st s own = .next (answer st r.code p (takeFrame s)) := by
  rw [request_of_maySend r st s own may, h]

/-! ## The port with the largest difference (R39, check 7) -/

theorem worstPort_lt (d : Quad Int) (ports : Quad Port) : worstPort d ports < 4 := by
  simp only [worstPort, List.foldl_cons, List.foldl_nil]
  split <;> split <;> split <;> omega

/-- The largest difference, and the lowest-numbered port that has it. -/
theorem worstPort_eq {d : Quad Int} {ports : Quad Port} {w : Nat} (hw : w < 4)
    (largest : ∀ i, i < 4 → mismatchOf d ports i ≤ mismatchOf d ports w)
    (lowest : ∀ i, i < w → mismatchOf d ports i < mismatchOf d ports w) : worstPort d ports = w := by
  have none_above : ∀ i, i < 4 → ¬mismatchOf d ports w < mismatchOf d ports i := fun i hi => (largest i hi).not_gt
  simp only [worstPort, List.foldl_cons, List.foldl_nil]
  interval_cases w
  · simp [none_above]
  · simp [none_above, lowest 0 (by omega)]
  · by_cases h : mismatchOf d ports 0 < mismatchOf d ports 1 <;> simp [h, none_above, lowest 0, lowest 1]
  · have best_two : ∀ i, i < 3 → (if mismatchOf d ports i < mismatchOf d ports 2 then 2 else i) < 3 := by
      intro i hi; split <;> omega
    refine if_pos (lowest _ (best_two _ ?_))
    split <;> omega

theorem demandLengths_get (g : Span) (p : Vec3) {i : Nat} (hi : i < 4) :
    (demandLengths g p).get i = demandLength g p i := by
  interval_cases i <;> rfl

/-! ## The checks of ENABLE (R39) -/

theorem portsReady_iff (ports : Quad Port) :
    portsReady ports = true ↔ ∀ q ∈ ports.list, q.state = .up ∧ q.status.ready = true ∧ q.status.fault = 0 := by
  simp [portsReady, and_assoc]

/-- An ACTIVE keep-out has the point in its guarded box. -/
theorem barred_iff (zones : List Zone) (standoff : Nat) (p : Vec3) :
    zones.any (fun z => z.activeKeepOut && (z.guarded standoff).has p) = true
      ↔ ∃ z ∈ zones, z.kind = .keepOut ∧ z.state = .active ∧ Inside z standoff p := by
  simp only [List.any_eq_true, Bool.and_eq_true, activeKeepOut_eq_true, guarded_has_iff]
  constructor
  · rintro ⟨z, hz, ⟨state, kind⟩, inside⟩; exact ⟨z, hz, kind, state, inside⟩
  · rintro ⟨z, hz, kind, state, inside⟩; exact ⟨z, hz, ⟨state, kind⟩, inside⟩

section

variable {p0 : Vec3} {s : State}

theorem enable_wrongState (h : s.motion.mode ≠ .safe) : enable p0 s = refuse .wrongState s := if_pos h

theorem enable_noGeometry (hm : s.motion.mode = .safe) (h : s.span.validity ≠ .valid) :
    enable p0 s = refuse .noGeometry s := by
  unfold enable
  dsimp only
  rw [if_neg (not_not.2 hm), if_pos h]

/-- An ENABLE past its first two checks (R39). -/
theorem enable_of_geometry (hm : s.motion.mode = .safe) (hv : s.span.validity = .valid) :
    (¬portsReady s.ports = true → enable p0 s = refuse .portsNotReady s)
      ∧ (portsReady s.ports = true → s.stop.causes ≠ 0#8 → enable p0 s = refuse .causePresent s)
      ∧ (portsReady s.ports = true → s.stop.causes = 0#8 → s.span.flightBox.has p0.um = false →
          enable p0 s = refuse .badParam s) := by
  unfold enable
  dsimp only
  rw [if_neg (not_not.2 hm), if_neg (not_not.2 hv)]
  refine ⟨fun hr => if_pos (by simpa using hr), fun hr hc => ?_, fun hr hc hb => ?_⟩
  · rw [if_neg (by simp [hr]), if_pos hc]
  · rw [if_neg (by simp [hr]), if_neg (not_not.2 hc), if_pos (by simp [hb])]

/-- An ENABLE past its first five checks (R39, R40). -/
theorem enable_of_place (hm : s.motion.mode = .safe) (hv : s.span.validity = .valid) (hr : portsReady s.ports = true)
    (hc : s.stop.causes = 0#8) (hb : s.span.flightBox.has p0.um = true) :
    let d := demandLengths s.span p0.um
    let w := worstPort d s.ports
    let barred := (liveZones s.air).any (fun z => z.activeKeepOut && (z.guarded s.motion.lim.standoff).has p0.um)
    (barred = true → enable p0 s = refuse .occupied s)
      ∧ (barred = false → ∀ v, w = v → s.portLimits.tolerance * 1000 < mismatchOf d s.ports v →
          enable p0 s = (s, ⟨.mismatch, beBytes 4 (mismatchOf d s.ports v) ++ byte v⟩))
      ∧ (barred = false → mismatchOf d s.ports w ≤ s.portLimits.tolerance * 1000 →
          enable p0 s = accept { s with motion := { s.motion with
            mode := .hold, p := some p0.um, vOld := zero3, exit := none, trapped := false, lengths := some d
            feed := quadOf 0 } } []) := by
  dsimp only
  unfold enable
  dsimp only
  rw [if_neg (not_not.2 hm), if_neg (not_not.2 hv), if_neg (by simp [hr]), if_neg (not_not.2 hc), if_neg (by simp [hb])]
  refine ⟨fun barred => if_pos barred, ?_, fun free within => ?_⟩
  · rintro free _ rfl above
    rw [if_neg (by simp [free]), if_pos above]
  · rw [if_neg (by simp [free]), if_neg (by omega)]

end

/-- Settles O22: the checks one after another; the difference reported is that of the worst port. -/
theorem enableAndDisable : Obligations.EnableAndDisable := by
  refine ⟨fun s st p0 may => ?_, fun s st may => ⟨fun h => ?_, fun hm hv => ?_⟩⟩
  · have refused : ∀ why, enable p0 (takeFrame s) = refuse why (takeFrame s) →
        exec (.enable st p0) s = turnedAway st .enable why s := fun why h =>
      request_refused (own := fun _ t => enable p0 t) may h
    refine ⟨fun hm => refused _ (enable_wrongState hm), fun hm hv => refused _ (enable_noGeometry hm hv), fun hm hv => ?_⟩
    obtain ⟨notReady, cause, outside⟩ := enable_of_geometry (p0 := p0) (s := takeFrame s) hm hv
    have ready := portsReady_iff s.ports
    refine ⟨fun hr => refused _ (notReady (mt ready.1 hr)), fun hr hc => refused _ (cause (ready.2 hr) hc),
      fun hr hc => ⟨fun hb => refused _ (outside (ready.2 hr) hc hb), fun hb barred => ?_, fun hb free m hmeas => ?_⟩⟩
    · exact refused _ ((enable_of_place (s := takeFrame s) hm hv (ready.2 hr) hc hb).1 ((barred_iff _ _ _).2 barred))
    · obtain ⟨-, above, within⟩ := enable_of_place (s := takeFrame s) hm hv (ready.2 hr) hc hb
      have clear := Bool.eq_false_iff.2 (mt (barred_iff _ _ _).1 free)
      have diff : ∀ i, i < 4 → mismatchOf (demandLengths s.span p0.um) s.ports i
          = (demandLength s.span p0.um i - m.get i).natAbs := by
        intro i hi
        rw [mismatchOf, demandLengths_get _ _ hi, hmeas i hi]; rfl
      refine ⟨fun small => ?_, fun w hw large largest lowest => ?_⟩
      · refine request_accepted (own := fun _ t => enable p0 t) may (within clear ?_)
        have := worstPort_lt (demandLengths s.span p0.um) s.ports
        exact (diff _ this).trans_le (small _ this)
      · have worst : worstPort (demandLengths s.span p0.um) s.ports = w := by
          refine worstPort_eq hw (fun i hi => ?_) fun i hi => ?_
          · rw [diff i hi, diff w hw]; exact largest i hi
          · rw [diff i (by omega), diff w hw]; exact lowest i hi
        have refusal := above clear w worst (by rw [takeFrame_span, takeFrame_ports, diff w hw]; exact large)
        rw [takeFrame_span, takeFrame_ports, diff w hw] at refusal
        exact request_answered (own := fun _ t => enable p0 t) may refusal
  · exact request_refused (own := fun _ t => disable t) may (if_neg h)
  · exact request_accepted (own := fun _ t => disable t) may (if_pos ⟨hm, hv⟩)

end Sys2Proof.Machine
end

