-- ==== Sys2Proof/Proofs/Resets.lean ====
section
/-! PROOFS. The power-on values, the laws at reset, and the three resets of the part (R174, R196, R209). -/

namespace Sys2Proof.Machine

/-! ## State.reset -/

/-- Settles O3: the values are those of `powerOnValues`, and each of the four ports is `portPowerOn`. -/
theorem resetLeavesThePowerOnValues : Obligations.ResetLeavesThePowerOnValues := by
  have ports : ∀ q ∈ State.reset.ports.list, q = portPowerOn := by
    intro q hq
    obtain ⟨i, hi, rfl⟩ := (Quad.mem_list _ _).1 hq
    interval_cases i <;> rfl
  have corr : ∀ c ∈ State.reset.span.corr.list, c = List.replicate 33 0 := by
    intro c hc
    obtain ⟨i, hi, rfl⟩ := (Quad.mem_list _ _).1 hc
    interval_cases i <;> rfl
  refine ⟨⟨List.length_replicate, fun sl hsl => List.eq_of_mem_replicate hsl⟩, ⟨rfl, rfl, rfl, rfl, rfl, rfl, rfl, rfl⟩,
    ⟨rfl, rfl, rfl, rfl, rfl, rfl, rfl, rfl, rfl, rfl, rfl, corr, rfl⟩, ⟨rfl, rfl, rfl, rfl, rfl⟩,
    ⟨rfl, rfl, rfl, rfl, rfl, rfl, rfl, rfl, rfl, rfl, rfl, rfl⟩, fun q hq => ?_, rfl, ⟨rfl, rfl, rfl, rfl⟩,
    ⟨rfl, rfl, rfl, rfl, rfl, rfl, rfl, rfl, rfl⟩, ⟨rfl, rfl, rfl, rfl, rfl, rfl, rfl, rfl, rfl⟩⟩
  rw [ports q hq]
  exact ⟨rfl, rfl, rfl, rfl, rfl, rfl, rfl, rfl, rfl, rfl, rfl⟩

/-! ### The laws, block by block -/

theorem getElem?_reset_air {k : Nat} {sl : Slot} (h : State.reset.air[k]? = some sl) : sl = freeSlot := by
  have : (List.replicate 48 freeSlot)[k]? = some sl := h
  rw [List.getElem?_replicate] at this
  split at this
  · exact (Option.some.inj this).symm
  · cases this

theorem airOk_reset : AirOk State.reset := by
  refine (airOk_iff _).2 ⟨List.length_replicate, fun k sl hk => ?_⟩
  rw [getElem?_reset_air hk]
  exact slotOk_free (by omega)

theorem occupiedExact_reset : OccupiedExact State.reset := by
  refine (occupiedExact_iff _).2 fun k sl hk => ?_
  rw [getElem?_reset_air hk]
  exact slotExact_free _ _ _

theorem modeOk_reset : ModeOk State.reset := by
  refine ⟨by decide, by decide, by decide, by decide, by decide, by decide, by decide, by decide, by decide, by decide,
    by decide, by decide, by decide, (fun _ h => nomatch h)⟩

theorem spanOk_reset : SpanOk State.reset := by
  unfold SpanOk
  decide +kernel

theorem authorityOk_reset : AuthorityOk State.reset := by
  refine ⟨rfl, by decide, (fun _ h => nomatch h), by decide, by decide, by decide, by decide, by decide, by decide, by decide,
    by decide, by decide, by decide, by decide, by decide, by decide⟩

theorem portOk_powerOn : PortOk portPowerOn := by
  refine ⟨by decide, by decide, (fun _ h => nomatch h), ?_⟩
  decide

theorem portsOk_reset : PortsOk State.reset := by
  refine ⟨fun q hq => ?_, by decide⟩
  obtain ⟨i, hi, rfl⟩ := (Quad.mem_list _ _).1 hq
  interval_cases i <;> exact portOk_powerOn

theorem periodOk_reset : PeriodOk State.reset := by
  refine ⟨by decide, by decide, by decide, by decide, by decide, by decide, by decide, by decide, by decide, by decide,
    by decide, by decide, (fun _ h => nomatch h), (fun _ h => nomatch h), by decide⟩

/-- Settles O4: law by law, on the power-on values. -/
theorem lawsHoldAtReset : Obligations.LawsHoldAtReset :=
  ⟨airOk_reset, occupiedExact_reset, modeOk_reset, (fun _ h => nomatch h), spanOk_reset,
    ⟨by decide, by decide, by decide, by decide, (fun _ h => nomatch h)⟩, authorityOk_reset, portsOk_reset,
    ⟨by decide, by decide, by decide, by decide, by decide, by decide, by decide, by decide⟩, periodOk_reset⟩

/-! ## RESET asserted (R196) -/

theorem request_of_held (r : Req) (st : Nat) (s : State) (own : StationClass → State → State × Reply)
    (h : s.resetHeld = true) : request r st s own = .next s := by
  simp [request, h]

/-- While RESET is asserted no request is taken. -/
theorem serve_of_held (i : Instr) (s : State) (h : s.resetHeld = true) : serve i s = .next s := by
  cases i
  all_goals simp only [serve]
  case corrWrite =>
    unfold execCorrWrite
    split
    · rw [unlessHeld_held s _ h]
    · exact request_of_held _ _ _ _ h
  all_goals exact request_of_held _ _ _ _ h

/-- While RESET is asserted nothing acts but what moves the pins. -/
theorem exec_of_held (i : Instr) (s : State) (h : s.resetHeld = true) :
    exec i s = .next s ∨ i = .resetAsserted ∨ (∃ a b l, i = .powerOnReset a b l) ∨ ∃ l, i = .estopLineChange l := by
  have held := serve_of_held i s h
  cases i
  case powerOnReset a b l => exact .inr (.inr (.inl ⟨a, b, l, rfl⟩))
  case resetAsserted => exact .inr (.inl rfl)
  case estopLineChange l => exact .inr (.inr (.inr ⟨l, rfl⟩))
  case periodExpiry | periodCommit | cueDwellExpiry | cueBlocked | zoneLifetimeExpiry | backoffExpiry | stickHoldExpiry
      | watchdogExpiry | trainingSilenceExpiry | breakExpiry | consecutiveMissLimit | refPulse | referenceLoss
      | stationCharacter | stationFrameTimeout | answerSent | driveAbilityFrame | driveFeedbackFrame | driveWakeFrame
      | driveTestFrame | winchFrameBadCheck | winchFrameTimeout | unknownRequestFrame | winchCharacter =>
    exact .inl (congrArg Host.Outcome.next (unlessHeld_held s _ h))
  all_goals exact .inl held

/-! ## RESTART (R209) -/

/-- PORT_CLEAR of a port: the counts, the tension window and the test record (R160). -/
theorem Port.cleared_eq (q : Port) :
    q.cleared = { q with badFrames := 0, missTotal := 0, tensionWindow := none, test := q.cleared.test } := by
  unfold Port.cleared Port.clearTest
  split <;> rfl

theorem Port.cleared_test (q : Port) :
    q.cleared.test.pattern = q.test.pattern ∧ q.cleared.test.loop = q.test.loop ∧ q.cleared.test.compared = 0
      ∧ q.cleared.test.errors = 0 ∧ q.cleared.test.outstanding = .none
      ∧ q.cleared.test.result = if q.state = .test then .running else .none := by
  unfold Port.cleared Port.clearTest
  dsimp only
  split <;> simp [testStart]

/-- The table after a RESTART: a standing record stays, out of O and with no wait left; every other one is retired (R33). -/
theorem restarted_air {s : State} {k : Nat} {sl : Slot} (hk : s.air[k]? = some sl) :
    (sl.zone = none → (restarted s).air[k]? = some sl)
      ∧ ∀ z, sl.zone = some z →
          (z.standing = true →
            (restarted s).air[k]? = some { sl with zone := some { z with occupied := false, fresh := false, reboxed := false } })
          ∧ (z.standing = false →
            (restarted s).air[k]? = some { generation := (sl.generation + 1) % 256, zone := none }) := by
  obtain ⟨free, live⟩ := clearAir_getElem? hk
  simp only [restarted, seeExpiry, emptyOccupied, List.getElem?_map]
  refine ⟨fun hz => ?_, fun z hz => ⟨fun hs => ?_, fun hs => ?_⟩⟩
  · rw [free hz]
    obtain ⟨g, zone⟩ := sl
    cases hz
    rfl
  · rw [live z hz, if_pos hs]; simp [hz, Zone.vacate, Zone.expirySeen]
  · rw [live z hz, if_neg (by simp [hs])]; rfl

/-- Settles O5: the resets by their definitions, RESTART block by block. -/
theorem resetsAndRestart : Obligations.ResetsAndRestart := by
  refine ⟨fun s => ⟨fun a b => ⟨rfl, rfl⟩, rfl, fun held c => exec_of_held c s held⟩, fun s st may => ⟨fun safe braked => ?_,
    fun rest => ?_⟩⟩
  · refine request_refused (own := fun _ t => restart t) may (if_neg ?_)
    rintro (h | h)
    · exact safe h
    · exact braked h
  · have run : exec (.restart st) s = taken st .restart [] restarted s :=
      request_accepted (own := fun _ t => restart t) may (if_pos rest)
    refine ⟨_, run, fun k sl hk => restarted_air (s := takeFrame s) hk, ?_, rfl, rfl, rfl, rfl, rfl, fun i hi => ?_, rfl, ?_⟩
    · simp [restarted, seeExpiry, emptyOccupied, clearAir]
    · refine ⟨(s.ports.get i).cleared.test, ?_, Port.cleared_test _⟩
      rw [← Port.cleared_eq]
      interval_cases i <;> rfl
    · rcases hl : s.estopLineOpen <;> simp [restarted, stopFromLine, hl] <;> decide

end Sys2Proof.Machine
end

