-- ==== Sys2Proof/Proofs/Commits.lean ====
section
/-! PROOFS. What a commit decides of each record: the commit check against the new P, then the promotion test (R14, R25). -/

namespace Sys2Proof.Machine

theorem eventSet_raiseIf (b : Bool) (e f : Event) (s : State) :
    eventSet (raiseIf b e s) f = (eventSet s f || b && decide (f = e)) := by
  cases b
  · exact (Bool.or_false _).symm
  · exact eventSet_raiseEvent e f s

/-- A record after the commit check and the promotion test of one commit (R14, R25). -/
def Zone.committed (ran : Mode) (p : Vec3) (standoff : Nat) (z : Zone) : Zone :=
  (z.commitCheck ran p standoff).promoteStep p standoff

theorem getElem?_tableCommit (ran : Mode) (p : Vec3) {s : State} {k : Nat} {sl : Slot} {z : Zone} (hk : s.air[k]? = some sl)
    (hz : sl.zone = some z) :
    (tableCommit ran p s).air[k]? = some { sl with zone := some (z.committed ran p s.motion.lim.standoff) } := by
  rw [tableCommit_air, List.getElem?_map, hk, Option.map_some, hz]
  rfl

section

variable {ran : Mode} {p : Vec3} {standoff : Nat} {z : Zone}

theorem promoteStep_of_not_counting (h : z.counting = false) : z.promoteStep p standoff = z := by
  simp [Zone.promoteStep, h]

theorem not_counting_of_activeKeepOut (h : z.activeKeepOut = true) : z.counting = false := by
  simp [Zone.counting, ((activeKeepOut_eq_true z).1 h).1]

theorem not_activeKeepOut_of_counting (h : z.counting = true) : z.activeKeepOut = false :=
  activeKeepOut_of_not_active z (by simp [((counting_iff z).1 h).1])

theorem commitCheck_of_not_activeKeepOut (h : z.activeKeepOut = false) : z.commitCheck ran p standoff = z := by
  simp [Zone.commitCheck, h]

/-- A record that is neither an ACTIVE keep-out nor a PENDING one that counts stays as it is. -/
theorem committed_of_idle (ha : z.activeKeepOut = false) (hc : z.counting = false) : z.committed ran p standoff = z := by
  rw [Zone.committed, commitCheck_of_not_activeKeepOut ha, promoteStep_of_not_counting hc]

/-- A PENDING keep-out that counts is tested for promotion alone. -/
theorem committed_of_counting (hc : z.counting = true) :
    z.committed ran p standoff
      = if (z.guarded standoff).has p then { z with clear := 0 }
        else if z.clear = 1 then z.activated false else { z with clear := 1 } := by
  rw [Zone.committed, commitCheck_of_not_activeKeepOut (not_activeKeepOut_of_counting hc),
    Zone.promoteStep_of_counting z p standoff hc]

/-- What the commit check makes of an ACTIVE keep-out does not count yet (R17). -/
theorem not_counting_commitCheck (ha : z.activeKeepOut = true) : (z.commitCheck ran p standoff).counting = false := by
  rcases commitCheck_cases ran p standoff z with ⟨no, -⟩ | ⟨-, e⟩ | ⟨-, -, -, e⟩
  · rw [ha] at no; cases no
  · rw [e]; exact not_counting_of_activeKeepOut ha
  · rw [e]; simp [Zone.counting]

theorem committed_of_activeKeepOut (ha : z.activeKeepOut = true) :
    z.committed ran p standoff = z.commitCheck ran p standoff :=
  promoteStep_of_not_counting (not_counting_commitCheck ha)

theorem commitCheck_of_outside (ha : z.activeKeepOut = true) (out : (z.guarded standoff).has p = false) :
    z.commitCheck ran p standoff = { z with occupied := false } := by
  simp [Zone.commitCheck, ha, out]

theorem commitCheck_of_occupied (ha : z.activeKeepOut = true) (inside : (z.guarded standoff).has p = true)
    (occ : z.occupied = true) : z.commitCheck ran p standoff = z := by
  simp [Zone.commitCheck, ha, inside, occ]

theorem commitCheck_of_entered (ha : z.activeKeepOut = true) (inside : (z.guarded standoff).has p = true)
    (occ : z.occupied = false) :
    z.commitCheck ran p standoff
      = if ran = .stopping ∨ z.policy = .defer then z.heldBack else { z with occupied := true } := by
  rcases hp : z.policy with _ | _ <;> simp [Zone.commitCheck, ha, inside, occ, hp]

/-- A record is promoted at a commit exactly when it was PENDING and counting, one period clear already, and P lies outside. -/
theorem promotes_commitCheck_iff :
    (z.commitCheck ran p standoff).promotes p standoff = true
      ↔ z.kind = .keepOut ∧ z.state = .pending ∧ z.fresh = false ∧ z.clear = 1 ∧ ¬Inside z standoff p := by
  rcases ha : z.activeKeepOut with _ | _
  · rw [commitCheck_of_not_activeKeepOut ha, ← guarded_has_iff]
    simp only [Zone.promotes, Bool.and_eq_true, counting_iff]
    simp
    tauto
  · obtain ⟨state, -⟩ := (activeKeepOut_eq_true z).1 ha
    simp [Zone.promotes, not_counting_commitCheck ha, state]

end

/-- A commit raises ZONE_ACTIVE exactly when it promotes a record (R25). -/
theorem eventSet_tableCommit (ran : Mode) (p : Vec3) (s : State) :
    eventSet (tableCommit ran p s) .zoneActive = true ↔ eventSet s .zoneActive = true ∨ ∃ z ∈ liveZones s.air,
      z.kind = .keepOut ∧ z.state = .pending ∧ z.fresh = false ∧ z.clear = 1 ∧ ¬Inside z s.motion.lim.standoff p := by
  have checked : liveZones (s.air.map (fun sl => { sl with zone := sl.zone.map (Zone.commitCheck ran p s.motion.lim.standoff) }))
      = (liveZones s.air).map (Zone.commitCheck ran p s.motion.lim.standoff) := by
    simp [liveZones, List.filterMap_map, List.map_filterMap]
  have flags : eventSet (tableCommit ran p s) .zoneActive = (eventSet s .zoneActive
      || (liveZones s.air).any fun z => (z.commitCheck ran p s.motion.lim.standoff).promotes p s.motion.lim.standoff) := by
    unfold tableCommit
    dsimp only
    rw [eventSet_raiseIf, checked, List.any_map, decide_eq_true rfl, Bool.and_true]
    rfl
  rw [flags, Bool.or_eq_true, List.any_eq_true]
  simp only [promotes_commitCheck_iff]

theorem exec_periodCommit {s : State} {c : Computation} (held : s.resetHeld = false) (hc : s.motion.flight = some c) :
    exec .periodCommit s = .next (commit c s) := by
  simp only [exec, execPeriodCommit]
  rw [unlessHeld_free s _ held, commitFlight, hc]

/-- Settles O19: the table's part of the commit, record by record; what follows it leaves the table and ZONE_ACTIVE alone. -/
theorem commitDecidesEveryZone : Obligations.CommitDecidesEveryZone := by
  intro s t c held hc run
  rw [exec_periodCommit held hc] at run
  cases run
  have rest := Steers.controlEdits.commit c s
  refine ⟨committedP c s, ?_, ?_, fun k sl z hk hz => ?_⟩
  · rw [rest.p, committedTable, tableCommit_eq]
  · rw [rest.zoneActive]
    exact eventSet_tableCommit c.mode _ _
  · have become : ∀ z', z.committed c.mode (committedP c s) s.motion.lim.standoff = z' →
        (commit c s).air[k]? = some { sl with zone := some z' } := by
      rintro _ rfl
      rw [rest.air]
      exact getElem?_tableCommit c.mode _ hk hz
    dsimp only
    simp only [← guarded_has_iff, Bool.not_eq_true]
    refine ⟨fun idle => become _ ?_, fun kind state => ?_, fun kind state fresh => become _ ?_, fun kind state fresh => ?_⟩
    · refine committed_of_idle ?_ ?_ <;> rcases idle with h | h <;> simp [Zone.activeKeepOut, Zone.counting, h]
    · have ha := (activeKeepOut_eq_true z).2 ⟨state, kind⟩
      have check := committed_of_activeKeepOut (ran := c.mode) (p := committedP c s) (standoff := s.motion.lim.standoff) ha
      refine ⟨fun out => ?_, fun inside occ => ?_, fun inside occ moving evict => ?_, fun inside occ stopping => ?_⟩
      · exact become _ (check.trans (commitCheck_of_outside ha out))
      · exact become _ (check.trans (commitCheck_of_occupied ha inside occ))
      · refine become _ ((check.trans (commitCheck_of_entered ha inside occ)).trans (if_neg ?_))
        simp [moving, evict]
      · exact become _ ((check.trans (commitCheck_of_entered ha inside occ)).trans (if_pos stopping))
    · refine committed_of_idle ?_ ?_ <;> simp [Zone.activeKeepOut, Zone.counting, state, fresh]
    · have tested := committed_of_counting (ran := c.mode) (p := committedP c s) (standoff := s.motion.lim.standoff)
        ((counting_iff z).2 ⟨state, kind, fresh⟩)
      refine ⟨fun inside => ?_, fun out first => ?_, fun out second => ?_⟩
      · exact become _ (tested.trans (if_pos inside))
      · exact become _ (by simp [tested, out, first])
      · exact become _ (by simp [tested, out, second, Zone.activated])

end Sys2Proof.Machine
end

