-- ==== Sys2Proof/Proofs/Lifetimes.lean ====
section
/-! PROOFS. A period expiry on the Airspace Table: the lifetimes counted down and, at rest, the PENDING zones promoted (R24,
R26, R28). -/

namespace Sys2Proof.Machine

/-! ## Up to the table's work: the commit and the clock -/

/-- No receiver has moved. -/
def LinesStand (s t : State) : Prop := t.ports = s.ports ∧ t.station.receiver = s.station.receiver

theorem LinesStand.controlEdits : ControlEdits LinesStand where
  refl := fun _ => ⟨rfl, rfl⟩
  trans := fun h k => ⟨k.1.trans h.1, k.2.trans h.2⟩
  raise := fun _ _ _ => ⟨rfl, rfl⟩
  mode := fun _ s _ => ⟨(frame_setMode _ s).ports, by simp⟩
  auth := fun _ _ => ⟨rfl, rfl⟩
  cue := fun _ _ => ⟨rfl, rfl⟩
  stop := fun _ _ => ⟨rfl, rfl⟩
  copy := fun _ _ => ⟨rfl, rfl⟩
  exit := fun _ _ _ => ⟨rfl, rfl⟩
  lengths := fun _ _ _ => ⟨rfl, rfl⟩
  dropCopy := fun _ => ⟨rfl, rfl⟩
  freeze := fun _ => ⟨rfl, rfl⟩

theorem noFrameWaits_commitFlight {s : State} (h : NoFrameWaits s) : NoFrameWaits (commitFlight s) := by
  unfold commitFlight
  split
  · next c hc =>
    obtain ⟨ports, receiver⟩ := LinesStand.controlEdits.commit c s
    rw [committedTable, tableCommit_eq] at ports receiver
    unfold NoFrameWaits
    rw [ports, receiver]
    exact h
  · exact h

/-- The table and its two flags are as they were. -/
def TableStands (s t : State) : Prop :=
  t.air = s.air ∧ eventSet t .zoneActive = eventSet s .zoneActive ∧ eventSet t .zoneExpired = eventSet s .zoneExpired

theorem TableStands.trans {s t u : State} (h : TableStands s t) (k : TableStands t u) : TableStands s u :=
  ⟨k.1.trans h.1, k.2.1.trans h.2.1, k.2.2.trans h.2.2⟩

theorem Steers.tableStands {s t : State} (h : Steers s t) : TableStands s t := ⟨h.air, h.zoneActive, h.zoneExpired⟩

/-- The clock has run with no frame coming in: the table and the Motion Generator stand, and still no frame comes in. -/
structure Ticked (s t : State) : Prop where
  table : TableStands s t
  motion : t.motion = s.motion
  quiet : NoFrameWaits t

theorem Ticked.trans {s t u : State} (h : Ticked s t) (k : Ticked t u) : Ticked s u :=
  ⟨h.table.trans k.table, k.motion.trans h.motion, k.quiet⟩

theorem ticked_runTimers (k : Nat) {s : State} (h : NoFrameWaits s) : Ticked s (runTimers k s) := by
  rw [runTimers_of_noFrame k s h]
  dsimp only
  generalize (if 0 < s.period.toLoss ∧ s.period.toLoss ≤ k then (s.period.run k).lose else s.period.run k) = g
  have moved := (Steers.partEdits.withPeriod g s).tableStands
  refine ⟨moved, ?_, ?_, ?_⟩
  · simp [withPeriod, raiseIf_eq]
  · simpa using h.1
  · simpa [withPeriod, raiseIf_eq] using h.2

theorem ticked_runToWrap (fuel : Nat) {s : State} (h : NoFrameWaits s) : Ticked s (runToWrap fuel s) := by
  induction fuel generalizing s with
  | zero => exact ticked_runTimers _ h
  | succ fuel ih =>
    unfold runToWrap
    split
    · have first := ticked_runTimers (toNext s) h
      exact first.trans (ih first.quiet)
    · exact ticked_runTimers _ h

theorem ticked_clockToWrap {s : State} (h : NoFrameWaits s) : Ticked s (clockToWrap s) := by
  have run := ticked_runToWrap (s.station.buffer.length + 2) h
  exact ⟨run.table, run.motion, run.quiet⟩

/-! ## After the table's work -/

theorem tableStands_beginComputation (s : State) : TableStands s (beginComputation s) := by
  unfold beginComputation
  split
  · dsimp only
    have settled := Steers.controlEdits.settle s
    have searched : Steers (settle s) (if (settle s).motion.mode = .evict then searchExit (settle s) else settle s) := by
      split
      · exact Steers.controlEdits.searchExit _
      · exact .refl _
    exact (settled.trans searched).tableStands
  · exact ⟨rfl, rfl, rfl⟩

/-- After the countdown and the promotion the rest of an expiry leaves the table and its flags alone. -/
theorem tableStands_expiryWork (s : State) : TableStands (promoteAtRest (countLifetimes s)) (expiryWork s) :=
  (((Steers.controlEdits.arbiterExpiry _).tableStands.trans (tableStands_beginComputation _)).trans
    (Steers.partEdits.portsExpiry _).tableStands).trans (Steers.partEdits.silenceStep _).tableStands

/-! ## The table's work on one slot -/

/-- The record keeps the fields that neither a commit nor an expiry writes. -/
def Zone.Lasts (z z' : Zone) : Prop := z'.handle = z.handle ∧ z'.box = z.box ∧ z'.owner = z.owner

theorem lasts_committed (ran : Mode) (p : Vec3) (standoff : Nat) (z : Zone) :
    z.Lasts (z.committed ran p standoff) ∧ (z.committed ran p standoff).lifetime = z.lifetime := by
  have checked : z.Lasts (z.commitCheck ran p standoff) ∧ (z.commitCheck ran p standoff).lifetime = z.lifetime := by
    rcases commitCheck_cases ran p standoff z with ⟨-, e⟩ | ⟨-, e⟩ | ⟨-, -, -, e⟩ <;> rw [e] <;> exact ⟨⟨rfl, rfl, rfl⟩, rfl⟩
  rw [Zone.committed]
  generalize z.commitCheck ran p standoff = y at checked ⊢
  rcases promoteStep_cases p standoff y with ⟨-, e⟩ | ⟨-, -, e⟩ | ⟨-, -, -, e⟩ | ⟨-, -, -, e⟩ <;> rw [e] <;> exact checked

theorem getElem?_commitFlight {s : State} {k : Nat} {sl : Slot} {z : Zone} (hk : s.air[k]? = some sl)
    (hz : sl.zone = some z) :
    ∃ y, (commitFlight s).air[k]? = some { sl with zone := some y } ∧ z.Lasts y ∧ y.lifetime = z.lifetime := by
  unfold commitFlight
  split
  · next c hc =>
    rw [(Steers.controlEdits.commit c s).air, committedTable]
    exact ⟨_, getElem?_tableCommit c.mode _ hk hz, lasts_committed _ _ _ z⟩
  · refine ⟨z, ?_, ⟨rfl, rfl, rfl⟩, rfl⟩
    rw [hk, ← hz]

theorem getElem?_countLifetimes {s : State} {k : Nat} {sl : Slot} (hk : s.air[k]? = some sl) :
    (countLifetimes s).air[k]? = some sl.countDown := by
  simp [countLifetimes, raiseIf_eq, hk]

theorem countDown_of_due {sl : Slot} {z : Zone} (hz : sl.zone = some z) (hl : z.lifetime = some 1) :
    sl.due = true ∧ sl.countDown = { generation := (sl.generation + 1) % 256, zone := none } := by
  have due : sl.due = true := (due_iff sl).2 ⟨z, 1, hz, hl, le_refl 1⟩
  exact ⟨due, by rw [countDown_eq, if_pos due]; rfl⟩

theorem not_due {sl : Slot} {z : Zone} (hz : sl.zone = some z) (h0 : z.lifetime ≠ some 0) (h1 : z.lifetime ≠ some 1) :
    sl.due = false := by
  rw [Bool.eq_false_iff, Ne, due_iff]
  rintro ⟨y, n, hy, hn, hle⟩
  cases hz.symm.trans hy
  interval_cases n
  · exact h0 hn
  · exact h1 hn

theorem countDown_of_not_due {sl : Slot} {z : Zone} (hz : sl.zone = some z) (h0 : z.lifetime ≠ some 0)
    (h1 : z.lifetime ≠ some 1) : sl.countDown = { sl with zone := some z.aged } := by
  rw [countDown_eq, if_neg (by simp [not_due hz h0 h1]), hz]
  rfl

/-- An expiry ends every wait of a record, and its promotion writes neither its lifetime nor what it is. -/
theorem getElem?_promoteAtRest {s : State} {k : Nat} {sl : Slot} {z : Zone} (hk : s.air[k]? = some sl)
    (hz : sl.zone = some z) :
    ∃ y, (promoteAtRest s).air[k]? = some { sl with zone := some y } ∧ z.Lasts y ∧ y.lifetime = z.lifetime
      ∧ y.fresh = false ∧ y.reboxed = false := by
  have promoted : ∃ y, (sl.promoteAtRest s.motion.mode s.motion.p s.motion.lim.standoff) = { sl with zone := some y }
      ∧ z.Lasts y ∧ y.lifetime = z.lifetime := by
    unfold Slot.promoteAtRest
    split
    · exact ⟨z.activated _, by rw [hz]; rfl, ⟨rfl, rfl, rfl⟩, rfl⟩
    · exact ⟨z, by rw [← hz], ⟨rfl, rfl, rfl⟩, rfl⟩
  obtain ⟨y, hy, lasts, lifetime⟩ := promoted
  unfold promoteAtRest
  dsimp only
  split
  · refine ⟨y.expirySeen, ?_, lasts, lifetime, rfl, rfl⟩
    simp [seeExpiry, raiseIf_eq, hk, hy]
  · refine ⟨z.expirySeen, ?_, ⟨rfl, rfl, rfl⟩, rfl, rfl, rfl⟩
    simp [seeExpiry, hk, hz]

/-- A free slot has nothing to promote. -/
theorem getElem?_promoteAtRest_free {s : State} {k g : Nat} (hk : s.air[k]? = some { generation := g, zone := none }) :
    (promoteAtRest s).air[k]? = some { generation := g, zone := none } := by
  unfold promoteAtRest
  dsimp only
  split <;> simp [seeExpiry, raiseIf_eq, hk, Slot.promoteAtRest]

/-- Promotion at rest raises ZONE_ACTIVE alone. -/
theorem eventSet_promoteAtRest (s : State) : eventSet (promoteAtRest s) .zoneExpired = eventSet s .zoneExpired := by
  unfold promoteAtRest
  dsimp only
  split
  · exact (eventSet_raiseIf _ _ _ _).trans (by rw [decide_eq_false (by decide), Bool.and_false, Bool.or_false]; rfl)
  · rfl

theorem eventSet_countLifetimes {s : State} {k : Nat} {sl : Slot} (hk : s.air[k]? = some sl) (due : sl.due = true) :
    eventSet (countLifetimes s) .zoneExpired = true := by
  have : s.air.any Slot.due = true := List.any_eq_true.2 ⟨sl, List.mem_of_getElem? hk, due⟩
  simp [countLifetimes, eventSet_raiseIf, this]

/-! ## The expiry -/

theorem exec_periodExpiry {s : State} (held : s.resetHeld = false) :
    exec .periodExpiry s = .next (expiryWork (clockToWrap (commitFlight s))) := by
  simp only [exec, execPeriodExpiry]
  rw [unlessHeld_free s _ held]
  rfl

/-- A record whose count reaches zero is gone after the expiry (R24). -/
theorem expired_of_one {s : State} (quiet : NoFrameWaits s) {k : Nat} {sl : Slot} {z : Zone} (hk : s.air[k]? = some sl)
    (hz : sl.zone = some z) (hl : z.lifetime = some 1) :
    (expiryWork (clockToWrap (commitFlight s))).air[k]? = some { generation := (sl.generation + 1) % 256, zone := none }
      ∧ eventSet (expiryWork (clockToWrap (commitFlight s))) .zoneExpired = true := by
  obtain ⟨air, -, expired⟩ := tableStands_expiryWork (clockToWrap (commitFlight s))
  obtain ⟨⟨clock, -, -⟩, -, -⟩ := ticked_clockToWrap (noFrameWaits_commitFlight quiet)
  obtain ⟨y, hy, -, lifetime⟩ := getElem?_commitFlight hk hz
  rw [← clock] at hy
  obtain ⟨due, gone⟩ := countDown_of_due (sl := { sl with zone := some y }) rfl (lifetime.trans hl)
  refine ⟨?_, ?_⟩
  · rw [air]
    exact getElem?_promoteAtRest_free ((getElem?_countLifetimes hy).trans (congrArg some gone))
  · rw [expired, eventSet_promoteAtRest]
    exact eventSet_countLifetimes hy due

/-- A record whose count does not reach zero is one period older after the expiry, and waits for none any more (R24, R17). -/
theorem aged_of_not_one {s : State} (quiet : NoFrameWaits s) {k : Nat} {sl : Slot} {z : Zone} (hk : s.air[k]? = some sl)
    (hz : sl.zone = some z) (h0 : z.lifetime ≠ some 0) (h1 : z.lifetime ≠ some 1) :
    ∃ z', (expiryWork (clockToWrap (commitFlight s))).air[k]? = some { sl with zone := some z' }
      ∧ z'.lifetime = z.lifetime.map (· - 1) ∧ z.Lasts z' ∧ z'.fresh = false ∧ z'.reboxed = false := by
  obtain ⟨air, -, -⟩ := tableStands_expiryWork (clockToWrap (commitFlight s))
  obtain ⟨⟨clock, -, -⟩, -, -⟩ := ticked_clockToWrap (noFrameWaits_commitFlight quiet)
  obtain ⟨y, hy, ⟨handle, box, owner⟩, lifetime⟩ := getElem?_commitFlight hk hz
  rw [← clock] at hy
  have older := countDown_of_not_due (sl := { sl with zone := some y }) rfl (lifetime ▸ h0) (lifetime ▸ h1)
  obtain ⟨z', hz', ⟨handle', box', owner'⟩, lifetime', fresh, reboxed⟩ :=
    getElem?_promoteAtRest ((getElem?_countLifetimes hy).trans (congrArg some older)) rfl
  refine ⟨z', by rw [air]; exact hz', ?_, ⟨?_, ?_, ?_⟩, fresh, reboxed⟩
  · rw [lifetime', ← lifetime]; rfl
  · exact handle'.trans handle
  · exact box'.trans box
  · exact owner'.trans owner

/-! ## Promotion at rest (R26, R28) -/

theorem insideGuarded_iff (standoff : Nat) (p : Option Vec3) (z : Zone) :
    insideGuarded standoff p z = true ↔ ∃ q, p = some q ∧ Inside z standoff q := by
  rcases p with _ | q
  · simp
  · simp [insideGuarded_some, guarded_has_iff]

section

variable {s : State} (rest : s.motion.mode = .safe ∨ s.motion.mode.isStopped = true) {k : Nat} {sl : Slot} {z : Zone}
  (hk : s.air[k]? = some sl) (hz : sl.zone = some z) (pending : z.state = .pending)
include rest hk hz

theorem promoteAtRest_of_reboxed (reboxed : z.reboxed = true) :
    (promoteAtRest s).air[k]? = some { sl with zone := some z.expirySeen } := by
  have stays : sl.restDue = false := by
    rw [Bool.eq_false_iff, Ne, restDue_iff]
    rintro ⟨y, hy, -, no⟩
    cases hz.symm.trans hy
    simp [reboxed] at no
  simp [promoteAtRest, rest, seeExpiry, raiseIf_eq, hk, hz, Slot.promoteAtRest, stays]

include pending in
theorem promoteAtRest_of_pending (reboxed : z.reboxed = false) :
    (promoteAtRest s).air[k]? = some { sl with zone := some (z.activated (s.motion.mode.isStopped && z.kind == .keepOut
        && insideGuarded s.motion.lim.standoff s.motion.p z)) }
      ∧ eventSet (promoteAtRest s) .zoneActive = true := by
  have due : sl.restDue = true := (restDue_iff sl).2 ⟨z, hz, pending, reboxed⟩
  have some_due : s.air.any Slot.restDue = true := List.any_eq_true.2 ⟨sl, List.mem_of_getElem? hk, due⟩
  refine ⟨?_, ?_⟩
  · simp [promoteAtRest, rest, seeExpiry, raiseIf_eq, hk, hz, Slot.promoteAtRest, due, Zone.activated, Zone.expirySeen]
  · unfold promoteAtRest
    dsimp only
    rw [if_pos rest]
    refine (eventSet_raiseIf _ _ _ _).trans ?_
    simp [some_due]

end

theorem exec_zoneLifetimeExpiry {s : State} {slot : Nat} {sl : Slot} (held : s.resetHeld = false)
    (hk : s.air[slot]? = some sl) :
    exec (.zoneLifetimeExpiry slot) s = .next (if sl.due then
      raiseEvent .zoneExpired { s with air := s.air.set slot sl.retire } else s) := by
  simp only [exec, execZoneLifetimeExpiry]
  rw [unlessHeld_free s _ held, List.getD_eq_getElem?_getD, hk, Option.getD_some, List.modify_eq_set_getElem?, hk]
  rfl

/-- Settles O18: the countdown and the promotion are the table's part of an expiry, and the rest leaves the table alone. -/
theorem zoneLifetimesAndPromotionAtRest : Obligations.ZoneLifetimesAndPromotionAtRest := by
  refine ⟨fun s t held quiet run k sl z hk hz => ?_, fun s slot sl z held hk hz => ⟨fun hl => ?_, fun h1 h0 => ?_⟩,
    fun s t held noFlight quiet rest run k sl z hk hz pending h0 h1 => ?_⟩
  · rw [exec_periodExpiry held] at run
    cases run
    refine ⟨expired_of_one quiet hk hz, fun n hl => ?_, fun hl => ?_⟩
    all_goals
      obtain ⟨z', hz', lifetime, ⟨handle, box, owner⟩, fresh, reboxed⟩ :=
        aged_of_not_one quiet hk hz (by simp [hl]) (by simp [hl])
      exact ⟨z', hz', by simp [lifetime, hl], handle, box, owner, fresh, reboxed⟩
  · obtain ⟨due, -⟩ := countDown_of_due hz hl
    rw [exec_zoneLifetimeExpiry held hk, if_pos due]
    rfl
  · rw [exec_zoneLifetimeExpiry held hk, if_neg (by simp [not_due hz h0 h1])]
  · rw [exec_periodExpiry held] at run
    cases run
    have still : commitFlight s = s := by rw [commitFlight, noFlight]
    rw [still]
    obtain ⟨⟨clock, -, -⟩, motion, -⟩ := ticked_clockToWrap quiet
    obtain ⟨air, active, -⟩ := tableStands_expiryWork (clockToWrap s)
    have counted : (countLifetimes (clockToWrap s)).motion = s.motion := by simp [countLifetimes, raiseIf_eq, motion]
    have atRest := rest
    rw [← counted] at atRest
    have aged : (countLifetimes (clockToWrap s)).air[k]? = some { sl with zone := some z.aged } := by
      rw [getElem?_countLifetimes (clock ▸ hk), countDown_of_not_due hz h0 h1]
    dsimp only
    rw [air, active]
    refine ⟨fun reboxed => promoteAtRest_of_reboxed atRest aged rfl reboxed, fun reboxed => ?_⟩
    obtain ⟨promoted, raised⟩ := promoteAtRest_of_pending atRest aged rfl pending reboxed
    refine ⟨_, promoted, raised, ?_⟩
    rw [counted, Bool.and_eq_true, insideGuarded_iff, Bool.and_eq_true, beq_iff_eq]
    exact and_assoc

end Sys2Proof.Machine
end

