-- ==== Sys2Proof/Proofs/Readings.lean ====
section
/-! PROOFS. The reading requests: the bytes of each answer are the record of its fields (10.1, 10.6, R212), and the state
stands. -/

namespace Sys2Proof.Machine

/-! ## Bytes as fields of a record -/

/-- The bytes that answers are made of, each as a field of 10.1 or as the record of its fields. -/
theorem bytes_as_fields :
    (∀ k n, beBytes k n = wire k n) ∧ (∀ k i, beInt k i = wireInt k i) ∧ byte = wire 1
      ∧ (∀ b : Bool, boolByte b = wire 1 b.toNat) ∧ (∀ o, stationByte o = wire 1 (o.getD 255))
      ∧ (∀ k o, optBytes k o = wire k (o.getD 0))
      ∧ (∀ items, countedList items = wire 1 items.length ++ items.flatten) ∧ (∀ fs, record fs = fs.flatten) := by
  refine ⟨beBytes_eq_wire, beInt_eq_wireInt, funext (beBytes_eq_wire 1), fun b => ?_, fun o => ?_, fun k o => ?_, fun _ => ?_,
    fun _ => rfl⟩
  · cases b <;> rfl
  · cases o <;> exact beBytes_eq_wire 1 _
  · cases o <;> exact beBytes_eq_wire k _
  · rw [countedList, byte, beBytes_eq_wire]

/-- A flag that the statement gives as a choice of 1 and 0. -/
theorem ite_one_zero (p : Prop) [Decidable p] : (if p then 1 else 0 : Nat) = (decide p).toNat :=
  (apply_ite Bool.toNat p true false).symm

/-- The fields of the items of a list, one item after the other. -/
theorem flatten_flatMap {α : Type} (f : α → List (List Byte)) (l : List α) :
    (l.flatMap f).flatten = (l.map fun x => (f x).flatten).flatten := by
  rw [List.flatMap_def, List.flatten_flatten, List.map_map]
  rfl

@[simp] theorem wireInt_zero (k : Nat) : wireInt k 0 = wire k 0 := by simp [wireInt]

/-- A reading request: the owner answers with what it reads and changes nothing. -/
theorem request_reads {r : Req} {st : Nat} {s : State} {own : StationClass → State → State × Reply} {read payload : List Byte}
    (may : MaySend s r st) (h : own (classOf s st) (takeFrame s) = accept (takeFrame s) read) (bytes : read = payload) :
    request r st s own = taken st r payload id s :=
  request_accepted may (by rw [h, bytes]; rfl)

theorem zoneNamed_of_slot {air : List Slot} {handle : Nat} {sl : Slot} (hk : air[handle / 256]? = some sl)
    (hg : sl.generation = handle % 256) : zoneNamed air handle = sl.zone := by
  simp [zoneNamed, hk, hg]

/-- A handle list: the count, then the handles (10.5). -/
theorem handleList_eq (zs : List Zone) : handleList zs = record (wire 1 zs.length :: zs.map fun z => wire 2 z.handle) := by
  simp [handleList, handleBytes, bytes_as_fields]

/-- An entry of the cue list (R105). -/
theorem entryBytes_eq (e : CueEntry) :
    entryBytes e = record [wire 1 e.mark, wire 2 e.cruise, wire 2 e.dwell, wire 1 e.haltAfter.toNat] := by
  simp [entryBytes, bytes_as_fields]

/-- The requested kind is present unless it is NONE (R178). -/
theorem requested_flag (k : StopKind) : (k != .none).toNat = if k = .none then 0 else 1 := by cases k <;> rfl

/-- The last setpoint sent: its command and its length, 0 and 0 when none was sent. -/
theorem lastSent_field (o : Option Sent) :
    (o.map fun x => byte x.command.code ++ beInt 4 x.length).getD (byte 0 ++ beBytes 4 0)
      = wire 1 (if o.map Sent.command = some .follow then 1 else 0) ++ wireInt 4 ((o.map Sent.length).getD 0) := by
  rcases o with _ | ⟨_ | _, length⟩ <;> simp [bytes_as_fields, Command.code]

/-- The status word as one number (R213). -/
def statusWord (d : DriveStatus) : Nat := d.ready.toNat + 2 * d.brakeReleased.toNat + 4 * d.tempWarn.toNat + 16 * d.fault

/-- The abilities as one number (R213). -/
def abilityWord (a : Ability) : Nat := a.classes.toNat + 16 * a.tension.toNat + 32 * a.test.toNat

theorem statusByte_eq (d : DriveStatus) : statusByte d = wire 1 (statusWord d) := beBytes_eq_wire 1 _

theorem candidate_field (o : Option DriveStatus) : (o.map statusByte).getD (byte 0) = wire 1 ((o.map statusWord).getD 0) := by
  cases o <;> exact beBytes_eq_wire 1 _

theorem abilities_field (o : Option Ability) : (o.map abilityByte).getD (byte 0) = wire 1 ((o.map abilityWord).getD 0) := by
  cases o <;> exact beBytes_eq_wire 1 _

/-- What PORT_READ returns, field by field (R161). -/
theorem portBytes_eq (q : Port) (l : PortLimits) (applied : Bool) :
    portBytes q l applied = record
      [wire 1 q.state.code, wire 1 q.breakCause.code, wire 2 q.breakLeft, wire 1 q.allowed.toNat,
        wire 1 (q.abilities.isSome.toNat + 2 * q.lastSent.isSome.toNat + 4 * q.measured.isSome.toNat
          + 8 * q.tension.isSome.toNat + 16 * q.candidate.isSome.toNat + 32 * q.tensionWindow.isSome.toNat),
        wire 1 ((q.abilities.map abilityWord).getD 0), wire 1 (speedClassCode q.resolved), wire 1 q.legacy.toNat,
        wire 1 q.abilityRun, wire 1 q.feedbackRun, wire 1 q.silence, wire 1 q.sequence,
        wire 1 (if q.lastSent.map Sent.command = some .follow then 1 else 0), wireInt 4 ((q.lastSent.map Sent.length).getD 0),
        wire 4 (q.measured.getD 0), wire 2 (q.tension.getD 65535), wire 1 (statusWord q.status),
        wire 1 ((q.candidate.map statusWord).getD 0), wire 1 q.misses, wire 1 q.followRun, wire 1 q.highRun,
        wire 1 q.slackRun, wire 2 q.badFrames, wire 2 q.missTotal, wire 2 ((q.tensionWindow.map (·.1)).getD 65535),
        wire 2 ((q.tensionWindow.map (·.2)).getD 65535), testBytes q.test, wire 2 l.following, wire 2 l.tMin,
        wire 2 l.tMax, wire 2 l.tolerance, wire 1 applied.toNat] := by
  unfold portBytes
  simp only [lastSent_field, candidate_field, abilities_field, statusByte_eq, presence, tensionBytes]
  simp only [bytes_as_fields, List.append_assoc, List.flatten_cons, List.flatten_nil, List.append_nil]

theorem yesNo_of_one_lt {n : Nat} (h : 1 < n) : yesNo n = none := by
  match n with
  | n + 2 => rfl

/-- Two unused bytes (10.1). -/
theorem wire_two_zero : wire 2 0 = wire 1 0 ++ wire 1 0 := rfl

/-- Three unused bytes. -/
theorem wire_three_zero : wire 3 0 = wire 1 0 ++ (wire 1 0 ++ wire 1 0) := rfl

/-- Settles O13: each request reads (or refuses) as its owner's definition says, and its bytes are those of its fields. -/
theorem readingRequestsChangeNothing : Obligations.ReadingRequestsChangeNothing := by
  refine ⟨fun s st => ⟨fun may => ?status, fun may => ?motion, fun may => ?geometry, fun may => ?limits, fun may => ?period,
      fun may => ?stop, fun may => ?cue, fun may => ?authority, fun mark may hm => ?mark, fun port may hp => ?port,
      fun handle sl z may hk hg hz => ?lookup, fun point may hp => ?find, fun states owner may h0 h8 ho => ?list,
      fun mark may hm => ?badMark, fun point may hp => ?badPoint, fun states owner may bad => ?badList,
      fun port clear may bad => ?badPort, fun clear may bad => ?badClear⟩,
    fun a applied => ?_, fun q l applied => ?_, fun r => ?_, fun l => ?_, fun l => ?_, ?_, ?_⟩
  case status =>
    refine request_reads may rfl ?_
    dsimp only [statusBytes, takeFrame]
    simp [modeBytes, basisByte, windowFlag, Quad.list, bytes_as_fields, ite_one_zero]
  case motion =>
    refine request_reads (own := fun _ t => readMotion t) may (read := motionBytes s) rfl ?_
    rcases he : s.motion.exit with _ | e <;>
      simp [motionBytes, modeBytes, umBytes, posBytes, occupiedSet, handleBytes, zero3, he, bytes_as_fields, Function.comp_def]
  case geometry =>
    refine request_reads (own := fun _ t => readGeometry t) may rfl ?_
    simp [geometryBytes, pointerBytes, posBytes, halfBytes, boxBytes, Vec3.mm, Box.mm, quot, Quad.list, bytes_as_fields]
  case limits =>
    refine request_reads (own := fun _ t => readLimits t) may rfl ?_
    simp [Quad.list, bytes_as_fields]
  case period =>
    refine request_reads (own := fun _ t => readPeriod t) may rfl ?_
    simp [periodBytes, bytes_as_fields, ite_one_zero, beq_eq_decide]
  case stop =>
    refine request_reads (own := fun _ t => readStop t) may rfl ?_
    rcases hf : s.stop.first with _ | f <;>
      simp [modeBytes, causeKindList, stopFlags, firstBytes, firstHasPort, hf, bytes_as_fields, flatten_flatMap,
        requested_flag]
  case cue =>
    refine request_reads (own := fun _ t => cueRead t) may (read := cueBytes s.cue) rfl ?_
    rcases hf : s.cue.failure with _ | f <;> simp [cueBytes, funext entryBytes_eq, failureBytes, windowFlag, hf, bytes_as_fields,
      flatten_flatMap, ite_one_zero]
  case authority => exact request_reads (own := readAuthority 0 st) may rfl rfl
  case mark =>
    refine request_reads (own := fun _ t => markRead mark t) may (read := markBytes s mark) (if_neg (by omega)) ?_
    unfold markBytes markAt
    rcases hmk : s.marks.getD mark none with _ | m
    · simp [bytes_as_fields]
    · simp [posBytes, labelBytes, entriesNaming, bytes_as_fields, ite_one_zero, List.countP_eq_length_filter]
  case port =>
    refine request_reads (own := portRead port 0) may ?_ rfl
    simp [portRead, yesNo, hp]
  case lookup =>
    refine request_reads (own := fun _ t => lookupZone handle t) may (read := zoneRecord z) ?_ ?_
    · simp [lookupZone, zoneNamed_of_slot hk hg, hz]
    · simp [zoneRecord, handleBytes, boxBytes, labelBytes, bytes_as_fields]
  case find =>
    refine request_reads (own := fun _ t => findZones point t) may ?_ (handleList_eq _)
    simp [findZones, hp]
  case list =>
    refine request_reads (own := fun _ t => listZones states owner t) may (if_neg ?_) (handleList_eq _)
    omega
  case badMark => exact request_refused (own := fun _ t => markRead mark t) may (if_pos hm)
  case badPoint => exact request_refused (own := fun _ t => findZones point t) may (by simp [findZones, hp])
  case badList => exact request_refused (own := fun _ t => listZones states owner t) may (if_pos bad)
  case badPort =>
    refine request_refused (own := portRead port clear) may ?_
    unfold portRead
    split
    · rfl
    · next asked h =>
      rcases bad with hp | hc
      · exact if_pos hp
      · rw [yesNo_of_one_lt hc] at h; cases h
  case badClear => exact request_refused (own := readAuthority clear st) may (by simp [readAuthority, yesNo_of_one_lt bad])
  · simp [authorityBytes, basisByte, orientationByte, bytes_as_fields, List.flatMap_def]
  · refine (portBytes_eq q l applied).trans ?_
    rcases q.abilities <;> rfl
  · simp [testBytes, bytes_as_fields]
  · simp [settingsBytes, bytes_as_fields]
  · simp [limitBytes, bytes_as_fields]
  · refine ⟨rfl, fun wa wb => ?_, fun side => ⟨?_, ?_⟩, fun w => ?_, fun corner w last above => ?_⟩
    all_goals
      simp [validityBytes, Validity.code, Validity.detail, axisCode, bytes_as_fields, wire_two_zero, wire_three_zero]
  · refine ⟨rfl, rfl, rfl, rfl, (fun _ _ _ _ => ⟨rfl, rfl, rfl, rfl, (fun _ => rfl)⟩), rfl, rfl, rfl, rfl, rfl, rfl, rfl, rfl,
      ⟨rfl, rfl, rfl⟩, rfl, rfl, rfl, rfl, rfl⟩

end Sys2Proof.Machine
end

