-- ==== Sys2Proof/Proofs/Stages.lean ====
section
/-! PROOFS. The stages of a period computation, one by one: each after the rate limit keeps the sign of a component and never
lets it grow, so the step taken is no longer on any axis than the velocity of stage 2 (R44 to R50). -/

namespace Sys2Proof

/-! ## Components that shrink -/

/-- `w` has the sign of `v` and at most its magnitude. -/
def Shortens (v w : Int) : Prop := (0 ≤ v → 0 ≤ w ∧ w ≤ v) ∧ (v ≤ 0 → v ≤ w ∧ w ≤ 0)

theorem Shortens.refl (v : Int) : Shortens v v := ⟨fun h => ⟨h, le_rfl⟩, fun h => ⟨le_rfl, h⟩⟩

theorem Shortens.zero (v : Int) : Shortens v 0 := ⟨fun h => ⟨le_rfl, h⟩, fun h => ⟨h, le_rfl⟩⟩

theorem Shortens.trans {u v w : Int} (h : Shortens u v) (k : Shortens v w) : Shortens u w := by
  unfold Shortens at *; omega

theorem Shortens.natAbs_le {v w : Int} (h : Shortens v w) : w.natAbs ≤ v.natAbs := by
  unfold Shortens at h; omega

/-- A magnitude that does not grow, with the sign kept. -/
theorem shortens_of_natAbs {v w : Int} (le : w.natAbs ≤ v.natAbs) (pos : 0 ≤ v → 0 ≤ w) (neg : v ≤ 0 → w ≤ 0) :
    Shortens v w := by
  unfold Shortens; omega

/-- A component scaled down by `a / b` and truncated (R45, R58). -/
theorem shortens_quot_mul (x : Int) {a b : Nat} (h : a ≤ b) : Shortens x (quot (x * a) b) := by
  refine shortens_of_natAbs ?_ (fun hx => ?_) fun hx => ?_
  · rw [natAbs_quot, Int.natAbs_mul, Int.natAbs_natCast, Int.natAbs_natCast]
    exact Nat.div_le_of_le_mul (by rw [Nat.mul_comm b]; exact Nat.mul_le_mul_left _ h)
  · exact Int.tdiv_nonneg (Int.mul_nonneg hx (by omega)) (by omega)
  · have := Int.tdiv_nonneg (a := -x * a) (b := b) (Int.mul_nonneg (by omega) (by omega)) (by omega)
    rw [Int.neg_mul, Int.neg_tdiv] at this
    exact Int.neg_nonneg.1 this

/-! ## Lengths -/

theorem isqrt_mono {m n : Nat} (h : m ≤ n) : isqrt m ≤ isqrt n := le_isqrt.2 ((isqrt_spec m).1.trans h)

/-- A vector of length `isqrt n` scaled down to `s` and truncated has length `s` at most, though `isqrt n` is itself truncated. -/
theorem isqrt_le_of_scaled {n m s : Nat} (hs : s < isqrt n) (hm : m * (isqrt n * isqrt n) ≤ n * (s * s)) :
    isqrt m ≤ s := by
  by_contra hc
  have long : (s + 1) * (s + 1) ≤ m := le_isqrt.1 (by omega)
  have hn := (isqrt_spec n).2
  generalize isqrt n = h at *
  have scaled : (s + 1) * (s + 1) * (h * h) ≤ n * (s * s) := (Nat.mul_le_mul_right _ long).trans hm
  have step : s * (h + 1) < (s + 1) * h := by nlinarith
  have square : s * (h + 1) * (s * (h + 1)) < (s + 1) * h * ((s + 1) * h) := Nat.mul_self_lt_mul_self_iff.2 step
  nlinarith

/-- One component of the scaled vector, squared. -/
theorem scaled_sq_le (x s h : Nat) : x * s / h * (x * s / h) * (h * h) ≤ x * x * (s * s) := by
  have le := Nat.div_mul_le_self (x * s) h
  calc x * s / h * (x * s / h) * (h * h) = x * s / h * h * (x * s / h * h) := by ring
    _ ≤ x * s * (x * s) := Nat.mul_le_mul le le
    _ = x * x * (s * s) := by ring

theorem toNat_sq_add (x y : Int) : (x * x + y * y).toNat = x.natAbs * x.natAbs + y.natAbs * y.natAbs := by
  rw [← Int.natAbs_mul_self (a := x), ← Int.natAbs_mul_self (a := y), ← Nat.cast_add, Int.toNat_natCast]

theorem Vec3.sq_eq (v : Vec3) : v.sq = v.x.natAbs * v.x.natAbs + v.y.natAbs * v.y.natAbs + v.z.natAbs * v.z.natAbs := by
  rw [Vec3.sq, ← Int.natAbs_mul_self (a := v.x), ← Int.natAbs_mul_self (a := v.y), ← Int.natAbs_mul_self (a := v.z),
    ← Nat.cast_add, ← Nat.cast_add, Int.toNat_natCast]

/-! ## Points and boxes -/

theorem Vec3.plus_get (u v : Vec3) (k : Axis) : (u.plus v).get k = u.get k + v.get k := by cases k <;> rfl

theorem Vec3.minus_get (u v : Vec3) (k : Axis) : (u.minus v).get k = u.get k - v.get k := by cases k <;> rfl

theorem Box.clampIn_get (b : Box) (p : Vec3) (k : Axis) : (b.clampIn p).get k = clamp (p.get k) (b.lo k) (b.hi k) := by
  cases k <;> rfl

theorem Box.clampIn_of_has {b : Box} {p : Vec3} (h : b.has p = true) : b.clampIn p = p := by
  refine Vec3.ext_get fun k => ?_
  have := (b.has_iff p).1 h k
  rw [Box.clampIn_get, clamp_eq _ _ _ (by omega)]
  omega

/-! ## Least elements of a list -/

/-- A running minimum is below all that it ran over, and is one of them. -/
theorem foldl_min_spec {α β : Type} [LinearOrder β] (f : α → β) (l : List α) (n : β) :
    (l.foldl (fun m x => min m (f x)) n ≤ n ∧ ∀ x ∈ l, l.foldl (fun m x => min m (f x)) n ≤ f x)
      ∧ (l.foldl (fun m x => min m (f x)) n = n ∨ ∃ x ∈ l, l.foldl (fun m x => min m (f x)) n = f x) := by
  induction l generalizing n with
  | nil => simp
  | cons x l ih =>
    obtain ⟨⟨le, all⟩, one⟩ := ih (min n (f x))
    simp only [List.foldl_cons, List.forall_mem_cons, List.exists_mem_cons_iff]
    refine ⟨⟨le.trans (min_le_left _ _), le.trans (min_le_right _ _), all⟩, ?_⟩
    rcases one with e | ⟨y, hy, e⟩
    · rcases min_choice n (f x) with m | m
      · exact .inl (e.trans m)
      · exact .inr (.inl (e.trans m))
    · exact .inr (.inr ⟨y, hy, e⟩)

/-- The element that `f` puts first, the earlier one on a tie. -/
def firstLeast {α β : Type} [LinearOrder β] (f : α → β) (x : α) (l : List α) : α :=
  l.foldl (fun b c => if f c < f b then c else b) x

/-- Over a list whose keys rise, it is one of the elements and the least of them by `f` and then by the key. -/
theorem firstLeast_spec {α β : Type} [LinearOrder β] (f : α → β) (key : α → Nat) (x : α) (l : List α)
    (rising : (x :: l).Pairwise (key · < key ·)) :
    firstLeast f x l ∈ x :: l
      ∧ ∀ y ∈ x :: l, f (firstLeast f x l) < f y ∨ f (firstLeast f x l) = f y ∧ key (firstLeast f x l) ≤ key y := by
  induction l generalizing x with
  | nil => simp [firstLeast]
  | cons y l ih =>
    have hxy : key x < key y := List.rel_of_pairwise_cons rising (by simp)
    have step : firstLeast f x (y :: l) = firstLeast f (if f y < f x then y else x) l := rfl
    rw [step]
    have tail : ((if f y < f x then y else x) :: l).Pairwise (key · < key ·) := by
      split
      · exact rising.tail
      · exact rising.sublist (.cons_cons _ (List.sublist_cons_self _ _))
    obtain ⟨mem, least⟩ := ih _ tail
    have head := least _ List.mem_cons_self
    generalize firstLeast f (if f y < f x then y else x) l = m at *
    refine ⟨?_, fun z hz => ?_⟩
    · rcases List.mem_cons.1 mem with e | hm
      · rw [e]; split <;> simp
      · exact List.mem_cons_of_mem _ (List.mem_cons_of_mem _ hm)
    · rcases List.mem_cons.1 hz with rfl | hz
      · grind
      · rcases List.mem_cons.1 hz with rfl | hz
        · grind
        · exact least z (List.mem_cons_of_mem _ hz)

end Sys2Proof

namespace Sys2Proof.Machine

/-! ## Stage 3 (R45) -/

theorem horizontalSpeed_eq (v : Vec3) :
    horizontalSpeed v = isqrt (v.x.natAbs * v.x.natAbs + v.y.natAbs * v.y.natAbs) := by
  rw [horizontalSpeed, toNat_sq_add]

theorem horizontalSpeed_mono {v w : Vec3} (hx : w.x.natAbs ≤ v.x.natAbs) (hy : w.y.natAbs ≤ v.y.natAbs) :
    horizontalSpeed w ≤ horizontalSpeed v := by
  rw [horizontalSpeed_eq, horizontalSpeed_eq]
  exact isqrt_mono (Nat.add_le_add (Nat.mul_le_mul hx hx) (Nat.mul_le_mul hy hy))

/-- The horizontal limit is the least of vh_per, the class cap and the caps of the SLOW zones that hold P. -/
theorem horizontalLimit_spec (lim : Limits) (cap : Nat) (std : Standard) (zones : List Zone) (p : Vec3) :
    (horizontalLimit lim cap std zones p ≤ min lim.vh cap
        ∧ ∀ z ∈ zones, z.kind = .slow → z.box.um.has p = true → horizontalLimit lim cap std zones p ≤ slowCap std z)
      ∧ (horizontalLimit lim cap std zones p = min lim.vh cap
        ∨ ∃ z ∈ zones, z.kind = .slow ∧ z.box.um.has p = true ∧ horizontalLimit lim cap std zones p = slowCap std z) := by
  have filtered : horizontalLimit lim cap std zones p
      = (zones.filter (fun z => z.kind == .slow && z.box.um.has p)).foldl (fun n z => min n (slowCap std z))
          (min lim.vh cap) := by
    rw [List.foldl_filter]; rfl
  have spec := foldl_min_spec (slowCap std) (zones.filter (fun z => z.kind == .slow && z.box.um.has p)) (min lim.vh cap)
  rw [← filtered] at spec
  simpa [List.mem_filter, and_assoc] using spec

theorem speedCap_shortens (vh vz : Nat) (v : Vec3) (k : Axis) : Shortens (v.get k) ((speedCap vh vz v).get k) := by
  have scaled : ∀ x : Int, Shortens x (if vh < horizontalSpeed v then quot (x * vh) (horizontalSpeed v) else x) := by
    intro x
    split
    · next h => exact shortens_quot_mul x h.le
    · exact .refl x
  cases k
  · exact scaled v.x
  · exact scaled v.y
  · show Shortens v.z (clamp v.z (-(vz : Int)) vz)
    rw [clamp_eq _ _ _ (by omega)]
    unfold Shortens; omega

theorem speedCap_vertical (vh vz : Nat) (v : Vec3) : (speedCap vh vz v).z.natAbs ≤ vz := by
  show (clamp v.z (-(vz : Int)) vz).natAbs ≤ vz
  rw [clamp_eq _ _ _ (by omega)]
  omega

/-- The cut takes the horizontal magnitude to the limit or below, with each component truncated. -/
theorem speedCap_horizontal (vh vz : Nat) (v : Vec3) : horizontalSpeed (speedCap vh vz v) ≤ vh := by
  by_cases h : vh < horizontalSpeed v
  · have hx : (speedCap vh vz v).x = quot (v.x * vh) (horizontalSpeed v) := if_pos h
    have hy : (speedCap vh vz v).y = quot (v.y * vh) (horizontalSpeed v) := if_pos h
    rw [horizontalSpeed_eq (speedCap vh vz v), hx, hy, natAbs_quot, natAbs_quot, Int.natAbs_mul, Int.natAbs_mul,
      Int.natAbs_natCast, Int.natAbs_natCast]
    rw [horizontalSpeed_eq v] at h ⊢
    refine isqrt_le_of_scaled h ?_
    rw [Nat.add_mul, Nat.add_mul]
    exact Nat.add_le_add (scaled_sq_le _ _ _) (scaled_sq_le _ _ _)
  · have hx : (speedCap vh vz v).x = v.x := if_neg h
    have hy : (speedCap vh vz v).y = v.y := if_neg h
    exact (horizontalSpeed_mono (by rw [hx]) (by rw [hy])).trans (not_lt.1 h)

/-! ## Stage 4 (R46, R47) -/

theorem approachAxis_shortens (std : Standard) (lim : Limits) (box : Box) (zones : List Zone) (p : Vec3) (k : Axis)
    (v : Int) : Shortens v (approachAxis std lim box zones p k v) := by
  unfold approachAxis
  dsimp only
  have le := (approachBound_le lim.aBrk v.natAbs (surfacesAhead std lim box zones p k (decide (0 < v)))).1
  generalize approachBound lim.aBrk v.natAbs _ = n at *
  unfold Shortens
  split <;> omega

theorem approach_shortens (std : Standard) (lim : Limits) (box : Box) (zones : List Zone) (p v : Vec3) (k : Axis) :
    Shortens (v.get k) ((approach std lim box zones p v).get k) := by
  rw [approach_get]
  exact approachAxis_shortens ..

/-! ## Stage 6 (R48 to R50) -/

/-- The clamp shortens a step from a point of the box. -/
theorem clampIn_shortens {b : Box} {p : Vec3} (hp : b.has p = true) (v : Vec3) (k : Axis) :
    Shortens (v.get k) ((b.clampIn (p.plus v)).get k - p.get k) := by
  have := (b.has_iff p).1 hp k
  rw [Box.clampIn_get, Vec3.plus_get, clamp_eq _ _ _ (by omega)]
  unfold Shortens; omega

theorem clampIn_has {b : Box} {p : Vec3} (hp : b.has p = true) (q : Vec3) : b.has (b.clampIn q) = true := by
  refine (b.has_iff _).2 fun k => ?_
  rw [Box.clampIn_get]
  have := (b.has_iff p).1 hp k
  exact clamp_mem _ _ _ (by omega)

/-- P lies beyond the face of the guarded box on the axis, so the axis is a candidate of the clip (R49). -/
def ClipAxis (g : Box) (p : Vec3) (k : Axis) : Prop := p.get k < g.lo k ∨ g.hi k < p.get k

/-- Where the clip puts the coordinate of a candidate axis: 1 µm before the face on P's side (R49). -/
def clipCoordinate (g : Box) (p : Vec3) (k : Axis) : Int := if p.get k < g.lo k then g.lo k - 1 else g.hi k + 1

theorem clipTarget_eq_some {g : Box} {p q : Vec3} (inside : g.has q = true) (k : Axis) (c : Axis × Int × Int) :
    clipTarget g p q k = some c
      ↔ ClipAxis g p k ∧ c = (k, clipCoordinate g p k, ((q.get k - clipCoordinate g p k).natAbs : Int)) := by
  have hq := (g.has_iff q).1 inside k
  unfold clipTarget clipCoordinate ClipAxis
  by_cases below : p.get k < g.lo k
  · have depth : ((q.get k - (g.lo k - 1)).natAbs : Int) = q.get k - (g.lo k - 1) := by omega
    simp [below, depth, eq_comm]
  · by_cases above : g.hi k < p.get k
    · have depth : ((q.get k - (g.hi k + 1)).natAbs : Int) = g.hi k + 1 - q.get k := by omega
      simp [below, above, depth, eq_comm]
    · simp [below, above]

/-- A point outside the box stays, and so does every point when P gives no candidate axis. -/
theorem clipZone_of_stays {g : Box} {p q : Vec3} (h : g.has q = false ∨ ∀ k, ¬ClipAxis g p k) : clipZone p q g = q := by
  unfold clipZone
  split
  · next inside =>
    have none : ∀ k, clipTarget g p q k = none := by
      intro k
      refine Option.eq_none_iff_forall_ne_some.2 fun c hc => ?_
      have axis := ((clipTarget_eq_some inside k c).1 hc).1
      rcases h with out | clear
      · rw [inside] at out; cases out
      · exact clear k axis
    simp [none, leastPenetration]
  · rfl

/-- The penetration of a candidate axis: how far the point lies behind where the clip puts it (R49). -/
def penetration (g : Box) (p q : Vec3) (k : Axis) : Nat := (q.get k - clipCoordinate g p k).natAbs

/-- A point inside the box is put out of it on the candidate axis of least penetration, the earlier one on a tie (R49). -/
theorem clipZone_of_inside {g : Box} {p q : Vec3} (inside : g.has q = true) {k : Axis} (hk : ClipAxis g p k) :
    ∃ j, ClipAxis g p j ∧ clipZone p q g = q.put j (clipCoordinate g p j)
      ∧ ∀ i, ClipAxis g p i → penetration g p q j < penetration g p q i
          ∨ penetration g p q j = penetration g p q i ∧ axisCode j ≤ axisCode i := by
  have mem : ∀ i, ClipAxis g p i → (i, clipCoordinate g p i, (penetration g p q i : Int))
      ∈ [Axis.x, Axis.y, Axis.z].filterMap (clipTarget g p q) := fun i hi =>
    List.mem_filterMap.2 ⟨i, by cases i <;> simp, (clipTarget_eq_some inside i _).2 ⟨hi, rfl⟩⟩
  have rising : ([Axis.x, Axis.y, Axis.z].filterMap (clipTarget g p q)).Pairwise
      (fun c d => axisCode c.1 < axisCode d.1) := by
    refine List.Pairwise.filterMap (R := fun i j => axisCode i < axisCode j) _ (fun i j hij c hc d hd => ?_)
      (by decide)
    rw [((clipTarget_eq_some inside i c).1 hc).2, ((clipTarget_eq_some inside j d).1 hd).2]
    exact hij
  unfold clipZone
  rw [if_pos inside]
  rcases hl : [Axis.x, Axis.y, Axis.z].filterMap (clipTarget g p q) with _ | ⟨c, cs⟩
  · rw [hl] at mem; cases mem k hk
  · rw [hl] at mem rising
    obtain ⟨chosen, least⟩ := firstLeast_spec (fun c : Axis × Int × Int => c.2.2) (axisCode ·.1) c cs rising
    have e : leastPenetration (c :: cs) = some (firstLeast (fun c => c.2.2) c cs) := rfl
    rw [← hl] at chosen
    obtain ⟨j, -, hj⟩ := List.mem_filterMap.1 chosen
    obtain ⟨axis, value⟩ := (clipTarget_eq_some inside j _).1 hj
    rw [e]
    rw [value] at least ⊢
    refine ⟨j, axis, rfl, fun i hi => ?_⟩
    have := least _ (mem i hi)
    simpa only [penetration, Nat.cast_lt, Nat.cast_inj] using this

theorem clipCoordinate_shortens {g : Box} {p q : Vec3} {k : Axis} (inside : g.has q = true) (hk : ClipAxis g p k) :
    Shortens (q.get k - p.get k) (clipCoordinate g p k - p.get k) ∧ clipCoordinate g p k ≠ q.get k := by
  have hq := (g.has_iff q).1 inside k
  unfold ClipAxis at hk
  unfold clipCoordinate Shortens
  split <;> omega

/-- The clip of one box never lengthens a step from P. -/
theorem clipZone_shortens (p q : Vec3) (g : Box) (k : Axis) :
    Shortens (q.get k - p.get k) ((clipZone p q g).get k - p.get k) := by
  by_cases h : g.has q = false ∨ ∀ k, ¬ClipAxis g p k
  · rw [clipZone_of_stays h]; exact .refl _
  · simp only [not_or, Bool.not_eq_false, not_forall, not_not] at h
    obtain ⟨inside, i, hi⟩ := h
    obtain ⟨j, hj, e, -⟩ := clipZone_of_inside inside hi
    rw [e]
    by_cases hkj : k = j
    · subst hkj; rw [Vec3.put_get_self]; exact (clipCoordinate_shortens inside hj).1
    · rw [Vec3.put_get_of_ne _ _ _ _ hkj]; exact .refl _

theorem clipPass_shortens (boxes : List Box) (p q : Vec3) (k : Axis) :
    Shortens (q.get k - p.get k) ((clipPass boxes p q).get k - p.get k) := by
  induction boxes generalizing q with
  | nil => exact .refl _
  | cons g boxes ih => exact (clipZone_shortens p q g k).trans (ih _)

/-- A pass that leaves the point where it was clips it out of no box on the way, since no clip ever moves it back. -/
theorem clipZone_of_clipPass {boxes : List Box} {p q : Vec3} (h : clipPass boxes p q = q) :
    ∀ g ∈ boxes, clipZone p q g = q := by
  induction boxes generalizing q with
  | nil => simp
  | cons g boxes ih =>
    have first : clipZone p q g = q := by
      refine Vec3.ext_get fun k => ?_
      have out := clipZone_shortens p q g k
      have back := clipPass_shortens boxes p (clipZone p q g) k
      have rest : clipPass boxes p (clipZone p q g) = q := h
      rw [rest] at back
      unfold Shortens at out back
      omega
    have rest : clipPass boxes p (clipZone p q g) = q := h
    rw [first] at rest
    exact List.forall_mem_cons.2 ⟨first, ih rest⟩

/-- A point that the clip of a box leaves where it was lies outside it, if P does. -/
theorem not_has_of_clipZone {g : Box} {p q : Vec3} (h : clipZone p q g = q) (out : g.has p = false) : g.has q = false := by
  by_contra hq
  have inside : g.has q = true := by simpa using hq
  obtain ⟨k, hk⟩ : ∃ k, ClipAxis g p k := by
    by_contra none
    refine absurd ((g.has_iff p).2 fun k => ?_) (by simp [out])
    have := not_exists.1 none k
    unfold ClipAxis at this
    omega
  obtain ⟨j, hj, e, -⟩ := clipZone_of_inside inside hk
  refine (clipCoordinate_shortens inside hj).2 ?_
  rw [← Vec3.put_get_self q j (clipCoordinate g p j), ← e, h]

theorem clipFrom_shortens {boxes : List Box} {p : Vec3} {n : Nat} {q r : Vec3} (h : clipFrom boxes p n q = some r)
    (k : Axis) : Shortens (q.get k - p.get k) (r.get k - p.get k) := by
  induction n generalizing q with
  | zero =>
    unfold clipFrom at h
    split at h
    · cases h; exact .refl _
    · cases h
  | succ n ih =>
    unfold clipFrom at h
    split at h
    · cases h; exact .refl _
    · exact (clipPass_shortens boxes p q k).trans (ih h)

/-- A step that is taken is shorter on every axis than the velocity that stage 5 was given. -/
theorem stepped_shortens {box : Box} {boxes : List Box} {p v q : Vec3} (hp : box.has p = true)
    (h : stepped box boxes p v = some q) (k : Axis) : Shortens (v.get k) (q.get k - p.get k) :=
  (clampIn_shortens hp v k).trans (clipFrom_shortens h k)

/-- And it ends inside the flight box (R48). -/
theorem stepped_has {box : Box} {boxes : List Box} {p v q : Vec3} (hp : box.has p = true)
    (h : stepped box boxes p v = some q) : box.has q = true := by
  refine (box.has_iff q).2 fun k => ?_
  have inP := (box.has_iff p).1 hp k
  have inClamp := (box.has_iff _).1 (clampIn_has hp (p.plus v)) k
  have short := clipFrom_shortens h k
  unfold Shortens at short
  omega

/-! ## The step committed (R51) -/

/-- The velocity of stages 2 and 3 of a computation, as the commit works it out (R44, R45). -/
def cappedVelocity (s : State) (c : Computation) : Vec3 :=
  speedCap
    (horizontalLimit s.motion.lim (classCap s.span.classCaps c.speedClass) s.period.configured c.zones c.p)
    (min s.motion.lim.vz (classCap s.span.classCaps c.speedClass))
    (rateLimit (stageAccel s.motion.lim c.mode c.kind) c.vOld c.demand)

theorem shapedVelocity_eq (s : State) (c : Computation) :
    shapedVelocity s c = approach s.period.configured s.motion.lim s.span.flightBox c.zones c.p (cappedVelocity s c) := rfl

/-- The step that a commit takes, or none when it is abandoned, is shorter on every axis than the velocity of stage 3. -/
theorem committedP_shortens {s : State} {c : Computation} (hp : s.span.flightBox.has c.p = true) (k : Axis) :
    Shortens ((cappedVelocity s c).get k) (((committedP c s).minus c.p).get k) := by
  rw [Vec3.minus_get, committedP]
  rcases h : nextPosition s c with _ | q
  · simp only [Option.getD_none, sub_self]
    exact .zero _
  · exact (approach_shortens ..).trans (stepped_shortens hp h k)

theorem committedP_has {s : State} {c : Computation} (hp : s.span.flightBox.has c.p = true) :
    s.span.flightBox.has (committedP c s) = true := by
  rw [committedP]
  rcases h : nextPosition s c with _ | q
  · exact hp
  · exact stepped_has hp h

end Sys2Proof.Machine
end

