-- ==== Sys2Proof/Proofs/DeviceEdits.lean ====
section
/-! PROOFS. The ports, the receivers and the clock once more, for relations that ask more of an edit than `PartEdits` does: the
Period Generator changes at the configured standard alone, and no port raises OPERATOR, which has a kind of its own (R165). -/

namespace Sys2Proof.Machine

/-- The relation chains, and holds across every edit that the ports and the clock make, with the standard kept and with no
cause but theirs. -/
structure DeviceEdits (R : State → State → Prop) : Prop where
  refl : ∀ s, R s s
  trans : ∀ {s t u}, R s t → R t u → R s u
  station : ∀ g s, R s { s with station := g }
  ports : ∀ q s, R s { s with ports := q }
  period : ∀ g s, g.configured = s.period.configured → R s { s with period := g }
  cause : ∀ c port s, c ≠ .operator → R s (raiseCause c port .none s)

namespace DeviceEdits

variable {R : State → State → Prop}

theorem raiseIf (h : DeviceEdits R) (b : Bool) (e : Event) (s : State) : R s (raiseIf b e s) := by
  cases b
  · exact h.refl s
  · exact h.station _ s

theorem movePort (h : DeviceEdits R) (i : Nat) (q : Port) (s : State) : R s (movePort i q s) :=
  h.trans (h.ports _ s) (h.raiseIf _ _ _)

theorem raiseWhen (h : DeviceEdits R) (b : Bool) {c : Cause} (i : Nat) (s : State) (hc : c ≠ .operator) :
    R s (raiseWhen b c i s) := by
  cases b
  · exact h.refl s
  · exact h.cause _ _ s hc

/-! ## A period expiry (R135 to R147, R157) -/

theorem missCheck (h : DeviceEdits R) (i : Nat) (s : State) : R s (missCheck i s) := by
  unfold Machine.missCheck
  dsimp only
  split
  · split
    · exact h.trans (h.movePort _ _ s) (h.cause _ _ _ (by decide))
    · exact h.ports _ s
  · exact h.ports _ s

theorem portCheck (h : DeviceEdits R) (i : Nat) (s : State) : R s (portCheck i s) := by
  unfold Machine.portCheck
  dsimp only
  split
  · exact h.movePort _ _ s
  · exact h.movePort _ _ s
  · exact h.missCheck i s
  all_goals exact h.ports _ s

theorem sendSetpoint (h : DeviceEdits R) (i : Nat) (s : State) : R s (sendSetpoint i s) := by
  unfold Machine.sendSetpoint
  dsimp only
  split
  · exact h.ports _ s
  · exact h.refl s

theorem portsExpiry (h : DeviceEdits R) (s : State) : R s (portsExpiry s) := by
  have checks := h.trans (h.trans (h.trans (h.portCheck 0 s) (h.portCheck 1 _)) (h.portCheck 2 _)) (h.portCheck 3 _)
  exact h.trans (h.trans (h.trans (h.trans checks (h.sendSetpoint 0 _)) (h.sendSetpoint 1 _)) (h.sendSetpoint 2 _))
    (h.sendSetpoint 3 _)

theorem silenceStep (h : DeviceEdits R) (s : State) : R s (silenceStep s) := by
  unfold Machine.silenceStep
  dsimp only
  split
  any_goals exact h.refl s
  all_goals
    split
    · exact h.trans (h.station _ s) (h.cause _ _ _ (by decide))
    · exact h.station _ s

/-! ## Frames from the drive (R136 to R157) -/

theorem reclass (h : DeviceEdits R) (i : Nat) (q : Port) (classes : BitVec 4) (s : State) :
    R s (reclass i q classes s) := by
  unfold Machine.reclass
  split
  · exact h.trans (h.movePort _ _ s) (h.cause _ _ _ (by decide))
  · exact h.trans (h.ports _ s) (h.raiseIf _ _ _)

theorem takeGood (h : DeviceEdits R) (i measured tension : Nat) (w : DriveStatus) (s : State) :
    R s (takeGood i measured tension w s) := by
  unfold Machine.takeGood
  dsimp only
  refine h.trans (h.trans (h.trans (h.trans ?_ (h.raiseWhen _ i _ ?_)) (h.raiseWhen _ i _ ?_)) (h.raiseWhen _ i _ ?_))
    (h.raiseWhen _ i _ ?_)
  · exact h.trans (h.ports _ s) (h.raiseIf _ _ _)
  all_goals decide

theorem driveAbility (h : DeviceEdits R) (i : Nat) (a : Ability) (s : State) : R s (driveAbility i a s) := by
  unfold Machine.driveAbility
  dsimp only
  split
  · exact h.movePort _ _ s
  · exact h.reclass _ _ _ s
  all_goals exact h.refl s

theorem driveFeedback (h : DeviceEdits R) (i echo measured tension status : Nat) (s : State) :
    R s (driveFeedback i echo measured tension status s) := by
  unfold Machine.driveFeedback
  dsimp only
  split
  · exact h.movePort _ _ s
  · split
    · exact h.takeGood _ _ _ _ s
    · exact h.refl s
  all_goals exact h.refl s

theorem driveWake (h : DeviceEdits R) (i : Nat) (s : State) : R s (driveWake i s) := by
  unfold Machine.driveWake
  dsimp only
  split
  · exact h.trans (h.movePort _ _ s) (h.station _ _)
  all_goals exact h.refl s

theorem driveTest (h : DeviceEdits R) (i : Nat) (payload : List Byte) (s : State) : R s (driveTest i payload s) := by
  unfold Machine.driveTest
  dsimp only
  split
  · exact h.ports _ s
  · exact h.refl s

theorem badCheck (h : DeviceEdits R) (i : Nat) (s : State) : R s (badCheck i s) := by
  unfold Machine.badCheck
  dsimp only
  split
  any_goals exact h.ports _ s
  split
  · exact h.ports _ s
  · exact h.refl s

theorem deliver (h : DeviceEdits R) (i type : Nat) (payload : List Byte) (s : State) :
    R s (deliver i type payload s) := by
  unfold Machine.deliver
  split
  · exact h.driveAbility _ _ s
  · exact h.driveFeedback _ _ _ _ _ s
  · exact h.driveTest _ _ s
  · exact h.driveWake _ s
  · exact h.refl s

/-! ## The receiver of a link (R214) -/

theorem scanWinch (h : DeviceEdits R) (fuel i : Nat) (buf : List Byte) (s : State) : R s (scanWinch fuel i buf s) := by
  induction fuel generalizing buf s with
  | zero => exact h.ports _ s
  | succ fuel ih =>
    unfold Machine.scanWinch
    split
    · exact h.ports _ s
    · split
      · exact ih _ s
      · split
        · exact h.ports _ s
        · split
          · exact ih _ s
          · split
            · exact h.ports _ s
            · split
              · exact h.trans (h.deliver _ _ _ s) (ih _ _)
              · exact h.trans (h.badCheck _ s) (ih _ _)

theorem receive (h : DeviceEdits R) (i : Nat) (buf : List Byte) (s : State) : R s (receive i buf s) := by
  have scanned := h.scanWinch (buf.length + 1) i buf s
  unfold Machine.receive
  dsimp only
  split
  · exact scanned
  · exact h.trans scanned (h.ports _ _)

theorem timeOutWinch (h : DeviceEdits R) (i : Nat) (s : State) : R s (timeOutWinch i s) := by
  unfold Machine.timeOutWinch
  split
  · exact h.refl s
  · exact h.trans (h.trans (h.badCheck i s) (h.ports _ _)) (h.receive _ _ _)

theorem runReceiver (h : DeviceEdits R) (fuel i k : Nat) (s : State) : R s (runReceiver fuel i k s) := by
  induction fuel generalizing k s with
  | zero => exact h.refl s
  | succ fuel ih =>
    unfold Machine.runReceiver
    dsimp only
    split
    · exact h.refl s
    · split
      · exact h.ports _ s
      · exact h.trans (h.timeOutWinch i s) (ih _ _)

theorem runReceivers (h : DeviceEdits R) (k : Nat) (s : State) : R s (runReceivers k s) := by
  have port : ∀ i t, R t (runPort i k t) := fun i t => h.runReceiver _ i k t
  exact h.trans (h.trans (h.trans (h.trans (port 0 s) (port 1 _)) (port 2 _)) (port 3 _)) (h.station _ _)

/-! ## The Period Generator (R181 to R189) -/

theorem withPeriod (h : DeviceEdits R) {g : PeriodGen} {s : State} (hg : g.configured = s.period.configured) :
    R s (withPeriod g s) :=
  h.trans (h.period g s hg) (h.raiseIf _ _ _)

end DeviceEdits

/-! ## The standard stands outside SET_STANDARD (R183) -/

@[simp] theorem PeriodGen.enterFree_configured (g : PeriodGen) : g.enterFree.configured = g.configured := rfl

@[simp] theorem PeriodGen.trimmed_configured (g : PeriodGen) : g.trimmed.configured = g.configured := rfl

@[simp] theorem PeriodGen.lose_configured (g : PeriodGen) : g.lose.configured = g.configured := by
  unfold PeriodGen.lose; dsimp only; split <;> rfl

@[simp] theorem PeriodGen.acquire_configured (g : PeriodGen) : g.acquire.configured = g.configured := by
  simp only [PeriodGen.acquire, apply_ite PeriodGen.configured, trimmed_configured, ite_self]

@[simp] theorem PeriodGen.hold_configured (g : PeriodGen) : g.hold.configured = g.configured := by
  simp only [PeriodGen.hold, apply_ite PeriodGen.configured, trimmed_configured, ite_self]

@[simp] theorem PeriodGen.matched_configured (g : PeriodGen) : g.matched.configured = g.configured := by
  unfold PeriodGen.matched; split <;> simp

@[simp] theorem PeriodGen.mismatched_configured (g : PeriodGen) : g.mismatched.configured = g.configured := by
  unfold PeriodGen.mismatched; split <;> rfl

@[simp] theorem PeriodGen.pulse_configured (g : PeriodGen) : g.pulse.configured = g.configured := by
  unfold PeriodGen.pulse
  split
  · rfl
  · split
    · rfl
    · dsimp only; split <;> simp

/-- Each of these edits keeps the configured standard. -/
theorem deviceEdits_configured : DeviceEdits fun s t => t.period.configured = s.period.configured where
  refl := fun _ => rfl
  trans := fun h k => k.trans h
  station := fun _ _ => rfl
  ports := fun _ _ => rfl
  period := fun _ _ h => h
  cause := fun c port s _ => by rw [(frame_raiseCause c port .none s).period]

/-- The relation holds across the serving of a request too. -/
structure ServedEdits (R : State → State → Prop) : Prop extends DeviceEdits R where
  serves : ∀ i s t, serve i s = .next t → R s t

namespace ServedEdits

variable {R : State → State → Prop}

/-! ## The station line (R197 to R201) -/

theorem takeGoodFrame (h : ServedEdits R) (st code : Nat) (ps : List Byte) (s : State) :
    R s (takeGoodFrame st code ps s) := by
  have refused : ∀ why, R s (refuseFrame st code why s) := fun _ => h.station _ s
  unfold Machine.takeGoodFrame
  split
  · exact refused _
  · split
    · exact refused _
    · split
      · exact refused _
      · split
        · exact refused _
        · exact refused _
        · next i _ =>
          rcases outcome : serve i s with t | f | r
          · exact h.serves i s t outcome
          · exact h.refl s
          · exact h.refl s

theorem scanStation (h : ServedEdits R) (fuel : Nat) (s : State) : R s (scanStation fuel s) := by
  induction fuel generalizing s with
  | zero => exact h.refl s
  | succ fuel ih =>
    unfold Machine.scanStation
    split
    · exact h.station _ s
    · split
      · exact h.trans (h.station _ s) (ih _)
      · split
        · exact h.station _ s
        · exact h.trans (h.station _ s) (ih _)
        · split
          · exact h.station _ s
          · exact h.trans (h.trans (h.station _ s) (h.takeGoodFrame _ _ _ _)) (ih _)

theorem arriveChar (h : ServedEdits R) (b : Byte) (s : State) : R s (arriveChar b s) := by
  unfold Machine.arriveChar
  split
  · exact h.station _ s
  · exact h.trans (h.station _ s) (h.scanStation _ _)

theorem timeOutStation (h : ServedEdits R) (s : State) : R s (timeOutStation s) := by
  unfold Machine.timeOutStation
  split
  · split
    · exact h.trans (h.station _ s) (h.scanStation _ _)
    · exact h.refl s
  · exact h.refl s

theorem finishAnswer (h : ServedEdits R) (s : State) : R s (finishAnswer s) := by
  unfold Machine.finishAnswer
  split
  · exact h.trans (h.station _ s) (h.scanStation _ _)
  · exact h.refl s

/-! ## The clock up to the wrap (R181, R197, R214) -/

theorem stationTimer (h : ServedEdits R) (s : State) : R s (stationTimer s) := by
  unfold Machine.stationTimer
  split
  · split
    · exact h.timeOutStation s
    · exact h.refl s
  · exact h.refl s

theorem runClock (h : ServedEdits R) (k : Nat) (s : State) : R s (runClock k s) := by
  refine h.trans (h.runReceivers k s) (h.withPeriod ?_)
  rw [deviceEdits_configured.runReceivers k s]
  split
  · rw [PeriodGen.lose_configured, PeriodGen.run_configured]
  · exact PeriodGen.run_configured k _

theorem runTimers (h : ServedEdits R) (k : Nat) (s : State) : R s (runTimers k s) :=
  h.trans (h.trans (h.runClock k s) (h.stationTimer _)) (h.period _ _ rfl)

theorem runToWrap (h : ServedEdits R) (fuel : Nat) (s : State) : R s (runToWrap fuel s) := by
  induction fuel generalizing s with
  | zero => exact h.runTimers _ s
  | succ fuel ih =>
    unfold Machine.runToWrap
    split
    · exact h.trans (h.runTimers _ s) (ih _)
    · exact h.runTimers _ s

theorem clockToWrap (h : ServedEdits R) (s : State) : R s (clockToWrap s) :=
  h.trans (h.runToWrap _ s) (h.period _ _ rfl)

end ServedEdits

end Sys2Proof.Machine
end

