-- ==== Sys2Proof/Proofs/CueEnds.lean ====
section
/-! PROOFS. How a running cue ends: it halts, fails or completes, and each way is the same end of the copy, of the CUE basis and of
the mode CUE, after what is written to the list (R59, R62, R100 to R104, R117). -/

namespace Sys2Proof.Machine

/-! ## The CUE basis clears (R117) -/

/-- The authority record of a holder whose CUE basis has cleared: EXPLICIT keeps it, else authority is over. -/
def basisOver (h : Nat) (a : Authority) : Authority := if a.explicit then { a with cue := false } else authorityOver h a

theorem clearCueBasis_of_holder {s : State} {h : Nat} (holder : s.auth.holder = some h) (mode : s.motion.mode ≠ .stick) :
    clearCueBasis s = raiseIf (!s.auth.explicit) .authority { s with auth := basisOver h s.auth } := by
  rcases explicit : s.auth.explicit with _ | _
  · simp [clearCueBasis, endAuthority, Authority.vacate, flush, basisOver, authorityOver, raiseIf, holder, mode, explicit]
  · simp [clearCueBasis, basisOver, raiseIf, holder, explicit]

theorem basisOver_cue (h : Nat) (a : Authority) : (basisOver h a).cue = false := by unfold basisOver; split <;> rfl

theorem basisOver_buffer {h : Nat} {a : Authority} (empty : a.buffer = []) : (basisOver h a).buffer = [] := by
  unfold basisOver
  split
  · exact empty
  · rfl

/-- What `CueBasisOver` says of a holder, as one value. -/
theorem cueBasisOver_of_eq {a : Authority} {h : Nat} {s t : State} (holder : a.holder = some h)
    (auth : t.auth = basisOver h a) (event : eventSet t .authority = (eventSet s .authority || !a.explicit)) :
    CueBasisOver a s t := by
  intro k hk
  cases holder.symm.trans hk
  refine ⟨fun explicit => ?_, fun explicit => ?_⟩
  · simp [auth, event, basisOver, explicit]
  · simp [auth, event, basisOver, explicit]

/-! ## The end of a cue (R36, R38, R102) -/

theorem anyOccupied_congr {s t : State} (h : t.air = s.air) : anyOccupied t = anyOccupied s := by
  rw [anyOccupied, anyOccupied, h]

/-- The computation makes no cue checks at its commit (R38). -/
def Computation.dropCue (c : Computation) : Computation := { c with cueLive := false }

/-- The copy, the CUE basis and the mode CUE end together. -/
def endCue (s : State) : State := enterHold (clearCueBasis (dropCopy s))

theorem frame_endCue (s : State) : ControlFrame s (endCue s) := (frame_haltCue s).trans (frame_enterHold _)

theorem haltIfRunning_eq {s : State} (mode : s.motion.mode = .cue) : haltIfRunning s = endCue s := if_pos mode

/-- The head entry removed and its failure recorded (R62, R101). -/
def failRecorded (why : FailReason) (s : State) : State :=
  let s1 := removeTo s.cue.entries.tail s
  raiseEvent .cueFailed
    { s1 with cue := { s1.cue with running := false, failure := some { reason := why, mark := headMark s } } }

theorem failHead_eq (why : FailReason) (s : State) : failHead why s = endCue (failRecorded why s) := rfl

/-- The head entry removed and CUE_DONE raised (R59, R100). -/
def doneRecorded (rest : List CueEntry) (s : State) : State := raiseEvent .cueDone (removeTo rest s)

theorem completeCue_last {s : State} {e : CueEntry} {rest : List CueEntry} (entries : s.cue.entries = e :: rest)
    (last : e.haltAfter = true ∨ rest = []) : completeCue s = endCue (doneRecorded rest s) := by
  have ends : (e.haltAfter || rest.isEmpty) = true := by rcases last with h | h <;> simp [h]
  simp only [completeCue, entries, ends, if_true]
  rfl

theorem completeCue_next {s : State} {e : CueEntry} {rest : List CueEntry} (entries : s.cue.entries = e :: rest)
    (goes : e.haltAfter = false) (more : rest ≠ []) :
    completeCue s = startHead (dropCopy (doneRecorded rest s)) := by
  have next : (e.haltAfter || rest.isEmpty) = false := by simp [goes, more]
  simp only [completeCue, entries, next]
  rfl

theorem startHead_of_barred {s : State} {e : CueEntry} {rest : List CueEntry} (entries : s.cue.entries = e :: rest)
    (barred : unreachable s.span.flightBox s.motion.lim.standoff (liveZones s.air) (markTarget s e.mark) = true) :
    startHead s = failHead .unreachable s := by
  simp only [startHead, entries, barred, if_true]

theorem startHead_of_free {s : State} {e : CueEntry} {rest : List CueEntry} (entries : s.cue.entries = e :: rest)
    (free : unreachable s.span.flightBox s.motion.lim.standoff (liveZones s.air) (markTarget s e.mark) = false) :
    startHead s = { s with
      motion := { s.motion with mode := .cue, copy := some (copyOf s e) }, cue := { s.cue with running := true } } := by
  simp only [startHead, entries, free]
  rfl

/-- Between `s` and `u` the list and event flags were written, and nothing else: what is done before a cue ends. -/
structure ListWritten (s u : State) : Prop where
  frame : ControlFrame s u
  motion : u.motion = s.motion
  stop : u.stop = s.stop
  auth : u.auth = s.auth
  authority : eventSet u .authority = eventSet s .authority

theorem ListWritten.refl (s : State) : ListWritten s s := ⟨.refl s, rfl, rfl, rfl, rfl⟩

theorem removeTo_eq (rest : List CueEntry) (s : State) :
    removeTo rest s = { s with
      cue := { s.cue with entries := rest }
      station := { s.station with
        events := if s.cue.window ≤ s.cue.entries.length ∧ rest.length < s.cue.window
          then s.station.events ||| BitVec.twoPow 14 Event.cueWant.bit else s.station.events } } := by
  simp only [removeTo, raiseIf_eq, decide_eq_true_eq]

theorem eventSet_removeTo (rest : List CueEntry) (s : State) (e : Event) :
    eventSet (removeTo rest s) e
      = (eventSet s e || decide (s.cue.window ≤ s.cue.entries.length ∧ rest.length < s.cue.window)
          && decide (e = .cueWant)) :=
  eventSet_raiseIf ..

theorem listWritten_removeTo (rest : List CueEntry) (s : State) : ListWritten s (removeTo rest s) :=
  ⟨frame_removeTo rest s, by rw [removeTo_eq], by rw [removeTo_eq], by rw [removeTo_eq], by simp [eventSet_removeTo]⟩

theorem ListWritten.raise {s u : State} (h : ListWritten s u) {e : Event} (he : e ≠ .authority) :
    ListWritten s (raiseEvent e u) :=
  ⟨h.frame.trans (frame_raiseEvent e u), h.motion, h.stop, h.auth, by
    rw [eventSet_raiseEvent, h.authority]; simp [he.symm]⟩

theorem ListWritten.record {s u : State} (h : ListWritten s u) (r : Bool) (f : Option Failure) :
    ListWritten s { u with cue := { u.cue with running := r, failure := f } } :=
  ⟨h.frame.trans (frame_cueRecord r f u), h.motion, h.stop, h.auth, h.authority⟩

theorem listWritten_failRecorded (why : FailReason) (s : State) : ListWritten s (failRecorded why s) :=
  ((listWritten_removeTo _ s).record _ _).raise (by decide)

theorem listWritten_doneRecorded (rest : List CueEntry) (s : State) : ListWritten s (doneRecorded rest s) :=
  (listWritten_removeTo rest s).raise (by decide)

theorem failRecorded_cue (why : FailReason) (s : State) :
    (failRecorded why s).cue = { s.cue with
      entries := s.cue.entries.tail, running := false, failure := some { reason := why, mark := headMark s } } := by
  simp only [failRecorded, raiseEvent_cue, removeTo_eq]

theorem doneRecorded_cue (rest : List CueEntry) (s : State) :
    (doneRecorded rest s).cue = { s.cue with entries := rest } := by
  simp only [doneRecorded, raiseEvent_cue, removeTo_eq]

theorem eventSet_failRecorded (why : FailReason) (s : State) (e : Event) :
    eventSet (failRecorded why s) e
      = (eventSet s e
          || decide (s.cue.window ≤ s.cue.entries.length ∧ s.cue.entries.tail.length < s.cue.window)
            && decide (e = .cueWant)
          || decide (e = .cueFailed)) := by
  rw [failRecorded, eventSet_raiseEvent]
  congr 1
  exact eventSet_removeTo s.cue.entries.tail s e

theorem eventSet_doneRecorded (rest : List CueEntry) (s : State) (e : Event) :
    eventSet (doneRecorded rest s) e
      = (eventSet s e
          || decide (s.cue.window ≤ s.cue.entries.length ∧ rest.length < s.cue.window) && decide (e = .cueWant)
          || decide (e = .cueDone)) := by
  rw [doneRecorded, eventSet_raiseEvent, eventSet_removeTo]

/-- All that the end of a cue leaves of the Motion Generator, the Stop Unit and the holder. -/
structure CueOver (s t : State) : Prop where
  frame : ControlFrame s t
  motion : t.motion = { s.motion with
    mode := if anyOccupied s then .evict else .hold, copy := none, flight := s.motion.flight.map Computation.dropCue }
  stop : t.stop = s.stop
  running : t.cue.running = false
  auth : ∀ h, s.auth.holder = some h → t.auth = basisOver h s.auth
  basis : CueBasisOver s.auth s t

section

variable {s u : State} {h : Nat}

theorem haltCue_of_holder (holder : u.auth.holder = some h) (mode : u.motion.mode ≠ .stick) :
    haltCue u = raiseIf (!u.auth.explicit) .authority { dropCopy u with auth := basisOver h u.auth } :=
  clearCueBasis_of_holder (s := dropCopy u) holder mode

theorem endCue_of_holder (holder : u.auth.holder = some h) (mode : u.motion.mode ≠ .stick) :
    endCue u = enterHold (raiseIf (!u.auth.explicit) .authority { dropCopy u with auth := basisOver h u.auth }) :=
  congrArg enterHold (haltCue_of_holder holder mode)

theorem endCue_cue (holder : u.auth.holder = some h) (mode : u.motion.mode ≠ .stick) :
    (endCue u).cue = { u.cue with running := false } := by
  rw [endCue_of_holder holder mode]
  simp [raiseIf_eq]

theorem eventSet_endCue (holder : u.auth.holder = some h) (mode : u.motion.mode ≠ .stick) (e : Event) :
    eventSet (endCue u) e = (eventSet u e || !u.auth.explicit && decide (e = .authority)) := by
  rw [endCue_of_holder holder mode]
  exact eventSet_raiseIf ..

/-- Whatever was written to the list before it, the end of a cue leaves the same. -/
theorem cueOver_endCue (written : ListWritten s u) (holder : s.auth.holder.isSome = true)
    (mode : s.motion.mode ≠ .stick) : CueOver s (endCue u) := by
  obtain ⟨h, hh⟩ := Option.isSome_iff_exists.1 holder
  have holderU : u.auth.holder = some h := by rw [written.auth, hh]
  have modeU : u.motion.mode ≠ .stick := by rw [written.motion]; exact mode
  have auth : (endCue u).auth = basisOver h s.auth := by
    rw [endCue_of_holder holderU modeU, written.auth]
    simp [raiseIf_eq]
  refine ⟨written.frame.trans (frame_endCue u), ?_, ?_, ?_, ?_, ?_⟩
  · rw [endCue_of_holder holderU modeU, enterHold_motion,
      anyOccupied_congr (s := s) (by simp [raiseIf_eq, written.frame.air])]
    simp only [raiseIf_eq, dropCopy_motion, written.motion]
    rfl
  · rw [endCue_of_holder holderU modeU]
    simp [raiseIf_eq, written.stop]
  · rw [endCue_cue holderU modeU]
  · intro k hk
    cases hh.symm.trans hk
    exact auth
  · refine cueBasisOver_of_eq hh auth ?_
    rw [eventSet_endCue holderU modeU, written.authority, written.auth]
    simp

end

theorem cueOver_failHead (why : FailReason) {s : State} (holder : s.auth.holder.isSome = true)
    (mode : s.motion.mode ≠ .stick) : CueOver s (failHead why s) := by
  rw [failHead_eq]
  exact cueOver_endCue (listWritten_failRecorded why s) holder mode

end Sys2Proof.Machine
end

