-- ==== Sys2Proof/Proofs/ModeLaw.lean ====
section
/-! PROOFS. The law of the modes in two parts, that of the mode with P and the kind in force, and that of the cue, the stick and
the eviction; and what each shared transition does to them (R35, R38, R99, R117, R126, R164). -/

namespace Sys2Proof.Machine

/-! ## The two parts of the law -/

/-- A computation in flight goes with P, v_old and the mode that it will commit into (R38, R42). -/
structure FlightFits (m : Motion) (c : Computation) : Prop where
  p : m.p = some c.p
  vOld : m.vOld = c.vOld
  moving : m.mode.steered = true ∨ m.mode = .stopping
  ran : c.mode.steered = true ∨ c.mode = .stopping
  stopping : c.mode = .stopping → m.mode = .stopping ∧ c.demand = zero3

/-- The mode goes with P, the kind in force, the cause set and the computation in flight. -/
structure ModeCore (s : State) : Prop where
  valid : s.motion.p = none ↔ s.motion.mode = .safe
  kind : kindFits s.motion.mode s.stop.kind = true
  causes : s.motion.mode.steered = true → s.stop.causes = 0#8
  operator : s.stop.has .operator = true ↔ s.stop.requested ≠ .none
  rest : s.motion.mode = .safe ∨ s.motion.mode.isStopped = true → s.motion.vOld = zero3
  lengths : s.motion.p.isSome = true → s.motion.lengths.isSome = true
  flight : ∀ c, s.motion.flight = some c → FlightFits s.motion c

/-- The running cue, the stick and the exit target go with the mode. -/
structure CueFits (s : State) : Prop where
  running : s.cue.running = true ↔ s.motion.mode = .cue
  copy : s.motion.copy.isSome = true ↔ s.motion.mode = .cue
  basis : s.auth.cue = true ↔ s.motion.mode = .cue
  cue : s.motion.mode = .cue → s.cue.entries ≠ [] ∧ s.auth.holder.isSome = true
  stick : s.motion.mode = .stick → s.auth.holder.isSome = true
  buffer : s.auth.buffer ≠ [] → s.motion.mode = .stick
  exit : s.motion.exit.isSome = true ∨ s.motion.trapped = true → s.motion.mode = .evict
  live : ∀ c, s.motion.flight = some c → c.cueLive = true → c.mode = .cue ∧ s.motion.mode = .cue

theorem modeOk_iff (s : State) : ModeOk s ↔ ModeCore s ∧ CueFits s := by
  constructor
  · rintro ⟨valid, kind, causes, operator, running, copy, basis, cue, stick, buffer, exit, rest, lengths, flight⟩
    refine ⟨⟨valid, kind, causes, operator, rest, lengths, fun c hc => ?_⟩,
      ⟨running, copy, basis, cue, stick, buffer, exit, fun c hc => ?_⟩⟩
    · obtain ⟨p, vOld, moving, ran, stopping, -⟩ := flight c hc
      exact ⟨p, vOld, moving, ran, stopping⟩
    · obtain ⟨-, -, -, -, -, live⟩ := flight c hc
      exact live
  · rintro ⟨core, fits⟩
    refine ⟨core.valid, core.kind, core.causes, core.operator, fits.running, fits.copy, fits.basis, fits.cue, fits.stick,
      fits.buffer, fits.exit, core.rest, core.lengths, fun c hc => ?_⟩
    obtain ⟨p, vOld, moving, ran, stopping⟩ := core.flight c hc
    exact ⟨p, vOld, moving, ran, stopping, fits.live c hc⟩

/-! ## Modes and kinds -/

theorem Mode.steered_iff (m : Mode) : m.steered = true ↔ m = .hold ∨ m = .stick ∨ m = .cue ∨ m = .evict := by
  cases m <;> simp [Mode.steered]

theorem kindFits_of_steered {m : Mode} (h : m.steered = true) (k : StopKind) : kindFits m k = true ↔ k = .none := by
  rcases (Mode.steered_iff m).1 h with rfl | rfl | rfl | rfl <;> cases k <;> decide

theorem kindFits_stopping (k : StopKind) : kindFits .stopping k = true ↔ k = .controlled ∨ k = .quick := by
  cases k <;> decide

theorem kindFits_held (k : StopKind) : kindFits (.stopped .held) k = true ↔ k = .controlled ∨ k = .quick := by
  cases k <;> decide

theorem kindFits_braked (k : StopKind) : kindFits (.stopped .braked) k = true ↔ k = .brake := by
  cases k <;> decide

theorem kindFits_safe (k : StopKind) : kindFits .safe k = true ↔ k = .none := by
  cases k <;> decide

/-! ## Moves that keep the first part -/

/-- Everything that the first part reads, but the mode, is as it was, short of the cue's mark on a computation in flight. -/
structure CoreStands (s t : State) : Prop where
  p : t.motion.p = s.motion.p
  vOld : t.motion.vOld = s.motion.vOld
  lengths : t.motion.lengths = s.motion.lengths
  stop : t.stop = s.stop
  flight : t.motion.flight = s.motion.flight ∨ t.motion.flight = s.motion.flight.map Computation.dropCue

theorem CoreStands.refl (s : State) : CoreStands s s := ⟨rfl, rfl, rfl, rfl, .inl rfl⟩

theorem Computation.dropCue_dropCue (c : Computation) : c.dropCue.dropCue = c.dropCue := rfl

theorem CoreStands.trans {s t u : State} (h : CoreStands s t) (k : CoreStands t u) : CoreStands s u := by
  refine ⟨k.p.trans h.p, k.vOld.trans h.vOld, k.lengths.trans h.lengths, k.stop.trans h.stop, ?_⟩
  rcases h.flight with h1 | h1 <;> rcases k.flight with k1 | k1 <;> rw [k1, h1]
  · exact .inl rfl
  · exact .inr rfl
  · exact .inr rfl
  · exact .inr (by rw [Option.map_map]; rfl)

/-- A computation in flight after such a move was in flight before it. -/
theorem CoreStands.flight_eq {s t : State} (h : CoreStands s t) {c : Computation} (hc : t.motion.flight = some c) :
    s.motion.flight = some c ∨ ∃ c', s.motion.flight = some c' ∧ c = c'.dropCue := by
  rcases h.flight with e | e <;> rw [e] at hc
  · exact .inl hc
  · obtain ⟨c', hc', rfl⟩ := Option.map_eq_some_iff.1 hc
    exact .inr ⟨c', hc', rfl⟩

/-- The first part stays when the mode stays, or changes from one steered mode to another. -/
theorem ModeCore.stands {s t : State} (core : ModeCore s) (h : CoreStands s t)
    (mode : t.motion.mode = s.motion.mode ∨ s.motion.mode.steered = true ∧ t.motion.mode.steered = true) : ModeCore t := by
  obtain ⟨valid, kind, causes, operator, rest, lengths, flight⟩ := core
  have fits : ∀ c', s.motion.flight = some c' → FlightFits t.motion c' := by
    intro c' hc'
    obtain ⟨p, vOld, moving, ran, stopping⟩ := flight c' hc'
    refine ⟨h.p.trans p, h.vOld.trans vOld, ?_, ran, fun hm => ?_⟩
    · rcases mode with e | ⟨-, steered⟩
      · rw [e]; exact moving
      · exact .inl steered
    · obtain ⟨hs, demand⟩ := stopping hm
      rcases mode with e | ⟨steered, -⟩
      · exact ⟨e.trans hs, demand⟩
      · rw [hs] at steered; cases steered
  have flightT : ∀ c, t.motion.flight = some c → FlightFits t.motion c := by
    intro c hc
    rcases h.flight_eq hc with hc | ⟨c', hc', rfl⟩
    · exact fits c hc
    · obtain ⟨p, vOld, moving, ran, stopping⟩ := fits c' hc'
      exact ⟨p, vOld, moving, ran, stopping⟩
  rcases mode with e | ⟨hs, ht⟩
  · exact ⟨by rw [h.p, e]; exact valid, by rw [h.stop, e]; exact kind, by rw [h.stop, e]; exact causes,
      by rw [h.stop]; exact operator, by rw [h.vOld, e]; exact rest, by rw [h.p, h.lengths]; exact lengths, flightT⟩
  · have notSafe : ∀ m : Mode, m.steered = true → m ≠ .safe := by rintro _ hm rfl; cases hm
    refine ⟨?_, ?_, fun _ => by rw [h.stop]; exact causes hs, by rw [h.stop]; exact operator, ?_,
      by rw [h.p, h.lengths]; exact lengths, flightT⟩
    · rw [h.p, valid]
      exact iff_of_false (notSafe _ hs) (notSafe _ ht)
    · rw [h.stop, kindFits_of_steered ht]
      exact (kindFits_of_steered hs _).1 kind
    · rintro (hm | hm)
      · exact absurd hm (notSafe _ ht)
      · rcases (Mode.steered_iff _).1 ht with e | e | e | e <;> rw [e] at hm <;> cases hm

/-! ## The second part with no cue running -/

/-- No cue runs, and nothing is left of one; no sample waits. -/
structure CueIdle (s : State) : Prop where
  running : s.cue.running = false
  copy : s.motion.copy = none
  basis : s.auth.cue = false
  buffer : s.auth.buffer = []
  live : ∀ c, s.motion.flight = some c → c.cueLive = false

/-- Where no cue runs, and no stick, the second part asks for the exit target alone. -/
theorem CueIdle.fits {s : State} (h : CueIdle s) (cue : s.motion.mode ≠ .cue) (stick : s.motion.mode ≠ .stick)
    (exit : s.motion.exit.isSome = true ∨ s.motion.trapped = true → s.motion.mode = .evict) : CueFits s where
  running := iff_of_false (by simp [h.running]) cue
  copy := iff_of_false (by simp [h.copy]) cue
  basis := iff_of_false (by simp [h.basis]) cue
  cue := fun hm => absurd hm cue
  stick := fun hm => absurd hm stick
  buffer := fun hb => absurd h.buffer hb
  exit := exit
  live := fun c hc hl => by rw [h.live c hc] at hl; cases hl

/-- Outside CUE the computation in flight has no cue checks to make (R38). -/
theorem CueFits.live_eq {s : State} (h : CueFits s) (cue : s.motion.mode ≠ .cue) (c : Computation)
    (hc : s.motion.flight = some c) : c.cueLive = false := by
  by_contra hl
  exact cue (h.live c hc (by simpa using hl)).2

theorem CueFits.idle {s : State} (h : CueFits s) (cue : s.motion.mode ≠ .cue) (stick : s.motion.mode ≠ .stick) :
    CueIdle s where
  running := by simpa using mt h.running.1 cue
  copy := by simpa using mt h.copy.1 cue
  basis := by simpa using mt h.basis.1 cue
  buffer := by by_contra hb; exact stick (h.buffer hb)
  live := h.live_eq cue

/-- Outside EVICT there is no exit target, and trapped is no. -/
theorem CueFits.noExit {s : State} (h : CueFits s) (evict : s.motion.mode ≠ .evict) :
    s.motion.exit = none ∧ s.motion.trapped = false := by
  constructor
  · by_contra he
    exact evict (h.exit (.inl (Option.isSome_iff_ne_none.2 he)))
  · by_contra ht
    exact evict (h.exit (.inr (by simpa using ht)))

theorem CueFits.buffer_eq {s : State} (h : CueFits s) (stick : s.motion.mode ≠ .stick) : s.auth.buffer = [] := by
  by_contra hb
  exact stick (h.buffer hb)

/-- The end of a cue leaves no cue. -/
theorem CueOver.idle {s t : State} (h : CueOver s t) (holder : s.auth.holder.isSome = true) (buffer : s.auth.buffer = []) :
    CueIdle t := by
  obtain ⟨k, hk⟩ := Option.isSome_iff_exists.1 holder
  refine ⟨h.running, by rw [h.motion], by rw [h.auth k hk, basisOver_cue], by rw [h.auth k hk, basisOver_buffer buffer],
    fun c hc => ?_⟩
  rw [h.motion] at hc
  obtain ⟨c', -, rfl⟩ := Option.map_eq_some_iff.1 hc
  rfl

theorem CueOver.coreStands {s t : State} (h : CueOver s t) : CoreStands s t :=
  ⟨h.frame.p, by rw [h.motion], h.frame.lengths, h.stop, .inr (by rw [h.motion])⟩

theorem steered_enterHold (b : Bool) : (if b = true then Mode.evict else Mode.hold).steered = true := by cases b <;> rfl

/-- A cue of a steered mode other than STICK and EVICT has ended. -/
theorem modeOk_of_cueOver {s t : State} (core : ModeCore s) (steered : s.motion.mode.steered = true) (h : CueOver s t)
    (holder : s.auth.holder.isSome = true) (buffer : s.auth.buffer = [])
    (noExit : s.motion.exit = none ∧ s.motion.trapped = false) : ModeOk t := by
  have mode : t.motion.mode = if anyOccupied s then .evict else .hold := by rw [h.motion]
  refine (modeOk_iff t).2 ⟨core.stands h.coreStands (.inr ⟨steered, by rw [mode]; exact steered_enterHold _⟩),
    (h.idle holder buffer).fits ?_ ?_ ?_⟩
  · rw [mode]; split <;> simp
  · rw [mode]; split <;> simp
  · rw [h.motion]
    simp [noExit]

end Sys2Proof.Machine
end

