-- ==== Sys2Proof/Proofs/LawsKept.lean ====
section
/-! PROOFS. The shared transitions keep the law of the modes, the commanded position inside the flight box and the ranges of the
Span Solver (R35, R38, R48, R69, R99, R117, R126, R164). -/

namespace Sys2Proof.Machine

/-- The move keeps the three laws; that of the flight box where the law of the modes holds too. -/
structure LawsKept (s t : State) : Prop where
  mode : ModeOk s → ModeOk t
  box : ModeOk s → InFlightBox s → InFlightBox t
  span : SpanOk s → SpanOk t

theorem modeCore_congr {s t : State} (motion : t.motion = s.motion) (stop : t.stop = s.stop) (core : ModeCore s) :
    ModeCore t :=
  core.stands ⟨by rw [motion], by rw [motion], by rw [motion], stop, .inl (by rw [motion])⟩ (.inl (by rw [motion]))

/-- The second part stays where the Motion Generator does, and what it reads of the cue list and of the holder. -/
theorem CueFits.still {s t : State} (h : CueFits s) (motion : t.motion = s.motion) (running : t.cue.running = s.cue.running)
    (entries : s.cue.entries ≠ [] → t.cue.entries ≠ []) (basis : t.auth.cue = s.auth.cue)
    (holder : s.auth.holder.isSome = true → t.auth.holder.isSome = true)
    (buffer : t.auth.buffer ≠ [] → s.motion.mode = .stick) : CueFits t := by
  obtain ⟨run, copy, cueBasis, cue, stick, -, exit, live⟩ := h
  constructor <;> rw [motion]
  · rw [running]; exact run
  · exact copy
  · rw [basis]; exact cueBasis
  · exact fun hm => ⟨entries (cue hm).1, holder (cue hm).2⟩
  · exact fun hm => holder (stick hm)
  · exact buffer
  · exact exit
  · exact live

theorem spanOk_congr {s t : State} (span : t.span = s.span) (lim : t.motion.lim = s.motion.lim)
    (standard : t.period.configured = s.period.configured) (h : SpanOk s) : SpanOk t := by
  unfold SpanOk at *
  rw [span, lim, standard]
  exact h

theorem inFlightBox_congr {s t : State} (span : t.span = s.span) (p : t.motion.p = s.motion.p) (h : InFlightBox s) :
    InFlightBox t := by
  unfold InFlightBox at *
  rw [span, p]
  exact h

namespace LawsKept

theorem refl (s : State) : LawsKept s s := ⟨id, fun _ => id, id⟩

theorem trans {s t u : State} (h : LawsKept s t) (k : LawsKept t u) : LawsKept s u :=
  ⟨fun hs => k.mode (h.mode hs), fun hs hb => k.box (h.mode hs) (h.box hs hb), fun hs => k.span (h.span hs)⟩

/-- A move of the cue list and of the holder that leaves the rest, or changes it by a shared transition. -/
theorem of_frame {s t : State} (frame : ControlFrame s t) (mode : ModeOk s → ModeOk t) : LawsKept s t :=
  ⟨mode, fun _ => inFlightBox_congr frame.span frame.p, spanOk_congr frame.span frame.lim (by rw [frame.period])⟩

/-- A move that none of the laws reads. -/
theorem still {s t : State} (motion : t.motion = s.motion) (stop : t.stop = s.stop) (cue : t.cue = s.cue)
    (auth : t.auth = s.auth) (span : t.span = s.span) (standard : t.period.configured = s.period.configured) :
    LawsKept s t := by
  refine ⟨fun h => ?_, fun _ => inFlightBox_congr span (by rw [motion]), spanOk_congr span (by rw [motion]) standard⟩
  obtain ⟨core, fits⟩ := (modeOk_iff s).1 h
  exact (modeOk_iff t).2 ⟨modeCore_congr motion stop core,
    fits.still motion (by rw [cue]) (by rw [cue]; exact id) (by rw [auth]) (by rw [auth]; exact id)
      (by rw [auth]; exact fits.buffer)⟩

/-- A change of the authority record that keeps the CUE basis and the holder, and buffers a sample in STICK alone. -/
theorem auth {s : State} {a : Authority} (basis : ModeOk s → a.cue = s.auth.cue)
    (holder : s.auth.holder.isSome = true → a.holder.isSome = true)
    (buffer : a.buffer ≠ [] → s.auth.buffer ≠ [] ∨ s.motion.mode = .stick) : LawsKept s { s with auth := a } := by
  refine of_frame (frame_auth a s) fun h => ?_
  obtain ⟨core, fits⟩ := (modeOk_iff s).1 h
  exact (modeOk_iff _).2 ⟨modeCore_congr (s := s) rfl rfl core,
    fits.still rfl rfl id (basis h) holder fun hb => (buffer hb).elim fits.buffer id⟩

theorem ite {c : Prop} [Decidable c] {s t : State} (h : LawsKept s t) : LawsKept s (if c then t else s) := by
  split
  · exact h
  · exact refl s

end LawsKept

/-! ## A stop cause (R63 to R66, R164 to R167) -/

theorem Cause.bit_lt (c : Cause) : c.bit < 8 := by cases c <;> decide

theorem has_join (u : StopUnit) (c d : Cause) (port : Option Nat) (asked : StopKind) :
    (u.join c port asked).has d = (u.has d || decide (d = c)) := by
  simp only [StopUnit.has, StopUnit.join, BitVec.getLsbD_or, BitVec.getLsbD_twoPow]
  congr 1
  cases c <;> cases d <;> rfl

theorem harsher_ne_none {a b : StopKind} (h : a ≠ .none ∨ b ≠ .none) : a.harsher b ≠ .none := by
  cases a <;> cases b <;> simp_all [StopKind.harsher, StopKind.severity]

/-- OPERATOR asks for a kind, so the requested kind is there exactly while OPERATOR is in the set (R163). -/
theorem join_operator {u : StopUnit} (h : u.has .operator = true ↔ u.requested ≠ .none) {c : Cause} {asked : StopKind}
    (asks : c = .operator → asked ≠ .none) (port : Option Nat) :
    (u.join c port asked).has .operator = true ↔ (u.join c port asked).requested ≠ .none := by
  by_cases hc : c = .operator
  · subst hc
    refine iff_of_true (by simp [has_join]) ?_
    show (if u.has .operator = true then u.requested.harsher asked else asked) ≠ .none
    split
    · exact harsher_ne_none (.inr (asks rfl))
    · exact asks rfl
  · have requested : (u.join c port asked).requested = u.requested := if_neg hc
    rw [requested, has_join]
    simpa [Ne.symm hc] using h

theorem kind_join_ne_none {u : StopUnit} (h : u.has .operator = true ↔ u.requested ≠ .none) {c : Cause}
    {asked : StopKind} (asks : c = .operator → asked ≠ .none) (port : Option Nat) :
    c.kind (u.join c port asked).requested ≠ .none := by
  cases c
  case operator => exact (join_operator h asks port).1 (by simp [has_join])
  all_goals exact fun e => by cases e

theorem frame_stop (u : StopUnit) (s : State) : ControlFrame s { s with stop := u } := by
  constructor <;> simp

/-- The Stop Unit alone has changed, outside the steered modes. -/
theorem modeOk_stop {s : State} {u : StopUnit} (h : ModeOk s) (steered : s.motion.mode.steered = false)
    (kind : kindFits s.motion.mode u.kind = true) (operator : u.has .operator = true ↔ u.requested ≠ .none) :
    ModeOk { s with stop := u } := by
  obtain ⟨⟨valid, -, -, -, rest, lengths, flight⟩, fits⟩ := (modeOk_iff s).1 h
  exact (modeOk_iff _).2 ⟨⟨valid, kind, by rw [steered]; simp, operator, rest, lengths, flight⟩,
    fits.still rfl rfl id rfl id fits.buffer⟩

/-- STOPPED/BRAKED: nothing in flight, P frozen and v_old zero. -/
theorem modeCore_freeze {s : State} (valid : s.motion.p ≠ none) (lengths : s.motion.lengths.isSome = true)
    (kind : s.stop.kind = .brake) (operator : s.stop.has .operator = true ↔ s.stop.requested ≠ .none) :
    ModeCore (freeze s) where
  valid := iff_of_false valid (by simp)
  kind := (kindFits_braked _).2 kind
  causes := fun h => by cases h
  operator := operator
  rest := fun _ => rfl
  lengths := fun _ => lengths
  flight := fun c hc => by cases hc

/-- A steered mode that becomes STOPPING keeps what the first part of the law says. -/
theorem modeCore_stopping {s : State} {u : StopUnit} (core : ModeCore s) (steered : s.motion.mode.steered = true)
    (kind : u.kind = .controlled ∨ u.kind = .quick) (operator : u.has .operator = true ↔ u.requested ≠ .none)
    (e : Option ExitTarget)
    (b : Bool) :
    ModeCore (setMode .stopping { s with stop := u, motion := { s.motion with exit := e, trapped := b } }) where
  valid := by
    have : s.motion.mode ≠ .safe := by intro hm; rw [hm] at steered; cases steered
    exact iff_of_false (mt core.valid.1 this) (by simp)
  kind := (kindFits_stopping _).2 kind
  causes := fun h => by cases h
  operator := operator
  rest := fun h => by rcases h with h | h <;> cases h
  lengths := core.lengths
  flight := fun c hc => by
    obtain ⟨p, vOld, moving, ran, stopping⟩ := core.flight c hc
    refine ⟨p, vOld, .inr rfl, ran, fun hm => ⟨rfl, (stopping hm).2⟩⟩

theorem coreStands_haltCue {s : State} {h : Nat} (holder : s.auth.holder = some h) (mode : s.motion.mode ≠ .stick) :
    CoreStands s (haltCue s) := by
  rw [haltCue_of_holder holder mode, raiseIf_eq]
  exact ⟨rfl, rfl, rfl, rfl, .inr rfl⟩

theorem cueIdle_haltCue {s : State} {h : Nat} (holder : s.auth.holder = some h) (mode : s.motion.mode ≠ .stick)
    (buffer : s.auth.buffer = []) : CueIdle (haltCue s) := by
  rw [haltCue_of_holder holder mode, raiseIf_eq]
  refine ⟨rfl, rfl, basisOver_cue _ _, basisOver_buffer buffer, fun c hc => ?_⟩
  obtain ⟨c', -, rfl⟩ := Option.map_eq_some_iff.1 hc
  rfl

/-- A running cue halts as a steered mode is left; with none running nothing is to be done (R63, R102). -/
def cueLeft (m : Mode) (s : State) : State := if m = .cue then haltCue s else s

theorem cueLeft_stands {s t : State} (fits : CueFits s) (copy : t.motion.copy = s.motion.copy) (cue : t.cue = s.cue)
    (auth : t.auth = s.auth) (flight : ∀ c, t.motion.flight = some c → s.motion.flight = some c)
    (notStick : t.motion.mode ≠ .stick) :
    CoreStands t (cueLeft s.motion.mode t) ∧ (cueLeft s.motion.mode t).motion.mode = t.motion.mode
      ∧ (cueLeft s.motion.mode t).motion.exit = t.motion.exit
      ∧ (cueLeft s.motion.mode t).motion.trapped = t.motion.trapped ∧ CueIdle (flushStick (cueLeft s.motion.mode t)) := by
  unfold cueLeft
  split
  · next running =>
    obtain ⟨k, hk⟩ := Option.isSome_iff_exists.1 (fits.cue running).2
    have holder : t.auth.holder = some k := by rw [auth]; exact hk
    have idle := cueIdle_haltCue holder notStick (by rw [auth]; exact fits.buffer_eq (by rw [running]; simp))
    refine ⟨coreStands_haltCue holder notStick, ?_, ?_, ?_, ⟨idle.running, idle.copy, idle.basis, rfl, idle.live⟩⟩ <;>
      rw [haltCue_of_holder holder notStick, raiseIf_eq] <;> rfl
  · next idle =>
    refine ⟨.refl t, rfl, rfl, rfl, ⟨?_, ?_, ?_, rfl, fun c hc => ?_⟩⟩
    · simpa [cue] using mt fits.running.1 idle
    · simpa [copy] using mt fits.copy.1 idle
    · simpa [auth, flush] using mt fits.basis.1 idle
    · by_contra live
      exact idle (fits.live c (flight c hc) (by simpa using live)).2

/-- A steered mode is left for a stop (R63). -/
theorem modeOk_leaveSteered {s : State} {u : StopUnit} (h : ModeOk s) (steered : s.motion.mode.steered = true)
    (kind : u.kind ≠ .none) (operator : u.has .operator = true ↔ u.requested ≠ .none) :
    ModeOk (leaveSteered u.kind { s with stop := u }) := by
  obtain ⟨core, fits⟩ := (modeOk_iff s).1 h
  have moving : s.motion.mode ≠ .safe := by intro hm; rw [hm] at steered; cases steered
  have valid : s.motion.p ≠ none := mt core.valid.1 moving
  unfold leaveSteered
  dsimp only
  generalize hs2 : (if u.kind = .brake
      then freeze { s with stop := u, motion := { s.motion with exit := none, trapped := false } }
      else setMode .stopping { s with stop := u, motion := { s.motion with exit := none, trapped := false } }) = s2
  have core2 : ModeCore s2 := by
    rw [← hs2]
    split
    · next brake =>
      exact modeCore_freeze valid (core.lengths (Option.isSome_iff_ne_none.2 valid)) brake operator
    · next notBrake =>
      refine modeCore_stopping core steered ?_ operator none false
      rcases hk : u.kind with _ | _ | _ | _ <;> simp_all
  have stopped : s2.motion.mode = .stopping ∨ s2.motion.mode = .stopped .braked := by
    rw [← hs2]; split <;> simp
  have noExit : s2.motion.exit = none ∧ s2.motion.trapped = false := by rw [← hs2]; split <;> exact ⟨rfl, rfl⟩
  have same : s2.motion.copy = s.motion.copy ∧ s2.cue = s.cue ∧ s2.auth = s.auth := by
    rw [← hs2]; split <;> exact ⟨rfl, rfl, rfl⟩
  obtain ⟨copy, cue, auth⟩ := same
  have flight : ∀ c, s2.motion.flight = some c → s.motion.flight = some c := by
    rw [← hs2]
    split
    · exact fun _ h => (nomatch h)
    · exact fun _ => id
  have notStick : s2.motion.mode ≠ .stick := by rcases stopped with e | e <;> rw [e] <;> simp
  obtain ⟨stands, mode, exit, trapped, idle⟩ := cueLeft_stands fits copy cue auth flight notStick
  show ModeOk (flushStick (cueLeft s.motion.mode s2))
  generalize cueLeft s.motion.mode s2 = t at stands mode exit trapped idle ⊢
  refine (modeOk_iff _).2 ⟨modeCore_congr (s := t) rfl rfl (core2.stands stands (.inl mode)), idle.fits ?_ ?_ ?_⟩
  · show t.motion.mode ≠ .cue
    rw [mode]; rcases stopped with e | e <;> rw [e] <;> simp
  · show t.motion.mode ≠ .stick
    rw [mode]; exact notStick
  · show t.motion.exit.isSome = true ∨ t.motion.trapped = true → _
    rw [exit, trapped, noExit.1, noExit.2]
    simp

/-- The harsher of two kinds is one of them, and no less severe. -/
theorem harsher_ne_brake {a b : StopKind} (h : a.harsher b ≠ .brake) (ha : a ≠ .none) :
    a.harsher b = .controlled ∨ a.harsher b = .quick := by
  have := harsher_ne_none (b := b) (.inl ha)
  rcases hk : a.harsher b with _ | _ | _ | _ <;> simp_all

theorem LawsKept.raiseIf (b : Bool) (e : Event) (s : State) : LawsKept s (raiseIf b e s) := by
  rw [raiseIf_eq]
  exact .still rfl rfl rfl rfl rfl rfl

section

variable {s : State} {u : StopUnit}

/-- STOPPING and STOPPED/HELD become STOPPED/BRAKED (R65, R66). -/
theorem modeOk_frozen (h : ModeOk s) (stops : s.motion.mode = .stopping ∨ s.motion.mode = .stopped .held)
    (brake : u.kind = .brake) (operator : u.has .operator = true ↔ u.requested ≠ .none) :
    ModeOk (freeze { s with stop := u }) := by
  obtain ⟨core, fits⟩ := (modeOk_iff s).1 h
  have apart : ∀ m : Mode, m ≠ .stopping → m ≠ .stopped .held → s.motion.mode ≠ m := by
    rintro _ h1 h2 rfl; rcases stops with e | e <;> contradiction
  have valid : s.motion.p ≠ none := mt core.valid.1 (apart _ (by decide) (by decide))
  have idle := fits.idle (apart _ (by decide) (by decide)) (apart _ (by decide) (by decide))
  have noExit := fits.noExit (apart _ (by decide) (by decide))
  refine (modeOk_iff _).2 ⟨modeCore_freeze (s := { s with stop := u }) valid
    (core.lengths (Option.isSome_iff_ne_none.2 valid)) brake operator, ?_⟩
  exact CueIdle.fits ⟨idle.running, idle.copy, idle.basis, idle.buffer, fun c hc => by cases hc⟩ (by simp) (by simp)
    (by simp [noExit])

/-- The stop unit with its new kind in force, the kind reported when it is new (R166, step 5). -/
def reported (s : State) (u : StopUnit) : State :=
  if u.kind = s.stop.kind then { s with stop := u } else reportKind u.kind { s with stop := u }

theorem modeOk_reported_steered (h : ModeOk s) (steered : s.motion.mode.steered = true) (kind : u.kind ≠ .none)
    (operator : u.has .operator = true ↔ u.requested ≠ .none) : ModeOk (reported s u) := by
  have none : s.stop.kind = .none := (kindFits_of_steered steered _).1 ((modeOk_iff s).1 h).1.kind
  have left : reported s u = leaveSteered u.kind { s with stop := u } := by
    rw [reported, if_neg (by rw [none]; exact kind)]
    unfold reportKind
    rcases (Mode.steered_iff _).1 steered with e | e | e | e <;> simp [e]
  rw [left]
  exact modeOk_leaveSteered h steered kind operator

theorem modeOk_reported_stopping (h : ModeOk s) (stops : s.motion.mode = .stopping ∨ s.motion.mode = .stopped .held)
    {k : StopKind} (kind : u.kind = s.stop.kind.harsher k) (operator : u.has .operator = true ↔ u.requested ≠ .none) :
    ModeOk (reported s u) := by
  have core := ((modeOk_iff s).1 h).1
  have inForce : s.stop.kind = .controlled ∨ s.stop.kind = .quick := by
    rcases stops with e | e
    · exact (kindFits_stopping _).1 (e ▸ core.kind)
    · exact (kindFits_held _).1 (e ▸ core.kind)
  have report : reported s u = if u.kind = .brake then freeze { s with stop := u } else { s with stop := u } := by
    unfold reported reportKind
    split
    · next same =>
      have notBrake : u.kind ≠ .brake := by rw [same]; rcases inForce with e | e <;> rw [e] <;> simp
      rw [if_neg notBrake]
    · rcases stops with e | e <;> simp only [e]
  rw [report]
  split
  · next brake => exact modeOk_frozen h stops brake operator
  · next milder =>
    have two := harsher_ne_brake (kind ▸ milder) (by rcases inForce with e | e <;> rw [e] <;> simp)
    rw [← kind] at two
    refine modeOk_stop h ?_ ?_ operator
    · rcases stops with e | e <;> rw [e] <;> rfl
    · rcases stops with e | e <;> rw [e]
      · exact (kindFits_stopping _).2 two
      · exact (kindFits_held _).2 two

end

/-- Raising a cause keeps the laws, if OPERATOR asks for a kind (R166, R167). -/
theorem LawsKept.raiseCause {c : Cause} {asked : StopKind} (asks : c = .operator → asked ≠ .none) (port : Option Nat)
    (s : State) : LawsKept s (raiseCause c port asked s) := by
  refine of_frame (frame_raiseCause c port asked s) fun h => ?_
  refine (LawsKept.raiseIf _ _ _).mode ?_
  have core := ((modeOk_iff s).1 h).1
  have operator := join_operator core.operator asks port
  have someKind := kind_join_ne_none core.operator asks port
  generalize s.stop.join c port asked = u at operator someKind ⊢
  generalize c.kind u.requested = k at someKind ⊢
  show ModeOk (reported s { u with kind := kindAfter s.motion.mode s.stop.kind k })
  rcases hm : s.motion.mode with _ | _ | _ | _ | _ | _ | (_ | _)
  case hold | stick | cue | evict =>
    have none : s.stop.kind = .none := (kindFits_of_steered (by rw [hm]; rfl) _).1 core.kind
    refine modeOk_reported_steered h (by rw [hm]; rfl) ?_ operator
    exact harsher_ne_none (.inr someKind)
  case stopping => exact modeOk_reported_stopping h (.inl hm) rfl operator
  case stopped.held => exact modeOk_reported_stopping h (.inr hm) rfl operator
  all_goals
    have same : reported s { u with kind := s.stop.kind } = { s with stop := { u with kind := s.stop.kind } } := if_pos rfl
    simp only [kindAfter]
    rw [same]
    exact modeOk_stop h (by rw [hm]; rfl) core.kind operator

end Sys2Proof.Machine
end

