-- ==== Sys2Proof/Proofs/MotionLaw.lean ====
section
/-! PROOFS. The cue, the holder and a period computation keep the law of the modes, and a commit keeps P inside the flight box
(R37, R42, R48, R51, R57 to R64, R102, R117 to R119). -/

namespace Sys2Proof.Machine

/-! ## The running cue (R57 to R62, R99 to R104) -/

theorem modeOk_copy {s : State} (h : ModeOk s) (mode : s.motion.mode = .cue) (c : CueCopy) :
    ModeOk { s with motion := { s.motion with copy := some c } } := by
  obtain ⟨core, fits⟩ := (modeOk_iff s).1 h
  refine (modeOk_iff _).2 ⟨core.stands ⟨rfl, rfl, rfl, rfl, .inl rfl⟩ (.inl rfl), ?_⟩
  obtain ⟨running, -, basis, cue, stick, buffer, exit, live⟩ := fits
  exact ⟨running, iff_of_true rfl mode, basis, cue, stick, buffer, exit, live⟩

theorem modeOk_failHead {s : State} (h : ModeOk s) (mode : s.motion.mode = .cue) (why : FailReason) :
    ModeOk (failHead why s) := by
  obtain ⟨core, fits⟩ := (modeOk_iff s).1 h
  have holder := (fits.cue mode).2
  exact modeOk_of_cueOver core (by rw [mode]; rfl) (cueOver_failHead why holder (by simp [mode])) holder
    (fits.buffer_eq (by simp [mode])) (fits.noExit (by simp [mode]))

/-- A holder with the CUE basis, an entry and no stick: the head starts, or fails at once. -/
theorem modeOk_startHead {s : State} (core : ModeCore s) (steered : s.motion.mode.steered = true)
    (stick : s.motion.mode ≠ .stick) (entries : s.cue.entries ≠ []) (holder : s.auth.holder.isSome = true)
    (basis : s.auth.cue = true) (buffer : s.auth.buffer = []) (noExit : s.motion.exit = none ∧ s.motion.trapped = false)
    (live : ∀ c, s.motion.flight = some c → c.cueLive = false) : ModeOk (startHead s) := by
  obtain ⟨e, rest, he⟩ := List.exists_cons_of_ne_nil entries
  rcases hb : unreachable s.span.flightBox s.motion.lim.standoff (liveZones s.air) (markTarget s e.mark) with _ | _
  · rw [startHead_of_free he hb]
    refine (modeOk_iff _).2 ⟨core.stands ⟨rfl, rfl, rfl, rfl, .inl rfl⟩ (.inr ⟨steered, rfl⟩), ?_⟩
    exact {
      running := iff_of_true rfl rfl
      copy := iff_of_true rfl rfl
      basis := iff_of_true basis rfl
      cue := fun _ => ⟨entries, holder⟩
      stick := fun h => by cases h
      buffer := fun h => absurd buffer h
      exit := fun h => by simp [noExit] at h
      live := fun c hc hl => by rw [live c hc] at hl; cases hl }
  · rw [startHead_of_barred he hb]
    exact modeOk_of_cueOver core steered (cueOver_failHead _ holder stick) holder buffer noExit

theorem modeOk_completeCue {s : State} (h : ModeOk s) (mode : s.motion.mode = .cue) : ModeOk (completeCue s) := by
  obtain ⟨core, fits⟩ := (modeOk_iff s).1 h
  obtain ⟨entries, holder⟩ := fits.cue mode
  have steered : s.motion.mode.steered = true := by rw [mode]; rfl
  have buffer := fits.buffer_eq (by simp [mode])
  have noExit := fits.noExit (by simp [mode])
  obtain ⟨e, rest, he⟩ := List.exists_cons_of_ne_nil entries
  by_cases last : e.haltAfter = true ∨ rest = []
  · rw [completeCue_last he last]
    exact modeOk_of_cueOver core steered (cueOver_endCue (listWritten_doneRecorded rest s) holder (by simp [mode])) holder
      buffer noExit
  · obtain ⟨goes, more⟩ := not_or.1 last
    rw [completeCue_next he (by simpa using goes) more]
    have written := listWritten_doneRecorded rest s
    have motion : (dropCopy (doneRecorded rest s)).motion = { s.motion with
        copy := none, flight := s.motion.flight.map Computation.dropCue } := by
      rw [dropCopy_motion, written.motion]; rfl
    have auth : (dropCopy (doneRecorded rest s)).auth = s.auth := written.auth
    refine modeOk_startHead (core.stands ?_ (.inl (by rw [motion]))) ?_ ?_ ?_ ?_ ?_ ?_ ?_ ?_
    · exact ⟨by rw [motion], by rw [motion], by rw [motion], written.stop, .inr (by rw [motion])⟩
    · rw [motion]; exact steered
    · rw [motion]; simp [mode]
    · rw [dropCopy_cue, doneRecorded_cue]; exact more
    · rw [auth]; exact holder
    · rw [auth]; exact fits.basis.2 mode
    · rw [auth]; exact buffer
    · rw [motion]; exact noExit
    · intro c hc
      rw [motion] at hc
      obtain ⟨c', -, rfl⟩ := Option.map_eq_some_iff.1 hc
      rfl

theorem modeOk_haltIfRunning {s : State} (h : ModeOk s) : ModeOk (haltIfRunning s) := by
  by_cases mode : s.motion.mode = .cue
  · obtain ⟨core, fits⟩ := (modeOk_iff s).1 h
    have holder := (fits.cue mode).2
    rw [haltIfRunning_eq mode]
    exact modeOk_of_cueOver core (by rw [mode]; rfl) (cueOver_endCue (.refl s) holder (by simp [mode])) holder
      (fits.buffer_eq (by simp [mode])) (fits.noExit (by simp [mode]))
  · rw [haltIfRunning, if_neg mode]; exact h

/-- The checks of a cue at a commit keep the law (R59, R60). -/
theorem modeOk_cueChecks {s : State} (h : ModeOk s) (mode : s.motion.mode = .cue) : ModeOk (cueChecks s) := by
  unfold cueChecks
  split
  · exact h
  · next c _ =>
    split
    · unfold dwellStep
      split
      · exact modeOk_completeCue h mode
      · exact modeOk_copy h mode _
    · split
      · unfold arrive
        split
        · exact modeOk_completeCue h mode
        · exact modeOk_copy h mode _
      · unfold progressTest
        dsimp only
        generalize (if (c.target.minus (heldP s)).norm < c.lastD then 0 else c.noProgress + 1) = n
        split
        · exact modeOk_failHead (modeOk_copy h mode _) mode .blocked
        · exact modeOk_copy h mode _

theorem lawsKept_cueDwell (s : State) : LawsKept s (if dwellDue s then completeCue s else s) := by
  split
  · next due =>
    refine .of_frame (frame_completeCue s) fun h => modeOk_completeCue h ?_
    unfold dwellDue at due
    split at due
    · simp only [Bool.and_eq_true, beq_iff_eq] at due
      exact due.1
    · cases due
  · exact .refl s

theorem lawsKept_cueBlocked (s : State) : LawsKept s (if blockDue s then failHead .blocked s else s) := by
  split
  · next due =>
    refine .of_frame (frame_failHead _ s) fun h => modeOk_failHead h ?_ _
    unfold blockDue at due
    split at due
    · simp only [Bool.and_eq_true, beq_iff_eq] at due
      exact due.1.1
    · cases due
  · exact .refl s

/-! ## The holder (R115 to R119) -/

/-- A transition into HOLD from a steered mode, or from none at all, with no cue left. -/
theorem modeOk_steer {s t : State} (core : ModeCore s) (steered : s.motion.mode.steered = true) (stands : CoreStands s t)
    (mode : t.motion.mode = if anyOccupied s then .evict else .hold) (idle : CueIdle t)
    (noExit : t.motion.exit = none ∧ t.motion.trapped = false) : ModeOk t := by
  refine (modeOk_iff t).2 ⟨core.stands stands (.inr ⟨steered, by rw [mode]; exact steered_enterHold _⟩), idle.fits ?_ ?_ ?_⟩
  · rw [mode]; split <;> simp
  · rw [mode]; split <;> simp
  · rw [noExit.1, noExit.2]; simp

/-- The holder, with no CUE basis, has lost authority: the buffer is flushed and STICK left (R117). -/
theorem modeOk_endAuthority {s : State} (h : ModeOk s) (idle : s.motion.mode ≠ .cue) : ModeOk (endAuthority s) := by
  obtain ⟨core, fits⟩ := (modeOk_iff s).1 h
  unfold endAuthority
  dsimp only
  refine (LawsKept.raiseIf true .authority _).mode ?_
  by_cases stick : s.motion.mode = .stick
  · rw [if_pos stick]
    refine modeOk_steer core (by rw [stick]; rfl) ⟨rfl, rfl, rfl, rfl, .inl rfl⟩ rfl ?_ (fits.noExit (by simp [stick]))
    exact ⟨by simpa using mt fits.running.1 idle, by simpa using mt fits.copy.1 idle, rfl, rfl, fits.live_eq idle⟩
  · rw [if_neg stick]
    have rest := fits.idle idle stick
    exact (modeOk_iff _).2 ⟨modeCore_congr (s := s) rfl rfl core,
      CueIdle.fits ⟨rest.running, rest.copy, rfl, rfl, rest.live⟩ idle stick fits.exit⟩

/-- A holder has lost authority to another or by its class, and CUE and STICK are left (R118, R119). -/
theorem modeOk_loseAuthority {s : State} (h : ModeOk s) : ModeOk (loseAuthority s) ∧ (loseAuthority s).auth = s.auth.vacate
    ∧ (loseAuthority s).motion.mode ≠ .cue ∧ (loseAuthority s).motion.mode ≠ .stick := by
  obtain ⟨core, fits⟩ := (modeOk_iff s).1 h
  unfold loseAuthority
  dsimp only
  by_cases cue : s.motion.mode = .cue
  · rw [if_pos cue, if_pos (.inl cue)]
    refine ⟨modeOk_steer core (by rw [cue]; rfl) ⟨rfl, rfl, rfl, rfl, .inr rfl⟩ rfl ?_ (fits.noExit (by simp [cue])),
      rfl, ?_, ?_⟩
    · refine ⟨rfl, rfl, rfl, rfl, fun c hc => ?_⟩
      obtain ⟨c', -, rfl⟩ := Option.map_eq_some_iff.1 hc
      rfl
    all_goals rw [enterHold_motion]; dsimp only; split <;> simp
  · rw [if_neg cue]
    have running : s.cue.running = false := by simpa using mt fits.running.1 cue
    have copy : s.motion.copy = none := by simpa using mt fits.copy.1 cue
    have notCue := fits.live_eq cue
    have idle : CueIdle { s with auth := s.auth.vacate } := ⟨running, copy, rfl, rfl, notCue⟩
    by_cases stick : s.motion.mode = .stick
    · rw [if_pos (.inr stick)]
      refine ⟨modeOk_steer core (by rw [stick]; rfl) ⟨rfl, rfl, rfl, rfl, .inl rfl⟩ rfl
        ⟨running, copy, rfl, rfl, notCue⟩ (fits.noExit (by simp [stick])), rfl, ?_, ?_⟩
      all_goals rw [enterHold_motion]; dsimp only; split <;> simp
    · rw [if_neg (by simp [cue, stick])]
      exact ⟨(modeOk_iff _).2 ⟨modeCore_congr (s := s) rfl rfl core, idle.fits cue stick fits.exit⟩, rfl, cue, stick⟩

/-- A station becomes holder where there was none, or the holder has just lost it. -/
theorem LawsKept.become {s : State} (free : s.auth.holder = none ∨ s.motion.mode ≠ .cue) (st : Nat) :
    LawsKept s { s with auth := s.auth.become st } := by
  refine .auth (fun h => ?_) (fun _ => rfl) .inl
  obtain ⟨-, fits⟩ := (modeOk_iff s).1 h
  have idle : s.motion.mode ≠ .cue := by
    rcases free with none | idle
    · intro hm
      have := (fits.cue hm).2
      rw [none] at this
      cases this
    · exact idle
  exact (Bool.eq_false_iff.2 (mt fits.basis.1 idle)).symm

theorem LawsKept.raiseEvent (e : Event) (s : State) : LawsKept s (raiseEvent e s) := .raiseIf true e s

theorem LawsKept.claimDecision (s : State) : LawsKept s (claimDecision s) := by
  unfold Machine.claimDecision
  split
  · next none _ => exact (LawsKept.become (.inl none) _).trans (.raiseEvent _ _)
  · exact .refl s

theorem LawsKept.stickStep (s : State) : LawsKept s (stickStep s) := by
  unfold Machine.stickStep
  split
  · next stick =>
    split
    · exact .auth (fun _ => rfl) id fun _ => .inr stick
    · refine .trans (LawsKept.auth (a := missStep s.auth) (fun _ => rfl) id fun _ => .inr stick) ?_
      exact .raiseIf _ _ _
  · exact .refl s

theorem LawsKept.arbiterExpiry (s : State) : LawsKept s (arbiterExpiry s) :=
  have counted : LawsKept s (countBackoffs s) := .auth (fun _ => rfl) id .inl
  (counted.trans (.claimDecision _)).trans (.stickStep _)

/-! ## The beginning of a computation (R37, R42, R56, R61) -/

/-- From CUE, with O not empty, eviction begins as the end of the cue (R37). -/
theorem beginEviction_of_cue {s : State} (mode : s.motion.mode = .cue) (holder : s.auth.holder.isSome = true)
    (occupied : anyOccupied s = true) : beginEviction s = endCue s := by
  obtain ⟨h, hh⟩ := Option.isSome_iff_exists.1 holder
  rw [endCue_of_holder hh (by simp [mode]), beginEviction, if_pos mode,
    haltCue_of_holder (u := setMode .evict s) hh (by simp), enterHold,
    anyOccupied_congr (s := s) (by simp [raiseIf_eq]), if_pos occupied]
  simp only [raiseIf_eq]
  rfl

theorem modeOk_beginEviction {s : State} (h : ModeOk s)
    (mode : s.motion.mode = .hold ∨ s.motion.mode = .stick ∨ s.motion.mode = .cue) (occupied : anyOccupied s = true) :
    ModeOk (beginEviction s) := by
  obtain ⟨core, fits⟩ := (modeOk_iff s).1 h
  rcases mode with hm | hm | hm
  · have e : beginEviction s = setMode .evict s := by simp [beginEviction, hm]
    have idle := fits.idle (by simp [hm]) (by simp [hm])
    rw [e]
    exact modeOk_steer core (by rw [hm]; rfl) ⟨rfl, rfl, rfl, rfl, .inl rfl⟩ (by simp [occupied])
      ⟨idle.running, idle.copy, idle.basis, idle.buffer, idle.live⟩ (fits.noExit (by simp [hm]))
  · have e : beginEviction s = flushStick (setMode .evict s) := by simp [beginEviction, hm]
    rw [e]
    exact modeOk_steer core (by rw [hm]; rfl) ⟨rfl, rfl, rfl, rfl, .inl rfl⟩ (by simp [occupied])
      ⟨by simpa [hm] using fits.running, by simpa [hm] using fits.copy, by simpa [hm, flush] using fits.basis, rfl,
        fits.live_eq (by simp [hm])⟩ (fits.noExit (by simp [hm]))
  · rw [beginEviction_of_cue hm (fits.cue hm).2 occupied, ← haltIfRunning_eq hm]
    exact modeOk_haltIfRunning h

theorem modeOk_endEviction {s : State} (h : ModeOk s) (mode : s.motion.mode = .evict) : ModeOk (endEviction s) := by
  obtain ⟨core, fits⟩ := (modeOk_iff s).1 h
  have idle := fits.idle (by simp [mode]) (by simp [mode])
  refine (modeOk_iff _).2 ⟨core.stands ⟨rfl, rfl, rfl, rfl, .inl rfl⟩ (.inr ⟨by rw [mode]; rfl, rfl⟩), ?_⟩
  exact CueIdle.fits ⟨idle.running, idle.copy, idle.basis, idle.buffer, idle.live⟩ (by simp) (by simp) (by simp)

theorem modeOk_settle {s : State} (h : ModeOk s) : ModeOk (settle s) := by
  unfold settle
  split
  · next hm => split; exacts [modeOk_beginEviction h (.inl hm) ‹_›, h]
  · next hm => split; exacts [modeOk_beginEviction h (.inr (.inl hm)) ‹_›, h]
  · next hm =>
    split
    · exact modeOk_beginEviction h (.inr (.inr hm)) ‹_›
    · split
      · exact modeOk_failHead h hm _
      · exact h
  · next hm => split; exacts [h, modeOk_endEviction h hm]
  all_goals exact h

theorem clearCueBasis_motion {s : State} (mode : s.motion.mode ≠ .stick) : (clearCueBasis s).motion = s.motion := by
  unfold clearCueBasis
  split
  · rfl
  · split
    · rfl
    · simp [endAuthority, mode]

theorem failHead_mode (why : FailReason) (s : State) :
    (failHead why s).motion.mode = if anyOccupied s then .evict else .hold := by
  have air : (clearCueBasis (dropCopy (failRecorded why s))).air = s.air :=
    ((listWritten_failRecorded why s).frame.trans (frame_haltCue _)).air
  rw [failHead_eq, endCue, enterHold_motion, anyOccupied_congr air]

theorem beginEviction_mode (s : State) : (beginEviction s).motion.mode = .evict := by
  unfold beginEviction
  dsimp only
  split
  · rw [haltCue, clearCueBasis_motion (by simp)]; rfl
  · split <;> rfl

/-- The mode that a computation runs in (R37, R42, R56, R61). -/
theorem settle_mode (s : State) :
    (settle s).motion.mode = match s.motion.mode with
      | .hold => if anyOccupied s then .evict else .hold
      | .stick => if anyOccupied s then .evict else .stick
      | .cue => if anyOccupied s then .evict else if copyUnreachable s then .hold else .cue
      | .evict => if anyOccupied s then .evict else .hold
      | m => m := by
  unfold settle
  rcases hm : s.motion.mode with _ | _ | _ | _ | _ | _ | _ <;> dsimp only
  case hold | stick => split <;> simp [beginEviction_mode, hm]
  case cue =>
    split
    · exact beginEviction_mode s
    · next free =>
      split
      · rw [failHead_mode, if_neg free]
      · exact hm
  case evict => split <;> simp [hm]
  all_goals exact hm

/-- Settling leaves a steered mode steered, and STOPPING as it is. -/
theorem settle_moving {s : State} (h : s.motion.mode.steered = true ∨ s.motion.mode = .stopping) :
    (settle s).motion.mode.steered = true ∨ (settle s).motion.mode = .stopping := by
  rw [settle_mode]
  rcases hm : s.motion.mode with _ | _ | _ | _ | _ | _ | _ <;> simp [hm, Mode.steered] at h ⊢ <;> split_ifs <;> simp

theorem modeOk_searchExit {s : State} (h : ModeOk s) (mode : s.motion.mode = .evict) : ModeOk (searchExit s) := by
  obtain ⟨core, fits⟩ := (modeOk_iff s).1 h
  refine (LawsKept.raiseIf _ _ _).mode ((modeOk_iff _).2 ⟨core.stands ⟨rfl, rfl, rfl, rfl, .inl rfl⟩ (.inl rfl), ?_⟩)
  obtain ⟨running, copy, basis, cue, stick, buffer, -, live⟩ := fits
  exact ⟨running, copy, basis, cue, stick, buffer, fun _ => mode, live⟩

/-- What a computation reads goes with the state it reads it from (R42, R43). -/
theorem modeOk_snapshot {s : State} (h : ModeOk s) (moving : s.motion.mode.steered = true ∨ s.motion.mode = .stopping) :
    ModeOk { s with motion := { s.motion with flight := some (snapshot s) } } := by
  obtain ⟨core, fits⟩ := (modeOk_iff s).1 h
  have valid : s.motion.p ≠ none := by
    refine mt core.valid.1 ?_
    rcases moving with hm | hm
    · rintro e; rw [e] at hm; cases hm
    · rw [hm]; simp
  obtain ⟨p, hp⟩ := Option.ne_none_iff_exists'.1 valid
  refine (modeOk_iff _).2 ⟨⟨core.valid, core.kind, core.causes, core.operator, core.rest, core.lengths, fun c hc => ?_⟩, ?_⟩
  · obtain rfl := Option.some.inj hc
    refine ⟨by simp [snapshot, heldP, hp], rfl, moving, moving, fun hm => ⟨hm, ?_⟩⟩
    have hm' : s.motion.mode = .stopping := hm
    simp [snapshot, demandOf, hm']
  · obtain ⟨running, copy, basis, cue, stick, buffer, exit, -⟩ := fits
    refine ⟨running, copy, basis, cue, stick, buffer, exit, fun c hc hl => ?_⟩
    obtain rfl := Option.some.inj hc
    have hm : s.motion.mode = .cue := eq_of_beq hl
    exact ⟨hm, hm⟩

theorem frame_flight (c : Computation) (s : State) :
    ControlFrame s { s with motion := { s.motion with flight := some c } } := by
  constructor <;> simp

/-- The geometry, the clock, P and the limits stand. -/
def PlaceStands (s t : State) : Prop :=
  t.span = s.span ∧ t.period = s.period ∧ t.motion.p = s.motion.p ∧ t.motion.lim = s.motion.lim

theorem PlaceStands.trans {s t u : State} (h : PlaceStands s t) (k : PlaceStands t u) : PlaceStands s u := by
  obtain ⟨span, period, p, lim⟩ := h
  obtain ⟨span', period', p', lim'⟩ := k
  exact ⟨span'.trans span, period'.trans period, p'.trans p, lim'.trans lim⟩

theorem ControlFrame.placeStands {s t : State} (h : ControlFrame s t) : PlaceStands s t := ⟨h.span, h.period, h.p, h.lim⟩

theorem PlaceStands.controlEdits : ControlEdits PlaceStands where
  refl := fun s => (ControlFrame.refl s).placeStands
  trans := .trans
  raise := fun e s _ => (frame_raiseEvent e s).placeStands
  mode := fun m s _ => (frame_setMode m s).placeStands
  auth := fun a s => (frame_auth a s).placeStands
  cue := fun _ _ => ⟨rfl, rfl, rfl, rfl⟩
  stop := fun u s => (frame_stop u s).placeStands
  copy := fun _ _ => ⟨rfl, rfl, rfl, rfl⟩
  exit := fun _ _ _ => ⟨rfl, rfl, rfl, rfl⟩
  lengths := fun _ _ _ => ⟨rfl, rfl, rfl, rfl⟩
  dropCopy := fun s => (frame_dropCopy s).placeStands
  freeze := fun s => (frame_freeze s).placeStands

/-- A move that leaves the geometry, the clock, P and the limits keeps the laws where it keeps that of the modes. -/
theorem LawsKept.of_place {s t : State} (h : PlaceStands s t) (mode : ModeOk s → ModeOk t) : LawsKept s t := by
  obtain ⟨span, period, p, lim⟩ := h
  exact ⟨mode, fun _ => inFlightBox_congr span p, spanOk_congr span lim (by rw [period])⟩

/-- A computation about to begin: the mode settled and the exit searched (R42). -/
def readied (s : State) : State := if (settle s).motion.mode = .evict then searchExit (settle s) else settle s

theorem beginComputation_moving {s : State} (moving : s.motion.mode.steered = true ∨ s.motion.mode = .stopping) :
    beginComputation s
      = { readied s with motion := { (readied s).motion with flight := some (snapshot (readied s)) } } := by
  have begins : (s.motion.mode.steered || s.motion.mode == .stopping) = true := by simpa using moving
  rw [beginComputation, if_pos begins]
  rfl

theorem beginComputation_rest {s : State} (rest : s.motion.mode = .safe ∨ s.motion.mode.isStopped = true) :
    beginComputation s = { s with motion := { s.motion with feed := quadOf 0 } } := by
  have none : (s.motion.mode.steered || s.motion.mode == .stopping) = false := by
    rcases hm : s.motion.mode with _ | _ | _ | _ | _ | _ | _ <;> simp [hm, Mode.isStopped] at rest ⊢ <;> rfl
  simp [beginComputation, none]

theorem readied_mode (s : State) : (readied s).motion.mode = (settle s).motion.mode := by
  unfold readied
  split
  · simp [searchExit, raiseIf_eq]
  · rfl

theorem placeStands_readied (s : State) : PlaceStands s (readied s) := by
  unfold readied
  split
  · exact (PlaceStands.controlEdits.settle s).trans (PlaceStands.controlEdits.searchExit _)
  · exact PlaceStands.controlEdits.settle s

theorem modeOk_readied {s : State} (h : ModeOk s) : ModeOk (readied s) := by
  unfold readied
  split
  · exact modeOk_searchExit (modeOk_settle h) ‹_›
  · exact modeOk_settle h

theorem modeOk_feed {s : State} (h : ModeOk s) (feed : Quad Int) :
    ModeOk { s with motion := { s.motion with feed := feed } } := by
  obtain ⟨core, fits⟩ := (modeOk_iff s).1 h
  obtain ⟨running, copy, basis, cue, stick, buffer, exit, live⟩ := fits
  exact (modeOk_iff _).2 ⟨core.stands ⟨rfl, rfl, rfl, rfl, .inl rfl⟩ (.inl rfl),
    ⟨running, copy, basis, cue, stick, buffer, exit, live⟩⟩

theorem Mode.moving_or_rest (m : Mode) :
    (m.steered = true ∨ m = .stopping) ∨ (m = .safe ∨ m.isStopped = true) := by
  rcases m with _ | _ | _ | _ | _ | _ | _ <;> simp [Mode.steered, Mode.isStopped]

theorem LawsKept.beginComputation (s : State) : LawsKept s (beginComputation s) := by
  rcases Mode.moving_or_rest s.motion.mode with moving | rest
  · rw [beginComputation_moving moving]
    have moves : (readied s).motion.mode.steered = true ∨ (readied s).motion.mode = .stopping := by
      rw [readied_mode]; exact settle_moving moving
    exact .of_place ((placeStands_readied s).trans ⟨rfl, rfl, rfl, rfl⟩)
      fun h => modeOk_snapshot (modeOk_readied h) moves
  · rw [beginComputation_rest rest]
    exact .of_place ⟨rfl, rfl, rfl, rfl⟩ fun h => modeOk_feed h _

/-! ## The commit (R48, R51, R52, R64) -/

/-- The commit of a computation, up to the table's work and with it: P and v_old are those of the step, none is in flight. -/
theorem committedTable_motion (c : Computation) (s : State) :
    (committedTable c s).motion
      = { s.motion with p := some (committedP c s), vOld := (committedP c s).minus c.p, flight := none } := by
  rw [committedTable, tableCommit_eq]

theorem modeOk_committedTable {s : State} {c : Computation} (h : ModeOk s) (hc : s.motion.flight = some c) :
    ModeOk (committedTable c s) := by
  obtain ⟨core, fits⟩ := (modeOk_iff s).1 h
  obtain ⟨valid, kind, causes, operator, -, lengths, flight⟩ := core
  obtain ⟨running, copy, basis, cue, stick, buffer, exit, -⟩ := fits
  obtain ⟨p, -, moving, -, -⟩ := flight c hc
  have notRest : ¬(s.motion.mode = .safe ∨ s.motion.mode.isStopped = true) := by
    rcases hm : s.motion.mode with _ | _ | _ | _ | _ | _ | _ <;> simp [hm, Mode.steered, Mode.isStopped] at moving ⊢
  have motion := committedTable_motion c s
  rw [committedTable, tableCommit_eq] at motion ⊢
  refine (modeOk_iff _).2 ⟨⟨?_, kind, causes, operator, fun hr => absurd hr notRest, ?_, fun _ hf => (nomatch hf)⟩,
    ⟨running, copy, basis, cue, stick, buffer, exit, fun _ hf => (nomatch hf)⟩⟩
  · exact iff_of_false (by simp) fun hm => notRest (.inl hm)
  · exact fun _ => lengths (by rw [p]; rfl)

theorem modeOk_heldTest {s : State} (h : ModeOk s) (landed : s.motion.flight = none) : ModeOk (heldTest s) := by
  unfold heldTest
  split
  · next stops =>
    obtain ⟨mode, vOld⟩ := stops
    obtain ⟨core, fits⟩ := (modeOk_iff s).1 h
    obtain ⟨valid, kind, -, operator, -, lengths, -⟩ := core
    have idle := fits.idle (by simp [mode]) (by simp [mode])
    have noExit := fits.noExit (by simp [mode])
    refine (modeOk_iff _).2 ⟨⟨?_, ?_, fun hs => (nomatch hs), operator, fun _ => vOld, lengths, fun c hc => ?_⟩,
      CueIdle.fits ⟨idle.running, idle.copy, idle.basis, idle.buffer, idle.live⟩ (by simp) (by simp) (by simp [noExit])⟩
    · exact iff_of_false (mt valid.1 (by simp [mode])) (by simp)
    · rw [mode] at kind
      exact (kindFits_held _).2 ((kindFits_stopping _).1 kind)
    · cases landed.symm.trans hc
  · exact h

theorem modeOk_handLengths {s : State} (h : ModeOk s) (abandoned : Bool) (p : Vec3) : ModeOk (handLengths abandoned p s) := by
  obtain ⟨core, fits⟩ := (modeOk_iff s).1 h
  obtain ⟨valid, kind, causes, operator, rest, -, flight⟩ := core
  obtain ⟨running, copy, basis, cue, stick, buffer, exit, live⟩ := fits
  refine (modeOk_iff _).2 ⟨⟨valid, kind, causes, operator, rest, fun _ => rfl, fun c hc => ?_⟩,
    ⟨running, copy, basis, cue, stick, buffer, exit, live⟩⟩
  obtain ⟨p, vOld, moving, ran, stopping⟩ := flight c hc
  exact ⟨p, vOld, moving, ran, stopping⟩

/-- The checks of a running cue at a commit, for a computation that has them to make (R38). -/
def cueCommit (c : Computation) (s : State) : State := if c.mode = .cue ∧ c.cueLive = true then cueChecks s else s

/-- A commit stage by stage. -/
theorem commit_eq (c : Computation) (s : State) :
    commit c s = handLengths (nextPosition s c).isNone (committedP c s)
      (if c.mode = .stopping then heldTest (cueCommit c (committedTable c s)) else cueCommit c (committedTable c s)) := rfl

/-- No computation begins in a shared transition. -/
theorem Steers.flight_none {s t : State} (h : Steers s t) (empty : s.motion.flight = none) :
    t.motion.flight = none := by
  by_contra hf
  have := h.flight (Option.isSome_iff_ne_none.2 hf)
  rw [empty] at this
  cases this

theorem modeOk_commit {s : State} {c : Computation} (h : ModeOk s) (hc : s.motion.flight = some c) :
    ModeOk (commit c s) := by
  have table := modeOk_committedTable h hc
  have noFlight : (committedTable c s).motion.flight = none := by rw [committedTable_motion]
  have checked : ModeOk (cueCommit c (committedTable c s)) := by
    unfold cueCommit
    split
    · next live =>
      refine modeOk_cueChecks table ?_
      rw [committedTable_motion]
      exact (((modeOk_iff s).1 h).2.live c hc live.2).2
    · exact table
  rw [commit_eq]
  refine modeOk_handLengths ?_ _ _
  split
  · refine modeOk_heldTest checked ?_
    unfold cueCommit
    split
    · exact (Steers.controlEdits.cueChecks _).flight_none noFlight
    · exact noFlight
  · exact checked

theorem LawsKept.commit {s : State} {c : Computation} (hc : s.motion.flight = some c) : LawsKept s (commit c s) := by
  obtain ⟨span, period, p, lim⟩ := PlaceStands.controlEdits.commit c s
  have table : (committedTable c s).span = s.span ∧ (committedTable c s).period = s.period := by
    rw [committedTable, tableCommit_eq]
    exact ⟨rfl, rfl⟩
  refine ⟨fun h => modeOk_commit h hc, fun h box => ?_, ?_⟩
  · have held : s.motion.p = some c.p := (((modeOk_iff s).1 h).1.flight c hc).p
    intro q hq
    rw [p, committedTable_motion] at hq
    cases hq
    rw [span, table.1]
    exact committedP_has (box c.p held)
  · exact spanOk_congr (by rw [span, table.1]) (by rw [lim, committedTable_motion]) (by rw [period, table.2])

theorem LawsKept.commitFlight (s : State) : LawsKept s (commitFlight s) := by
  unfold Machine.commitFlight
  split
  · exact .commit ‹_›
  · exact .refl s

end Sys2Proof.Machine
end

