-- ==== Sys2Proof/Proofs/SpanLaw.lean ====
section
/-! PROOFS. The geometry and limit requests keep the Span Solver in its ranges, with the limits and the report those of its
settings (R69 to R74, R80 to R84, R88). -/

namespace Sys2Proof.Machine

/-- The pointer lies in the window, the window in the tables (R80). -/
structure PointerFits (g : Span) : Prop where
  winch : g.window.w0 ≤ g.ptrW ∧ g.ptrW ≤ g.window.w1 ∧ g.window.w1 ≤ 3
  point : g.window.j0 ≤ g.ptrJ ∧ g.ptrJ ≤ g.window.j1 ∧ g.window.j1 ≤ 32

/-- Every value of the correction tables lies in its range (R82). -/
def TablesFit (g : Span) : Prop := ∀ c ∈ g.corr.list, c.length = 33 ∧ ∀ v ∈ c, -50000 ≤ v ∧ v ≤ 50000

/-- The payout, the spacing and the flight box lie in their ranges (R72, R73). -/
structure PlaceFits (g : Span) : Prop where
  payout : 10000 ≤ g.payoutMax ∧ g.payoutMax ≤ 400000
  base : g.lBase ≤ 400000000
  step : 1000000 ≤ g.lStep ∧ g.lStep ≤ 16000000
  box : g.flightBox.ordered = true

/-- The settings are clamped ones, and the limits and the class caps those of a standard (R84, R88). -/
structure LimitsFit (g : Span) (lim : Limits) (std : Standard) : Prop where
  settings : clampSettings g.settings = g.settings
  lim : lim = convertLimits std g.settings
  caps : g.classCaps = convertCaps std

/-- The law of the Span Solver in its parts. -/
theorem spanOk_iff (s : State) :
    SpanOk s ↔ PointerFits s.span ∧ TablesFit s.span ∧ PlaceFits s.span
      ∧ LimitsFit s.span s.motion.lim s.period.configured ∧ s.span.validity = validityOf s.span := by
  constructor
  · rintro ⟨w0, w1, w, j0, j1, j, corr, p0, p1, base, s0, s1, settings, lim, caps, box, report⟩
    exact ⟨⟨⟨w0, w1, w⟩, j0, j1, j⟩, corr, ⟨⟨p0, p1⟩, base, ⟨s0, s1⟩, box⟩, ⟨settings, lim, caps⟩, report⟩
  · rintro ⟨⟨⟨w0, w1, w⟩, j0, j1, j⟩, corr, ⟨⟨p0, p1⟩, base, ⟨s0, s1⟩, box⟩, ⟨settings, lim, caps⟩, report⟩
    exact ⟨w0, w1, w, j0, j1, j, corr, p0, p1, base, s0, s1, settings, lim, caps, box, report⟩

/-! ## The write window (R80 to R83) -/

/-- An advance moves the pointer alone. -/
theorem Span.advance_eq (g : Span) : g.advance = { g with ptrW := g.advance.ptrW, ptrJ := g.advance.ptrJ } := by
  unfold Span.advance
  split <;> split <;> [skip; split; skip; split] <;> rfl

/-- The report does not read the window, the pointer or the settings. -/
theorem validityOf_pointer (g : Span) (w j : Nat) : validityOf { g with ptrW := w, ptrJ := j } = validityOf g := rfl

theorem pointerFits_advance {g : Span} (h : PointerFits g) : PointerFits g.advance := by
  obtain ⟨⟨w0, w1, w⟩, j0, j1, j⟩ := h
  unfold Span.advance
  split <;> split <;> [skip; split; skip; split] <;> constructor <;> dsimp only <;> omega

theorem tablesFit_put {g : Span} (h : TablesFit g) {c : List Int} (i : Nat)
    (hc : c.length = 33 ∧ ∀ v ∈ c, -50000 ≤ v ∧ v ≤ 50000) : TablesFit { g with corr := g.corr.put i c } := by
  intro d hd
  obtain ⟨k, hk, rfl⟩ := (Quad.mem_list _ _).1 hd
  by_cases same : k = i
  · subst same
    rw [Quad.put_get_self _ _ _ hk]
    exact hc
  · rw [Quad.put_get_of_ne _ _ _ _ hk same]
    exact h _ ((Quad.mem_list _ _).2 ⟨k, hk, rfl⟩)

/-- What one value written does: the pointer still fits, and the tables. -/
theorem fits_writeOne {g : Span} (v : Int) (pointer : PointerFits g) (tables : TablesFit g) :
    PointerFits (g.writeOne v) ∧ TablesFit (g.writeOne v) := by
  obtain ⟨⟨w0, w1, w⟩, j0, j1, j⟩ := pointer
  have row : (g.corr.get g.ptrW).length = 33 ∧ ∀ v ∈ g.corr.get g.ptrW, -50000 ≤ v ∧ v ≤ 50000 :=
    tables _ ((Quad.mem_list _ _).2 ⟨g.ptrW, by omega, rfl⟩)
  have written : TablesFit { g with
      corr := g.corr.put g.ptrW ((g.corr.get g.ptrW).set g.ptrJ (clamp v (-50000) 50000)) } := by
    refine tablesFit_put tables _ ⟨by rw [List.length_set]; exact row.1, fun u hu => ?_⟩
    rcases List.mem_or_eq_of_mem_set hu with old | rfl
    · exact row.2 u old
    · exact clamp_mem _ _ _ (by omega)
  refine ⟨pointerFits_advance ⟨⟨w0, w1, w⟩, j0, j1, j⟩, ?_⟩
  rw [Span.writeOne, Span.advance_eq]
  exact written

/-- A write changes the tables and the pointer alone. -/
theorem Span.writeOne_eq (g : Span) (v : Int) :
    g.writeOne v
      = { g with corr := (g.writeOne v).corr, ptrW := (g.writeOne v).ptrW, ptrJ := (g.writeOne v).ptrJ } := by
  rw [Span.writeOne, Span.advance_eq]

theorem Span.writeAll_eq (g : Span) (vs : List Int) :
    g.writeAll vs
      = { g with corr := (g.writeAll vs).corr, ptrW := (g.writeAll vs).ptrW, ptrJ := (g.writeAll vs).ptrJ } := by
  induction vs generalizing g with
  | nil => rfl
  | cons v vs ih =>
    have first := g.writeOne_eq v
    have rest := ih (g.writeOne v)
    show (g.writeOne v).writeAll vs = { g with
      corr := ((g.writeOne v).writeAll vs).corr, ptrW := ((g.writeOne v).writeAll vs).ptrW
      ptrJ := ((g.writeOne v).writeAll vs).ptrJ }
    rw [rest, first]

theorem fits_writeAll {g : Span} (vs : List Int) (pointer : PointerFits g) (tables : TablesFit g) :
    PointerFits (g.writeAll vs) ∧ TablesFit (g.writeAll vs) := by
  induction vs generalizing g with
  | nil => exact ⟨pointer, tables⟩
  | cons v vs ih =>
    obtain ⟨pointer', tables'⟩ := fits_writeOne v pointer tables
    exact ih pointer' tables'

/-- A read moves the pointer alone, and in the window. -/
theorem readMany_spec (g : Span) (n : Nat) :
    (∃ w j, (g.readMany n).2 = { g with ptrW := w, ptrJ := j }) ∧ (PointerFits g → PointerFits (g.readMany n).2) := by
  induction n generalizing g with
  | zero => exact ⟨⟨g.ptrW, g.ptrJ, rfl⟩, id⟩
  | succ n ih =>
    obtain ⟨⟨w, j, moved⟩, fits⟩ := ih g.advance
    refine ⟨⟨w, j, ?_⟩, fun h => fits (pointerFits_advance h)⟩
    show (g.advance.readMany n).2 = _
    rw [moved, Span.advance_eq]

/-! ## The settings (R84) -/

theorem clampNat_clampNat (x : Nat) {lo hi : Nat} (h : lo ≤ hi) : clampNat (clampNat x lo hi) lo hi = clampNat x lo hi := by
  simp only [clampNat_eq _ _ _ h]
  omega

theorem clampSettings_idem (l : LimitSettings) : clampSettings (clampSettings l) = clampSettings l := by
  simp [clampSettings, clampNat_clampNat]

/-! ## The requests (R70 to R73, R80 to R84) -/

/-- A request taken in SAFE alone keeps the laws where its effect does so in SAFE. -/
theorem LawsKept.inSafe {s : State} {ok : Bool} {own : State → State × Reply}
    (h : s.motion.mode = .safe → ok = true → LawsKept s (own s).1) : LawsKept s (inSafe s ok own).1 := by
  rcases inSafe_cases s ok own with e | ⟨hm, hok, e⟩ <;> rw [e]
  · exact .refl s
  · exact h hm hok

/-- A change of the geometry in SAFE, where no position is commanded. -/
theorem LawsKept.span_safe {s : State} {g : Span} (safe : s.motion.mode = .safe)
    (span : SpanOk s → SpanOk { s with span := g }) : LawsKept s { s with span := g } := by
  have motion : ∀ t : State, t.motion = s.motion → ModeOk s → t.motion.p = none := by
    intro t ht h
    rw [ht]
    exact ((modeOk_iff s).1 h).1.valid.2 safe
  refine ⟨fun h => ?_, fun h _ p hp => ?_, span⟩
  · obtain ⟨core, fits⟩ := (modeOk_iff s).1 h
    exact (modeOk_iff _).2 ⟨modeCore_congr (s := s) rfl rfl core, fits.still rfl rfl id rfl id fits.buffer⟩
  · rw [motion _ rfl h] at hp
    cases hp

/-- New limits and a geometry with the same flight box: neither the modes nor the place reads the rest. -/
theorem LawsKept.limits {s t : State} {lim : Limits} (motion : t.motion = { s.motion with lim := lim })
    (stop : t.stop = s.stop) (cue : t.cue = s.cue) (auth : t.auth = s.auth) (box : t.span.flightBox = s.span.flightBox)
    (span : SpanOk s → SpanOk t) : LawsKept s t := by
  refine ⟨fun h => ?_, fun _ inside p hp => ?_, span⟩
  · obtain ⟨core, fits⟩ := (modeOk_iff s).1 h
    have core' : ModeCore t := core.stands
      ⟨by rw [motion], by rw [motion], by rw [motion], stop, .inl (by rw [motion])⟩ (.inl (by rw [motion]))
    obtain ⟨running, copy, basis, cues, stick, buffer, exit, live⟩ := fits
    refine (modeOk_iff t).2 ⟨core', ?_⟩
    constructor <;> rw [motion]
    · rw [cue]; exact running
    · exact copy
    · rw [auth]; exact basis
    · rw [cue, auth]; exact cues
    · rw [auth]; exact stick
    · rw [auth]; exact buffer
    · exact exit
    · exact live
  · rw [motion] at hp
    rw [box]
    exact inside p hp

theorem lawsKept_setAnchors (anchors offsets : Quad Vec3) (s : State) : LawsKept s (setAnchors anchors offsets s).1 := by
  refine .inSafe fun safe _ => .span_safe safe fun h => ?_
  obtain ⟨⟨winch, point⟩, tables, ⟨payout, base, step, box⟩, ⟨settings, lim, caps⟩, -⟩ := (spanOk_iff s).1 h
  exact (spanOk_iff _).2 ⟨⟨winch, point⟩, tables, ⟨payout, base, step, box⟩, ⟨settings, lim, caps⟩, rfl⟩

theorem ordered_um {b : Box} (h : boxInRange b = true) : b.um.ordered = true := by
  have ordered := (Bool.and_eq_true_iff.1 h).2
  unfold Box.ordered Box.um at *
  simp only [decide_eq_true_eq] at ordered ⊢
  omega

theorem lawsKept_setFlightBox (b : Box) (s : State) : LawsKept s (setFlightBox b s).1 := by
  refine .inSafe fun safe ok => .span_safe safe fun h => ?_
  obtain ⟨⟨winch, point⟩, tables, ⟨payout, base, step, -⟩, ⟨settings, lim, caps⟩, -⟩ := (spanOk_iff s).1 h
  exact (spanOk_iff _).2 ⟨⟨winch, point⟩, tables, ⟨payout, base, step, ordered_um ok⟩, ⟨settings, lim, caps⟩, rfl⟩

theorem lawsKept_setPayout (payout lBase lStep : Nat) (s : State) : LawsKept s (setPayout payout lBase lStep s).1 := by
  refine .inSafe fun safe _ => .span_safe safe fun h => ?_
  obtain ⟨⟨winch, point⟩, tables, ⟨-, -, -, box⟩, ⟨settings, lim, caps⟩, -⟩ := (spanOk_iff s).1 h
  refine (spanOk_iff _).2 ⟨⟨winch, point⟩, tables, ⟨?_, ?_, ?_, box⟩, ⟨settings, lim, caps⟩, rfl⟩ <;>
    simp only [Span.validate] <;> rw [clampNat_eq _ _ _ (by omega)] <;> omega

theorem lawsKept_corrWindow (w0 w1 j0 j1 order : Nat) (s : State) : LawsKept s (corrWindow w0 w1 j0 j1 order s).1 := by
  unfold corrWindow
  split
  · exact .refl s
  · split
    · exact .refl s
    · next fits =>
      refine .limits rfl rfl rfl rfl rfl fun h => ?_
      obtain ⟨-, tables, place, ⟨settings, lim, caps⟩, report⟩ := (spanOk_iff s).1 h
      obtain ⟨payout, base, step, box⟩ := place
      refine (spanOk_iff _).2 ⟨⟨?_, ?_⟩, tables, ⟨payout, base, step, box⟩, ⟨settings, lim, caps⟩, report⟩ <;>
        dsimp only [accept] <;> omega

theorem lawsKept_corrWrite (vs : List Int) (s : State) : LawsKept s (corrWrite vs s).1 := by
  refine .inSafe fun safe _ => .span_safe safe fun h => ?_
  obtain ⟨pointer, tables, ⟨payout, base, step, box⟩, ⟨settings, lim, caps⟩, -⟩ := (spanOk_iff s).1 h
  obtain ⟨⟨winch, point⟩, tables'⟩ := fits_writeAll vs pointer tables
  have written := s.span.writeAll_eq vs
  generalize s.span.writeAll vs = g at winch point tables' written
  refine (spanOk_iff _).2 ⟨⟨winch, point⟩, tables', ?_, ?_, rfl⟩
  · rw [written]; exact ⟨payout, base, step, box⟩
  · rw [written]; exact ⟨settings, lim, caps⟩

theorem lawsKept_corrRead (n : Nat) (s : State) : LawsKept s (corrRead n s).1 := by
  unfold corrRead
  split
  · exact .refl s
  · refine .inSafe fun safe _ => .span_safe safe fun h => ?_
    obtain ⟨pointer, tables, ⟨payout, base, step, box⟩, ⟨settings, lim, caps⟩, report⟩ := (spanOk_iff s).1 h
    obtain ⟨⟨w, j, moved⟩, fits⟩ := readMany_spec s.span n
    have fits := fits pointer
    rw [moved] at fits ⊢
    exact (spanOk_iff _).2 ⟨fits, tables, ⟨payout, base, step, box⟩, ⟨settings, lim, caps⟩, report⟩

theorem lawsKept_setLimits (l : LimitSettings) (s : State) : LawsKept s (setLimits l s).1 := by
  refine .inSafe fun _ _ => .limits rfl rfl rfl rfl rfl fun h => ?_
  obtain ⟨⟨winch, point⟩, tables, ⟨payout, base, step, box⟩, ⟨-, -, caps⟩, report⟩ := (spanOk_iff s).1 h
  exact (spanOk_iff _).2 ⟨⟨winch, point⟩, tables, ⟨payout, base, step, box⟩, ⟨clampSettings_idem l, rfl, caps⟩, report⟩

theorem PeriodGen.setStandard_configured (std : Standard) (g : PeriodGen) : (g.setStandard std).configured = std := by
  unfold PeriodGen.setStandard
  split
  · next same => exact same.symm
  · rfl

/-- A new standard converts the settings and the class caps again (R88). -/
theorem lawsKept_setStandard (standard : Nat) (s : State) : LawsKept s (setStandard standard s).1 := by
  unfold setStandard
  split
  · exact .refl s
  · next std _ =>
    refine .inSafe fun _ _ => ?_
    simp only [accept, convertAll, raiseIf_eq]
    refine .limits rfl rfl rfl rfl rfl fun h => ?_
    obtain ⟨⟨winch, point⟩, tables, ⟨payout, base, step, box⟩, ⟨settings, -, -⟩, report⟩ := (spanOk_iff s).1 h
    have configured := PeriodGen.setStandard_configured std s.period
    refine (spanOk_iff _).2 ⟨⟨winch, point⟩, tables, ⟨payout, base, step, box⟩, ⟨settings, ?_, ?_⟩, report⟩ <;>
      dsimp only <;> rw [configured]

end Sys2Proof.Machine
end

