-- ==== Sys2Proof/Proofs/LawRequests.lean ====
section
/-! PROOFS. The requests of the holder, of the cue list and of the Stop Unit keep the law of the modes, and ENABLE commands a
position inside the flight box (R35 to R41, R67, R98, R102 to R104, R116 to R121, R172, R175, R209). -/

namespace Sys2Proof.Machine

/-! ## Modes entered by a request (R36, R40, R41, R67, R121) -/

theorem modeOk_stick {s t : State} (core : ModeCore s) (steered : s.motion.mode.steered = true) (stands : CoreStands s t)
    (mode : t.motion.mode = .stick) (holder : t.auth.holder.isSome = true) (idle : CueIdle t)
    (noExit : t.motion.exit = none ∧ t.motion.trapped = false) : ModeOk t := by
  refine (modeOk_iff t).2 ⟨core.stands stands (.inr ⟨steered, by rw [mode]; rfl⟩), ?_⟩
  exact {
    running := iff_of_false (by simp [idle.running]) (by simp [mode])
    copy := iff_of_false (by simp [idle.copy]) (by simp [mode])
    basis := iff_of_false (by simp [idle.basis]) (by simp [mode])
    cue := fun h => by rw [mode] at h; cases h
    stick := fun _ => holder
    buffer := fun _ => mode
    exit := fun h => by simp [noExit] at h
    live := fun c hc hl => by rw [idle.live c hc] at hl; cases hl }

/-- In SAFE and in STOPPED no computation is in flight (R42). -/
theorem ModeCore.noFlight {s : State} (core : ModeCore s) (rest : s.motion.mode = .safe ∨ s.motion.mode.isStopped = true) :
    s.motion.flight = none := by
  by_contra hf
  obtain ⟨c, hc⟩ := Option.ne_none_iff_exists'.1 hf
  obtain ⟨-, -, moving, -⟩ := core.flight c hc
  rcases hm : s.motion.mode with _ | _ | _ | _ | _ | _ | _ <;> simp [hm, Mode.steered, Mode.isStopped] at rest moving

/-- From SAFE, with no cause in the set, a position is commanded and the mode is HOLD (R40). -/
theorem modeOk_enabled {s : State} (h : ModeOk s) (safe : s.motion.mode = .safe) (causes : s.stop.causes = 0#8) (p : Vec3)
    (lengths : Quad Int) :
    ModeOk { s with motion := { s.motion with
      mode := .hold, p := some p, vOld := zero3, exit := none, trapped := false, lengths := some lengths
      feed := quadOf 0 } } := by
  obtain ⟨core, fits⟩ := (modeOk_iff s).1 h
  have idle := fits.idle (by simp [safe]) (by simp [safe])
  have none : s.stop.kind = .none := (kindFits_safe _).1 (safe ▸ core.kind)
  have landed := core.noFlight (.inl safe)
  refine (modeOk_iff _).2 ⟨⟨?_, (kindFits_of_steered rfl _).2 none, fun _ => causes, core.operator, fun _ => rfl,
    fun _ => rfl, fun c hc => ?_⟩,
    CueIdle.fits ⟨idle.running, idle.copy, idle.basis, idle.buffer, idle.live⟩ (by simp) (by simp) (by simp)⟩
  · exact iff_of_false (by simp) (by simp)
  · cases landed.symm.trans hc

theorem modeOk_becomeSafe {s : State} (idle : CueIdle s) (kind : s.stop.kind = .none)
    (operator : s.stop.has .operator = true ↔ s.stop.requested ≠ .none) (rest : s.motion.vOld = zero3) :
    ModeOk (becomeSafe s) := by
  refine (modeOk_iff _).2 ⟨⟨iff_of_true rfl rfl, (kindFits_safe _).2 kind, fun hs => (nomatch hs), operator, fun _ => rest,
    fun hp => (nomatch hp), fun _ hc => (nomatch hc)⟩,
    CueIdle.fits ⟨idle.running, idle.copy, idle.basis, idle.buffer, fun _ hc => (nomatch hc)⟩ (by simp) (by simp) (by simp)⟩

/-- The set emptied and the mode moved by CLEAR_STOP (R67, R176). -/
theorem modeOk_clearMotion {s : State} (h : ModeOk s) (moved : s.motion.mode ≠ .stopping) (lineOpen : Bool) :
    ModeOk (clearMotion { s with stop := stopEmpty lineOpen }) := by
  obtain ⟨core, fits⟩ := (modeOk_iff s).1 h
  have emptied : (stopEmpty lineOpen).has .operator = true ↔ (stopEmpty lineOpen).requested ≠ .none :=
    iff_of_false (by simp [StopUnit.has, stopEmpty]) (by simp [stopEmpty])
  have stays : kindFits s.motion.mode .none = true → ModeOk { s with stop := stopEmpty lineOpen } := fun kind =>
    (modeOk_iff _).2 ⟨⟨core.valid, kind, fun _ => rfl, emptied, core.rest, core.lengths,
      fun c hc => by obtain ⟨p, vOld, moving, ran, stopping⟩ := core.flight c hc; exact ⟨p, vOld, moving, ran, stopping⟩⟩,
      fits.still rfl rfl id rfl id fits.buffer⟩
  unfold clearMotion
  dsimp only
  split
  · next hm =>
    have idle := fits.idle (by simp [hm]) (by simp [hm])
    have noExit := fits.noExit (by simp [hm])
    have landed := core.noFlight (.inr (by rw [hm]; rfl))
    have steered : (enterHold { s with stop := stopEmpty lineOpen }).motion.mode.steered = true := steered_enterHold _
    have notSafe : (enterHold { s with stop := stopEmpty lineOpen }).motion.mode ≠ .safe := by
      intro e; rw [e] at steered; cases steered
    refine (modeOk_iff _).2 ⟨⟨iff_of_false (mt core.valid.1 (by simp [hm])) notSafe, (kindFits_of_steered steered _).2 rfl,
      fun _ => rfl, emptied, fun _ => core.rest (.inr (by rw [hm]; rfl)), core.lengths, fun c hc => ?_⟩,
      CueIdle.fits ⟨idle.running, idle.copy, idle.basis, idle.buffer, idle.live⟩ ?_ ?_ (by simp [noExit])⟩
    · cases landed.symm.trans hc
    all_goals rw [enterHold_motion]; dsimp only; split <;> simp
  · next hm =>
    have idle := fits.idle (by simp [hm]) (by simp [hm])
    exact modeOk_becomeSafe ⟨idle.running, idle.copy, idle.basis, idle.buffer, idle.live⟩ rfl emptied
      (core.rest (.inr (by rw [hm]; rfl)))
  case h_8 hm => exact absurd hm moved
  all_goals next hm => exact stays (by rw [hm]; rfl)

/-! ## The cue list (R97, R98, R103, R104) -/

/-- A change of the list that starts or ends no cue, and empties no list of a running one. -/
theorem LawsKept.cue {s : State} {c : CueList} (running : c.running = s.cue.running)
    (entries : s.motion.mode = .cue → s.cue.entries ≠ [] → c.entries ≠ []) : LawsKept s { s with cue := c } := by
  refine .of_place ⟨rfl, rfl, rfl, rfl⟩ fun h => ?_
  obtain ⟨core, fits⟩ := (modeOk_iff s).1 h
  obtain ⟨run, copy, basis, cue, stick, buffer, exit, live⟩ := fits
  refine (modeOk_iff _).2 ⟨modeCore_congr (s := s) rfl rfl core, ?_, copy, basis, fun hm => ?_, stick, buffer, exit, live⟩
  · show c.running = true ↔ _
    rw [running]
    exact run
  · obtain ⟨some, holder⟩ := cue hm
    exact ⟨entries hm some, holder⟩

theorem lawsKept_cueAppend (n cruise dwell flags st : Nat) (s : State) :
    LawsKept s (cueAppend n cruise dwell flags st s).1 := by
  unfold cueAppend
  split
  · exact .refl s
  · split
    · exact .refl s
    · split
      · exact .refl s
      · exact .cue rfl (by simp)

/-- Entries are removed while no cue runs. -/
theorem LawsKept.removeTo {s : State} (idle : s.motion.mode ≠ .cue) (rest : List CueEntry) : LawsKept s (removeTo rest s) :=
  .trans (.cue (c := { s.cue with entries := rest }) rfl fun hm => absurd hm idle) (.raiseIf _ _ _)

theorem LawsKept.haltIfRunning (s : State) : LawsKept s (haltIfRunning s) :=
  .of_place (PlaceStands.controlEdits.haltIfRunning s) modeOk_haltIfRunning

theorem haltIfRunning_mode (s : State) : (haltIfRunning s).motion.mode ≠ .cue := by
  unfold Machine.haltIfRunning
  split
  · rw [enterHold_motion]; dsimp only; split <;> simp
  · assumption

theorem lawsKept_cueHalt (st : Nat) (c : StationClass) (s : State) : LawsKept s (cueHalt st c s).1 := by
  unfold cueHalt
  split
  · exact .refl s
  · exact .haltIfRunning s

theorem lawsKept_cueFlush (st : Nat) (c : StationClass) (s : State) : LawsKept s (cueFlush st c s).1 := by
  unfold cueFlush
  split
  · exact .refl s
  · exact ((LawsKept.haltIfRunning s).trans (.removeTo (haltIfRunning_mode s) [])).trans (.cue rfl fun _ => id)

/-- A head entry of the holder is started from HOLD or STICK. -/
theorem modeOk_goHead {s : State} (h : ModeOk s) (mode : s.motion.mode = .hold ∨ s.motion.mode = .stick)
    (holder : s.auth.holder.isSome = true) (entries : s.cue.entries ≠ []) : ModeOk (goHead s) := by
  obtain ⟨core, fits⟩ := (modeOk_iff s).1 h
  unfold goHead
  dsimp only
  rcases mode with hm | hm
  · rw [if_neg (by simp [hm])]
    have idle := fits.idle (by simp [hm]) (by simp [hm])
    exact modeOk_startHead (modeCore_congr (s := s) rfl rfl core) (by show s.motion.mode.steered = true; rw [hm]; rfl)
      (by show s.motion.mode ≠ .stick; simp [hm]) entries holder rfl idle.buffer (fits.noExit (by simp [hm])) idle.live
  · rw [if_pos hm]
    exact modeOk_startHead (core.stands ⟨rfl, rfl, rfl, rfl, .inl rfl⟩ (.inr ⟨by rw [hm]; rfl, rfl⟩)) rfl (by simp [setCueBasis])
      entries holder rfl rfl (fits.noExit (by simp [hm])) (fits.live_eq (by simp [hm]))

theorem isSome_of_holds {s : State} {st : Nat} (h : holds s st = true) : s.auth.holder.isSome = true := by
  rw [eq_of_beq (show (s.auth.holder == some st) = true from h)]
  rfl

theorem lawsKept_cueGo (st : Nat) (s : State) : LawsKept s (cueGo st s).1 := by
  unfold cueGo
  split
  · exact .refl s
  · next holder =>
    split
    · exact .refl s
    · next mode =>
      split
      · exact .refl s
      · next entries =>
        refine .of_place (PlaceStands.controlEdits.goHead s) fun h => modeOk_goHead h ?_ ?_ ?_
        · tauto
        · exact isSome_of_holds (by simpa using holder)
        · simpa using entries

/-! ## The holder (R112 to R130) -/

/-- A change of the authority record short of its holder, its CUE basis and its buffer. -/
theorem LawsKept.authSettings {s : State} {a : Authority} (cue : a.cue = s.auth.cue) (holder : a.holder = s.auth.holder)
    (buffer : a.buffer = s.auth.buffer) : LawsKept s { s with auth := a } :=
  .auth (fun _ => cue) (by rw [holder]; exact id) (by rw [buffer]; exact .inl)

theorem lawsKept_claim (st : Nat) (s : State) : LawsKept s (claim st s).1 := by
  unfold claim
  split
  · exact .authSettings rfl rfl rfl
  · split
    · exact .refl s
    · split
      · exact .refl s
      · exact .authSettings rfl rfl rfl

theorem lawsKept_release (st : Nat) (s : State) : LawsKept s (release st s).1 := by
  unfold release
  split
  · exact .refl s
  · split
    · exact .authSettings rfl rfl rfl
    · next noCue =>
      have dropped : LawsKept s { s with auth := { s.auth with explicit := false } } := .authSettings rfl rfl rfl
      refine .of_place ((PlaceStands.controlEdits.auth _ s).trans (PlaceStands.controlEdits.endAuthority _)) fun h => ?_
      exact modeOk_endAuthority (dropped.mode h) fun hm => noCue (((modeOk_iff s).1 h).2.basis.2 hm)

theorem LawsKept.loseAuthority (s : State) : LawsKept s (loseAuthority s) :=
  .of_place (PlaceStands.controlEdits.loseAuthority s) fun h => (modeOk_loseAuthority h).1

theorem lawsKept_preempted (st : Nat) (s : State) : LawsKept s (preempted st s) := by
  unfold preempted
  split
  · exact .authSettings rfl rfl rfl
  · dsimp only
    refine .trans ?_ (.raiseEvent _ _)
    split
    · refine .of_place ((PlaceStands.controlEdits.loseAuthority s).trans (PlaceStands.controlEdits.auth _ _)) fun h => ?_
      obtain ⟨lost, -, idle, -⟩ := modeOk_loseAuthority h
      exact (LawsKept.become (.inr idle) st).mode lost
    · next none => exact .become (.inl (by simpa using none)) st

theorem lawsKept_setStationClass (station cls : Nat) (s : State) : LawsKept s (setStationClass station cls s).1 := by
  have lost : ∀ t : State, LawsKept t (classLoss station t) := by
    intro t
    unfold classLoss
    split
    · exact (LawsKept.loseAuthority t).trans (.raiseEvent _ _)
    · exact .authSettings rfl rfl rfl
  unfold setStationClass
  split
  · exact .refl s
  · split
    · exact .refl s
    · dsimp only [accept]
      have told : ∀ g, LawsKept s { s with station := g } := fun _ => .still rfl rfl rfl rfl rfl rfl
      split
      · exact (told _).trans (lost _)
      · exact told _

theorem modeOk_selected {s : State} {st : Nat} (h : ModeOk s) (holder : holds s st = true) (toStick : Bool) :
    ModeOk (selected toStick st s) := by
  obtain ⟨core, fits⟩ := (modeOk_iff s).1 h
  unfold selected
  split
  · next hm =>
    split
    · have idle := fits.idle (by simp [hm]) (by simp [hm])
      have noExit := fits.noExit (by simp [hm])
      exact modeOk_stick core (by rw [hm]; rfl) ⟨rfl, rfl, rfl, rfl, .inl rfl⟩ rfl (isSome_of_holds holder)
        ⟨idle.running, idle.copy, idle.basis, idle.buffer, idle.live⟩ noExit
    · exact h
  · next hm =>
    split
    · exact h
    · refine modeOk_steer core (by rw [hm]; rfl) ⟨rfl, rfl, rfl, rfl, .inl rfl⟩ rfl ?_ (fits.noExit (by simp [hm]))
      exact ⟨by simpa [hm] using fits.running, by simpa [hm] using fits.copy, by simpa [hm, flush] using fits.basis, rfl,
        fits.live_eq (by simp [hm])⟩
  · next hm =>
    obtain ⟨k, hk⟩ := Option.isSome_iff_exists.1 (isSome_of_holds holder)
    have notStick : s.motion.mode ≠ .stick := by simp [hm]
    have stands := coreStands_haltCue hk notStick
    have idle := cueIdle_haltCue hk notStick (fits.buffer_eq notStick)
    have noExit : (haltCue s).motion.exit = none ∧ (haltCue s).motion.trapped = false := by
      rw [haltCue_of_holder hk notStick, raiseIf_eq]
      exact fits.noExit (by simp [hm])
    dsimp only
    split
    · next both =>
      exact modeOk_stick core (by rw [hm]; rfl) (stands.trans ⟨rfl, rfl, rfl, rfl, .inl rfl⟩) rfl
        (isSome_of_holds (Bool.and_eq_true_iff.1 both).2)
        ⟨idle.running, idle.copy, idle.basis, idle.buffer, idle.live⟩ noExit
    · refine modeOk_steer core (by rw [hm]; rfl) (stands.trans ⟨rfl, rfl, rfl, rfl, .inl rfl⟩) ?_
        ⟨idle.running, idle.copy, idle.basis, idle.buffer, idle.live⟩ noExit
      rw [enterHold_motion, anyOccupied_congr (s := s) (frame_haltCue s).air]
  all_goals exact h

theorem lawsKept_selectMode (mode st : Nat) (s : State) : LawsKept s (selectMode mode st s).1 := by
  unfold selectMode
  split
  · exact .refl s
  · next holder =>
    split
    · exact .refl s
    · split
      · exact .refl s
      · exact .of_place (PlaceStands.controlEdits.selected _ st s) fun h => modeOk_selected h (by simpa using holder) _

theorem lawsKept_stick (d : Vec3) (scale flags st : Nat) (s : State) : LawsKept s (stick d scale flags st s).1 := by
  unfold stick
  split
  · exact .refl s
  · split
    · exact .refl s
    · next stick =>
      split
      · exact .refl s
      · refine .auth (fun _ => ?_) (fun h => ?_) fun _ => .inr (not_not.1 stick)
        · unfold buffered; split <;> rfl
        · unfold buffered; split <;> exact h

theorem lawsKept_setOrientation (flags st : Nat) (c : StationClass) (s : State) :
    LawsKept s (setOrientation flags st c s).1 := by
  unfold setOrientation
  split
  · exact .refl s
  · split
    · exact .refl s
    · exact .authSettings rfl rfl rfl

theorem lawsKept_endSwap (st : Nat) (s : State) : LawsKept s (endSwap st s).1 := by
  unfold endSwap
  split
  · exact .refl s
  · exact .authSettings rfl rfl rfl

theorem lawsKept_setStick (start hold deadband st : Nat) (c : StationClass) (s : State) :
    LawsKept s (setStick start hold deadband st c s).1 := by
  unfold setStick
  split
  · exact .refl s
  · exact .authSettings rfl rfl rfl

theorem lawsKept_readAuthority (clear st : Nat) (c : StationClass) (s : State) :
    LawsKept s (readAuthority clear st c s).1 := by
  unfold readAuthority
  split
  · exact .refl s
  · exact .ite (.authSettings rfl rfl rfl)

/-! ## ENABLE, DISABLE, the Stop Unit and RESTART (R39 to R41, R67, R172, R175, R209) -/

/-- ENABLE takes the mode from SAFE to HOLD at a position inside the flight box (R39, R40). -/
theorem lawsKept_enable (p0 : Vec3) (s : State) : LawsKept s (enable p0 s).1 := by
  unfold enable
  dsimp only
  split
  · exact .refl s
  · next inSafe =>
    split
    · exact .refl s
    · split
      · exact .refl s
      · split
        · exact .refl s
        · next causes =>
          split
          · exact .refl s
          · next inside =>
            split
            · exact .refl s
            · split
              · exact .refl s
              · refine ⟨fun h => ?_, fun _ _ p hp => ?_, spanOk_congr rfl rfl rfl⟩
                · exact modeOk_enabled h (not_not.1 inSafe) (not_not.1 causes) _ _
                · cases hp
                  simpa [accept] using inside

theorem lawsKept_disable (s : State) : LawsKept s (disable s).1 := by
  unfold disable
  split
  · next hold =>
    obtain ⟨hm, rest⟩ := hold
    refine ⟨fun h => ?_, fun _ _ p hp => (nomatch hp), spanOk_congr rfl rfl rfl⟩
    obtain ⟨core, fits⟩ := (modeOk_iff s).1 h
    exact modeOk_becomeSafe (fits.idle (by simp [hm]) (by simp [hm])) ((kindFits_of_steered (by rw [hm]; rfl) _).1 core.kind)
      core.operator rest
  · exact .refl s

theorem stopKindOf_ne_none {n : Nat} {k : StopKind} (h : stopKindOf n = some k) : k ≠ .none := by
  unfold stopKindOf at h
  split at h <;> cases h <;> simp

theorem lawsKept_stop (kind st : Nat) (c : StationClass) (s : State) : LawsKept s (stop kind st c s).1 := by
  unfold stop
  split
  · exact .refl s
  · split
    · exact .refl s
    · next k hk => exact .raiseCause (fun _ => stopKindOf_ne_none hk) none s

theorem lawsKept_clearStop (s : State) : LawsKept s (clearStop s).1 := by
  unfold clearStop
  split
  · exact .refl s
  · next moved =>
    split
    · exact .refl s
    · split
      · exact .refl s
      · refine ⟨fun h => modeOk_clearMotion h moved _, fun _ box => ?_, ?_⟩
        · dsimp only [accept]
          unfold clearMotion
          split
          case h_2 => exact fun p hp => (nomatch hp)
          all_goals exact box
        · dsimp only [accept]
          unfold clearMotion
          split <;> exact spanOk_congr rfl rfl rfl

theorem stopFromLine_idle (lineOpen : Bool) :
    (stopFromLine lineOpen).kind = .none ∧ (stopFromLine lineOpen).has .operator = false
      ∧ (stopFromLine lineOpen).requested = .none := by
  cases lineOpen <;> decide

/-- A Motion Generator at power-on, with no cue, no stick and no cause but that of the line (R174, R196, R209). -/
theorem modeOk_fresh {s : State} {lineOpen : Bool} (motion : s.motion = { motionPowerOn with lim := s.motion.lim })
    (stop : s.stop = stopFromLine lineOpen) (running : s.cue.running = false) (basis : s.auth.cue = false)
    (buffer : s.auth.buffer = []) : ModeOk s := by
  obtain ⟨kind, operator, requested⟩ := stopFromLine_idle lineOpen
  have safe : s.motion.mode = .safe := by rw [motion]; rfl
  have landed : s.motion.flight = none := by rw [motion]; rfl
  have place : s.motion.p = none := by rw [motion]; rfl
  refine (modeOk_iff _).2 ⟨⟨iff_of_true place safe, ?_, ?_, ?_, fun _ => by rw [motion]; rfl, ?_, ?_⟩, CueIdle.fits
    ⟨running, by rw [motion]; rfl, basis, buffer, ?_⟩ (by simp [safe]) (by simp [safe]) ?_⟩
  · rw [safe, stop]; exact (kindFits_safe _).2 kind
  · rw [safe]; exact fun h => (nomatch h)
  · rw [stop]; simp [operator, requested]
  · rw [place]; exact fun h => (nomatch h)
  · rw [landed]; exact fun _ h => (nomatch h)
  · rw [landed]; exact fun _ h => (nomatch h)
  · rw [motion]; exact fun h => by rcases h with h | h <;> cases h

theorem lawsKept_restart (s : State) : LawsKept s (restart s).1 := by
  unfold restart
  split
  · exact ⟨fun _ => modeOk_fresh rfl rfl rfl rfl rfl, fun _ _ p hp => (nomatch hp), spanOk_congr rfl rfl rfl⟩
  · exact .refl s

end Sys2Proof.Machine
end

