-- ==== Sys2Proof/Proofs/LawStep.lean ====
section
/-! PROOFS. Every command and the idle step keep the law of the modes, the commanded position inside the flight box and the
ranges of the Span Solver (R34, R35, R38, R48, R69, R84, R87, R88, R99, R117, R126, R164). -/

namespace Sys2Proof.Machine

/-! ## Requests that the laws do not read -/

/-- The zones, the marks, the ports with their limits, the Station Port and the pins may change. -/
theorem LawsKept.others {s t : State} (h : t = { s with
    air := t.air, marks := t.marks, ports := t.ports, portLimits := t.portLimits, station := t.station
    estopLineOpen := t.estopLineOpen, resetHeld := t.resetHeld, pending := t.pending }) : LawsKept s t := by
  rw [h]
  exact .still rfl rfl rfl rfl rfl rfl

theorem lawsKept_onZone (c : StationClass) (st handle : Nat) (s : State) (own : Zone → State × Reply)
    (h : ∀ z, LawsKept s (own z).1) : LawsKept s (onZone c st handle s own).1 := by
  unfold onZone
  split
  · exact .refl s
  · split
    · exact .refl s
    · exact h _

theorem lawsKept_createZone (kind : Nat) (box : Box) (initial policy standing cap lifetime : Nat) (label : List Byte)
    (st : Nat) (c : StationClass) (s : State) :
    LawsKept s (createZone kind box initial policy standing cap lifetime label st c s).1 := by
  unfold createZone
  split
  · exact .refl s
  · split
    · split
      · exact .refl s
      · split
        · exact .refl s
        · exact .others rfl
    · exact .refl s

theorem lawsKept_amendZone (handle changes : Nat) (box : Box) (cap lifetime : Nat) (label : List Byte) (st : Nat)
    (c : StationClass) (s : State) : LawsKept s (amendZone handle changes box cap lifetime label st c s).1 := by
  refine lawsKept_onZone c st handle s _ fun z => ?_
  split
  · exact .refl s
  · exact .others rfl

theorem lawsKept_suspendZone (handle st : Nat) (c : StationClass) (s : State) :
    LawsKept s (suspendZone handle st c s).1 := by
  refine lawsKept_onZone c st handle s _ fun z => ?_
  split
  · exact .refl s
  · exact .others rfl

theorem lawsKept_resumeZone (handle policy st : Nat) (c : StationClass) (s : State) :
    LawsKept s (resumeZone handle policy st c s).1 := by
  refine lawsKept_onZone c st handle s _ fun z => ?_
  split
  · exact .refl s
  · split
    · exact .refl s
    · exact .others rfl

theorem lawsKept_retireZone (handle st : Nat) (c : StationClass) (s : State) :
    LawsKept s (retireZone handle st c s).1 :=
  lawsKept_onZone c st handle s _ fun _ => .others rfl

theorem lawsKept_lookupZone (handle : Nat) (s : State) : LawsKept s (lookupZone handle s).1 := by
  unfold lookupZone; split <;> exact .refl s

theorem lawsKept_findZones (point : Vec3) (s : State) : LawsKept s (findZones point s).1 := by
  unfold findZones; split <;> exact .refl s

theorem lawsKept_listZones (states owner : Nat) (s : State) : LawsKept s (listZones states owner s).1 := by
  unfold listZones; split <;> exact .refl s

theorem lawsKept_setAttentionMask (mask : Nat) (s : State) : LawsKept s (setAttentionMask mask s).1 := by
  unfold setAttentionMask
  split
  · exact .refl s
  · exact .others rfl

theorem lawsKept_markSet (n : Nat) (pos : Vec3) (label : List Byte) (st : Nat) (c : StationClass) (s : State) :
    LawsKept s (markSet n pos label st c s).1 := by
  unfold markSet
  split
  · exact .refl s
  · split
    · split
      · exact .refl s
      · exact .others rfl
    · split
      · exact .refl s
      · split
        · exact .refl s
        · exact .others rfl

theorem lawsKept_markRetire (n st : Nat) (c : StationClass) (s : State) : LawsKept s (markRetire n st c s).1 := by
  unfold markRetire
  split
  · exact .refl s
  · split
    · exact .refl s
    · split
      · exact .refl s
      · split
        · exact .refl s
        · exact .others rfl

theorem lawsKept_markRead (n : Nat) (s : State) : LawsKept s (markRead n s).1 := by
  unfold markRead; split <;> exact .refl s

/-! ## The ports and the clock -/

/-- Each of the small edits of a port or of the clock keeps the laws. -/
theorem LawsKept.deviceEdits : DeviceEdits LawsKept where
  refl := .refl
  trans := .trans
  station := fun _ _ => .others rfl
  ports := fun _ _ => .others rfl
  period := fun _ _ h => .still rfl rfl rfl rfl rfl h
  cause := fun _ port s other => .raiseCause (fun e => absurd e other) port s

theorem lawsKept_controlPort (i : Nat) (s : State) (act : Port → Option Port) : LawsKept s (controlPort i s act).1 := by
  unfold controlPort
  split
  · exact .refl s
  · split
    · exact .refl s
    · split
      · exact .refl s
      · exact LawsKept.deviceEdits.movePort _ _ s

theorem lawsKept_portTestStart (i pattern loop : Nat) (s : State) : LawsKept s (portTestStart i pattern loop s).1 := by
  unfold portTestStart
  split
  · dsimp only
    split
    · exact .refl s
    · split
      · exact .refl s
      · split
        · exact .refl s
        · split
          · exact .refl s
          · exact LawsKept.deviceEdits.movePort _ _ s
  · exact .refl s

theorem lawsKept_portTestStop (i : Nat) (s : State) : LawsKept s (portTestStop i s).1 := by
  unfold portTestStop
  split
  · exact .refl s
  · exact .ite (LawsKept.deviceEdits.movePort _ _ s)

theorem lawsKept_portClear (i : Nat) (s : State) : LawsKept s (portClear i s).1 := by
  unfold portClear
  split
  · exact .others rfl
  · split
    · exact .refl s
    · exact .others rfl

theorem lawsKept_portRead (i clear : Nat) (c : StationClass) (s : State) : LawsKept s (portRead i clear c s).1 := by
  unfold portRead
  split
  · exact .refl s
  · split
    · exact .refl s
    · exact .ite (.others rfl)

theorem lawsKept_setAbility (i classes : Nat) (s : State) : LawsKept s (setAbility i classes s).1 := by
  unfold setAbility
  split
  · exact .refl s
  · split
    · exact .refl s
    · dsimp only [accept]
      split
      · exact LawsKept.deviceEdits.reclass _ _ _ s
      · exact .others rfl

/-! ## Every request -/

theorem lawsKept_request {r : Req} {st : Nat} {s t : State} {own : StationClass → State → State × Reply}
    (h : request r st s own = .next t) (keeps : ∀ c u, LawsKept u (own c u).1) : LawsKept s t := by
  rcases request_cases r st s t own h with ⟨-, e⟩ | ⟨-, -, e⟩ | ⟨-, u, p, e, rfl⟩
  · rw [e]; exact .refl s
  · rw [e]; exact .others rfl
  · have owner := keeps (classOf s st) (takeFrame s)
    rw [e] at owner
    exact (LawsKept.others (s := s) (t := takeFrame s) rfl).trans (owner.trans (.others rfl))

theorem LawsKept.unlessHeld {s : State} {f : State → State} (h : LawsKept s (f s)) : LawsKept s (unlessHeld s f) := by
  unfold Machine.unlessHeld
  split
  · exact .refl s
  · exact h

theorem lawsKept_execCorrWrite {st : Nat} {values : List Int} {s t : State} (h : execCorrWrite st values s = .next t) :
    LawsKept s t := by
  unfold execCorrWrite at h
  split at h
  · cases h
    exact .unlessHeld (.others rfl)
  · exact lawsKept_request h fun _ u => lawsKept_corrWrite _ u

theorem lawsKept_serve (i : Instr) (s t : State) (h : serve i s = .next t) : LawsKept s t := by
  cases i
  all_goals simp only [serve] at h
  case setAttentionMask => exact lawsKept_request h fun _ u => lawsKept_setAttentionMask _ u
  case setStationClass => exact lawsKept_request h fun _ u => lawsKept_setStationClass _ _ u
  case restart => exact lawsKept_request h fun _ u => lawsKept_restart u
  case zoneCreate => exact lawsKept_request h fun c u => lawsKept_createZone _ _ _ _ _ _ _ _ _ c u
  case zoneAmend => exact lawsKept_request h fun c u => lawsKept_amendZone _ _ _ _ _ _ _ c u
  case zoneSuspend => exact lawsKept_request h fun c u => lawsKept_suspendZone _ _ c u
  case zoneResume => exact lawsKept_request h fun c u => lawsKept_resumeZone _ _ _ c u
  case zoneRetire => exact lawsKept_request h fun c u => lawsKept_retireZone _ _ c u
  case zoneLookup => exact lawsKept_request h fun _ u => lawsKept_lookupZone _ u
  case zoneFind => exact lawsKept_request h fun _ u => lawsKept_findZones _ u
  case zoneList => exact lawsKept_request h fun _ u => lawsKept_listZones _ _ u
  case enable => exact lawsKept_request h fun _ u => lawsKept_enable _ u
  case disable => exact lawsKept_request h fun _ u => lawsKept_disable u
  case setAnchors => exact lawsKept_request h fun _ u => lawsKept_setAnchors _ _ u
  case setFlightBox => exact lawsKept_request h fun _ u => lawsKept_setFlightBox _ u
  case setPayout => exact lawsKept_request h fun _ u => lawsKept_setPayout _ _ _ u
  case corrWindow => exact lawsKept_request h fun _ u => lawsKept_corrWindow _ _ _ _ _ u
  case corrWrite => exact lawsKept_execCorrWrite h
  case corrRead => exact lawsKept_request h fun _ u => lawsKept_corrRead _ u
  case setLimits => exact lawsKept_request h fun _ u => lawsKept_setLimits _ u
  case markSet => exact lawsKept_request h fun c u => lawsKept_markSet _ _ _ _ c u
  case markRetire => exact lawsKept_request h fun c u => lawsKept_markRetire _ _ c u
  case markRead => exact lawsKept_request h fun _ u => lawsKept_markRead _ u
  case cueAppend => exact lawsKept_request h fun _ u => lawsKept_cueAppend _ _ _ _ _ u
  case cueGo => exact lawsKept_request h fun _ u => lawsKept_cueGo _ u
  case cueHalt => exact lawsKept_request h fun c u => lawsKept_cueHalt _ c u
  case cueFlush => exact lawsKept_request h fun c u => lawsKept_cueFlush _ c u
  case setCueWindow => exact lawsKept_request h fun _ u => .cue rfl fun _ => id
  case claim => exact lawsKept_request h fun _ u => lawsKept_claim _ u
  case withdraw => exact lawsKept_request h fun _ u => .authSettings rfl rfl rfl
  case release => exact lawsKept_request h fun _ u => lawsKept_release _ u
  case preempt => exact lawsKept_request h fun _ u => lawsKept_preempted _ u
  case selectMode => exact lawsKept_request h fun _ u => lawsKept_selectMode _ _ u
  case stick => exact lawsKept_request h fun _ u => lawsKept_stick _ _ _ _ u
  case setOrientation => exact lawsKept_request h fun c u => lawsKept_setOrientation _ _ c u
  case endSwap => exact lawsKept_request h fun _ u => lawsKept_endSwap _ u
  case setStick => exact lawsKept_request h fun c u => lawsKept_setStick _ _ _ _ c u
  case readAuthority => exact lawsKept_request h fun c u => lawsKept_readAuthority _ _ c u
  case portControlEnable => exact lawsKept_request h fun _ u => lawsKept_controlPort _ u _
  case portControlDisable => exact lawsKept_request h fun _ u => lawsKept_controlPort _ u _
  case portControlRetrain => exact lawsKept_request h fun _ u => lawsKept_controlPort _ u _
  case portControlSleep => exact lawsKept_request h fun _ u => lawsKept_controlPort _ u _
  case portControlWake => exact lawsKept_request h fun _ u => lawsKept_controlPort _ u _
  case setAbility => exact lawsKept_request h fun _ u => lawsKept_setAbility _ _ u
  case portTestStart => exact lawsKept_request h fun _ u => lawsKept_portTestStart _ _ _ u
  case portTestStop => exact lawsKept_request h fun _ u => lawsKept_portTestStop _ u
  case portClear => exact lawsKept_request h fun _ u => lawsKept_portClear _ u
  case setPortLimits => exact lawsKept_request h fun _ u => .inSafe fun _ _ => .others rfl
  case portRead => exact lawsKept_request h fun c u => lawsKept_portRead _ _ c u
  case stop => exact lawsKept_request h fun c u => lawsKept_stop _ _ c u
  case clearStop => exact lawsKept_request h fun _ u => lawsKept_clearStop u
  case setStandard => exact lawsKept_request h fun _ u => lawsKept_setStandard _ u
  case readStatus | readEvents | setWatchdog | zoneClear | readMotion | readGeometry | readLimits | cueRead | readStop
      | readPeriod =>
    exact lawsKept_request h fun _ _ => .others rfl
  all_goals cases h; exact .refl s

/-- So do the receivers and the clock up to the wrap. -/
theorem LawsKept.servedEdits : ServedEdits LawsKept where
  toDeviceEdits := deviceEdits
  serves := fun i s t h => lawsKept_serve i s t h

/-! ## A period expiry and a CLK50 period (R181) -/

theorem LawsKept.expiryWork (s : State) : LawsKept s (expiryWork s) := by
  have counted : LawsKept s (countLifetimes s) := .trans (.others rfl) (.raiseIf _ _ _)
  have promoted : ∀ t, LawsKept t (promoteAtRest t) := by
    intro t
    unfold promoteAtRest
    dsimp only
    refine .trans (.ite (.trans ?_ (.raiseIf _ _ _))) (.others rfl)
    exact .others rfl
  exact ((((counted.trans (promoted _)).trans (.arbiterExpiry _)).trans (.beginComputation _)).trans
    (deviceEdits.portsExpiry _)).trans (deviceEdits.silenceStep _)

theorem LawsKept.periodExpiry (s : State) : LawsKept s (periodExpiry s) :=
  ((LawsKept.commitFlight s).trans (servedEdits.clockToWrap _)).trans (.expiryWork _)

theorem LawsKept.tick (s : State) : LawsKept s (tick s) := by
  have timers := servedEdits.runTimers 1 s
  have wrapped : ∀ u : State, LawsKept u { u with period := u.period.wrap } := fun u => deviceEdits.period _ u rfl
  unfold Machine.tick
  dsimp only
  split
  · exact ((timers.trans (.commitFlight _)).trans (wrapped _)).trans (.expiryWork _)
  · exact timers

theorem LawsKept.takeEstop (lineOpen : Bool) (s : State) : LawsKept s (takeEstop lineOpen s) := by
  have level : LawsKept s { s with estopLineOpen := lineOpen, stop := { s.stop with estopOpen := lineOpen } } := by
    refine .of_place ⟨rfl, rfl, rfl, rfl⟩ fun h => ?_
    obtain ⟨⟨valid, kind, causes, operator, rest, lengths, flight⟩, fits⟩ := (modeOk_iff s).1 h
    exact (modeOk_iff _).2 ⟨⟨valid, kind, causes, operator, rest, lengths, flight⟩,
      fits.still rfl rfl id rfl id fits.buffer⟩
  unfold Machine.takeEstop
  dsimp only
  split
  · exact level.trans (.raiseCause (by simp) none _)
  · exact level

/-- What follows a reset keeps every law, whatever went before. -/
theorem LawsKept.powerOn {s t : State} (motion : t.motion = motionPowerOn) (span : t.span = spanPowerOn)
    (period : t.period = periodPowerOn) (mode : ModeOk t) : LawsKept s t := by
  refine ⟨fun _ => mode, fun _ _ p hp => ?_, fun _ => spanOk_congr (s := State.reset) span ?_ ?_ spanOk_reset⟩
  · rw [motion] at hp; cases hp
  · rw [motion]; rfl
  · rw [period]; rfl

/-! ## Every command, and a step -/

theorem lawsKept_exec (i : Instr) (s t : State) (h : exec i s = .next t) : LawsKept s t := by
  have devices := LawsKept.deviceEdits
  have served := lawsKept_serve i s t
  cases i
  case powerOnReset => cases h; exact .powerOn rfl rfl rfl (modeOk_fresh rfl rfl rfl rfl rfl)
  case resetAsserted => cases h; exact .powerOn rfl rfl rfl (modeOk_fresh (lineOpen := false) rfl rfl rfl rfl rfl)
  case periodExpiry => cases h; exact .unlessHeld (.periodExpiry s)
  case periodCommit => cases h; exact .unlessHeld (.commitFlight s)
  case cueDwellExpiry => cases h; exact .unlessHeld (lawsKept_cueDwell s)
  case cueBlocked => cases h; exact .unlessHeld (lawsKept_cueBlocked s)
  case zoneLifetimeExpiry slot => cases h; exact .unlessHeld (.ite (.trans (.others rfl) (.raiseEvent _ _)))
  case backoffExpiry station =>
    cases h
    have counted : LawsKept s { s with auth := { s.auth with backoff := s.auth.backoff.set station 0 } } :=
      .authSettings rfl rfl rfl
    exact .unlessHeld (.ite (counted.trans (.claimDecision _)))
  case stickHoldExpiry => cases h; exact .unlessHeld (.ite (.stickStep s))
  case watchdogExpiry => cases h; exact .unlessHeld (.ite (devices.silenceStep s))
  case trainingSilenceExpiry => cases h; exact .unlessHeld (.ite (devices.movePort _ _ s))
  case breakExpiry => cases h; exact .unlessHeld (.ite (devices.movePort _ _ s))
  case consecutiveMissLimit => cases h; exact .unlessHeld (.ite (devices.missCheck _ s))
  case refPulse => cases h; exact .unlessHeld (devices.withPeriod (by simp))
  case referenceLoss => cases h; exact .unlessHeld (.ite (devices.withPeriod (by simp)))
  case estopLineChange =>
    cases h
    split
    · exact .others rfl
    · exact .takeEstop _ s
  case stationCharacter => cases h; exact .unlessHeld (LawsKept.servedEdits.arriveChar _ s)
  case stationFrameTimeout => cases h; exact .unlessHeld (LawsKept.servedEdits.timeOutStation s)
  case answerSent => cases h; exact .unlessHeld (LawsKept.servedEdits.finishAnswer s)
  case unknownRequestFrame =>
    cases h
    refine .unlessHeld ?_
    split
    · exact .refl s
    · exact .others rfl
  case driveAbilityFrame => cases h; exact .unlessHeld (devices.driveAbility _ _ s)
  case driveFeedbackFrame => cases h; exact .unlessHeld (devices.driveFeedback _ _ _ _ _ s)
  case driveWakeFrame => cases h; exact .unlessHeld (devices.driveWake _ s)
  case driveTestFrame => cases h; exact .unlessHeld (devices.driveTest _ _ s)
  case winchFrameBadCheck => cases h; exact .unlessHeld (devices.badCheck _ s)
  case winchFrameTimeout => cases h; exact .unlessHeld (devices.timeOutWinch _ s)
  case winchCharacter =>
    cases h
    refine .unlessHeld ?_
    split
    · exact .refl s
    · exact devices.receive _ _ s
  all_goals exact served h

theorem lawsKept_step (s t : State) (h : step s = .next t) : LawsKept s t := by
  unfold step at h
  split at h
  · exact (LawsKept.others rfl).trans (lawsKept_exec _ _ t h)
  · cases h
    exact .unlessHeld (.tick s)

/-- Settles O29: every part of a step keeps P inside the box; a commit by the stages, ENABLE by its check. -/
theorem inFlightBoxKept : Obligations.InFlightBoxKept := fun s t box mode h => (lawsKept_step s t h).box mode box

/-- Settles O34: every part of a step keeps the law of the modes. -/
theorem modeKept : Obligations.ModeKept := fun s t mode h => (lawsKept_step s t h).mode mode

/-- Settles O40: every part of a step keeps the Span Solver as its law says. -/
theorem spanKept : Obligations.SpanKept := fun s t span h => (lawsKept_step s t h).span span

end Sys2Proof.Machine
end

