-- ==== Sys2Proof/Proofs/CommitLaws.lean ====
section
/-! PROOFS. The commit of a computation: what it sets, and the laws of the acceleration, the speed and the zone clip (R44, R45,
R49 to R52, R64). -/

namespace Sys2Proof.Machine

/-! ## What the checks of a cue leave (R59, R60) -/

/-- The way of a cue at its commit writes no stop, no exit target and no velocity. -/
structure CueWay (s t : State) : Prop where
  frame : ControlFrame s t
  stop : t.stop = s.stop
  exit : t.motion.exit = s.motion.exit
  trapped : t.motion.trapped = s.motion.trapped
  vOld : t.motion.vOld = s.motion.vOld

namespace CueWay

theorem refl (s : State) : CueWay s s := ⟨.refl s, rfl, rfl, rfl, rfl⟩

theorem trans {s t u : State} (h : CueWay s t) (k : CueWay t u) : CueWay s u :=
  ⟨h.frame.trans k.frame, k.stop.trans h.stop, k.exit.trans h.exit, k.trapped.trans h.trapped, k.vOld.trans h.vOld⟩

theorem enterHold (s : State) : CueWay s (enterHold s) := ⟨frame_enterHold s, rfl, rfl, rfl, rfl⟩

theorem dropCopy (s : State) : CueWay s (dropCopy s) := ⟨frame_dropCopy s, rfl, rfl, rfl, rfl⟩

theorem of_written {s t : State} (h : ListWritten s t) : CueWay s t :=
  ⟨h.frame, h.stop, by rw [h.motion], by rw [h.motion], by rw [h.motion]⟩

theorem clearCueBasis (s : State) : CueWay s (clearCueBasis s) := by
  unfold Machine.clearCueBasis
  split
  · exact refl s
  · split
    · exact ⟨frame_auth _ s, rfl, rfl, rfl, rfl⟩
    · refine ⟨(frame_auth _ s).trans (frame_endAuthority _), ?_, ?_, ?_, ?_⟩ <;> unfold endAuthority <;> dsimp only <;>
        split <;> rfl

theorem endCue (s : State) : CueWay s (endCue s) := ((dropCopy s).trans (clearCueBasis _)).trans (enterHold _)

theorem failHead (why : FailReason) (s : State) : CueWay s (failHead why s) := by
  rw [failHead_eq]
  exact (of_written (listWritten_failRecorded why s)).trans (endCue _)

theorem startHead (s : State) : CueWay s (startHead s) := by
  rcases entries : s.cue.entries with _ | ⟨e, rest⟩
  · have stays : Machine.startHead s = s := by simp only [Machine.startHead, entries]
    rw [stays]
    exact refl s
  · rcases hb : unreachable s.span.flightBox s.motion.lim.standoff (liveZones s.air) (markTarget s e.mark) with _ | _
    · have frame := frame_startHead s
      rw [startHead_of_free entries hb] at frame ⊢
      exact ⟨frame, rfl, rfl, rfl, rfl⟩
    · rw [startHead_of_barred entries hb]
      exact failHead _ s

theorem completeCue (s : State) : CueWay s (completeCue s) := by
  rcases entries : s.cue.entries with _ | ⟨e, rest⟩
  · have ends : Machine.completeCue s = Machine.endCue s := by simp only [Machine.completeCue, entries]; rfl
    rw [ends]
    exact endCue s
  · have done := of_written (listWritten_doneRecorded rest s)
    by_cases last : e.haltAfter = true ∨ rest = []
    · rw [completeCue_last entries last]
      exact done.trans (endCue _)
    · obtain ⟨goes, more⟩ := not_or.1 last
      rw [completeCue_next entries (by simpa using goes) more]
      exact (done.trans (dropCopy _)).trans (startHead _)

theorem copy (s : State) (c : Option CueCopy) : CueWay s { s with motion := { s.motion with copy := c } } := by
  refine ⟨?_, rfl, rfl, rfl, rfl⟩
  constructor <;> simp

theorem cueChecks (s : State) : CueWay s (cueChecks s) := by
  unfold Machine.cueChecks
  split
  · exact refl s
  · split
    · unfold dwellStep
      split
      · exact completeCue s
      · exact copy s _
    · split
      · unfold arrive
        split
        · exact completeCue s
        · exact copy s _
      · unfold progressTest
        dsimp only
        generalize (if (Vec3.minus _ (heldP s)).norm < _ then 0 else _ + 1) = n
        split
        · exact (copy s _).trans (failHead _ _)
        · exact copy s _

end CueWay

/-! ## What a commit sets (R50 to R52) -/

/-- A commit up to its test for HELD. -/
def checked (c : Computation) (s : State) : State := cueCommit c (committedTable c s)

theorem cueWay_checked (c : Computation) (s : State) : CueWay (committedTable c s) (checked c s) := by
  unfold checked cueCommit
  split
  · exact .cueChecks _
  · exact .refl _

theorem checked_of_no_cue {c : Computation} (s : State) (h : ¬(c.mode = .cue ∧ c.cueLive = true)) :
    checked c s = committedTable c s := if_neg h

/-- The test for HELD of a computation that ran in STOPPING (R64). -/
theorem commit_eq_checked (c : Computation) (s : State) :
    commit c s = handLengths (nextPosition s c).isNone (committedP c s)
      (if c.mode = .stopping then heldTest (checked c s) else checked c s) := rfl

/-- What the test for HELD and the lengths leave of a checked commit. -/
theorem commit_eq_with (c : Computation) (s : State) :
    ∃ m : Mode, commit c s = { checked c s with motion := { (checked c s).motion with
        mode := m, lengths := some (demandLengths (checked c s).span (committedP c s))
        feed := (handLengths (nextPosition s c).isNone (committedP c s) (checked c s)).motion.feed } }
      ∧ m = if c.mode = .stopping ∧ (checked c s).motion.mode = .stopping ∧ (checked c s).motion.vOld = zero3
        then .stopped .held else (checked c s).motion.mode := by
  refine ⟨_, ?_, rfl⟩
  rw [commit_eq_checked]
  by_cases stops : c.mode = .stopping
  · rw [if_pos stops]
    unfold heldTest
    by_cases rest : (checked c s).motion.mode = .stopping ∧ (checked c s).motion.vOld = zero3
    · rw [if_pos rest, if_pos ⟨stops, rest⟩]; rfl
    · rw [if_neg rest, if_neg fun h => rest h.2]; rfl
  · rw [if_neg stops, if_neg fun h => stops h.1]; rfl

theorem commit_p (c : Computation) (s : State) : (commit c s).motion.p = some (committedP c s) := by
  obtain ⟨-, -, p, -⟩ := PlaceStands.controlEdits.commit c s
  rw [p, committedTable_motion]

theorem commit_vOld (c : Computation) (s : State) : (commit c s).motion.vOld = (committedP c s).minus c.p := by
  obtain ⟨m, e, -⟩ := commit_eq_with c s
  rw [e]
  exact (cueWay_checked c s).vOld.trans (by rw [committedTable_motion])

/-- What the table's work and a cue leave alone at a commit. -/
theorem checked_stands (c : Computation) (s : State) :
    (checked c s).span = s.span ∧ (checked c s).marks = s.marks ∧ (checked c s).ports = s.ports
      ∧ (checked c s).portLimits = s.portLimits ∧ (checked c s).stop = s.stop ∧ (checked c s).period = s.period
      ∧ (checked c s).station = { s.station with events := (checked c s).station.events }
      ∧ (checked c s).motion.lim = s.motion.lim ∧ (checked c s).motion.exit = s.motion.exit
      ∧ (checked c s).motion.trapped = s.motion.trapped := by
  obtain ⟨frame, stop, exit, trapped, -⟩ := cueWay_checked c s
  have motion := committedTable_motion c s
  rw [committedTable, tableCommit_eq] at frame stop exit trapped motion
  refine ⟨frame.span, frame.marks, frame.ports, frame.portLimits, stop, frame.period, ?_, frame.lim, exit, trapped⟩
  rw [frame.station]

/-- Settles O23: the commit is the table's work, the checks of a cue, the test for HELD and the lengths. -/
theorem periodCommitCommits : Obligations.PeriodCommitCommits := by
  intro s held
  refine ⟨fun none => ?_, fun c hc => ⟨commit c s, exec_periodCommit held hc, commit_p c s, commit_vOld c s, ?_⟩⟩
  · simp only [exec, execPeriodCommit]
    rw [unlessHeld_free s _ held, commitFlight, none]
  obtain ⟨span, marks, ports, portLimits, stop, period, station, lim, exit, trapped⟩ := checked_stands c s
  have landed : (checked c s).motion.flight = none := by
    have empty : (committedTable c s).motion.flight = none := by rw [committedTable_motion]
    unfold checked cueCommit
    split
    · exact (Steers.controlEdits.cueChecks _).flight_none empty
    · exact empty
  have lengths : (checked c s).motion.lengths = s.motion.lengths := by
    rw [(cueWay_checked c s).frame.lengths, committedTable_motion]
  have noCue : c.mode ≠ .cue → checked c s = committedTable c s := fun h => checked_of_no_cue s fun g => h g.1
  obtain ⟨m, e, hm⟩ := commit_eq_with c s
  rw [e]
  refine ⟨landed, ?_, fun abandoned => ?_, fun last hl taken => ?_, lim, exit, trapped, fun other => ?_, fun other moving => ?_,
    span, marks, ports, portLimits, stop, period, by rw [station], by rw [station]⟩
  · show some (demandLengths (checked c s).span (committedP c s)) = _
    rw [span]
    rfl
  · show (handLengths (nextPosition s c).isNone _ _).motion.feed = _
    rw [abandoned]
    rfl
  · have goes : (nextPosition s c).isNone = false := by simpa using taken
    show (handLengths (nextPosition s c).isNone (committedP c s) (checked c s)).motion.feed = _
    simp only [handLengths, goes, lengths, hl, span]
    rfl
  · rw [noCue other, committedTable, tableCommit_eq]
    exact ⟨rfl, rfl, rfl⟩
  · show m = s.motion.mode
    rw [hm, if_neg fun h => moving h.1, noCue other, committedTable_motion]

/-! ## The laws of the step (R44, R45, R49) -/

section

variable {s t : State} {c : Computation}

/-- A computation in flight began at the P commanded, which lies in the flight box. -/
theorem flightBox_has_of_flight (mode : ModeOk s) (box : InFlightBox s) (hc : s.motion.flight = some c) :
    s.span.flightBox.has c.p = true :=
  box c.p (((modeOk_iff s).1 mode).1.flight c hc).p

theorem cappedVelocity_shortens (k : Axis) :
    Shortens ((rateLimit (stageAccel s.motion.lim c.mode c.kind) c.vOld c.demand).get k) ((cappedVelocity s c).get k) :=
  speedCap_shortens _ _ _ k

/-- The step of a commit is no longer on any axis than what the rate limit gives. -/
theorem commit_within_rate (inside : s.span.flightBox.has c.p = true) (k : Axis) :
    ((commit c s).motion.vOld.get k).natAbs
      ≤ ((rateLimit (stageAccel s.motion.lim c.mode c.kind) c.vOld c.demand).get k).natAbs := by
  rw [commit_vOld]
  exact ((cappedVelocity_shortens k).trans (committedP_shortens inside k)).natAbs_le

/-- Settles O24: the rate limit bounds the velocity, and the later stages only shorten it. -/
theorem accelerationLawAndStoppingRunsDown : Obligations.AccelerationLawAndStoppingRunsDown := by
  have runDown : ∀ (s : State) (c : Computation), ModeOk s → InFlightBox s → s.motion.flight = some c → c.mode = .stopping →
      ∀ k, ((commit c s).motion.vOld.get k).natAbs
        ≤ (s.motion.vOld.get k).natAbs - stageAccel s.motion.lim .stopping c.kind := by
    intro s c mode box hc stops k
    obtain ⟨-, vOld, -, -, stopping⟩ := ((modeOk_iff s).1 mode).1.flight c hc
    have within := commit_within_rate (flightBox_has_of_flight mode box hc) k
    rw [(stopping stops).2, rateLimit_zero_natAbs, stops, ← vOld] at within
    exact within
  refine ⟨fun s t c mode box held hc run k => ?_, fun s t c mode box held hc stops run => ?_⟩
  · rw [exec_periodCommit held hc] at run
    cases run
    refine ⟨?_, fun stops => (runDown s c mode box hc stops k).trans (Nat.sub_le _ _)⟩
    by_cases stops : c.mode = .stopping
    · have := runDown s c mode box hc stops k
      omega
    · have within := commit_within_rate (flightBox_has_of_flight mode box hc) k
      rw [stageAccel, if_neg stops, rateLimit_get, ← (((modeOk_iff s).1 mode).1.flight c hc).vOld] at within
      omega
  · rw [exec_periodCommit held hc] at run
    cases run
    have stopping := ((((modeOk_iff s).1 mode).1.flight c hc).stopping stops).1
    have noCue : checked c s = committedTable c s := checked_of_no_cue s fun h => by rw [stops] at h; cases h.1
    obtain ⟨m, e, hm⟩ := commit_eq_with c s
    have vOld : (commit c s).motion.vOld = (checked c s).motion.vOld := by rw [e]
    have still : (checked c s).motion.mode = .stopping := by rw [noCue, committedTable_motion]; exact stopping
    have landed : (commit c s).motion.mode = m := by rw [e]
    refine ⟨fun k => ?_, fun rest => ?_, fun moves => ?_, ?_⟩
    · have := runDown s c mode box hc stops k
      rwa [stageAccel, if_pos rfl] at this
    · rw [landed, hm, if_pos ⟨stops, still, vOld.symm.trans rest⟩]
    · rw [landed, hm, if_neg fun h => moves (vOld.trans h.2.2), still]
    · rw [e]
      exact (checked_stands c s).2.2.2.2.1

/-- Settles O25: stage 3 cuts the velocity to the limits, and the later stages only shorten it. -/
theorem speedLaw : Obligations.SpeedLaw := by
  intro s t c mode box held hc run
  rw [exec_periodCommit held hc] at run
  cases run
  have inside := flightBox_has_of_flight mode box hc
  have short : ∀ k, ((commit c s).motion.vOld.get k).natAbs ≤ ((cappedVelocity s c).get k).natAbs := fun k => by
    rw [commit_vOld]
    exact (committedP_shortens inside k).natAbs_le
  have across : horizontalSpeed (commit c s).motion.vOld
      ≤ horizontalLimit s.motion.lim (classCap s.span.classCaps c.speedClass) s.period.configured c.zones c.p :=
    (horizontalSpeed_mono (short .x) (short .y)).trans (speedCap_horizontal _ _ _)
  have along : (commit c s).motion.vOld.z.natAbs ≤ min s.motion.lim.vz (classCap s.span.classCaps c.speedClass) :=
    (short .z).trans (speedCap_vertical _ _ _)
  obtain ⟨⟨least, slow⟩, -⟩ := horizontalLimit_spec s.motion.lim (classCap s.span.classCaps c.speedClass) s.period.configured
    c.zones c.p
  intro v h cap
  have same : classCap s.span.classCaps c.speedClass = cap := by
    simp only [cap]
    rcases c.speedClass with _ | _ | _ | _ | _ <;> rfl
  rw [same] at across along least
  refine ⟨across.trans (least.trans (min_le_left _ _)), across.trans (least.trans (min_le_right _ _)),
    along.trans (min_le_left _ _), along.trans (min_le_right _ _), fun z hz kind holds n hn => ?_⟩
  have zone := slow z hz kind holds
  rw [same, slowCap, hn] at zone
  exact across.trans zone

/-- Settles O28: the last pass of the clip changes nothing, so the new position is out of every guarded box that P was out of. -/
theorem clipLaw : Obligations.ClipLaw := by
  intro s t c mode box held hc run p p' hp hp' z hz kind state free out
  rw [exec_periodCommit held hc] at run
  cases run
  rw [commit_p] at hp'
  cases hp'
  have began := (((modeOk_iff s).1 mode).1.flight c hc).p
  obtain rfl : p = c.p := Option.some.inj (hp.symm.trans began)
  rw [← guarded_has_iff] at out ⊢
  have barring : z.guarded s.motion.lim.standoff ∈ barringBoxes s.motion.lim.standoff c.zones :=
    List.mem_map.2 ⟨z, List.mem_filter.2 ⟨hz, by simp [Zone.activeKeepOut, kind, state, free]⟩, rfl⟩
  rw [committedP]
  rcases hn : nextPosition s c with _ | q
  · exact out
  · have fixed := clipZone_of_clipPass (clipFrom_fixed _ _ _ _ _ hn) _ barring
    simpa using not_has_of_clipZone fixed (by simpa using out)

end

end Sys2Proof.Machine
end

