-- ==== Sys2Proof/Proofs/ApproachLaw.lean ====
section
/-! PROOFS. The surfaces ahead of a position and what the approach limit makes of a component before them (R46, R47). -/

namespace Sys2Proof

theorem Box.um_lo (b : Box) (j : Axis) : b.um.lo j = b.lo j * 1000 := by cases j <;> rfl

theorem Box.um_hi (b : Box) (j : Axis) : b.um.hi j = b.hi j * 1000 := by cases j <;> rfl

end Sys2Proof

namespace Sys2Proof.Machine

theorem Zone.guarded_lo (z : Zone) (n : Nat) (j : Axis) : (z.guarded n).lo j = z.box.lo j * 1000 - n := by
  cases j <;> rfl

theorem Zone.guarded_hi (z : Zone) (n : Nat) (j : Axis) : (z.guarded n).hi j = z.box.hi j * 1000 + n := by
  cases j <;> rfl

/-- The shadow on an axis: within the widened extents on the two others (R46). -/
theorem inShadow_iff (b : Box) (m : Nat) (p : Vec3) (k : Axis) :
    inShadow b m p k = true ↔ ∀ j, j ≠ k → b.lo j - m ≤ p.get j ∧ p.get j ≤ b.hi j + m := by
  have all : ∀ P : Axis → Prop, (∀ j, P j) ↔ P .x ∧ P .y ∧ P .z :=
    fun P => ⟨fun h => ⟨h _, h _, h _⟩, fun ⟨x, y, z⟩ j => by cases j <;> assumption⟩
  rw [all]
  cases k <;> simp [inShadow, Box.spans, Vec3.get]

/-- The surface of a face ahead on an axis, below it or above (R46). -/
def Ahead (up : Prop) (k : Axis) (m : Nat) (p : Vec3) (lo hi : Axis → Int) (d : Int) : Prop :=
  (∀ j, j ≠ k → lo j - m ≤ p.get j ∧ p.get j ≤ hi j + m)
    ∧ (up → p.get k < lo k ∧ d = lo k - p.get k) ∧ (¬up → hi k < p.get k ∧ d = p.get k - hi k)

theorem nearFace_eq_some (b : Box) (m : Nat) (p : Vec3) (k : Axis) (up : Bool) (d : Int) :
    nearFace b m p k up = some d ↔ Ahead (up = true) k m p b.lo b.hi d := by
  unfold nearFace Ahead
  by_cases shadow : inShadow b m p k = true
  · have within := (inShadow_iff b m p k).1 shadow
    rw [and_iff_right within]
    cases up
    · by_cases beyond : b.hi k < p.get k <;> simp [shadow, beyond, eq_comm]
    · by_cases before : p.get k < b.lo k <;> simp [shadow, before, eq_comm]
  · have without := mt (inShadow_iff b m p k).2 shadow
    simp only [shadow, if_false, reduceCtorEq, false_iff]
    exact fun h => without h.1

/-- A face ahead lies ahead. -/
theorem Ahead.pos {up : Prop} {k : Axis} {m : Nat} {p : Vec3} {lo hi : Axis → Int} {d : Int} (h : Ahead up k m p lo hi d) :
    0 < d := by
  obtain ⟨-, below, above⟩ := h
  by_cases hu : up
  · have := below hu; omega
  · have := above hu; omega

/-- The surface that a record of the zones gives, with the speed that may be kept on reaching it (R46). -/
def GivesSurface (std : Standard) (lim : Limits) (up : Prop) (k : Axis) (p : Vec3) (z : Zone) (q : Int × Nat) : Prop :=
  z.kind = .keepOut ∧ z.occupied = false
      ∧ Ahead up k lim.margin p (fun j => z.box.lo j * 1000 - (lim.standoff : Int))
        (fun j => z.box.hi j * 1000 + (lim.standoff : Int)) q.1 ∧ q.2 = 0
    ∨ z.kind = .slow ∧ Ahead up k lim.margin p (fun j => z.box.lo j * 1000) (fun j => z.box.hi j * 1000) q.1
      ∧ q.2 = slowCap std z

theorem zoneSurface_eq_some (std : Standard) (lim : Limits) (p : Vec3) (k : Axis) (up : Bool) (z : Zone) (q : Int × Nat) :
    zoneSurface std lim p k up z = some q ↔ GivesSurface std lim (up = true) k p z q := by
  obtain ⟨d, c⟩ := q
  unfold zoneSurface GivesSurface
  have guarded : (z.guarded lim.standoff).lo = (fun j => z.box.lo j * 1000 - (lim.standoff : Int))
      ∧ (z.guarded lim.standoff).hi = fun j => z.box.hi j * 1000 + (lim.standoff : Int) :=
    ⟨funext (z.guarded_lo _), funext (z.guarded_hi _)⟩
  have extents : z.box.um.lo = (fun j => z.box.lo j * 1000) ∧ z.box.um.hi = fun j => z.box.hi j * 1000 :=
    ⟨funext z.box.um_lo, funext z.box.um_hi⟩
  rcases hk : z.kind with _ | _
  · rcases ho : z.occupied with _ | _
    · simp [nearFace_eq_some, guarded, @eq_comm _ 0 c]
    · simp
  · simp [nearFace_eq_some, extents, @eq_comm _ (slowCap std z) c]

/-- The surfaces ahead on an axis: the flight-box face and those of the zones (R46). -/
theorem mem_surfacesAhead (std : Standard) (lim : Limits) (box : Box) (zones : List Zone) (p : Vec3) (k : Axis) (up : Bool)
    (q : Int × Nat) :
    q ∈ surfacesAhead std lim box zones p k up
      ↔ q = (if up = true then box.hi k - p.get k else p.get k - box.lo k, 0)
        ∨ ∃ z ∈ zones, GivesSurface std lim (up = true) k p z q := by
  simp only [surfacesAhead, List.mem_cons, List.mem_filterMap, zoneSurface_eq_some]

/-- The magnitude that stage 4 leaves of a component. -/
theorem natAbs_approachAxis (std : Standard) (lim : Limits) (box : Box) (zones : List Zone) (p : Vec3) (k : Axis) (v : Int) :
    (approachAxis std lim box zones p k v).natAbs
      = approachBound lim.aBrk v.natAbs (surfacesAhead std lim box zones p k (decide (0 < v))) := by
  unfold approachAxis
  dsimp only
  split <;> omega

/-- The bound of stage 4 is below the old magnitude and every limit, and is one of them (R47). -/
theorem approachBound_spec (aBrk n : Nat) (surfaces : List (Int × Nat)) :
    (∀ q ∈ surfaces, approachBound aBrk n surfaces ≤ surfaceLimit aBrk q)
      ∧ (approachBound aBrk n surfaces = n ∨ ∃ q ∈ surfaces, approachBound aBrk n surfaces = surfaceLimit aBrk q) := by
  obtain ⟨⟨-, each⟩, one⟩ := foldl_min_spec (surfaceLimit aBrk) surfaces n
  exact ⟨each, one⟩

/-- A magnitude within the limit of a surface, squared (R47). -/
theorem sq_le_of_surfaceLimit {w d : Int} {aBrk c : Nat} (h : w.natAbs ≤ surfaceLimit aBrk (d, c)) (hd : 0 ≤ d) :
    w * w ≤ (c : Int) * c + 2 * aBrk * d := by
  have sq := le_isqrt.1 h
  have room : (0 : Int) ≤ (c : Int) * c + 2 * aBrk * d :=
    Int.add_nonneg (Int.mul_nonneg (by omega) (by omega)) (Int.mul_nonneg (by omega) hd)
  have cast : ((w.natAbs * w.natAbs : Nat) : Int) ≤ (c : Int) * c + 2 * aBrk * d := by
    rw [← Int.toNat_of_nonneg room]
    exact Int.ofNat_le.2 sq
  rwa [Int.natAbs_mul_self] at cast

/-- Settles O26: the bound of stage 4 is the least of the old magnitude and the limits of the surfaces ahead. -/
theorem approachLaw : Obligations.ApproachLaw := by
  intro std lim box zones p v k w up ahead guarded slow face surface limit
  have short : Shortens (v.get k) w := approach_shortens std lim box zones p v k
  have left : w.natAbs = approachBound lim.aBrk (v.get k).natAbs
      (surfacesAhead std lim box zones p k (decide (0 < v.get k))) := by
    rw [← natAbs_approachAxis, ← approach_get]
  have member : ∀ d c, surface d c
      ↔ (d, c) ∈ surfacesAhead std lim box zones p k (decide (0 < v.get k)) := by
    intro d c
    rw [mem_surfacesAhead]
    simp only [decide_eq_true_eq, Prod.mk.injEq, GivesSurface]
    refine or_congr Iff.rfl ⟨?_, ?_⟩
    · rintro (⟨z, hz, kind, free, at_, rest⟩ | ⟨z, hz, kind, at_, rest⟩)
      · exact ⟨z, hz, .inl ⟨kind, free, at_, rest⟩⟩
      · exact ⟨z, hz, .inr ⟨kind, at_, rest⟩⟩
    · rintro ⟨z, hz, ⟨kind, free, at_, rest⟩ | ⟨kind, at_, rest⟩⟩
      · exact .inl ⟨z, hz, kind, free, at_, rest⟩
      · exact .inr ⟨z, hz, kind, at_, rest⟩
  have same : ∀ d c, limit d c = surfaceLimit lim.aBrk (d, c) := fun _ _ => rfl
  obtain ⟨each, one⟩ := approachBound_spec lim.aBrk (v.get k).natAbs
    (surfacesAhead std lim box zones p k (decide (0 < v.get k)))
  rw [← left] at each one
  have within : ∀ d c, surface d c → w.natAbs ≤ surfaceLimit lim.aBrk (d, c) := fun d c h => each _ ((member d c).1 h)
  have atFace : w.natAbs ≤ surfaceLimit lim.aBrk (face, 0) := within face 0 (.inl ⟨rfl, rfl⟩)
  refine ⟨short.1, short.2, fun _ => ⟨fun d c h => (same d c).symm ▸ within d c h, ?_⟩, fun _ none => ?_, fun inside => ?_,
      fun z hz kind free d _ at_ => ?_,
    fun z hz kind n hn d _ at_ => ?_⟩
  · rcases one with e | ⟨⟨d, c⟩, hq, e⟩
    · exact .inl e
    · exact .inr ⟨d, c, (member d c).2 hq, e.trans (same d c).symm⟩
  · have nothing : surfaceLimit lim.aBrk (face, 0) = 0 := by
      rw [none, surfaceLimit]
      simp [show isqrt 0 = 0 by decide]
    rw [nothing] at atFace
    exact Int.natAbs_eq_zero.1 (Nat.le_zero.1 atFace)
  · have hp := (box.has_iff p).1 inside k
    have ahead : 0 ≤ face := by
      show 0 ≤ if up then _ else _
      split <;> omega
    simpa using sq_le_of_surfaceLimit (d := face) (c := 0) atFace ahead
  · have reach := within d 0 (.inr (.inl ⟨z, hz, kind, free, at_, rfl⟩))
    simpa using sq_le_of_surfaceLimit (d := d) (c := 0) reach (Ahead.pos at_).le
  · have reach := within d _ (.inr (.inr ⟨z, hz, kind, at_, rfl⟩))
    rw [hn] at reach
    exact sq_le_of_surfaceLimit (d := d) reach (Ahead.pos at_).le

end Sys2Proof.Machine
end

