-- ==== Sys2Proof/Proofs/StepStages.lean ====
section
/-! PROOFS. What each stage makes of a demand, the demand that no stage cuts, and the profiles of a cue and an eviction (R44, R45,
R48 to R51, R54, R58). -/

namespace Sys2Proof.Machine

/-! ## A demand that no stage cuts (R44, R45, R48, R49) -/

theorem rateLimit_of_within {a : Nat} {vOld demand : Vec3} (h : ∀ k, (demand.get k - vOld.get k).natAbs ≤ a) :
    rateLimit a vOld demand = demand := by
  refine Vec3.ext_get fun k => ?_
  have := h k
  rw [rateLimit_get]
  omega

theorem speedCap_of_within {vh vz : Nat} {v : Vec3} (across : horizontalSpeed v ≤ vh) (along : v.z.natAbs ≤ vz) :
    speedCap vh vz v = v := by
  have level : ¬vh < horizontalSpeed v := not_lt.2 across
  have height : clamp v.z (-(vz : Int)) vz = v.z := by rw [clamp_eq _ _ _ (by omega)]; omega
  simp only [speedCap, level, if_false, height]

theorem clipPass_of_outside {boxes : List Box} {p q : Vec3} (h : ∀ g ∈ boxes, g.has q = false) : clipPass boxes p q = q := by
  induction boxes with
  | nil => rfl
  | cons g boxes ih =>
    obtain ⟨out, rest⟩ := List.forall_mem_cons.1 h
    rw [clipPass, List.foldl_cons, clipZone_of_stays (.inl out)]
    exact ih rest

/-- The point where four passes of the clip come to rest, if they do: each pass is a function of the point alone (R49, R50). -/
theorem clipFrom_eq (boxes : List Box) (p : Vec3) (n : Nat) (q : Vec3) :
    clipFrom boxes p n q
      = if clipPass boxes p ((clipPass boxes p)^[n] q) = (clipPass boxes p)^[n] q
        then some ((clipPass boxes p)^[n] q) else none := by
  induction n generalizing q with
  | zero => rfl
  | succ n ih =>
    unfold clipFrom
    split
    · next rest =>
      have stays : ∀ m, (clipPass boxes p)^[m] q = q := fun m => Function.iterate_fixed rest m
      rw [stays, if_pos rest]
    · rw [ih]
      rfl

/-- A step to a point of the flight box outside every guarded box is taken as it is. -/
theorem stepped_of_free {box : Box} {boxes : List Box} {p v : Vec3} (inside : box.has (p.plus v) = true)
    (free : ∀ g ∈ boxes, g.has (p.plus v) = false) : stepped box boxes p v = some (p.plus v) := by
  have rest := clipPass_of_outside (p := p) free
  rw [stepped, Box.clampIn_of_has inside]
  unfold clipFrom
  rw [if_pos rest]

/-! ## The profiles (R54, R58) -/

theorem profileSpeed_eq (a cruise : Nat) (vOld : Vec3) (d : Nat) :
    profileSpeed a cruise vOld d = min (min (isqrt vOld.sq + a) cruise) (isqrt (2 * a * d)) := rfl

section

variable {a cruise : Nat} {vOld p m : Vec3}

theorem cueProfile_of_near (h : (m.minus p).norm ≤ profileSpeed a cruise vOld (m.minus p).norm) :
    cueProfile a cruise vOld p m = m.minus p := if_pos h

/-- Beyond one period's way each component is the way left, scaled to the speed and truncated (R58). -/
theorem cueProfile_of_far {s : Nat} (hs : profileSpeed a cruise vOld (m.minus p).norm = s) (h : s < (m.minus p).norm)
    (k : Axis) :
    (cueProfile a cruise vOld p m).get k = quot ((m.get k - p.get k) * s) (m.minus p).norm := by
  subst hs
  have far : cueProfile a cruise vOld p m = Vec3.byAxis fun k =>
      quot ((m.get k - p.get k) * profileSpeed a cruise vOld (m.minus p).norm) (m.minus p).norm := if_neg (not_le.2 h)
  rw [far, Vec3.byAxis_get]

theorem norm_cueProfile_of_far {s : Nat} (hs : profileSpeed a cruise vOld (m.minus p).norm = s)
    (h : s < (m.minus p).norm) : (cueProfile a cruise vOld p m).norm ≤ s := by
  have part : ∀ k, ((cueProfile a cruise vOld p m).get k).natAbs = ((m.minus p).get k).natAbs * s / (m.minus p).norm := by
    intro k
    rw [cueProfile_of_far hs h, natAbs_quot, Int.natAbs_mul, Int.natAbs_natCast, Int.natAbs_natCast, Vec3.minus_get]
  have scaled : ∀ k, ((cueProfile a cruise vOld p m).get k).natAbs * ((cueProfile a cruise vOld p m).get k).natAbs
      * ((m.minus p).norm * (m.minus p).norm) ≤ ((m.minus p).get k).natAbs * ((m.minus p).get k).natAbs * (s * s) := by
    intro k
    rw [part]
    exact scaled_sq_le _ _ _
  rw [Vec3.norm] at h scaled ⊢
  refine isqrt_le_of_scaled h ?_
  calc (cueProfile a cruise vOld p m).sq * (isqrt (m.minus p).sq * isqrt (m.minus p).sq)
      ≤ (m.minus p).x.natAbs * (m.minus p).x.natAbs * (s * s) + (m.minus p).y.natAbs * (m.minus p).y.natAbs * (s * s)
          + (m.minus p).z.natAbs * (m.minus p).z.natAbs * (s * s) := by
        rw [Vec3.sq_eq (cueProfile a cruise vOld p m), Nat.add_mul, Nat.add_mul]
        exact Nat.add_le_add (Nat.add_le_add (scaled .x) (scaled .y)) (scaled .z)
    _ = (m.minus p).sq * (s * s) := by rw [Vec3.sq_eq, Nat.add_mul, Nat.add_mul]

end

section

variable {a cruise : Nat} {vOld p : Vec3} {e : ExitTarget}

theorem evictDemand_of_near (h : exitDistance p e ≤ profileSpeed a cruise vOld (exitDistance p e)) :
    evictDemand a cruise vOld p e = e.pos.minus p := if_pos h

theorem evictDemand_of_far (h : profileSpeed a cruise vOld (exitDistance p e) < exitDistance p e) :
    evictDemand a cruise vOld p e = zero3.put e.dir.axis
      (if p.get e.dir.axis < e.pos.get e.dir.axis then (profileSpeed a cruise vOld (exitDistance p e) : Int)
        else -(profileSpeed a cruise vOld (exitDistance p e) : Int)) := if_neg (not_le.2 h)

end

theorem zero3_get (k : Axis) : zero3.get k = 0 := by cases k <;> rfl

/-! ## The stages together -/

/-- A computation whose demand no stage cuts commits it (R51). -/
theorem commit_of_uncut {s : State} {c : Computation}
    (rate : ∀ k, (c.demand.get k - c.vOld.get k).natAbs ≤ stageAccel s.motion.lim c.mode c.kind)
    (across : horizontalSpeed c.demand
      ≤ horizontalLimit s.motion.lim (classCap s.span.classCaps c.speedClass) s.period.configured c.zones c.p)
    (along : c.demand.z.natAbs ≤ min s.motion.lim.vz (classCap s.span.classCaps c.speedClass))
    (clear : approach s.period.configured s.motion.lim s.span.flightBox c.zones c.p c.demand = c.demand)
    (inside : s.span.flightBox.has (c.p.plus c.demand) = true)
    (free : ∀ g ∈ barringBoxes s.motion.lim.standoff c.zones, g.has (c.p.plus c.demand) = false) :
    committedP c s = c.p.plus c.demand := by
  have velocity : shapedVelocity s c = c.demand := by
    rw [shapedVelocity_eq, cappedVelocity, rateLimit_of_within rate, speedCap_of_within across along, clear]
  rw [committedP, nextPosition, velocity, stepped_of_free inside free]
  rfl

theorem Vec3.plus_minus_cancel (p v : Vec3) : (p.plus v).minus p = v := by
  refine Vec3.ext_get fun k => ?_
  rw [Vec3.minus_get, Vec3.plus_get]
  omega

theorem horizontalLimit_cases (lim : Limits) (cap : Nat) (std : Standard) (zones : List Zone) (p : Vec3) :
    horizontalLimit lim cap std zones p = lim.vh ∨ horizontalLimit lim cap std zones p = cap
      ∨ ∃ z ∈ zones, z.kind = .slow ∧ z.box.um.has p = true ∧ horizontalLimit lim cap std zones p = slowCap std z := by
  rcases (horizontalLimit_spec lim cap std zones p).2 with e | slow
  · rcases min_choice lim.vh cap with m | m
    · exact .inl (e.trans m)
    · exact .inr (.inl (e.trans m))
  · exact .inr (.inr slow)

/-- The candidate axis of least penetration, the earlier one on a tie, is the one a clip takes (R49). -/
theorem clipZone_of_least {g : Box} {p q : Vec3} {k : Axis} (inside : g.has q = true) (cand : ClipAxis g p k)
    (least : ∀ j, ClipAxis g p j → penetration g p q k < penetration g p q j
      ∨ penetration g p q k = penetration g p q j ∧ axisCode k ≤ axisCode j) :
    clipZone p q g = q.put k (clipCoordinate g p k) := by
  obtain ⟨j, hj, e, first⟩ := clipZone_of_inside inside cand
  have code : axisCode j = axisCode k := by
    rcases first k cand with there | ⟨there, codes⟩ <;> rcases least j hj with here | ⟨here, codes'⟩ <;> omega
  have same : j = k := by
    revert code
    cases j <;> cases k <;> decide
  rw [e, same]

theorem clampIn_of_ordered {box : Box} (ordered : box.ordered = true) (q : Vec3) :
    box.clampIn q = ⟨max box.xMin (min box.xMax q.x), max box.yMin (min box.yMax q.y), max box.zMin (min box.zMax q.z)⟩ := by
  simp only [Box.ordered, decide_eq_true_eq] at ordered
  obtain ⟨x, y, z⟩ := ordered
  simp only [Box.clampIn, clamp_eq _ _ _ x, clamp_eq _ _ _ y, clamp_eq _ _ _ z]

/-- A vector along one axis, by the way it points. -/
theorem along_axis (k : Axis) (up : Prop) [Decidable up] (n : Nat) :
    let w := zero3.put k (if up then (n : Int) else -(n : Int))
    (w.get k).natAbs = n ∧ (up → 0 ≤ w.get k) ∧ (¬up → w.get k ≤ 0) ∧ ∀ j, j ≠ k → w.get j = 0 := by
  dsimp only
  rw [Vec3.put_get_self]
  refine ⟨?_, fun h => ?_, fun h => ?_, fun j other => ?_⟩
  · split <;> simp
  · rw [if_pos h]; simp
  · rw [if_neg h]; simp
  · rw [Vec3.put_get_of_ne _ _ _ _ other, zero3_get]

/-- Settles O27: stage by stage. -/
theorem stagesOfTheStep : Obligations.StagesOfTheStep := by
  refine ⟨fun lim a vOld demand k => ?_, fun vh vz v => ?_, fun lim cap std zones p => ?_, fun g p q k => ?_,
    fun box boxes p v ordered => ?_, fun s c held hc => ?_, fun a cruise vOld p m e => ?_⟩
  · dsimp only
    rw [rateLimit_get]
    refine ⟨by omega, by omega, by omega, fun m kind moving => if_neg moving, rfl, rfl⟩
  · have height : (speedCap vh vz v).z = max (-(vz : Int)) (min vz v.z) := clamp_eq _ _ _ (by omega)
    refine ⟨fun level => ⟨if_neg (not_lt.2 level), if_neg (not_lt.2 level)⟩, fun fast => ⟨if_pos fast, if_pos fast⟩, ?_⟩
    omega
  · obtain ⟨⟨least, slow⟩, -⟩ := horizontalLimit_spec lim cap std zones p
    refine ⟨least.trans (min_le_left _ _), least.trans (min_le_right _ _), ?_, horizontalLimit_cases lim cap std zones p⟩
    rintro n ⟨z, hz, kind, holds, rfl⟩
    exact slow z hz kind holds
  · refine ⟨fun stays => clipZone_of_stays (stays.imp id fun inside j => ?_), fun inside cand least => ?_⟩
    · have := (g.has_iff p).1 inside j
      unfold ClipAxis
      omega
    · exact clipZone_of_least inside cand least
  · rw [stepped, clampIn_of_ordered ordered, clipFrom_eq]
    rfl
  · intro d lim std a cap h goal rate vh capH vz capZ slow clear inside free
    have same : classCap s.span.classCaps c.speedClass = cap := by
      simp only [cap]
      rcases c.speedClass with _ | _ | _ | _ | _ <;> rfl
    have landed : committedP c s = c.p.plus d := by
      refine commit_of_uncut rate ?_ (le_min vz (same.symm ▸ capZ)) clear inside fun g hg => ?_
      · rcases horizontalLimit_cases s.motion.lim (classCap s.span.classCaps c.speedClass) s.period.configured c.zones c.p
          with e | e | ⟨z, hz, kind, holds, e⟩ <;> rw [e]
        · exact vh
        · exact same.symm ▸ capH
        · exact slow z hz kind holds
      · obtain ⟨z, hz, rfl⟩ := List.mem_map.1 hg
        obtain ⟨member, bars⟩ := List.mem_filter.1 hz
        obtain ⟨active, idle⟩ := Bool.and_eq_true_iff.1 bars
        obtain ⟨state, kind⟩ := (activeKeepOut_eq_true z).1 active
        rw [Bool.eq_false_iff, Ne, guarded_has_iff]
        exact free z member kind state (by simpa using idle)
    refine ⟨commit c s, exec_periodCommit held hc, (commit_p c s).trans (congrArg some landed), ?_⟩
    rw [commit_vOld, landed, Vec3.plus_minus_cancel]
  · intro speed far v near w
    refine ⟨fun close => cueProfile_of_near close, fun fast => ⟨fun k => ⟨cueProfile_of_far rfl fast k, ?_⟩,
      norm_cueProfile_of_far rfl fast⟩, fun close => evictDemand_of_near close, fun fast => ?_⟩
    · show ((cueProfile a cruise vOld p m).get k).natAbs ≤ _
      rw [cueProfile_of_far rfl fast]
      exact (shortens_quot_mul _ fast.le).natAbs_le
    · have demand : w = zero3.put e.dir.axis
          (if p.get e.dir.axis < e.pos.get e.dir.axis then (speed near : Int) else -(speed near : Int)) :=
        evictDemand_of_far fast
      obtain ⟨size, up, down, others⟩ := along_axis e.dir.axis (p.get e.dir.axis < e.pos.get e.dir.axis) (speed near)
      rw [← demand] at size up down others
      exact ⟨size, up, fun below => down (by omega), others⟩

end Sys2Proof.Machine
end

