-- ==== Sys2Proof/Proofs/ExitSearch.lean ====
section
/-! PROOFS. The exit search: the candidates that count, and the nearest of them (R53 to R55). -/

namespace Sys2Proof.Machine

/-- A running maximum, as the running minimum of the reversed order. -/
theorem foldl_max_spec {α : Type} (f : α → Int) (l : List α) (n : Int) :
    (n ≤ l.foldl (fun m x => max m (f x)) n ∧ ∀ x ∈ l, f x ≤ l.foldl (fun m x => max m (f x)) n)
      ∧ (l.foldl (fun m x => max m (f x)) n = n ∨ ∃ x ∈ l, l.foldl (fun m x => max m (f x)) n = f x) :=
  foldl_min_spec (β := ℤᵒᵈ) f l n

/-- 1 µm beyond the face of a guarded box in a direction (R53). -/
def exitFace (d : Dir) (g : Box) : Int := if d.isPlus then g.hi d.axis + 1 else g.lo d.axis - 1

/-- The coordinate lies beyond the face in the direction, or on the candidate of it. -/
def Dir.beyond (d : Dir) (face c : Int) : Prop := if d.isPlus then face ≤ c else c ≤ face

theorem exitCoordinate_nil (d : Dir) : exitCoordinate d [] = none := rfl

/-- The coordinate of a direction is the face of one box of O, and beyond that of every other (R53). -/
theorem exitCoordinate_cons (d : Dir) (b : Box) (bs : List Box) :
    ∃ c, exitCoordinate d (b :: bs) = some c ∧ (∃ g ∈ b :: bs, c = exitFace d g)
      ∧ ∀ g ∈ b :: bs, d.beyond (exitFace d g) c := by
  rcases plus : d.isPlus with _ | _
  · obtain ⟨⟨first, all⟩, one⟩ := foldl_min_spec (fun g : Box => g.lo d.axis) bs (b.lo d.axis)
    refine ⟨_, by simp only [exitCoordinate, plus]; rfl, ?_, ?_⟩
    · rcases one with e | ⟨g, hg, e⟩
      · exact ⟨b, by simp, by simp [exitFace, plus, e]⟩
      · exact ⟨g, by simp [hg], by simp [exitFace, plus, e]⟩
    · simpa [Dir.beyond, exitFace, plus] using ⟨first, all⟩
  · obtain ⟨⟨first, all⟩, one⟩ := foldl_max_spec (fun g : Box => g.hi d.axis) bs (b.hi d.axis)
    refine ⟨_, by simp only [exitCoordinate, plus]; rfl, ?_, ?_⟩
    · rcases one with e | ⟨g, hg, e⟩
      · exact ⟨b, by simp, by simp [exitFace, plus, e]⟩
      · exact ⟨g, by simp [hg], by simp [exitFace, plus, e]⟩
    · simpa [Dir.beyond, exitFace, plus] using ⟨first, all⟩

theorem Dir.beyond_antisymm {d : Dir} {x y : Int} (h : d.beyond x y) (k : d.beyond y x) : x = y := by
  unfold Dir.beyond at h k
  split at h <;> simp_all <;> omega

/-- A coordinate is that of a direction exactly when it is the face of one box of O, and beyond that of every other. -/
theorem exitCoordinate_eq_some (d : Dir) (boxes : List Box) (c : Int) :
    exitCoordinate d boxes = some c ↔ (∃ g ∈ boxes, c = exitFace d g) ∧ ∀ g ∈ boxes, d.beyond (exitFace d g) c := by
  rcases boxes with _ | ⟨b, bs⟩
  · simp [exitCoordinate_nil]
  · obtain ⟨m, hm, ⟨g, hg, face⟩, all⟩ := exitCoordinate_cons d b bs
    rw [hm]
    constructor
    · rintro ⟨rfl⟩
      exact ⟨⟨g, hg, face⟩, all⟩
    · rintro ⟨⟨h, hh, e⟩, most⟩
      have up := all h hh
      have down := most g hg
      rw [← e] at up
      rw [← face] at down
      exact congrArg some (Dir.beyond_antisymm down up)

/-! ## The candidates that count (R53) -/

theorem mem_occupiedBoxes {standoff : Nat} {zones : List Zone} {g : Box} :
    g ∈ occupiedBoxes standoff zones
      ↔ ∃ z, (z ∈ zones ∧ z.kind = .keepOut ∧ z.state = .active ∧ z.occupied = true) ∧ z.guarded standoff = g := by
  simp only [occupiedBoxes, List.mem_map, List.mem_filter, Bool.and_eq_true, activeKeepOut_eq_true]
  refine exists_congr fun z => ?_
  tauto

theorem not_barred_iff {standoff : Nat} {zones : List Zone} {q : Vec3} :
    (barringBoxes standoff zones).all (fun b => !b.has q) = true
      ↔ ∀ z ∈ zones, z.kind = .keepOut → z.state = .active → z.occupied = false → ¬Inside z standoff q := by
  simp only [barringBoxes, List.all_map, List.all_filter, List.all_eq_true, ← guarded_has_iff]
  refine forall₂_congr fun z hz => ?_
  have active := activeKeepOut_eq_true z
  rcases ha : z.activeKeepOut with _ | _ <;> simp only [ha] at active ⊢
  · simp only [Bool.false_and, Bool.not_false, Bool.true_or, true_iff]
    tauto
  · rcases z.occupied <;> simp_all

theorem exitFace_guarded (d : Dir) (z : Zone) (n : Nat) :
    exitFace d (z.guarded n)
      = if d.isPlus then z.box.hi d.axis * 1000 + (n : Int) + 1 else z.box.lo d.axis * 1000 - (n : Int) - 1 := by
  rw [exitFace, Zone.guarded_lo, Zone.guarded_hi]

/-- A point of the exit search lies inside the flight box and outside every guarded box that bars it (R53). -/
def ExitFree (box : Box) (standoff : Nat) (zones : List Zone) (q : Vec3) : Prop :=
  box.has q = true
    ∧ ∀ z ∈ zones, z.kind = .keepOut → z.state = .active → z.occupied = false → ¬Inside z standoff q

theorem exitFree_iff (box : Box) (standoff : Nat) (zones : List Zone) (q : Vec3) :
    (box.has q && (barringBoxes standoff zones).all fun b => !b.has q) = true ↔ ExitFree box standoff zones q := by
  rw [Bool.and_eq_true, not_barred_iff, ExitFree]

/-- A candidate that counts is P moved to the coordinate of its direction, at a free point (R53). -/
theorem exitCounts_iff (box : Box) (standoff : Nat) (zones : List Zone) (p : Vec3) (dir : Dir) (pos : Vec3) :
    ExitCounts box standoff zones p ⟨dir, pos⟩
      ↔ (∃ c, exitCoordinate dir (occupiedBoxes standoff zones) = some c ∧ pos = p.put dir.axis c)
        ∧ ExitFree box standoff zones pos := by
  unfold ExitCounts ExitFree
  dsimp only
  rw [← and_assoc]
  refine and_congr ⟨?_, ?_⟩ Iff.rfl
  · rintro ⟨⟨z, hz, e⟩, all⟩
    refine ⟨_, (exitCoordinate_eq_some ..).2 ⟨⟨_, mem_occupiedBoxes.2 ⟨z, hz, rfl⟩, rfl⟩, ?_⟩, ?_⟩
    · rintro g hg
      obtain ⟨y, hy, rfl⟩ := mem_occupiedBoxes.1 hg
      have := all y hy
      rw [e, Vec3.put_get_self] at this
      rw [exitFace_guarded, exitFace_guarded]
      exact this
    · rw [exitFace_guarded]
      exact e
  · rintro ⟨c, hc, rfl⟩
    obtain ⟨⟨g, hg, e⟩, all⟩ := (exitCoordinate_eq_some ..).1 hc
    obtain ⟨z, hz, rfl⟩ := mem_occupiedBoxes.1 hg
    rw [exitFace_guarded] at e
    refine ⟨⟨z, hz, by rw [← e]⟩, fun y hy => ?_⟩
    have := all _ (mem_occupiedBoxes.2 ⟨y, hy, rfl⟩)
    rw [exitFace_guarded] at this
    rw [Vec3.put_get_self]
    exact this

/-- The candidate of a direction is the target in it that counts. -/
theorem exitCandidate_eq_some (box : Box) (standoff : Nat) (zones : List Zone) (p : Vec3) (d : Dir) (e : ExitTarget) :
    exitCandidate box standoff zones p d = some e ↔ e.dir = d ∧ ExitCounts box standoff zones p e := by
  obtain ⟨dir, pos⟩ := e
  rw [exitCounts_iff]
  unfold exitCandidate
  rcases hc : exitCoordinate d (occupiedBoxes standoff zones) with _ | c
  · simp only [reduceCtorEq, false_iff]
    rintro ⟨rfl, ⟨c, none, -⟩, -⟩
    rw [hc] at none
    cases none
  · dsimp only
    split
    · next free =>
      have free := (exitFree_iff ..).1 free
      simp only [Option.some.injEq, ExitTarget.mk.injEq]
      constructor
      · rintro ⟨rfl, rfl⟩
        exact ⟨rfl, ⟨c, hc, rfl⟩, free⟩
      · rintro ⟨rfl, ⟨c', hc', rfl⟩, -⟩
        rw [hc] at hc'
        cases hc'
        exact ⟨rfl, rfl⟩
    · next barred =>
      simp only [reduceCtorEq, false_iff]
      rintro ⟨rfl, ⟨c', hc', rfl⟩, free⟩
      rw [hc] at hc'
      cases hc'
      exact barred ((exitFree_iff ..).2 free)

/-! ## The nearest of them (R54, R55) -/

theorem mem_exitCandidates {box : Box} {standoff : Nat} {zones : List Zone} {p : Vec3} {e : ExitTarget} :
    e ∈ Dir.list.filterMap (exitCandidate box standoff zones p) ↔ ExitCounts box standoff zones p e := by
  simp only [List.mem_filterMap, exitCandidate_eq_some]
  exact ⟨fun ⟨_, _, _, counts⟩ => counts, fun counts => ⟨e.dir, by cases e.dir <;> simp [Dir.list], rfl, counts⟩⟩

/-- The candidates stand in the order of their ties. -/
theorem exitCandidates_rising (box : Box) (standoff : Nat) (zones : List Zone) (p : Vec3) :
    (Dir.list.filterMap (exitCandidate box standoff zones p)).Pairwise (fun e f => e.dir.code < f.dir.code) := by
  refine List.Pairwise.filterMap (R := fun c d => Dir.code c < Dir.code d) _ (fun c d hcd e he f hf => ?_) (by decide)
  rw [((exitCandidate_eq_some ..).1 he).1, ((exitCandidate_eq_some ..).1 hf).1]
  exact hcd

/-- Settles O31: the fold over the candidates finds the first of the nearest. -/
theorem exitSearchIsNearest : Obligations.ExitSearchIsNearest := by
  intro box standoff zones p
  have rising := exitCandidates_rising box standoff zones p
  have member := fun f => mem_exitCandidates (box := box) (standoff := standoff) (zones := zones) (p := p) (e := f)
  unfold exitSearch
  generalize Dir.list.filterMap (exitCandidate box standoff zones p) = candidates at rising member ⊢
  rcases candidates with _ | ⟨c, cs⟩
  · refine ⟨fun e he => (nomatch he), iff_of_true rfl fun f hf => ?_⟩
    exact absurd ((member f).2 hf) (by simp)
  · obtain ⟨chosen, least⟩ := firstLeast_spec (exitDistance p) (fun e => e.dir.code) c cs rising
    have found : cs.foldl (nearer p) c = firstLeast (exitDistance p) c cs := rfl
    dsimp only
    rw [found]
    refine ⟨fun e he => ?_, iff_of_false (by simp) fun none => none _ ((member _).1 chosen)⟩
    cases he
    refine ⟨(member _).1 chosen, fun f hf => ?_⟩
    rcases least f ((member f).2 hf) with nearer | ⟨same, code⟩
    · exact ⟨nearer.le, fun e => absurd e nearer.ne⟩
    · exact ⟨same.le, fun _ => code⟩

end Sys2Proof.Machine
end

