-- ==== Sys2Proof/Proofs/CueOutcomes.lean ====
section
/-! PROOFS. What the end of a cue, its failure, its completion and its start leave, told from the state before them; and the rows
CUE_DWELL_EXPIRY and CUE_BLOCKED (R57, R59 to R62, R100 to R102, R106, R117). -/

namespace Sys2Proof.Machine

/-! ## The list and the holder as seen from an earlier state -/

/-- The list, the holder and their two flags are as they were. -/
structure CueStands (s u : State) : Prop where
  cue : u.cue = s.cue
  auth : u.auth = s.auth
  want : eventSet u .cueWant = eventSet s .cueWant
  authority : eventSet u .authority = eventSet s .authority

theorem WantsByCount.of_stands {s u t : State} (h : CueStands s u) (k : WantsByCount u t) : WantsByCount s t := by
  unfold WantsByCount at *
  rw [← h.want, ← h.cue]
  exact k

theorem CueBasisOver.of_authority {a : Authority} {s u t : State} (h : eventSet u .authority = eventSet s .authority)
    (k : CueBasisOver a u t) : CueBasisOver a s t := by
  intro x hx
  obtain ⟨explicit, alone⟩ := k x hx
  exact ⟨fun e => by rw [← h]; exact explicit e, alone⟩

/-- Two removals, one after the other, take the count below W once (R106). -/
theorem WantsByCount.trans {s u t : State} (h : WantsByCount s u) (k : WantsByCount u t)
    (window : u.cue.window = s.cue.window) (first : u.cue.entries.length ≤ s.cue.entries.length)
    (second : t.cue.entries.length ≤ u.cue.entries.length) : WantsByCount s t := by
  unfold WantsByCount at *
  rw [k, h, window]
  constructor
  · rintro ((set | ⟨enough, few⟩) | ⟨enough, few⟩)
    · exact .inl set
    · exact .inr ⟨enough, by omega⟩
    · exact .inr ⟨by omega, few⟩
  · rintro (set | ⟨enough, few⟩)
    · exact .inl (.inl set)
    · by_cases below : u.cue.entries.length < s.cue.window
      · exact .inl (.inr ⟨enough, below⟩)
      · exact .inr ⟨by omega, few⟩

/-- A cue has ended between `s` and `t` (R102, R117). -/
structure CueEnded (s t : State) : Prop where
  running : t.cue.running = false
  copy : t.motion.copy = none
  mode : t.motion.mode = if anyOccupied s then .evict else .hold
  basis : CueBasisOver s.auth s t

theorem CueOver.ended {s t : State} (h : CueOver s t) : CueEnded s t :=
  ⟨h.running, by rw [h.motion], by rw [h.motion], h.basis⟩

/-! ## The way of a cue (R57) -/

theorem markTarget_congr {s u : State} (h : u.marks = s.marks) (n : Nat) : markTarget u n = markTarget s n := by
  rw [markTarget, markTarget, h]

theorem copyOf_congr {s u : State} (h : ControlFrame s u) (e : CueEntry) : copyOf u e = copyOf s e := by
  rw [copyOf, copyOf, markTarget_congr h.marks, h.lim, h.period, heldP, heldP, h.p]

/-- The start check of an entry (R61). -/
def barredEntry (s : State) (e : CueEntry) : Bool :=
  unreachable s.span.flightBox s.motion.lim.standoff (liveZones s.air) (markTarget s e.mark)

theorem barredEntry_congr {s u : State} (h : ControlFrame s u) (e : CueEntry) : barredEntry u e = barredEntry s e := by
  rw [barredEntry, barredEntry, markTarget_congr h.marks, h.span, h.lim, h.air]

/-! ## Failure (R62, R101) -/

/-- The head entry `e` has failed between `s` and `t`. -/
structure Failed (why : FailReason) (e : CueEntry) (rest : List CueEntry) (s t : State) : Prop where
  way : CueWay s t
  ended : CueEnded s t
  wants : WantsByCount s t
  entries : t.cue.entries = rest
  event : eventSet t .cueFailed = true
  failure : t.cue.failure = some { reason := why, mark := e.mark }
  done : eventSet t .cueDone = eventSet s .cueDone

section

variable {s : State} {e : CueEntry} {rest : List CueEntry}

theorem failed_failHead (why : FailReason) (entries : s.cue.entries = e :: rest) (holder : s.auth.holder.isSome = true)
    (stick : s.motion.mode ≠ .stick) : Failed why e rest s (failHead why s) := by
  obtain ⟨h, hh⟩ := Option.isSome_iff_exists.1 holder
  have written := listWritten_failRecorded why s
  have holderU : (failRecorded why s).auth.holder = some h := by rw [written.auth, hh]
  have stickU : (failRecorded why s).motion.mode ≠ .stick := by rw [written.motion]; exact stick
  have cue : (failHead why s).cue
      = { s.cue with entries := rest, running := false, failure := some { reason := why, mark := e.mark } } := by
    rw [failHead_eq, endCue_cue holderU stickU, failRecorded_cue]
    simp [headMark, entries]
  have event : ∀ f, f ≠ .authority → eventSet (failHead why s) f = eventSet (failRecorded why s) f := by
    intro f hf
    rw [failHead_eq, eventSet_endCue holderU stickU]
    simp [hf]
  refine ⟨.failHead why s, (cueOver_failHead why holder stick).ended, ?_, by rw [cue], ?_, by rw [cue], ?_⟩
  · unfold WantsByCount
    rw [event _ (by decide), eventSet_failRecorded, cue, entries, List.tail_cons]
    simp
  · rw [event _ (by decide), eventSet_failRecorded]
    simp
  · rw [event _ (by decide), eventSet_failRecorded]
    simp

/-! ## Completion (R59, R100) -/

/-- The next entry `e` runs in `t`, as the state `s` before it gives it (R57, R99). -/
structure Started (e : CueEntry) (s t : State) : Prop where
  running : t.cue.running = true
  mode : t.motion.mode = .cue
  auth : t.auth = s.auth
  copy : t.motion.copy = some (copyOf s e)

/-- The head entry `e` has completed between `s` and `t`: the cue ends, or the next entry starts, or fails at once. -/
structure Completed (e : CueEntry) (rest : List CueEntry) (s t : State) : Prop where
  way : CueWay s t
  wants : WantsByCount s t
  event : eventSet t .cueDone = true
  last : e.haltAfter = true ∨ rest = [] → CueEnded s t ∧ t.cue.entries = rest ∧ t.cue.failure = s.cue.failure
  next : e.haltAfter = false → ∀ e2 rest2, rest = e2 :: rest2 → barredEntry s e2 = false →
    Started e2 s t ∧ t.cue.entries = rest ∧ t.cue.failure = s.cue.failure
  barred : e.haltAfter = false → ∀ e2 rest2, rest = e2 :: rest2 → barredEntry s e2 = true →
    CueEnded s t ∧ t.cue.entries = rest2 ∧ eventSet t .cueFailed = true
      ∧ t.cue.failure = some { reason := .unreachable, mark := e2.mark }

/-- A removal is what raises CUE_WANT before a completion ends or goes on (R106). -/
theorem wantsByCount_doneRecorded (entries : s.cue.entries = e :: rest) : WantsByCount s (doneRecorded rest s) := by
  unfold WantsByCount
  rw [eventSet_doneRecorded, doneRecorded_cue, entries]
  simp

theorem completed_last (entries : s.cue.entries = e :: rest) (holder : s.auth.holder.isSome = true)
    (stick : s.motion.mode ≠ .stick) (last : e.haltAfter = true ∨ rest = []) : Completed e rest s (completeCue s) := by
  obtain ⟨h, hh⟩ := Option.isSome_iff_exists.1 holder
  have written := listWritten_doneRecorded rest s
  have holderU : (doneRecorded rest s).auth.holder = some h := by rw [written.auth, hh]
  have stickU : (doneRecorded rest s).motion.mode ≠ .stick := by rw [written.motion]; exact stick
  have way := CueWay.completeCue s
  rw [completeCue_last entries last] at way ⊢
  have cue : (endCue (doneRecorded rest s)).cue = { s.cue with entries := rest, running := false } := by
    rw [endCue_cue holderU stickU, doneRecorded_cue]
  have event : ∀ f, f ≠ .authority → eventSet (endCue (doneRecorded rest s)) f = eventSet (doneRecorded rest s) f := by
    intro f hf
    rw [eventSet_endCue holderU stickU]
    simp [hf]
  have goes : ∀ e2 rest2, e.haltAfter = false → rest = e2 :: rest2 → False := by
    rintro e2 rest2 goes rfl
    simp [goes] at last
  refine ⟨way, ?_, ?_, fun _ => ⟨(cueOver_endCue written holder stick).ended, by rw [cue], by rw [cue]⟩,
    fun g e2 rest2 more => (goes e2 rest2 g more).elim, fun g e2 rest2 more => (goes e2 rest2 g more).elim⟩
  · have wants := wantsByCount_doneRecorded entries
    unfold WantsByCount at wants ⊢
    rw [event _ (by decide), wants, cue, doneRecorded_cue]
  · rw [event _ (by decide), eventSet_doneRecorded]
    simp

theorem completed_next {e2 : CueEntry} {rest2 : List CueEntry} (entries : s.cue.entries = e :: e2 :: rest2)
    (holder : s.auth.holder.isSome = true) (mode : s.motion.mode = .cue) (goes : e.haltAfter = false) :
    Completed e (e2 :: rest2) s (completeCue s) := by
  have way := CueWay.completeCue s
  rw [completeCue_next entries goes (by simp)] at way ⊢
  have written := listWritten_doneRecorded (e2 :: rest2) s
  generalize hu : dropCopy (doneRecorded (e2 :: rest2) s) = u at way ⊢
  have frame : ControlFrame s u := by rw [← hu]; exact written.frame.trans (frame_dropCopy _)
  have cue : u.cue = { s.cue with entries := e2 :: rest2, running := false } := by
    rw [← hu, dropCopy_cue, doneRecorded_cue]
  have auth : u.auth = s.auth := by rw [← hu]; exact written.auth
  have authority : eventSet u .authority = eventSet s .authority := by rw [← hu]; exact written.authority
  have modeU : u.motion.mode = .cue := by rw [← hu, dropCopy_motion, written.motion]; exact mode
  have done : eventSet u .cueDone = true := by
    rw [← hu]
    show eventSet (doneRecorded _ s) _ = true
    rw [eventSet_doneRecorded]
    simp
  have wants : WantsByCount s u := by
    have before := wantsByCount_doneRecorded entries
    unfold WantsByCount at before ⊢
    rw [cue, show eventSet u .cueWant = eventSet (doneRecorded (e2 :: rest2) s) .cueWant by rw [← hu]; rfl, before,
      doneRecorded_cue]
  have entriesU : u.cue.entries = e2 :: rest2 := by rw [cue]
  have notLast : ¬(e.haltAfter = true ∨ e2 :: rest2 = []) := by simp [goes]
  rcases hb : barredEntry s e2 with _ | _
  · have free : barredEntry u e2 = false := by rw [barredEntry_congr frame, hb]
    rw [startHead_of_free entriesU free] at way ⊢
    refine ⟨way, wants, done, fun h => absurd h notLast, ?_, ?_⟩
    · rintro - x xs same -
      cases same
      refine ⟨⟨rfl, rfl, auth, ?_⟩, entriesU, by rw [cue]⟩
      rw [copyOf_congr frame]
    · rintro - x xs same bars
      cases same
      rw [hb] at bars
      cases bars
  · have bars : barredEntry u e2 = true := by rw [barredEntry_congr frame, hb]
    rw [startHead_of_barred entriesU bars] at way ⊢
    have failed := failed_failHead .unreachable entriesU (by rw [auth]; exact holder) (by simp [modeU])
    obtain ⟨-, ⟨running, copy, modeT, basis⟩, wantsT, entriesT, event, failure, doneT⟩ := failed
    refine ⟨way, wants.trans wantsT (by rw [cue]) (by rw [entriesU, entries]; simp) (by rw [entriesT, entriesU]; simp),
      doneT.trans done, fun h => absurd h notLast, ?_, ?_⟩
    · rintro - x xs same free
      cases same
      rw [hb] at free
      cases free
    · rintro - x xs same -
      cases same
      refine ⟨⟨running, copy, ?_, ?_⟩, entriesT, event, failure⟩
      · rw [modeT, anyOccupied_congr frame.air]
      · rw [auth] at basis
        exact basis.of_authority authority

theorem completed_completeCue (entries : s.cue.entries = e :: rest) (holder : s.auth.holder.isSome = true)
    (mode : s.motion.mode = .cue) : Completed e rest s (completeCue s) := by
  by_cases last : e.haltAfter = true ∨ rest = []
  · exact completed_last entries holder (by simp [mode]) last
  · obtain ⟨goes, more⟩ := not_or.1 last
    obtain ⟨e2, rest2, rfl⟩ := List.exists_cons_of_ne_nil more
    exact completed_next entries holder mode (by simpa using goes)

end

/-! ## The threshold rows (log 5) -/

theorem dwellDue_of_copy {s : State} {copy : CueCopy} (mode : s.motion.mode = .cue) (hc : s.motion.copy = some copy) :
    dwellDue s = true ↔ ∃ n, copy.dwellLeft = some n ∧ n ≤ 1 := by
  unfold dwellDue
  rcases hd : copy.dwellLeft with _ | n <;> simp [hc, hd, mode]

theorem blockDue_of_copy {s : State} {copy : CueCopy} (mode : s.motion.mode = .cue) (hc : s.motion.copy = some copy) :
    blockDue s = true ↔ copy.dwellLeft = none ∧ 15 ≤ copy.noProgress := by
  unfold blockDue
  simp [hc, mode]

/-- Settles O32: a row that falls due completes or fails the head entry; one that does not changes nothing. -/
theorem cueThresholds : Obligations.CueThresholds := by
  intro s copy e rest held mode hc entries holder
  have dwell : exec .cueDwellExpiry s = .next (if dwellDue s then completeCue s else s) := by
    simp only [exec, execCueDwellExpiry, unlessHeld_free s _ held]
  have block : exec .cueBlocked s = .next (if blockDue s then failHead .blocked s else s) := by
    simp only [exec, execCueBlocked, unlessHeld_free s _ held]
  have due := dwellDue_of_copy mode hc
  have stuck := blockDue_of_copy mode hc
  dsimp only
  refine ⟨fun n hn le => ?_, fun far => ?_, fun before count => ?_, fun no => ?_⟩
  · rw [dwell, if_pos (due.2 ⟨n, hn, le⟩)]
    obtain ⟨⟨frame, stop, -, -, vOld⟩, wants, event, last, next, barred⟩ := completed_completeCue entries holder mode
    refine ⟨_, rfl, ⟨frame.air, frame.span, frame.marks, frame.ports, stop, frame.period, frame.p, vOld, frame.lengths,
      frame.window, wants⟩, event, fun h => ?_, fun goes e2 rest2 more => ⟨fun free => ?_, fun bars => ?_⟩⟩
    · obtain ⟨⟨running, none, modeT, basis⟩, left, failure⟩ := last h
      exact ⟨⟨running, none, modeT, basis⟩, left, failure⟩
    · obtain ⟨⟨running, modeT, auth, copyT⟩, left, failure⟩ := next goes e2 rest2 more free
      exact ⟨left, running, failure, modeT, auth, copyT⟩
    · obtain ⟨⟨running, none, modeT, basis⟩, left, failed, failure⟩ := barred goes e2 rest2 more bars
      exact ⟨⟨running, none, modeT, basis⟩, left, failed, failure⟩
  · rw [dwell, if_neg]
    rw [due]
    rintro ⟨n, hn, le⟩
    rcases far with none | ⟨m, hm, more⟩
    · rw [none] at hn; cases hn
    · cases hm.symm.trans hn
      omega
  · rw [block, if_pos (stuck.2 ⟨before, count⟩)]
    obtain ⟨⟨frame, stop, -, -, vOld⟩, ⟨running, none, modeT, basis⟩, wants, left, event, failure, -⟩ :=
      failed_failHead .blocked entries holder (by simp [mode])
    exact ⟨_, rfl, ⟨frame.air, frame.span, frame.marks, frame.ports, stop, frame.period, frame.p, vOld, frame.lengths,
      frame.window, wants⟩, ⟨running, none, modeT, basis⟩, left, event, failure⟩
  · rw [block, if_neg]
    rw [stuck]
    rintro ⟨before, count⟩
    rcases no with some | few
    · rw [before] at some; cases some
    · omega

end Sys2Proof.Machine
end

