-- ==== Sys2Proof/Proofs/CueCommits.lean ====
section
/-! PROOFS. The running cue at a commit: progress, arrival and dwell, and with them its failure and its completion (R38, R57, R59,
R60, R100, R101, R106, R117). -/

namespace Sys2Proof.Machine

/-! ## The checks of a running cue, case by case (R59, R60) -/

/-- The no-progress count after a test with the distance `left` to go (R60). -/
def progressCount (copy : CueCopy) (left : Nat) : Nat := if left < copy.lastD then 0 else copy.noProgress + 1

/-- The cue goes on with the copy given. -/
def withCopy (next : CueCopy) (s : State) : State := { s with motion := { s.motion with copy := some next } }

section

variable {s : State} {copy : CueCopy}

theorem cueChecks_dwelling {n : Nat} (hc : s.motion.copy = some copy) (dwells : copy.dwellLeft = some n) :
    cueChecks s = if n ≤ 1 then completeCue s else withCopy { copy with dwellLeft := some (n - 1) } s := by
  simp only [cueChecks, hc, dwells]
  rfl

theorem cueChecks_arrived (hc : s.motion.copy = some copy) (before : copy.dwellLeft = none)
    (there : heldP s = copy.target) :
    cueChecks s = if copy.dwell = 0 then completeCue s else withCopy { copy with dwellLeft := some copy.dwell } s := by
  simp only [cueChecks, hc, before, there, if_true]
  rfl

theorem cueChecks_underway (hc : s.motion.copy = some copy) (before : copy.dwellLeft = none)
    (away : heldP s ≠ copy.target) {left : Nat} (hl : (copy.target.minus (heldP s)).norm = left) :
    cueChecks s =
      let next := withCopy { copy with lastD := left, noProgress := progressCount copy left } s
      if 16 ≤ progressCount copy left then failHead .blocked next else next := by
  subst hl
  have tests : cueChecks s = progressTest copy s := by simp only [cueChecks, hc, before, away, if_false]
  exact tests

variable {e : CueEntry} {rest : List CueEntry}

/-- A cue without progress fails at the count of 16 (R60, R62). -/
theorem failed_cueChecks (hc : s.motion.copy = some copy) (entries : s.cue.entries = e :: rest)
    (holder : s.auth.holder.isSome = true) (mode : s.motion.mode = .cue) (before : copy.dwellLeft = none)
    (away : heldP s ≠ copy.target) (stuck : 16 ≤ progressCount copy (copy.target.minus (heldP s)).norm) :
    Failed .blocked e rest s (cueChecks s) := by
  have way := CueWay.cueChecks s
  rw [cueChecks_underway hc before away rfl] at way ⊢
  dsimp only at way ⊢
  rw [if_pos stuck] at way ⊢
  obtain ⟨-, ⟨running, none, modeT, basis⟩, wants, left, event, failure, done⟩ :=
    failed_failHead .blocked (s := withCopy _ s) entries holder (by simp [withCopy, mode])
  exact ⟨way, ⟨running, none, modeT, basis⟩, wants, left, event, failure, done⟩

/-- A list that stands as it did raises nothing. -/
theorem wantsByCount_refl {s t : State} (cue : t.cue.entries = s.cue.entries)
    (event : eventSet t .cueWant = eventSet s .cueWant) : WantsByCount s t := by
  unfold WantsByCount
  rw [cue, event]
  exact ⟨.inl, fun h => h.elim id fun fell => absurd fell.2 (not_lt.2 fell.1)⟩

theorem wantsByCount_cueChecks (hc : s.motion.copy = some copy) (entries : s.cue.entries = e :: rest)
    (holder : s.auth.holder.isSome = true) (mode : s.motion.mode = .cue) : WantsByCount s (cueChecks s) := by
  have completes := (completed_completeCue entries holder mode).wants
  have goesOn : ∀ next, WantsByCount s (withCopy next s) := fun _ => wantsByCount_refl rfl rfl
  rcases hd : copy.dwellLeft with _ | n
  · by_cases there : heldP s = copy.target
    · rw [cueChecks_arrived hc hd there]
      split
      · exact completes
      · exact goesOn _
    · by_cases stuck : 16 ≤ progressCount copy (copy.target.minus (heldP s)).norm
      · exact (failed_cueChecks hc entries holder mode hd there stuck).wants
      · rw [cueChecks_underway hc hd there rfl]
        dsimp only
        rw [if_neg stuck]
        exact goesOn _
  · rw [cueChecks_dwelling hc hd]
    split
    · exact completes
    · exact goesOn _

end

/-! ## From the commit's table on -/

section

variable {s : State} {c : Computation}

theorem committedTable_eq (c : Computation) (s : State) :
    committedTable c s = { s with
      motion := { s.motion with p := some (committedP c s), vOld := (committedP c s).minus c.p, flight := none }
      air := (committedTable c s).air
      station := { s.station with events := (committedTable c s).station.events } } := by
  rw [committedTable, tableCommit_eq]

theorem eventSet_committedTable {f : Event} (h : f ≠ .zoneActive) : eventSet (committedTable c s) f = eventSet s f := by
  unfold committedTable tableCommit
  dsimp only
  rw [eventSet_raiseIf]
  simp only [h, decide_false, Bool.and_false, Bool.or_false]
  rfl

/-- The table's work leaves the list and the holder as they were. -/
theorem cueStands_committedTable : CueStands s (committedTable c s) :=
  ⟨by rw [committedTable_eq], by rw [committedTable_eq], eventSet_committedTable (by decide),
    eventSet_committedTable (by decide)⟩

theorem committedTable_copy : (committedTable c s).motion.copy = s.motion.copy := by rw [committedTable_eq]

theorem committedTable_mode : (committedTable c s).motion.mode = s.motion.mode := by rw [committedTable_eq]

theorem heldP_committedTable : heldP (committedTable c s) = committedP c s := by rw [committedTable_eq]; rfl

theorem markTarget_committedTable (n : Nat) : markTarget (committedTable c s) n = markTarget s n := by
  rw [committedTable_eq]; rfl

/-- A copy taken at a commit starts from the P committed (R57). -/
theorem copyOf_committedTable (e : CueEntry) :
    copyOf (committedTable c s) e =
      { target := markTarget s e.mark
        cruise := if e.cruise = 0 then s.motion.lim.cueDefault else speedPer s.period.configured e.cruise
        dwell := e.dwell, dwellLeft := none
        lastD := isqrt ((markTarget s e.mark).minus (committedP c s)).sq, noProgress := 0 } := by
  rw [copyOf, markTarget_committedTable, heldP_committedTable, committedTable_eq]
  rfl

/-- The start check of a commit is made on the table as the commit leaves it. -/
theorem barredEntry_committedTable {t : State} (air : t.air = (committedTable c s).air) (e : CueEntry) :
    barredEntry (committedTable c s) e
      = unreachable s.span.flightBox s.motion.lim.standoff (liveZones t.air) (markTarget s e.mark) := by
  rw [barredEntry, markTarget_committedTable, air, committedTable_eq]

/-- The commit of a live cue is the checks of the cue and the lengths. -/
theorem commit_of_cue (ran : c.mode = .cue) (live : c.cueLive = true) :
    commit c s = handLengths (nextPosition s c).isNone (committedP c s) (cueChecks (committedTable c s)) := by
  rw [commit_eq, if_neg (by simp [ran]), cueCommit, if_pos ⟨ran, live⟩]

end

/-- A computation whose cue halted in flight makes no cue checks (R38). -/
theorem commit_of_halted {s : State} {c : Computation} (ran : c.mode = .cue) (idle : c.cueLive = false) :
    (commit c s).cue = s.cue ∧ (commit c s).auth = s.auth ∧ (commit c s).motion.copy = s.motion.copy
      ∧ (commit c s).motion.mode = s.motion.mode := by
  have still : checked c s = committedTable c s := checked_of_no_cue s (by simp [idle])
  have stands := cueStands_committedTable (s := s) (c := c)
  obtain ⟨m, e, hm⟩ := commit_eq_with c s
  rw [e, still]
  refine ⟨stands.cue, stands.auth, committedTable_copy, ?_⟩
  show m = _
  rw [hm, if_neg (by simp [ran]), still, committedTable_mode]

/-- Settles O33: the checks act on the state that the table's work leaves, which is the old one in all that they read but P and
the zones. -/
theorem cueAtCommit : Obligations.CueAtCommit := by
  refine ⟨fun s c copy e rest held hc ran live mode hcopy entries holder => ?_, fun s c held hc ran idle => ?_⟩
  · have stands := cueStands_committedTable (s := s) (c := c)
    have copyU : (committedTable c s).motion.copy = some copy := committedTable_copy.trans hcopy
    have entriesU : (committedTable c s).cue.entries = e :: rest := by rw [stands.cue]; exact entries
    have holderU : (committedTable c s).auth.holder.isSome = true := by rw [stands.auth]; exact holder
    have modeU : (committedTable c s).motion.mode = .cue := committedTable_mode.trans mode
    have way := CueWay.cueChecks (committedTable c s)
    have wants := (wantsByCount_cueChecks copyU entriesU holderU modeU).of_stands stands
    have parts := checked_stands c s
    rw [checked, cueCommit, if_pos ⟨ran, live⟩] at parts
    obtain ⟨span, marks, ports, -, stop, period, -⟩ := parts
    have place : heldP (committedTable c s) = (nextPosition s c).getD c.p := heldP_committedTable
    refine ⟨commit c s, exec_periodCommit held hc, commit_p c s, ?_⟩
    rw [commit_of_cue ran live]
    generalize hv : cueChecks (committedTable c s) = v at way wants span marks ports stop period ⊢
    refine ⟨span, marks, ports, stop, period, way.frame.window.trans (congrArg CueList.window stands.cue), wants, ?_⟩
    intro goesOn ended completes
    have isEnded : CueEnded (committedTable c s) v → ended := by
      rintro ⟨running, none, modeT, basis⟩
      refine ⟨running, none, modeT.trans ?_, ?_⟩
      · rw [← anyOccupied_congr way.frame.air]
        rfl
      · rw [stands.auth] at basis
        exact basis.of_authority stands.authority
    have isGoing : ∀ next, v = withCopy next (committedTable c s) → goesOn next := by
      rintro next rfl
      exact ⟨rfl, modeU, stands.cue, stands.auth⟩
    have isCompleted : v = completeCue (committedTable c s) → completes := by
      intro same
      have outcome : Completed e rest (committedTable c s) v := same ▸ completed_completeCue entriesU holderU modeU
      refine ⟨outcome.event, fun h => ?_, fun goes e2 rest2 more => ?_⟩
      · obtain ⟨over_, left, failure⟩ := outcome.last h
        exact ⟨isEnded over_, left, failure.trans (congrArg CueList.failure stands.cue)⟩
      · have check := barredEntry_committedTable (c := c) (s := s) (t := v) way.frame.air e2
        refine ⟨fun free => ?_, fun bars => ?_⟩
        · obtain ⟨⟨running, modeT, auth, copyT⟩, left, failure⟩ := outcome.next goes e2 rest2 more (check.trans free)
          exact ⟨left, running, failure.trans (congrArg CueList.failure stands.cue), modeT, auth.trans stands.auth,
            copyT.trans (congrArg some (copyOf_committedTable e2))⟩
        · obtain ⟨over_, left, event, failure⟩ := outcome.barred goes e2 rest2 more (check.trans bars)
          exact ⟨isEnded over_, left, event, failure⟩
    have way_left : (copy.target.minus (heldP (committedTable c s))).norm
        = isqrt (copy.target.minus ((nextPosition s c).getD c.p)).sq := by rw [place, Vec3.norm]
    refine ⟨fun before away few => isGoing _ ?_, fun before away stuck => ?_, fun before there waits => isGoing _ ?_,
      fun before there none => isCompleted ?_, fun n dwells => isGoing _ ?_, fun dwells => isCompleted ?_⟩
    · rw [← hv, cueChecks_underway copyU before (by rw [place]; exact away) way_left]
      exact if_neg (not_le.2 few)
    · have failed := failed_cueChecks copyU entriesU holderU modeU before (by rw [place]; exact away)
        (by rw [way_left]; exact stuck)
      rw [hv] at failed
      exact ⟨isEnded failed.ended, failed.entries, failed.event, failed.failure⟩
    · rw [← hv, cueChecks_arrived copyU before (place.trans there)]
      exact if_neg waits
    · rw [← hv, cueChecks_arrived copyU before (place.trans there)]
      exact if_pos none
    · rw [← hv, cueChecks_dwelling copyU dwells]
      exact if_neg (by omega)
    · rw [← hv, cueChecks_dwelling copyU dwells]
      exact if_pos le_rfl
  · exact ⟨_, exec_periodCommit held hc, commit_of_halted ran idle⟩

end Sys2Proof.Machine
end

