-- ==== Sys2Proof/Proofs/CueRequests.lean ====
section
/-! PROOFS. CUE_GO, and CUE_HALT and CUE_FLUSH over a running cue (R36, R38, R98, R99, R102 to R104, R106, R117). -/

namespace Sys2Proof.Machine

/-! ## Halt and flush (R103, R104) -/

/-- What is written to the list after the end of a cue leaves the end as it was. -/
theorem CueOver.written {s t u : State} (h : CueOver s t) (k : ListWritten t u) (running : u.cue.running = false) :
    CueOver s u := by
  obtain ⟨frame, motion, stop, -, auth, basis⟩ := h
  refine ⟨frame.trans k.frame, k.motion.trans motion, k.stop.trans stop, running, fun h hh => k.auth.trans (auth h hh), ?_⟩
  intro h hh
  rw [k.auth, k.authority]
  exact basis h hh

theorem mayHalt_iff (c : StationClass) (st : Nat) (s : State) :
    mayHalt c st s = true ↔ s.auth.holder = some st ∨ c = .safety := by
  simp [mayHalt, holds]

/-- What CUE_FLUSH leaves of a running cue. -/
def flushedCue (s : State) : State :=
  { removeTo [] (endCue s) with cue := { (removeTo [] (endCue s)).cue with failure := none } }

section

variable {s : State} {h : Nat}

theorem cueHalt_running {c : StationClass} {st : Nat} (may : s.auth.holder = some st ∨ c = .safety)
    (mode : s.motion.mode = .cue) : cueHalt st c s = accept (endCue s) (byte 1) := by
  unfold cueHalt
  rw [if_neg (by simp [(mayHalt_iff c st s).2 may]), haltIfRunning_eq mode, mode]
  rfl

theorem cueFlush_running {c : StationClass} {st : Nat} (may : s.auth.holder = some st ∨ c = .safety)
    (mode : s.motion.mode = .cue) : cueFlush st c s = accept (flushedCue s) (byte s.cue.entries.length) := by
  unfold cueFlush
  rw [if_neg (by simp [(mayHalt_iff c st s).2 may]), haltIfRunning_eq mode]
  rfl

/-- What the end of a cue leaves of the list and of its flag. -/
theorem endCue_list (holder : s.auth.holder = some h) (mode : s.motion.mode = .cue) :
    (endCue s).cue = { s.cue with running := false } ∧ eventSet (endCue s) .cueWant = eventSet s .cueWant := by
  have stick : s.motion.mode ≠ .stick := by simp [mode]
  exact ⟨endCue_cue holder stick, by rw [eventSet_endCue holder stick]; simp⟩

theorem flushedCue_cue (holder : s.auth.holder = some h) (mode : s.motion.mode = .cue) :
    (flushedCue s).cue = { s.cue with running := false, entries := [], failure := none } := by
  rw [flushedCue, removeTo_eq, (endCue_list holder mode).1]

theorem wantsByCount_flushedCue (holder : s.auth.holder = some h) (mode : s.motion.mode = .cue) :
    WantsByCount s (flushedCue s) := by
  obtain ⟨cue, want⟩ := endCue_list holder mode
  have event : eventSet (flushedCue s) .cueWant = eventSet (removeTo [] (endCue s)) .cueWant := rfl
  unfold WantsByCount
  rw [event, eventSet_removeTo, flushedCue_cue holder mode, want, cue]
  simp

theorem cueOver_flushedCue (holder : s.auth.holder = some h) (mode : s.motion.mode = .cue) : CueOver s (flushedCue s) := by
  have ended := cueOver_endCue (.refl s) (by rw [holder]; rfl) (by simp [mode])
  exact ended.written ((listWritten_removeTo [] (endCue s)).record _ _)
    (by rw [flushedCue_cue holder mode])

end

/-! ## The start of the head entry (R61, R98, R99) -/

theorem unreachable_iff (box : Box) (standoff : Nat) (zones : List Zone) (target : Vec3) :
    unreachable box standoff zones target = true
      ↔ box.has target = false ∨ ∃ z ∈ zones, z.kind = .keepOut ∧ z.state = .active ∧ Inside z standoff target := by
  rw [unreachable, Bool.or_eq_true, Bool.not_eq_true', barred_iff]

theorem markTarget_of_set {s : State} {n : Nat} {m : Mark} (h : s.marks.getD n none = some m) :
    markTarget s n = m.pos.um := by
  rw [markTarget, h]
  rfl

theorem copyOf_eq {s : State} {e : CueEntry} {m : Mark} {p : Vec3} (hm : s.marks.getD e.mark none = some m)
    (hp : s.motion.p = some p) :
    copyOf s e =
      { target := m.pos.um
        cruise := if e.cruise = 0 then s.motion.lim.cueDefault else speedPer s.period.configured e.cruise
        dwell := e.dwell, dwellLeft := none, lastD := (m.pos.um.minus p).norm, noProgress := 0 } := by
  rw [copyOf, markTarget_of_set hm, heldP, hp]
  rfl

/-- The state from which CUE_GO starts the head: STICK left for HOLD with its buffer flushed, and the CUE basis set. -/
def readyHead (s : State) : State := setCueBasis (if s.motion.mode = .stick then flushStick (setMode .hold s) else s)

theorem goHead_eq (s : State) : goHead s = startHead (readyHead s) := rfl

theorem readyHead_eq (s : State) :
    readyHead s = { s with
      motion := { s.motion with mode := if s.motion.mode = .stick then .hold else s.motion.mode }
      auth := if s.motion.mode = .stick then { flush s.auth with cue := true } else { s.auth with cue := true } } := by
  by_cases stick : s.motion.mode = .stick
  · simp [readyHead, stick, setCueBasis, flushStick, setMode]
  · simp [readyHead, stick, setCueBasis]

theorem readyHead_auth (s : State) :
    (readyHead s).auth = { (if s.motion.mode = .stick then flush s.auth else s.auth) with cue := true } := by
  unfold readyHead setCueBasis
  split <;> rfl

/-- The CUE basis set before a cue ends is the one that clears. -/
theorem CueBasisOver.of_basis {a : Authority} {b : Bool} {s t : State} (h : CueBasisOver { a with cue := b } s t) :
    CueBasisOver a s t := h

section

variable {s : State} {st : Nat} {e : CueEntry} {rest : List CueEntry}

/-- CUE_GO past its checks. -/
theorem cueGo_of_entry (holder : s.auth.holder = some st) (mode : s.motion.mode = .hold ∨ s.motion.mode = .stick)
    (entries : s.cue.entries = e :: rest) :
    cueGo st s = accept (startHead (readyHead s)) (boolByte ((startHead (readyHead s)).motion.mode != .cue)) := by
  unfold cueGo
  rw [if_neg (by simp [holds, holder]), if_neg (by tauto), if_neg (by simp [entries])]
  rfl

/-- CUE_GO of an entry that may start (R57, R99). -/
theorem cueGo_free (holder : s.auth.holder = some st) (mode : s.motion.mode = .hold ∨ s.motion.mode = .stick)
    (entries : s.cue.entries = e :: rest) (free : barredEntry s e = false) :
    cueGo st s = accept { s with
      motion := { s.motion with mode := .cue, copy := some (copyOf s e) }
      cue := { s.cue with running := true }
      auth := if s.motion.mode = .stick then { flush s.auth with cue := true } else { s.auth with cue := true } } (byte 0) := by
  have goes : startHead (readyHead s) = { readyHead s with
      motion := { (readyHead s).motion with mode := .cue, copy := some (copyOf (readyHead s) e) }
      cue := { (readyHead s).cue with running := true } } :=
    startHead_of_free (rest := rest) (by rw [readyHead_eq]; exact entries) (by rw [readyHead_eq]; exact free)
  rw [cueGo_of_entry holder mode entries, goes, readyHead_eq]
  rfl

/-- CUE_GO of an entry that fails at once (R61, R101). -/
theorem cueGo_barred (holder : s.auth.holder = some st) (mode : s.motion.mode = .hold ∨ s.motion.mode = .stick)
    (entries : s.cue.entries = e :: rest) (barred : barredEntry s e = true) :
    ∃ t, cueGo st s = accept t (byte 1) ∧ Failed .unreachable e rest (readyHead s) t
      ∧ CueBasisOver (if s.motion.mode = .stick then flush s.auth else s.auth) s t := by
  have entriesU : (readyHead s).cue.entries = e :: rest := by rw [readyHead_eq]; exact entries
  have fails : startHead (readyHead s) = failHead .unreachable (readyHead s) :=
    startHead_of_barred entriesU (by rw [readyHead_eq]; exact barred)
  have holderU : (readyHead s).auth.holder.isSome = true := by
    rw [readyHead_eq]
    dsimp only
    split <;> simp [flush, holder]
  have stick : (readyHead s).motion.mode ≠ .stick := by rw [readyHead_eq]; rcases mode with h | h <;> simp [h]
  have failed := failed_failHead .unreachable entriesU holderU stick
  have basis := failed.ended.basis
  rw [readyHead_auth] at basis
  refine ⟨_, ?_, failed, basis.of_basis.of_authority (by rw [readyHead_eq]; rfl)⟩
  have modeT : (failHead .unreachable (readyHead s)).motion.mode ≠ .cue := by
    rw [failed.ended.mode]; split <;> simp
  rw [cueGo_of_entry holder mode entries, fails, bne_iff_ne.2 modeT]
  rfl

end

theorem cueRequest_over {s : State} {st h : Nat} {c : Instr} {r : Req}
    (request : c = .cueHalt st ∧ r = .cueHalt ∨ c = .cueFlush st ∧ r = .cueFlush) (may : MaySend s r st)
    (halts : s.auth.holder = some st ∨ classOf s st = .safety) (mode : s.motion.mode = .cue)
    (holder : s.auth.holder = some h) :
    ∃ u, exec c s = .next (answer st r.code
        ⟨.ok, if r = .cueHalt then byte 1 else byte s.cue.entries.length⟩ u)
      ∧ CueOver (takeFrame s) u ∧ WantsByCount (takeFrame s) u
      ∧ (r = .cueHalt → u.cue.entries = s.cue.entries ∧ u.cue.failure = s.cue.failure)
      ∧ (r = .cueFlush → u.cue.entries = [] ∧ u.cue.failure = none) := by
  have holderT : (takeFrame s).auth.holder = some h := holder
  rcases request with ⟨rfl, rfl⟩ | ⟨rfl, rfl⟩
  · obtain ⟨cue, want⟩ := endCue_list holderT mode
    have ended := cueOver_endCue (.refl (takeFrame s)) (by rw [holderT]; rfl) (by show s.motion.mode ≠ _; simp [mode])
    refine ⟨endCue (takeFrame s), ?_, ended, wantsByCount_refl (by rw [cue]) want, fun _ => by rw [cue]; exact ⟨rfl, rfl⟩,
      by simp⟩
    simp only [exec, execCueHalt]
    rw [request_of_maySend _ _ _ _ may, cueHalt_running (s := takeFrame s) halts mode]
    rfl
  · refine ⟨flushedCue (takeFrame s), ?_, cueOver_flushedCue holderT mode, wantsByCount_flushedCue holderT mode, by simp,
      fun _ => by rw [flushedCue_cue holderT mode]; exact ⟨rfl, rfl⟩⟩
    simp only [exec, execCueFlush]
    rw [request_of_maySend _ _ _ _ may, cueFlush_running (s := takeFrame s) halts mode]
    rfl

/-- Settles O42: CUE_HALT and CUE_FLUSH end the running cue, and CUE_GO starts or fails the head from HOLD. -/
theorem cueGoAndHalt : Obligations.CueGoAndHalt := by
  refine ⟨fun s st c r h request may halts mode holder => ?_, fun s st may => ?_⟩
  · obtain ⟨u, run, ⟨frame, motion, stop, running, -, basis⟩, wants, halted, flushed⟩ :=
      cueRequest_over request may halts mode holder
    refine ⟨_, _, run, rfl, rfl, rfl, running, ?_, frame.window, halted, flushed, ?_, ?_, basis, wants, frame.p, ?_,
      frame.lengths, frame.air, frame.span, frame.marks, frame.ports, stop, frame.period⟩ <;>
      exact (congrArg _ motion).trans rfl
  · have refused : ∀ why, cueGo st (takeFrame s) = refuse why (takeFrame s) →
        exec (.cueGo st) s = turnedAway st .cueGo why s := fun why h => by
      simp only [exec, execCueGo]
      exact request_refused may h
    dsimp only
    refine ⟨fun other => refused _ (if_pos (by simpa [holds] using other)), fun holder notHold notStick => refused _ ?_,
      fun holder mode => ⟨fun empty => refused _ ?_, fun e rest m p entries hm hp => ?_⟩⟩
    · exact (if_neg (by simp [holds, holder])).trans (if_pos ⟨notHold, notStick⟩)
    · exact (if_neg (by simp [holds, holder])).trans ((if_neg (by tauto)).trans (if_pos (by simp [empty])))
    have bars : barredEntry s e = true ↔ _ := unreachable_iff s.span.flightBox s.motion.lim.standoff (liveZones s.air) _
    rw [markTarget_of_set hm] at bars
    refine ⟨fun free => ?_, fun barred => ?_⟩
    · have starts : barredEntry s e = false := by simpa using mt bars.1 free
      simp only [exec, execCueGo]
      refine request_accepted may ?_
      rw [cueGo_free (s := takeFrame s) holder mode entries starts, copyOf_eq (s := takeFrame s) hm hp]
      rfl
    · obtain ⟨t, run, ⟨⟨frame, stop, -, -, vOld⟩, ⟨running, none, modeT, -⟩, wants, left, event, failure, -⟩, held⟩ :=
        cueGo_barred (s := takeFrame s) holder mode entries (bars.2 barred)
      rw [readyHead_eq] at frame stop vOld modeT wants
      refine ⟨answer st Req.cueGo.code ⟨.ok, byte 1⟩ t, _, ?_, rfl, rfl, rfl, left, running, none, frame.window, failure,
        event, ?_, wants, modeT, frame.p, vOld,
        frame.air, frame.span, frame.marks, frame.ports, stop, frame.period⟩
      · simp only [exec, execCueGo]
        rw [request_of_maySend _ _ _ _ may, run]
        rfl
      · exact held

end Sys2Proof.Machine
end

