-- ==== Sys2Proof/Proofs/Preempt.lean ====
section
/-! PROOFS. PREEMPT and SELECT_MODE (R36, R37, R118, R121). -/

namespace Sys2Proof.Machine

theorem holds_iff (s : State) (st : Nat) : holds s st = true ↔ s.auth.holder = some st := by simp [holds]

/-! ## PREEMPT (R118) -/

/-- The holder `h` has lost authority between `s` and `t`, with no new holder yet: its stick is flushed, its cue halted, and the
mode has left STICK and CUE. -/
structure AuthorityLost (h : Nat) (s t : State) : Prop where
  frame : ControlFrame s t
  stop : t.stop = s.stop
  auth : t.auth = authorityOver h s.auth
  entries : t.cue.entries = s.cue.entries
  vOld : t.motion.vOld = s.motion.vOld
  halted : s.motion.mode = .cue → t.cue.running = false ∧ t.motion.copy = none
  mode : s.motion.mode = .cue ∨ s.motion.mode = .stick → t.motion.mode = if anyOccupied s then .evict else .hold
  motion : s.motion.mode ≠ .cue → s.motion.mode ≠ .stick → t.motion = s.motion

theorem vacate_of_holder {a : Authority} {h : Nat} (holder : a.holder = some h) : a.vacate = authorityOver h a := by
  rw [Authority.vacate, holder]
  rfl

theorem authorityLost_loseAuthority {s : State} {h : Nat} (holder : s.auth.holder = some h) :
    AuthorityLost h s (loseAuthority s) := by
  have frame := frame_loseAuthority s
  by_cases cue : s.motion.mode = .cue
  · have lost : loseAuthority s = enterHold { dropCopy s with auth := authorityOver h s.auth } := by
      simp [loseAuthority, cue, dropCopy_auth, vacate_of_holder holder]
    rw [lost] at frame ⊢
    exact ⟨frame, rfl, rfl, rfl, rfl, fun _ => ⟨rfl, rfl⟩, fun _ => rfl, fun no => absurd cue no⟩
  · by_cases stick : s.motion.mode = .stick
    · have lost : loseAuthority s = enterHold { s with auth := authorityOver h s.auth } := by
        simp [loseAuthority, stick, vacate_of_holder holder]
      rw [lost] at frame ⊢
      exact ⟨frame, rfl, rfl, rfl, rfl, fun yes => absurd yes cue, fun _ => rfl, fun _ no => absurd stick no⟩
    · have lost : loseAuthority s = { s with auth := authorityOver h s.auth } := by
        simp [loseAuthority, cue, stick, vacate_of_holder holder]
      rw [lost] at frame ⊢
      exact ⟨frame, rfl, rfl, rfl, rfl, fun yes => absurd yes cue, fun yes => (yes.elim cue stick).elim, fun _ _ => rfl⟩

section

variable {s : State} {st : Nat}

theorem preempted_self (holder : s.auth.holder = some st) :
    preempted st s = { s with auth := { s.auth with explicit := true } } := if_pos ((holds_iff s st).2 holder)

theorem preempted_vacant (vacant : s.auth.holder = none) :
    preempted st s = raiseEvent .authority { s with auth := s.auth.become st } := by
  simp [preempted, holds, vacant]

theorem preempted_other {h : Nat} (holder : s.auth.holder = some h) (other : h ≠ st) :
    preempted st s = raiseEvent .authority { loseAuthority s with auth := (authorityOver h s.auth).become st } := by
  simp [preempted, holds, holder, other, (authorityLost_loseAuthority holder).auth]

/-! ## SELECT_MODE (R36, R121) -/

theorem selected_hold (toStick : Bool) (mode : s.motion.mode = .hold) :
    selected toStick st s = if toStick then setMode .stick s else s := by
  simp only [selected, mode]

theorem selected_stick (toStick : Bool) (mode : s.motion.mode = .stick) :
    selected toStick st s = if toStick then s else enterHold (flushStick s) := by
  simp only [selected, mode]

/-- In CUE the cue halts; a holder left without a basis cannot take the stick. -/
theorem selected_cue (toStick : Bool) (mode : s.motion.mode = .cue) (holder : s.auth.holder = some st) :
    selected toStick st s =
      if toStick && s.auth.explicit then setMode .stick (haltCue s) else enterHold (haltCue s) := by
  have keeps : holds (haltCue s) st = s.auth.explicit := by
    rw [haltCue_of_holder holder (by simp [mode]), raiseIf_eq, holds, basisOver]
    rcases s.auth.explicit <;> simp [authorityOver, holder]
  simp only [selected, mode, keeps]

/-- The cue of a holder with EXPLICIT halts. -/
theorem haltCue_explicit (mode : s.motion.mode = .cue) (holder : s.auth.holder = some st) (explicit : s.auth.explicit = true) :
    haltCue s = { dropCopy s with auth := { s.auth with cue := false } } := by
  simp [haltCue_of_holder holder (by simp [mode]), explicit, basisOver, raiseIf]

/-- The cue of a holder on the CUE basis alone halts, and authority ends. -/
theorem haltCue_alone (mode : s.motion.mode = .cue) (holder : s.auth.holder = some st) (alone : s.auth.explicit = false) :
    haltCue s = raiseEvent .authority { dropCopy s with auth := authorityOver st s.auth } := by
  simp [haltCue_of_holder holder (by simp [mode]), alone, basisOver, raiseIf]

/-- SELECT_MODE past its checks. -/
theorem selectMode_taken {n : Nat} {toStick : Bool} (holder : s.auth.holder = some st)
    (mode : s.motion.mode = .hold ∨ s.motion.mode = .stick ∨ s.motion.mode = .cue) (value : selectedStick n = some toStick) :
    selectMode n st s = accept (selected toStick st s)
      (byte (selected toStick st s).motion.mode.code ++ boolByte (holds (selected toStick st s) st)) := by
  unfold selectMode
  rw [if_neg (by simp [holds, holder]), if_neg (by tauto), value]

theorem selectMode_badParam {n : Nat} (holder : s.auth.holder = some st)
    (mode : s.motion.mode = .hold ∨ s.motion.mode = .stick ∨ s.motion.mode = .cue) (h1 : n ≠ 1) (h2 : n ≠ 2) :
    selectMode n st s = refuse .badParam s := by
  have value : selectedStick n = none := by
    unfold selectedStick
    split <;> simp_all
  unfold selectMode
  rw [if_neg (by simp [holds, holder]), if_neg (by tauto), value]

end

theorem preempt_requests (s : State) (st : Nat) (may : MaySend s .preempt st) :
    exec (.preempt st) s
      = .next (answer st Req.preempt.code ⟨.ok, stationByte s.auth.holder⟩ (preempted st (takeFrame s))) := by
  simp only [exec, execPreempt]
  rw [request_of_maySend _ _ _ _ may]
  rfl

/-- Settles O45: a displaced holder loses authority first, and SELECT_MODE goes by the mode. -/
theorem preemptAndSelectMode : Obligations.PreemptAndSelectMode := by
  refine ⟨fun s st may => ⟨fun own => ?_, fun vacant => ?_, fun h holder other => ?_⟩, fun s st n may => ?_⟩
  · rw [preempt_requests s st may, preempted_self (s := takeFrame s) own, own]
    rfl
  · rw [preempt_requests s st may, preempted_vacant (s := takeFrame s) vacant, vacant]
    rfl
  · obtain ⟨frame, stop, auth, entries, vOld, halted, mode, motion⟩ :=
      authorityLost_loseAuthority (s := takeFrame s) holder
    rw [preempt_requests s st may, preempted_other (s := takeFrame s) holder other, holder]
    refine ⟨_, _, rfl, rfl, rfl, rfl, rfl, ?_, entries, halted, mode, motion, frame.p, vOld, frame.air, stop, frame.ports⟩
    exact (eventSet_raiseEvent ..).trans (by simp)
  · have refused : ∀ why, selectMode n st (takeFrame s) = refuse why (takeFrame s) →
        exec (.selectMode st n) s = turnedAway st .selectMode why s := fun why h => by
      simp only [exec, execSelectMode]
      exact request_refused may h
    have accepted : ∀ (toStick : Bool) (f : State → State) (m : Mode) (keeps : Bool), s.auth.holder = some st →
        (s.motion.mode = .hold ∨ s.motion.mode = .stick ∨ s.motion.mode = .cue) → selectedStick n = some toStick →
        selected toStick st (takeFrame s) = f (takeFrame s) → (f (takeFrame s)).motion.mode = m →
        (f (takeFrame s)).auth.holder = (if keeps then some st else none) →
        exec (.selectMode st n) s = taken st .selectMode (byte m.code ++ boolByte keeps) f s := by
      intro toStick f m keeps holder mode value turned modeT holderT
      have kept : holds (f (takeFrame s)) st = keeps := by
        rw [holds, holderT]
        rcases keeps <;> simp
      simp only [exec, execSelectMode]
      refine request_accepted may ?_
      rw [selectMode_taken (s := takeFrame s) holder mode value, turned, modeT, kept]
    dsimp only
    refine ⟨fun other => refused _ (if_pos (by simpa [holds] using other)), fun holder notHold notStick notCue => refused _ ?_,
      fun holder => ⟨fun mode h1 h2 => refused _ (selectMode_badParam (s := takeFrame s) holder mode h1 h2),
        ?_, ?_, ?_, ?_, ?_, ?_⟩⟩
    · exact (if_neg (by simp [holds, holder])).trans (if_pos ⟨notHold, notStick, notCue⟩)
    · rintro mode rfl
      exact accepted true _ .stick true holder (.inl mode) rfl (selected_hold (s := takeFrame s) true mode) rfl holder
    · rintro mode rfl
      exact accepted false id .hold true holder (.inl mode) rfl (selected_hold (s := takeFrame s) false mode) mode holder
    · rintro mode rfl
      exact accepted true id .stick true holder (.inr (.inl mode)) rfl (selected_stick (s := takeFrame s) true mode) mode
        holder
    · rintro mode rfl
      exact accepted false _ _ true holder (.inr (.inl mode)) rfl (selected_stick (s := takeFrame s) false mode) rfl holder
    · intro mode value explicit
      have turned := fun toStick => selected_cue (s := takeFrame s) (st := st) toStick mode holder
      rw [haltCue_explicit (s := takeFrame s) mode holder explicit] at turned
      rcases value with rfl | rfl
      · exact accepted false _ _ true holder (.inr (.inr mode)) rfl (turned false) rfl holder
      · exact accepted true _ _ true holder (.inr (.inr mode)) rfl
          ((turned true).trans (if_pos explicit)) rfl holder
    · intro mode value alone
      have turned := fun toStick => selected_cue (s := takeFrame s) (st := st) toStick mode holder
      rw [haltCue_alone (s := takeFrame s) mode holder alone] at turned
      rcases value with rfl | rfl
      · exact accepted false _ _ false holder (.inr (.inr mode)) rfl (turned false) rfl rfl
      · exact accepted true _ _ false holder (.inr (.inr mode)) rfl
          ((turned true).trans (if_neg (Bool.eq_false_iff.1 alone))) rfl rfl

end Sys2Proof.Machine
end

