-- ==== Sys2Proof/Proofs/ClearStop.lean ====
section
/-! PROOFS. CLEAR_STOP (R67, R175, R176). -/

namespace Sys2Proof.Machine

/-- The port is named in an attribution and is not UP (R175, check 3). -/
def portStands (s : State) (i : Nat) : Bool := s.stop.attribution.any.getLsbD i && (s.ports.get i).state != .up

theorem portStands_iff (s : State) (i : Nat) :
    portStands s i = true ↔ s.stop.attribution.any.getLsbD i = true ∧ (s.ports.get i).state ≠ .up := by
  simp [portStands]

theorem standingPort_eq (s : State) : standingPort s = [0, 1, 2, 3].find? (portStands s) := rfl

theorem standingPort_eq_some {s : State} {i : Nat} (hi : i ≤ 3) (stands : portStands s i = true)
    (lowest : ∀ j, j < i → ¬portStands s j = true) : standingPort s = some i := by
  rw [standingPort_eq]
  interval_cases i <;> simp [List.find?, stands, lowest]

theorem standingPort_eq_none {s : State} (free : ∀ i, i ≤ 3 → ¬portStands s i = true) : standingPort s = none := by
  rw [standingPort_eq]
  simp [List.find?, free]

/-- CLEAR_STOP past its checks. -/
theorem clearStop_taken {s t : State} (moved : s.motion.mode ≠ .stopping) (closed : s.stop.estopOpen = false)
    (free : ∀ i, i ≤ 3 → ¬portStands s i = true) (moves : clearMotion { s with stop := stopEmpty false } = t) :
    clearStop s = accept t
      (byte t.motion.mode.code ++ causeList s.stop ++ (firstFlags s.stop ++ firstBytes s.stop.first)) := by
  unfold clearStop
  rw [if_neg moved, if_neg (by simp [closed]), standingPort_eq_none free, closed, moves]
  simp only [List.append_assoc]

theorem clearMotion_keeps {s : State} (held : s.motion.mode ≠ .stopped .held) (braked : s.motion.mode ≠ .stopped .braked) :
    clearMotion s = s := by
  unfold clearMotion
  split
  · next h => exact absurd h held
  · next h => exact absurd h braked
  all_goals rfl

/-- Settles O57: the checks in order; past them the set is emptied and the mode moved. -/
theorem clearStopTaken : Obligations.ClearStopTaken := by
  intro s st may run present a named standing cleared told resume
  have started : run = .next (answer st Req.clearStop.code (clearStop (takeFrame s)).2 (clearStop (takeFrame s)).1) := by
    simp only [run, exec, execClearStop]
    rw [request_of_maySend _ _ _ _ may]
  have bytes : ∀ m : Mode, byte m.code ++ causeList s.stop ++ (firstFlags s.stop ++ firstBytes s.stop.first) = told m := by
    intro m
    simp only [told, a, firstFlags]
    rcases s.stop.first with _ | ⟨c, _ | p⟩ <;> rfl
  have stands : ∀ i, portStands (takeFrame s) i = true ↔ standing i := portStands_iff (takeFrame s)
  refine ⟨fun stopping => ?_, fun moved broken => ?_, fun moved closed => ⟨fun i hi here lowest => ?_, fun free => ?_⟩⟩
  · rw [started, clearStop, if_pos (show (takeFrame s).motion.mode = _ from stopping)]
    rfl
  · refine started.trans ?_
    rw [clearStop, if_neg (show (takeFrame s).motion.mode ≠ _ from moved),
      if_pos (show (takeFrame s).stop.estopOpen = true from broken)]
  · refine started.trans ?_
    rw [clearStop, if_neg (show (takeFrame s).motion.mode ≠ _ from moved),
      if_neg (Bool.eq_false_iff.1 (show (takeFrame s).stop.estopOpen = false from closed)),
      standingPort_eq_some hi ((stands i).2 here) fun j hj => mt (stands j).1 (lowest j hj)]
  · have accepted : ∀ (f : State → State) (m : Mode),
        clearMotion { takeFrame s with stop := stopEmpty false } = f (takeFrame s) →
        (f (takeFrame s)).motion.mode = m → run = taken st .clearStop (told m) f s := by
      intro f m moves mode
      rw [started, clearStop_taken (s := takeFrame s) moved closed (fun i hi => mt (stands i).1 (free i hi)) moves, mode]
      exact congrArg (fun bs => Host.Outcome.next (answer st Req.clearStop.code ⟨.ok, bs⟩ (f (takeFrame s)))) (bytes m)
    refine ⟨fun stays => accepted _ _ (clearMotion_keeps ?_ ?_) rfl, fun held => accepted _ _ ?_ rfl,
      fun braked => accepted _ _ ?_ rfl⟩
    · show s.motion.mode ≠ _
      rintro held
      simp [held, Mode.steered] at stays
    · show s.motion.mode ≠ _
      rintro braked
      simp [braked, Mode.steered] at stays
    · simp only [clearMotion, takeFrame, held]
      rfl
    · simp only [clearMotion, takeFrame, braked]
      rfl

end Sys2Proof.Machine
end

