-- ==== Sys2Proof/Proofs/ExpiryOpening.lean ====
section
/-! PROOFS. A period expiry with no frame coming in, up to the ports: the clock wraps, the lifetimes are counted, the Arbiter does
its work, and a computation begins (R24, R26, R37, R42, R115, R124, R181). -/

namespace Sys2Proof.Machine

theorem eventSet_raiseIf_of_ne {e f : Event} (h : f ≠ e) (b : Bool) (s : State) :
    eventSet (raiseIf b e s) f = eventSet s f := by
  rw [eventSet_raiseIf, decide_eq_false h, Bool.and_false, Bool.or_false]

/-- The events that an expiry may raise before its computation begins. -/
def openingEvents : List Event := [.reference, .zoneExpired, .zoneActive, .authority, .stickStale]

/-- Between `s` and `t` an expiry has written the table, the authority record, the Period Generator and its own events. -/
structure Opening (s t : State) : Prop where
  others : t = { s with
    air := t.air, auth := t.auth, period := t.period, station := { s.station with events := t.station.events } }
  event : ∀ e, e ∉ openingEvents → eventSet t e = eventSet s e

namespace Opening

theorem refl (s : State) : Opening s s := ⟨rfl, fun _ _ => rfl⟩

theorem trans {s t u : State} (h : Opening s t) (k : Opening t u) : Opening s u := by
  refine ⟨?_, fun e he => (k.event e he).trans (h.event e he)⟩
  calc u = { t with air := u.air, auth := u.auth, period := u.period
                    station := { t.station with events := u.station.events } } := k.others
    _ = _ := by rw [h.others]

theorem raiseIf {s t : State} (h : Opening s t) (b : Bool) {e : Event} (he : e ∈ openingEvents) :
    Opening s (raiseIf b e t) := by
  refine h.trans ⟨?_, fun f hf => ?_⟩
  · rw [raiseIf_eq]
  · exact eventSet_raiseIf_of_ne (fun same : f = e => hf (same ▸ he)) b t

theorem period (g : PeriodGen) (s : State) : Opening s { s with period := g } := ⟨rfl, fun _ _ => rfl⟩

theorem air (zones : List Slot) (s : State) : Opening s { s with air := zones } := ⟨rfl, fun _ _ => rfl⟩

theorem auth (a : Authority) (s : State) : Opening s { s with auth := a } := ⟨rfl, fun _ _ => rfl⟩

end Opening

/-! ## The clock (R181, R182) -/

theorem periodGen_run_index (k : Nat) (g : PeriodGen) : (g.run k).index = g.index := rfl

theorem periodGen_lose_index (g : PeriodGen) : g.lose.index = g.index := by
  unfold PeriodGen.lose
  dsimp only
  split <;> rfl

/-- The clock alone has run from `s` to `t`: the Period Generator and its event, at the same index. -/
structure ClockRun (s t : State) : Prop where
  opening : Opening s t
  air : t.air = s.air
  auth : t.auth = s.auth
  index : t.period.index = s.period.index
  authority : eventSet t .authority = eventSet s .authority

theorem ClockRun.trans {s t u : State} (h : ClockRun s t) (k : ClockRun t u) : ClockRun s u :=
  ⟨h.opening.trans k.opening, k.air.trans h.air, k.auth.trans h.auth, k.index.trans h.index, k.authority.trans h.authority⟩

theorem clockRun_runTimers (k : Nat) {s : State} (quiet : NoFrameWaits s) : ClockRun s (runTimers k s) := by
  rw [runTimers_of_noFrame k s quiet]
  dsimp only
  generalize hg : (if 0 < s.period.toLoss ∧ s.period.toLoss ≤ k then (s.period.run k).lose else s.period.run k) = g
  have index : g.index = s.period.index := by
    rw [← hg]
    split
    · exact periodGen_lose_index _
    · rfl
  refine ⟨?_, by simp [withPeriod, raiseIf_eq], by simp [withPeriod, raiseIf_eq], index, ?_⟩
  · exact ((Opening.period g s).raiseIf _ (by simp [openingEvents])).trans (.period _ _)
  · exact eventSet_raiseIf_of_ne (by decide) _ _

theorem clockRun_runToWrap (fuel : Nat) {s : State} (quiet : NoFrameWaits s) : ClockRun s (runToWrap fuel s) := by
  induction fuel generalizing s with
  | zero => exact clockRun_runTimers _ quiet
  | succ fuel ih =>
    unfold runToWrap
    split
    · exact (clockRun_runTimers _ quiet).trans (ih (ticked_runTimers _ quiet).quiet)
    · exact clockRun_runTimers _ quiet

theorem opening_clockToWrap {s : State} (quiet : NoFrameWaits s) : Opening s (clockToWrap s) :=
  (clockRun_runToWrap _ quiet).opening.trans (.period _ _)

theorem clockToWrap_period {s : State} (quiet : NoFrameWaits s) :
    (clockToWrap s).period.index = (s.period.index + 1) % 4 ∧ (clockToWrap s).period.acc < 2 ^ 32 := by
  refine ⟨?_, Nat.mod_lt _ (by decide)⟩
  rw [← (clockRun_runToWrap (s.station.buffer.length + 2) quiet).index]
  rfl

/-! ## The table and the Arbiter (R24, R26, R115, R124) -/

theorem opening_countLifetimes (s : State) : Opening s (countLifetimes s) :=
  (Opening.air _ s).raiseIf _ (by simp [openingEvents])

theorem opening_promoteAtRest (s : State) : Opening s (promoteAtRest s) := by
  unfold promoteAtRest
  dsimp only
  split
  · exact ((Opening.air _ s).raiseIf _ (by simp [openingEvents])).trans (.air _ _)
  · exact .air _ _

/-- What the table's work at an expiry leaves alone. -/
theorem promoteAtRest_countLifetimes (s : State) :
    (promoteAtRest (countLifetimes s)).motion = s.motion ∧ (promoteAtRest (countLifetimes s)).auth = s.auth
      ∧ (promoteAtRest (countLifetimes s)).period = s.period
      ∧ eventSet (promoteAtRest (countLifetimes s)) .authority = eventSet s .authority := by
  have counted : eventSet (countLifetimes s) .authority = eventSet s .authority := eventSet_raiseIf_of_ne (by decide) _ _
  unfold promoteAtRest
  dsimp only
  split
  · refine ⟨by simp [countLifetimes, raiseIf_eq], by simp [countLifetimes, raiseIf_eq],
      by simp [countLifetimes, raiseIf_eq], ?_⟩
    exact (eventSet_raiseIf_of_ne (by decide) _ _).trans counted
  · exact ⟨by simp [countLifetimes, raiseIf_eq], by simp [countLifetimes, raiseIf_eq],
      by simp [countLifetimes, raiseIf_eq], counted⟩

theorem opening_arbiterExpiry (s : State) : Opening s (arbiterExpiry s) := by
  have decided : Opening s (claimDecision (countBackoffs s)) := by
    refine (Opening.auth _ s : Opening s (countBackoffs s)).trans ?_
    unfold claimDecision
    split
    · exact (Opening.auth _ _).raiseIf true (by simp [openingEvents])
    · exact .refl _
  refine decided.trans (?_ : Opening _ (stickStep _))
  unfold stickStep
  split
  · split
    · exact .auth _ _
    · exact (Opening.auth _ _).raiseIf _ (by simp [openingEvents])
  · exact .refl _

/-- An expiry up to the beginning of a computation. -/
def opened (s : State) : State := arbiterExpiry (promoteAtRest (countLifetimes (clockToWrap s)))

theorem opening_opened {s : State} (quiet : NoFrameWaits s) : Opening s (opened s) :=
  (((opening_clockToWrap quiet).trans (opening_countLifetimes _)).trans (opening_promoteAtRest _)).trans
    (opening_arbiterExpiry _)

theorem opened_period {s : State} (quiet : NoFrameWaits s) :
    (opened s).period.index = (s.period.index + 1) % 4 ∧ (opened s).period.acc < 2 ^ 32 := by
  obtain ⟨-, arbiter, -, -⟩ := PlaceStands.controlEdits.arbiterExpiry (promoteAtRest (countLifetimes (clockToWrap s)))
  rw [opened, arbiter, (promoteAtRest_countLifetimes _).2.2.1]
  exact clockToWrap_period quiet

theorem opened_motion {s : State} (quiet : NoFrameWaits s) : (opened s).motion = s.motion := by
  rw [(opening_opened quiet).others]

theorem expiryWork_eq (s : State) :
    expiryWork (clockToWrap s) = silenceStep (portsExpiry (beginComputation (opened s))) := rfl

/-! ## A computation begins (R37, R42, R56, R61) -/

/-- What the beginning of a computation leaves alone. -/
structure BeginFrame (s t : State) : Prop where
  frame : ControlFrame s t
  stop : t.stop = s.stop
  vOld : t.motion.vOld = s.motion.vOld

namespace BeginFrame

theorem refl (s : State) : BeginFrame s s := ⟨.refl s, rfl, rfl⟩

theorem trans {s t u : State} (h : BeginFrame s t) (k : BeginFrame t u) : BeginFrame s u :=
  ⟨h.frame.trans k.frame, k.stop.trans h.stop, k.vOld.trans h.vOld⟩

theorem of_way {s t : State} (h : CueWay s t) : BeginFrame s t := ⟨h.frame, h.stop, h.vOld⟩

theorem beginEviction (s : State) : BeginFrame s (beginEviction s) := by
  have mode : BeginFrame s (setMode .evict s) := ⟨frame_setMode _ s, rfl, rfl⟩
  unfold Machine.beginEviction
  dsimp only
  split
  · exact mode.trans (of_way ((CueWay.dropCopy _).trans (.clearCueBasis _)))
  · split
    · exact mode.trans ⟨frame_flushStick _, rfl, rfl⟩
    · exact mode

theorem endEviction (s : State) : BeginFrame s (endEviction s) := by
  refine ⟨?_, rfl, rfl⟩
  constructor <;> simp [Machine.endEviction]

theorem settle (s : State) : BeginFrame s (settle s) := by
  unfold Machine.settle
  split
  · split; exacts [beginEviction s, refl s]
  · split; exacts [beginEviction s, refl s]
  · split
    · exact beginEviction s
    · split; exacts [of_way (.failHead _ s), refl s]
  · split; exacts [refl s, endEviction s]
  all_goals exact refl s

theorem searchExit (s : State) : BeginFrame s (searchExit s) := by
  refine ⟨?_, by simp [Machine.searchExit, raiseIf_eq], by simp [Machine.searchExit, raiseIf_eq]⟩
  refine ControlFrame.trans ?_ (frame_raiseIf _ _ _)
  constructor <;> simp

theorem readied (s : State) : BeginFrame s (readied s) := by
  unfold Machine.readied
  split
  · exact (settle s).trans (searchExit _)
  · exact settle s

end BeginFrame

/-- What the beginning of a computation leaves alone in every mode; with none to begin, the feed-forward is written (R52). -/
structure BeginStands (s t : State) : Prop where
  span : t.span = s.span
  marks : t.marks = s.marks
  ports : t.ports = s.ports
  stop : t.stop = s.stop
  period : t.period = s.period
  p : t.motion.p = s.motion.p
  vOld : t.motion.vOld = s.motion.vOld
  lim : t.motion.lim = s.motion.lim
  lengths : t.motion.lengths = s.motion.lengths
  station : t.station = { s.station with events := t.station.events }

theorem BeginFrame.stands {s t : State} (h : BeginFrame s t) : BeginStands s t := by
  obtain ⟨frame, stop, vOld⟩ := h
  exact ⟨frame.span, frame.marks, frame.ports, stop, frame.period, frame.p, vOld, frame.lim, frame.lengths, frame.station⟩

theorem beginStands (s : State) : BeginStands s (beginComputation s) := by
  rcases Mode.moving_or_rest s.motion.mode with moving | rest
  · obtain ⟨frame, stop, vOld⟩ := BeginFrame.readied s
    rw [beginComputation_moving moving]
    exact (BeginFrame.mk (frame.trans (frame_flight (snapshot (readied s)) (readied s))) stop vOld).stands
  · rw [beginComputation_rest rest]
    exact ⟨rfl, rfl, rfl, rfl, rfl, rfl, rfl, rfl, rfl, rfl⟩

end Sys2Proof.Machine
end

