-- ==== Sys2Proof/Proofs/Setpoints.lean ====
section
/-! PROOFS. The ports at a period expiry: every port's own work, then the setpoints of those that are UP; and the system speed
class (R35, R141, R144, R147, R213). -/

namespace Sys2Proof.Machine

/-! ## Every port's own work (R133 to R139, R147, R157) -/

/-- A port after its own work at an expiry, by its state. -/
def checkedPort (q : Port) : Port :=
  match q.state with
  | .training => q.trainStep
  | .break_ => q.breakStep
  | .up => if q.missed then (if 2 ≤ q.misses then q.countMiss.enterBreak .missed else q.countMiss) else q.quiet
  | .test => q.testStep
  | .off | .sleep => q.quiet

theorem portCheck_ports (i : Nat) (s : State) :
    (portCheck i s).ports = s.ports.put i (checkedPort (s.ports.get i)) := by
  rcases hq : (s.ports.get i).state <;> simp only [portCheck, checkedPort, hq]
  case training => rw [movePort_eq]
  case break_ => rw [movePort_eq]
  case up =>
    unfold missCheck
    dsimp only
    split
    · split
      · rw [show ∀ u, raisePortCause .portLost i u = raiseCause .portLost (some i) .none u from fun _ => rfl,
          (frame_raiseCause ..).ports, movePort_eq]
      · rfl
    · rfl
  all_goals rfl

/-- The ports' own work comes before any setpoint (log 14). -/
def portsChecked (s : State) : State := portCheck 3 (portCheck 2 (portCheck 1 (portCheck 0 s)))

theorem portsChecked_get (s : State) {i : Nat} (hi : i ≤ 3) :
    (portsChecked s).ports.get i = checkedPort (s.ports.get i) := by
  simp only [portsChecked, portCheck_ports]
  interval_cases i <;> rfl

/-- A port is UP after its own work only where it was before. -/
theorem checkedPort_up {q : Port} (up : (checkedPort q).state = .up) :
    q.state = .up ∧ (checkedPort q).sequence = q.sequence := by
  unfold checkedPort at up ⊢
  rcases hq : q.state <;> simp only [hq] at up ⊢
  case up =>
    refine ⟨trivial, ?_⟩
    split
    · split <;> simp_all [Port.countMiss, Port.enterBreak, Port.quiet]
    · rfl
  case training =>
    unfold Port.trainStep at up
    dsimp only at up
    split at up <;> simp_all [Port.enterBreak]
  case break_ =>
    unfold Port.breakStep at up
    split at up <;> simp_all [Port.enterTraining, Port.quiet]
  all_goals simp_all [Port.testStep, Port.quiet]

/-! ## The setpoints (R144, R213) -/

/-- What an UP port is sent (R35, R144). -/
def setpointOf (follow : Bool) (m : Motion) (i : Nat) (q : Port) : Sent :=
  if follow then { command := .follow, length := (m.lengths.map (Quad.get · i)).getD 0 }
  else { command := .brake, length := ((q.measured.getD 0 : Nat) : Int) }

/-- A port with its setpoint sent, where it is UP. -/
def setpointSent (follow : Bool) (m : Motion) (k : Option SpeedClass) (i : Nat) (q : Port) : Port :=
  if q.state = .up then
    { q with
      sequence := (q.sequence + 1) % 256, good := false, lastSent := some (setpointOf follow m i q)
      lineOut := setpointFrame ((q.sequence + 1) % 256) (setpointOf follow m i q) (if follow then m.feed.get i else 0) k }
  else q

theorem setpointSent_state (follow : Bool) (m : Motion) (k : Option SpeedClass) (i : Nat) (q : Port) :
    (setpointSent follow m k i q).state = q.state ∧ (setpointSent follow m k i q).resolved = q.resolved := by
  unfold setpointSent
  split <;> exact ⟨rfl, rfl⟩

/-- The ports are asked to follow (R35, R144). -/
def follows (s : State) : Bool := s.motion.mode.following && allUp s.ports

theorem sendSetpoint_eq (i : Nat) (s : State) :
    sendSetpoint i s = withPort i (setpointSent (follows s) s.motion (systemClass s.ports) i (s.ports.get i)) s := by
  unfold sendSetpoint setpointSent
  dsimp only
  split
  · rfl
  · rw [withPort, Quad.put_self]

theorem allUp_iff (ports : Quad Port) : allUp ports = true ↔ ∀ i, i ≤ 3 → (ports.get i).state = .up := by
  simp only [allUp, List.all_eq_true, beq_iff_eq, Quad.mem_list]
  constructor
  · exact fun h i hi => h _ ⟨i, hi, rfl⟩
  · rintro h q ⟨i, hi, rfl⟩
    exact h i hi

/-- The ports are asked to follow, and the system speed class reads them, by their states and resolved classes alone. -/
theorem reads_put (ports : Quad Port) (i : Nat) (q : Port) (state : q.state = (ports.get i).state)
    (resolved : q.resolved = (ports.get i).resolved) :
    allUp (ports.put i q) = allUp ports ∧ systemClass (ports.put i q) = systemClass ports := by
  unfold Quad.put
  split <;> simp_all [allUp, systemClass, Quad.list, Quad.get]

/-- The ports below `n` have sent their setpoints, and nothing else has changed. -/
structure Sending (n : Nat) (u v : State) : Prop where
  others : v = { u with ports := v.ports }
  all : allUp v.ports = allUp u.ports
  system : systemClass v.ports = systemClass u.ports
  sent : ∀ i, i ≤ 3 → v.ports.get i =
    if i < n then setpointSent (follows u) u.motion (systemClass u.ports) i (u.ports.get i) else u.ports.get i

theorem Sending.none (u : State) : Sending 0 u u := ⟨rfl, rfl, rfl, fun _ _ => rfl⟩

theorem Sending.next {n : Nat} {u v : State} (h : Sending n u v) (hn : n ≤ 3) : Sending (n + 1) u (sendSetpoint n v) := by
  obtain ⟨others, all, system, sent⟩ := h
  have motion : v.motion = u.motion := by rw [others]
  have unsent : v.ports.get n = u.ports.get n := by rw [sent n hn, if_neg (Nat.lt_irrefl n)]
  have asks : follows v = follows u := by rw [follows, follows, motion, all]
  rw [sendSetpoint_eq, asks, motion, system, unsent]
  generalize hq : setpointSent (follows u) u.motion (systemClass u.ports) n (u.ports.get n) = q
  obtain ⟨state, resolved⟩ := setpointSent_state (follows u) u.motion (systemClass u.ports) n (u.ports.get n)
  rw [hq, ← unsent] at state resolved
  obtain ⟨allQ, systemQ⟩ := reads_put v.ports n q state resolved
  refine ⟨?_, allQ.trans all, systemQ.trans system, fun i hi => ?_⟩
  · rw [others]
    rfl
  · show (v.ports.put n q).get i = _
    rcases lt_trichotomy i n with less | rfl | more
    · rw [Quad.put_get_of_ne _ _ _ _ hi less.ne, sent i hi, if_pos less, if_pos (by omega)]
    · rw [Quad.put_get_self _ _ _ hi, if_pos (by omega), hq]
    · rw [Quad.put_get_of_ne _ _ _ _ hi more.ne', sent i hi, if_neg (by omega), if_neg (by omega)]

theorem sending_portsExpiry (s : State) : Sending 4 (portsChecked s) (portsExpiry s) :=
  ((((Sending.none _).next (by omega)).next (by omega)).next (by omega)).next (by omega)

/-! ## The watchdog (R206) -/

theorem leaveSteered_mode (kind : StopKind) (s : State) :
    (leaveSteered kind s).motion.mode = if kind = .brake then .stopped .braked else .stopping := by
  unfold leaveSteered
  dsimp only
  generalize hu : (if kind = .brake then freeze _ else setMode .stopping _) = u
  have mode : u.motion.mode = if kind = .brake then .stopped .braked else .stopping := by
    rw [← hu]
    split <;> rfl
  have stick : u.motion.mode ≠ .stick := by rw [mode]; split <;> simp
  split
  · show (haltCue u).motion.mode = _
    rw [haltCue, clearCueBasis_motion (s := dropCopy u) stick]
    exact mode
  · exact mode

/-- STATION_SILENT ends no following: it asks for a controlled stop (R165, R206). -/
theorem following_stationSilent (s : State) (steered : s.motion.mode.steered = true) :
    (raiseCause .stationSilent none .none s).motion.mode.following = s.motion.mode.following := by
  have follows : s.motion.mode.following = true := by
    rcases hm : s.motion.mode with _ | _ | _ | _ | _ | _ | _ <;> simp [hm, Mode.steered, Mode.following] at steered ⊢
  have kind : kindAfter s.motion.mode s.stop.kind .controlled = s.stop.kind.harsher .controlled := by
    rcases hm : s.motion.mode with _ | _ | _ | _ | _ | _ | _ <;> simp [hm, Mode.steered, kindAfter] at steered ⊢
  have reports : ∀ u : State, u.motion.mode = s.motion.mode → reportKind .controlled u = leaveSteered .controlled u := by
    intro u hu
    rw [← hu] at steered
    unfold reportKind
    rcases hm : u.motion.mode with _ | _ | _ | _ | _ | _ | _ <;> simp [hm, Mode.steered] at steered ⊢
  unfold raiseCause
  simp only [raiseIf_eq, show ∀ k, Cause.kind .stationSilent k = .controlled from fun _ => rfl, kind]
  split
  · rfl
  · next changed =>
    have controlled : s.stop.kind.harsher .controlled = .controlled := by
      unfold StopKind.harsher at changed ⊢
      split at changed <;> simp_all
    rw [controlled, follows]
    refine (congrArg (fun u : State => u.motion.mode.following) (reports _ (by rfl))).trans ?_
    rw [leaveSteered_mode]
    rfl

/-- What a setpoint is made of stands. -/
structure SetpointsStand (s t : State) : Prop where
  ports : t.ports = s.ports
  following : t.motion.mode.following = s.motion.mode.following
  lengths : t.motion.lengths = s.motion.lengths
  feed : t.motion.feed = s.motion.feed

theorem setpointsStand_silenceStep (s : State) : SetpointsStand s (silenceStep s) := by
  have silent : ∀ n, s.motion.mode.steered = true →
      SetpointsStand s (raiseCause .stationSilent none .none { s with station := { s.station with silence := n } }) := by
    intro n steered
    have frame := frame_raiseCause .stationSilent none .none { s with station := { s.station with silence := n } }
    exact ⟨frame.ports, following_stationSilent _ steered, frame.lengths, frame.feed⟩
  unfold silenceStep
  dsimp only
  split
  case h_1 | h_2 | h_3 =>
    next hm =>
    split
    · exact silent _ (by rw [hm]; rfl)
    · exact ⟨rfl, rfl, rfl, rfl⟩
  all_goals exact ⟨rfl, rfl, rfl, rfl⟩

theorem commitFlight_ports (s : State) : (commitFlight s).ports = s.ports := by
  unfold commitFlight
  split
  · obtain ⟨ports, -⟩ := LinesStand.controlEdits.commit _ s
    rw [ports, committedTable_eq]
  · rfl

/-! ## The system speed class (R141) -/

theorem lower_spec (x y : SpeedClass) :
    (x.lower y = x ∨ x.lower y = y) ∧ (x.lower y).rank ≤ x.rank ∧ (x.lower y).rank ≤ y.rank := by
  unfold SpeedClass.lower
  split
  · exact ⟨.inr rfl, by omega, le_refl _⟩
  · exact ⟨.inl rfl, le_refl _, by omega⟩

theorem systemClass_of_up {p : Quad Port} {c : Nat → SpeedClass}
    (up : ∀ i, i ≤ 3 → (p.get i).state = .up ∧ (p.get i).resolved = some (c i)) :
    systemClass p = some ((((c 0).lower (c 1)).lower (c 2)).lower (c 3)) := by
  obtain ⟨u0, r0⟩ := up 0 (by omega)
  obtain ⟨u1, r1⟩ := up 1 (by omega)
  obtain ⟨u2, r2⟩ := up 2 (by omega)
  obtain ⟨u3, r3⟩ := up 3 (by omega)
  simp only [Quad.get] at u0 r0 u1 r1 u2 r2 u3 r3
  simp [systemClass, u0, r0, u1, r1, u2, r2, u3, r3]

/-- What an UP port was sent, and the frame that carries it. -/
theorem setpointSent_spec {q : Port} (up : q.state = .up) (follow : Bool) (m : Motion) (k : Option SpeedClass) (i : Nat) :
    let sent := setpointOf follow m i q
    let r := setpointSent follow m k i q
    r = { q with
      sequence := (q.sequence + 1) % 256, good := false, lastSent := some sent
      lineOut := linkFrame 2 (byte ((q.sequence + 1) % 256) ++ byte (if sent.command = .follow then 1 else 0)
        ++ beInt 4 sent.length ++ beInt 4 (if sent.command = .follow then m.feed.get i else 0)
        ++ byte (speedClassCode k)) }
      ∧ (sent.command = .follow ↔ follow = true)
      ∧ (sent.command = .brake → sent.length = (q.measured.getD 0 : Nat))
      ∧ (sent.command = .follow → ∀ l, m.lengths = some l → sent.length = l.get i) := by
  dsimp only
  rw [setpointSent, if_pos up]
  rcases follow with _ | _
  · exact ⟨rfl, by simp [setpointOf], fun _ => rfl, by simp [setpointOf]⟩
  · refine ⟨rfl, by simp [setpointOf], by simp [setpointOf], fun _ l hl => ?_⟩
    simp [setpointOf, hl]

/-- Settles O53: the setpoints are sent on the ports as their own work leaves them. -/
theorem followOnlyWhenAllUp : Obligations.FollowOnlyWhenAllUp := by
  refine ⟨fun s t held quiet run i hi up => ?_, fun p => ⟨?_, fun c resolved => ?_⟩⟩
  · obtain rfl := Host.Outcome.next.inj ((exec_periodExpiry held).symm.trans run)
    obtain ⟨others, all, system, sent⟩ := sending_portsExpiry (beginComputation (opened (commitFlight s)))
    obtain ⟨ports, following, lengths, feed⟩ :=
      setpointsStand_silenceStep (portsExpiry (beginComputation (opened (commitFlight s))))
    rw [← expiryWork_eq] at ports following lengths feed
    have before : (beginComputation (opened (commitFlight s))).ports = s.ports := by
      rw [(beginStands _).ports, (opening_opened (noFrameWaits_commitFlight quiet)).others]
      exact commitFlight_ports s
    have checked := portsChecked_get (beginComputation (opened (commitFlight s))) hi
    rw [before] at checked
    have port := (congrArg (Quad.get · i) ports).trans (sent i hi)
    rw [if_pos (by omega), checked] at port
    have motion := congrArg State.motion others
    generalize expiryWork (clockToWrap (commitFlight s)) = t at *
    generalize portsExpiry (beginComputation (opened (commitFlight s))) = w at *
    generalize portsChecked (beginComputation (opened (commitFlight s))) = u at *
    dsimp only at port motion
    have upC : (checkedPort (s.ports.get i)).state = .up :=
      (setpointSent_state ..).1.symm.trans ((congrArg Port.state port).symm.trans up)
    obtain ⟨upBefore, sequence⟩ := checkedPort_up upC
    obtain ⟨sentPort, command, brake, follow⟩ :=
      setpointSent_spec upC (follows u) u.motion (systemClass u.ports) i
    rw [sentPort, sequence] at port
    have asks : follows u = true ↔ t.motion.mode.following = true ∧ ∀ j, j ≤ 3 → (t.ports.get j).state = .up := by
      rw [follows, Bool.and_eq_true, ← allUp_iff, ports, all, following, motion]
    refine ⟨setpointOf (follows u) u.motion i (checkedPort (s.ports.get i)), ?_, ?_, upBefore, ?_, command.trans asks,
      fun h => ?_, fun h l hl => ?_, ?_⟩
    · rw [port]
    · rw [port]
    · rw [port]
    · rw [port]
      exact brake h
    · rw [lengths, motion] at hl
      exact follow h l hl
    · rw [port, ports, system, feed, motion]
      rcases systemClass u.ports <;> rfl
  · rintro ⟨i, hi, down⟩
    exact systemClass_none_of_down p i hi down
  · obtain ⟨from1, le0, le1⟩ := lower_spec (c 0) (c 1)
    obtain ⟨from2, le01, le2⟩ := lower_spec ((c 0).lower (c 1)) (c 2)
    obtain ⟨from3, le012, le3⟩ := lower_spec (((c 0).lower (c 1)).lower (c 2)) (c 3)
    refine ⟨_, systemClass_of_up resolved, ?_, fun i hi => ?_⟩
    · rcases from3 with e | e
      · rcases from2 with e2 | e2
        · rcases from1 with e1 | e1
          · exact ⟨0, by omega, by rw [e, e2, e1]⟩
          · exact ⟨1, by omega, by rw [e, e2, e1]⟩
        · exact ⟨2, by omega, by rw [e, e2]⟩
      · exact ⟨3, by omega, e.symm⟩
    · interval_cases i <;> omega

end Sys2Proof.Machine
end

