-- ==== Sys2Proof/Proofs/ExpiryBegins.lean ====
section
/-! PROOFS. PERIOD_EXPIRY settles the mode and begins a period computation (R37, R42, R43, R52, R54 to R56, R61, R66, R106, R117,
R181). -/

namespace Sys2Proof.Machine

/-! ## After the computation has begun: the ports and the watchdog (R133 to R147, R206) -/

/-- Between `s` and `t` the ports and PORT have been written, and nothing else. -/
structure Closing (s t : State) : Prop where
  others : t = { s with ports := t.ports, station := { s.station with events := t.station.events } }
  event : ∀ e, e ≠ .port → eventSet t e = eventSet s e

namespace Closing

theorem trans {s t u : State} (h : Closing s t) (k : Closing t u) : Closing s u := by
  refine ⟨?_, fun e he => (k.event e he).trans (h.event e he)⟩
  calc u = { t with ports := u.ports, station := { t.station with events := u.station.events } } := k.others
    _ = _ := by rw [h.others]

theorem withPort (i : Nat) (q : Port) (s : State) : Closing s (withPort i q s) := ⟨rfl, fun _ _ => rfl⟩

theorem movePort (i : Nat) (q : Port) (s : State) : Closing s (movePort i q s) := by
  unfold Machine.movePort
  refine (withPort i q s).trans ⟨by rw [raiseIf_eq], fun e he => ?_⟩
  exact eventSet_raiseIf_of_ne he _ _

/-- A port whose last setpoint was answered raises no cause. -/
theorem portCheck {i : Nat} {s : State} (answered : (s.ports.get i).state = .up → (s.ports.get i).missed = false) :
    Closing s (portCheck i s) := by
  rcases hq : (s.ports.get i).state <;> simp only [Machine.portCheck, hq]
  case training | break_ => exact movePort _ _ s
  case up =>
    rw [missCheck, answered hq]
    exact withPort _ _ s
  all_goals exact withPort _ _ s

theorem portsExpiry {s : State} (answered : ∀ i, i ≤ 3 → (s.ports.get i).state = .up → (s.ports.get i).missed = false) :
    Closing s (portsExpiry s) := by
  have checks : Closing s (portsChecked s) := by
    refine (((portCheck (answered 0 (by omega))).trans (portCheck ?_)).trans (portCheck ?_)).trans (portCheck ?_)
    · simp only [portCheck_ports]
      exact answered 1 (by omega)
    · simp only [portCheck_ports]
      exact answered 2 (by omega)
    · simp only [portCheck_ports]
      exact answered 3 (by omega)
  have sends := (sending_portsExpiry s).others
  generalize Machine.portsExpiry s = t at sends ⊢
  generalize portsChecked s = v at checks sends
  refine checks.trans ⟨?_, fun e _ => ?_⟩ <;> rw [sends]
  rfl

end Closing

/-- Short of the watchdog setting the silence counter alone moves. -/
theorem silenceStep_short {s : State} (short : s.station.silence + 1 < s.station.watchdog) :
    ∃ n, silenceStep s = { s with station := { s.station with silence := n } } := by
  have below : ¬s.station.watchdog ≤ saturate s.station.silence 1000 := by
    unfold saturate
    split <;> omega
  unfold silenceStep
  dsimp only
  split
  case h_1 | h_2 | h_3 =>
    rw [if_neg below]
    exact ⟨_, rfl⟩
  all_goals exact ⟨_, rfl⟩

theorem answered_of_good {s : State} (good : ∀ q ∈ s.ports.list, q.state = .up → q.good = true ∨ q.lastSent = none) (i : Nat)
    (hi : i ≤ 3) (up : (s.ports.get i).state = .up) : (s.ports.get i).missed = false := by
  rcases good _ ((Quad.mem_list _ _).2 ⟨i, hi, rfl⟩) up with h | h <;> simp [Port.missed, h]

/-! ## Before it begins: the table and the holder (R24, R115) -/

theorem opened_air {s : State} (quiet : NoFrameWaits s) (moving : ¬(s.motion.mode = .safe ∨ s.motion.mode.isStopped = true)) :
    (opened s).air = seeExpiry (s.air.map Slot.countDown) := by
  have clock := ticked_clockToWrap quiet
  have mode : ¬((countLifetimes (clockToWrap s)).motion.mode = .safe
      ∨ (countLifetimes (clockToWrap s)).motion.mode.isStopped = true) := by
    simpa only [countLifetimes, raiseIf_eq, clock.motion] using moving
  rw [opened, (Steers.controlEdits.arbiterExpiry _).air, promoteAtRest, if_neg mode]
  simp only [countLifetimes, raiseIf_eq, clock.table.1]

/-- What an expiry leaves of O (R24). -/
theorem anyOccupied_opened {s : State} (quiet : NoFrameWaits s)
    (moving : ¬(s.motion.mode = .safe ∨ s.motion.mode.isStopped = true)) :
    anyOccupied (opened s) = true
      ↔ ∃ z ∈ liveZones s.air, z.occupied = true ∧ z.lifetime ≠ some 0 ∧ z.lifetime ≠ some 1 := by
  have live : ∀ (air : List Slot) (z : Zone), z ∈ liveZones air ↔ ∃ sl ∈ air, sl.zone = some z := by simp [liveZones]
  simp only [anyOccupied_iff, opened_air quiet moving, live, seeExpiry, List.mem_map, exists_exists_and_eq_and]
  constructor
  · rintro ⟨y, ⟨sl, hsl, hy⟩, occupied⟩
    rw [countDown_eq] at hy
    by_cases due : sl.due = true
    · simp [due, Slot.retire] at hy
    · obtain ⟨x, hx, rfl⟩ : ∃ x, (sl.zone.map Zone.aged) = some x ∧ x.expirySeen = y := by simpa [due] using hy
      obtain ⟨z, hz, rfl⟩ := Option.map_eq_some_iff.1 hx
      refine ⟨z, ⟨sl, hsl, hz⟩, occupied, fun h => due ((due_iff sl).2 ⟨z, 0, hz, h, by omega⟩),
        fun h => due ((due_iff sl).2 ⟨z, 1, hz, h, by omega⟩)⟩
  · rintro ⟨z, ⟨sl, hsl, hz⟩, occupied, h0, h1⟩
    refine ⟨z.aged.expirySeen, ⟨sl, hsl, ?_⟩, occupied⟩
    rw [countDown_of_not_due hz h0 h1]
    rfl

/-- With a holder the claim decision does nothing, and out of STICK the backoffs alone are counted. -/
theorem arbiterExpiry_held {s : State} (holder : s.auth.holder.isSome = true) :
    eventSet (arbiterExpiry s) .authority = eventSet s .authority
      ∧ (arbiterExpiry s).auth.holder = s.auth.holder
      ∧ (s.motion.mode ≠ .stick → (arbiterExpiry s).auth = { s.auth with backoff := s.auth.backoff.map (fun n => n - 1) }) := by
  obtain ⟨h, hh⟩ := Option.isSome_iff_exists.1 holder
  have undecided : claimDecision (countBackoffs s) = countBackoffs s := by
    simp [claimDecision, countBackoffs, hh]
  have counted : arbiterExpiry s = stickStep (countBackoffs s) := congrArg stickStep undecided
  rw [counted]
  by_cases stick : s.motion.mode = .stick
  · refine ⟨?_, ?_, fun other => absurd stick other⟩ <;>
      rw [stickStep, if_pos (show (countBackoffs s).motion.mode = _ from stick)] <;>
      rcases hq : consumes (countBackoffs s).auth with _ | q
    · exact eventSet_raiseIf_of_ne (by decide) _ _
    · rfl
    · simp [raiseIf_eq, missStep, countBackoffs]
    · simp [consumeStep, countBackoffs]
  · rw [stickStep, if_neg (show (countBackoffs s).motion.mode ≠ _ from stick)]
    exact ⟨rfl, rfl, fun _ => rfl⟩

/-- What an expiry has done to the holder before its computation begins. -/
theorem opened_held {s : State} (quiet : NoFrameWaits s) (holder : s.auth.holder.isSome = true) :
    eventSet (opened s) .authority = eventSet s .authority
      ∧ (opened s).auth.holder = s.auth.holder
      ∧ (s.motion.mode ≠ .stick → (opened s).auth = { s.auth with backoff := s.auth.backoff.map (fun n => n - 1) }) := by
  have clock := clockRun_runToWrap (s.station.buffer.length + 2) quiet
  have wrapped : (clockToWrap s).auth = s.auth ∧ eventSet (clockToWrap s) .authority = eventSet s .authority :=
    ⟨clock.auth, clock.authority⟩
  have motion := (ticked_clockToWrap quiet).motion
  obtain ⟨motionT, authT, -, eventT⟩ := promoteAtRest_countLifetimes (clockToWrap s)
  rw [motion] at motionT
  rw [wrapped.1] at authT
  rw [wrapped.2] at eventT
  obtain ⟨event, held, auth⟩ := arbiterExpiry_held (s := promoteAtRest (countLifetimes (clockToWrap s)))
    (by rw [authT]; exact holder)
  rw [motionT, authT] at auth
  rw [authT] at held
  exact ⟨event.trans eventT, held, auth⟩

/-! ## The mode settles (R37, R56, R61) -/

theorem clearCueBasis_cue (s : State) : (clearCueBasis s).cue = s.cue := by
  unfold clearCueBasis
  split
  · rfl
  · split
    · rfl
    · unfold endAuthority
      dsimp only
      split <;> rfl

theorem eventSet_clearCueBasis {e : Event} (he : e ≠ .authority) (s : State) :
    eventSet (clearCueBasis s) e = eventSet s e := by
  unfold clearCueBasis
  split
  · rfl
  · split
    · rfl
    · unfold endAuthority
      dsimp only
      refine (eventSet_raiseIf_of_ne he true _).trans ?_
      split <;> rfl

theorem eventSet_endCue_of_ne {e : Event} (he : e ≠ .authority) (s : State) : eventSet (endCue s) e = eventSet s e :=
  eventSet_clearCueBasis he (dropCopy s)

theorem endCue_entries (s : State) : (endCue s).cue.entries = s.cue.entries := by
  show (clearCueBasis (dropCopy s)).cue.entries = _
  rw [clearCueBasis_cue]
  rfl

/-- The removal of a head that fails is what raises CUE_WANT (R106). -/
theorem wantsByCount_failHead (why : FailReason) (s : State) : WantsByCount s (failHead why s) := by
  unfold WantsByCount
  rw [failHead_eq, eventSet_endCue_of_ne (by decide), endCue_entries, eventSet_failRecorded, failRecorded_cue]
  simp

theorem beginEviction_list (s : State) :
    (beginEviction s).cue.entries = s.cue.entries ∧ ∀ e, e ≠ .authority → eventSet (beginEviction s) e = eventSet s e := by
  unfold beginEviction
  dsimp only
  split
  · refine ⟨?_, fun e he => eventSet_clearCueBasis he _⟩
    rw [haltCue, clearCueBasis_cue]
    rfl
  · split <;> exact ⟨rfl, fun _ _ => rfl⟩

theorem beginEviction_trapped (s : State) : (beginEviction s).motion.trapped = s.motion.trapped := by
  unfold beginEviction
  dsimp only
  split
  · rw [haltCue, clearCueBasis_motion (s := dropCopy (setMode .evict s)) (by simp)]
    rfl
  · split <;> rfl

/-- What settling does, by the mode and O. -/
theorem settle_cases (s : State) :
    settle s = s
      ∨ (anyOccupied s = true ∧ s.motion.mode ≠ .evict ∧ settle s = beginEviction s)
      ∨ (anyOccupied s = false ∧ s.motion.mode = .cue ∧ copyUnreachable s = true ∧ settle s = failHead .unreachable s)
      ∨ (anyOccupied s = false ∧ s.motion.mode = .evict ∧ settle s = endEviction s) := by
  unfold settle
  rcases hm : s.motion.mode with _ | _ | _ | _ | _ | _ | _ <;> rcases ho : anyOccupied s with _ | _ <;>
    rcases hu : copyUnreachable s with _ | _ <;> simp

theorem wantsByCount_settle (s : State) : WantsByCount s (settle s) := by
  rcases settle_cases s with e | ⟨-, -, e⟩ | ⟨-, -, -, e⟩ | ⟨-, -, e⟩ <;> rw [e]
  · exact wantsByCount_refl rfl rfl
  · obtain ⟨entries, event⟩ := beginEviction_list s
    exact wantsByCount_refl entries (event _ (by decide))
  · exact wantsByCount_failHead _ s
  · exact wantsByCount_refl rfl rfl

/-- Settling raises no TRAPPED, and where it leaves EVICT the episode goes on or begins as it was (R55). -/
theorem settle_trapped (s : State) : eventSet (settle s) .trapped = eventSet s .trapped
    ∧ ((settle s).motion.mode = .evict → anyOccupied s = true → (settle s).motion.trapped = s.motion.trapped) := by
  rcases settle_cases s with e | ⟨-, -, e⟩ | ⟨free, -, -, e⟩ | ⟨free, -, e⟩ <;> rw [e]
  · exact ⟨rfl, fun _ _ => rfl⟩
  · exact ⟨(beginEviction_list s).2 _ (by decide), fun _ _ => beginEviction_trapped s⟩
  · refine ⟨?_, fun _ occupied => ?_⟩
    · rw [failHead_eq, eventSet_endCue_of_ne (by decide), eventSet_failRecorded]
      simp
    · rw [free] at occupied; cases occupied
  · exact ⟨rfl, fun _ occupied => by rw [free] at occupied; cases occupied⟩

/-- The search of an episode (R54, R55). -/
theorem searchExit_eq (s : State) :
    searchExit s = { s with
      motion := { s.motion with
        exit := exitSearch s.span.flightBox s.motion.lim.standoff (activeZones s) (heldP s)
        trapped := (exitSearch s.span.flightBox s.motion.lim.standoff (activeZones s) (heldP s)).isNone }
      station := { s.station with events := (searchExit s).station.events } }
    ∧ ∀ e, eventSet (searchExit s) e = (eventSet s e
      || ((exitSearch s.span.flightBox s.motion.lim.standoff (activeZones s) (heldP s)).isNone && !s.motion.trapped)
        && decide (e = .trapped)) := by
  refine ⟨?_, fun e => eventSet_raiseIf _ _ _ _⟩
  unfold searchExit
  dsimp only
  rw [raiseIf_eq]

/-- Where a running cue does not go on, it halts for an eviction, with its entry kept, or its head fails (R37, R61). -/
theorem settle_cue_over {s : State} (mode : s.motion.mode = .cue) (holder : s.auth.holder.isSome = true)
    (left : (settle s).motion.mode ≠ .cue) :
    CueOver s (settle s)
      ∧ (anyOccupied s = true →
          (settle s).cue.entries = s.cue.entries ∧ (settle s).cue.failure = s.cue.failure)
      ∧ (anyOccupied s = false → ∀ e rest, s.cue.entries = e :: rest → Failed .unreachable e rest s (settle s)) := by
  have stick : s.motion.mode ≠ .stick := by simp [mode]
  obtain ⟨h, hh⟩ := Option.isSome_iff_exists.1 holder
  rcases settle_cases s with e | ⟨occupied, -, e⟩ | ⟨free, -, -, e⟩ | ⟨-, evict, -⟩
  · rw [e] at left
    exact absurd mode left
  · rw [e, beginEviction_of_cue mode holder occupied]
    refine ⟨cueOver_endCue (.refl s) holder stick, fun _ => ?_, fun free => ?_⟩
    · rw [endCue_cue hh stick]
      exact ⟨rfl, rfl⟩
    · rw [occupied] at free; cases free
  · rw [e]
    refine ⟨cueOver_failHead _ holder stick, fun occupied => ?_, fun _ e rest entries => failed_failHead _ entries holder stick⟩
    rw [free] at occupied; cases occupied
  · rw [mode] at evict; cases evict

/-- A cue that goes on, or a stick, leaves the state as it is. -/
theorem settle_stays {s : State} (h : (settle s).motion.mode = .cue ∨ (settle s).motion.mode = .stick) : settle s = s := by
  rcases settle_cases s with e | ⟨-, -, e⟩ | ⟨free, -, -, e⟩ | ⟨-, -, e⟩
  · exact e
  · rw [e, beginEviction_mode] at h; simp at h
  · rw [e, failHead_mode, free] at h; simp at h
  · rw [e] at h; simp [endEviction] at h

/-- EVICT is settled only with O not empty (R37, R56). -/
theorem occupied_of_settle_evict {s : State} (h : (settle s).motion.mode = .evict) : anyOccupied s = true := by
  by_contra free
  rw [settle_mode] at h
  rcases hm : s.motion.mode with _ | _ | _ | _ | _ | _ | _ <;> simp [hm, free] at h
  split at h <;> cases h

/-! ## The computation that has begun (R42, R43) -/

/-- An expiry in a mode that moves, from the state `u` in which its computation begins. -/
structure Begun (u t : State) : Prop where
  motion : t.motion = { (readied u).motion with flight := some (snapshot (readied u)) }
  cue : t.cue = (settle u).cue
  auth : t.auth = (settle u).auth
  air : t.air = u.air
  event : ∀ e, e ≠ .port → e ≠ .trapped → eventSet t e = eventSet (settle u) e
  trapped : eventSet t .trapped = eventSet (readied u) .trapped

theorem readied_settled (s : State) : (readied s).cue = (settle s).cue ∧ (readied s).auth = (settle s).auth
    ∧ (readied s).motion.copy = (settle s).motion.copy
    ∧ ∀ e, e ≠ .trapped → eventSet (readied s) e = eventSet (settle s) e := by
  unfold readied
  split
  · obtain ⟨eq, event⟩ := searchExit_eq (settle s)
    rw [eq] at event ⊢
    exact ⟨rfl, rfl, rfl, fun e he => (event e).trans (by simp [he])⟩
  · exact ⟨rfl, rfl, rfl, fun _ _ => rfl⟩

theorem begun_of_closing {u t : State} (moving : u.motion.mode.steered = true ∨ u.motion.mode = .stopping)
    (closing : Closing (beginComputation u) t) : Begun u t := by
  obtain ⟨others, event⟩ := closing
  rw [beginComputation_moving moving] at others event
  obtain ⟨cue, auth, -, same⟩ := readied_settled u
  have frame := (BeginFrame.readied u).frame
  refine ⟨by rw [others], ?_, ?_, ?_, fun e port trapped => (event e port).trans (same e trapped), event _ (by decide)⟩
  · rw [others]; exact cue
  · rw [others]; exact auth
  · rw [others]; exact frame.air

/-- The searched state of an episode (R54, R55). -/
theorem readied_evict {s : State} (h : (settle s).motion.mode = .evict) :
    (readied s).motion.exit
        = exitSearch s.span.flightBox s.motion.lim.standoff ((liveZones s.air).filter (fun z => z.state == .active)) (heldP s)
      ∧ ((readied s).motion.trapped = true ↔ (readied s).motion.exit = none)
      ∧ (eventSet (readied s) .trapped = true
          ↔ eventSet s .trapped = true ∨ (readied s).motion.exit = none ∧ s.motion.trapped = false) := by
  obtain ⟨frame, -, -⟩ := BeginFrame.settle s
  obtain ⟨event, episode⟩ := settle_trapped s
  have before := episode h (occupied_of_settle_evict h)
  have same : exitSearch (settle s).span.flightBox (settle s).motion.lim.standoff (activeZones (settle s)) (heldP (settle s))
      = exitSearch s.span.flightBox s.motion.lim.standoff (activeZones s) (heldP s) := by
    rw [activeZones, activeZones, heldP, heldP, frame.span, frame.lim, frame.air, frame.p]
  obtain ⟨eq, events⟩ := searchExit_eq (settle s)
  rw [readied, if_pos h, events, eq, event, before, same]
  refine ⟨rfl, ?_, ?_⟩ <;> simp [Option.isNone_iff_eq_none]

theorem readied_steady {s : State} (h : (settle s).motion.mode = .cue ∨ (settle s).motion.mode = .stick) : readied s = s := by
  have still := settle_stays h
  rw [readied, still, if_neg]
  rw [← still]
  rcases h with h | h <;> simp [h]

theorem closing_expiryWork {s : State} (quiet : NoFrameWaits s)
    (good : ∀ q ∈ s.ports.list, q.state = .up → q.good = true ∨ q.lastSent = none)
    (short : s.station.silence + 1 < s.station.watchdog) :
    ∃ w n, Closing (beginComputation (opened s)) w
      ∧ expiryWork (clockToWrap s) = { w with station := { w.station with silence := n } } := by
  have opening := (opening_opened quiet).others
  have begun := beginStands (opened s)
  have ports : (beginComputation (opened s)).ports = s.ports := by rw [begun.ports, opening]
  have checked := Closing.portsExpiry (s := beginComputation (opened s)) (by rw [ports]; exact answered_of_good good)
  obtain ⟨n, silence⟩ := silenceStep_short (s := portsExpiry (beginComputation (opened s)))
    (by rw [checked.others, begun.station, opening]; exact short)
  exact ⟨_, n, checked, silence⟩

theorem exec_periodExpiry_landed {s : State} (held : s.resetHeld = false) (landed : s.motion.flight = none) :
    exec .periodExpiry s = .next (expiryWork (clockToWrap s)) := by
  rw [exec_periodExpiry held, commitFlight, landed]

/-! ## The demand (R43) -/

section

variable {s : State}

theorem demandOf_still (h : s.motion.mode = .hold ∨ s.motion.mode = .stopping) : demandOf s = zero3 := by
  rcases h with h | h <;> simp only [demandOf, h]

theorem demandOf_stick (h : s.motion.mode = .stick) : demandOf s = stickDemand s.auth := by simp only [demandOf, h]

theorem demandOf_cue (h : s.motion.mode = .cue) {copy : CueCopy} (hc : s.motion.copy = some copy) :
    demandOf s = cueDemand s.motion.lim.a s.motion.vOld (heldP s) copy := by
  simp only [demandOf, h, hc]

theorem demandOf_evict (h : s.motion.mode = .evict) :
    (s.motion.exit = none → demandOf s = zero3)
      ∧ ∀ e, s.motion.exit = some e →
          demandOf s = evictDemand s.motion.lim.a s.motion.lim.evict s.motion.vOld (heldP s) e := by
  refine ⟨fun none => ?_, fun e he => ?_⟩
  · simp only [demandOf, h, none]
  · simp only [demandOf, h, he]

end

/-- What the state `u` in which the computation of an expiry begins has of the state `s` before the expiry. -/
structure Opened (s u : State) : Prop where
  motion : u.motion = s.motion
  span : u.span = s.span
  marks : u.marks = s.marks
  stop : u.stop = s.stop
  cue : u.cue = s.cue
  ports : u.ports = s.ports
  index : u.period.index = (s.period.index + 1) % 4
  acc : u.period.acc < 2 ^ 32
  event : ∀ e, e ∉ openingEvents → eventSet u e = eventSet s e
  authority : s.auth.holder.isSome = true → eventSet u .authority = eventSet s .authority
  holder : s.auth.holder.isSome = true → u.auth.holder = s.auth.holder
  counted : s.auth.holder.isSome = true → s.motion.mode ≠ .stick →
    u.auth = { s.auth with backoff := s.auth.backoff.map (fun n => n - 1) }
  occupied : ¬(s.motion.mode = .safe ∨ s.motion.mode.isStopped = true) →
    (anyOccupied u = true ↔ ∃ z ∈ liveZones s.air, z.occupied = true ∧ z.lifetime ≠ some 0 ∧ z.lifetime ≠ some 1)

theorem opened_stands {s : State} (quiet : NoFrameWaits s) : Opened s (opened s) := by
  obtain ⟨others, event⟩ := opening_opened quiet
  obtain ⟨index, acc⟩ := opened_period quiet
  have held := fun h => opened_held (s := s) quiet h
  refine ⟨opened_motion quiet, ?_, ?_, ?_, ?_, ?_, index, acc, event, fun h => (held h).1, fun h => (held h).2.1,
    fun h => (held h).2.2, anyOccupied_opened quiet⟩ <;> rw [others]

section

variable {s u t : State}

theorem Mode.moving_not_rest {m : Mode} (moving : m.steered = true ∨ m = .stopping) :
    ¬(m = .safe ∨ m.isStopped = true) := by
  rcases m with _ | _ | _ | _ | _ | _ | _ <;> simp [Mode.steered, Mode.isStopped] at moving ⊢

theorem Begun.mode (b : Begun u t) : t.motion.mode = (settle u).motion.mode := by
  rw [b.motion]
  exact readied_mode u

theorem Begun.search (b : Begun u t) :
    t.motion.exit = (readied u).motion.exit ∧ t.motion.trapped = (readied u).motion.trapped := by
  rw [b.motion]
  exact ⟨rfl, rfl⟩

/-- The copy of a running cue is judged against the table as it stands (R61). -/
theorem Opened.copyUnreachable (o : Opened s u) (b : Begun u t) {copy : CueCopy} (hc : s.motion.copy = some copy) :
    copyUnreachable u
      = unreachable s.span.flightBox s.motion.lim.standoff (liveZones t.air) copy.target := by
  rw [Machine.copyUnreachable, o.motion, hc, o.span, b.air]

theorem Opened.wants (o : Opened s u) (closing : Closing (beginComputation u) t) : WantsByCount s t := by
  rcases Mode.moving_or_rest u.motion.mode with moving | rest
  · have b := begun_of_closing moving closing
    have settled := wantsByCount_settle u
    unfold WantsByCount at settled ⊢
    rw [b.event _ (by decide) (by decide), b.cue, settled, o.event _ (by decide), o.cue]
  · have others := closing.others
    rw [beginComputation_rest rest] at closing others
    refine wantsByCount_refl ?_ ((closing.event _ (by decide)).trans (o.event _ (by decide)))
    rw [others]
    exact congrArg _ o.cue

/-- Where a running cue does not go on (R37, R61, R117). -/
theorem Opened.cueOver (o : Opened s u) (b : Begun u t) (hm : s.motion.mode = .cue) (holder : s.auth.holder.isSome = true)
    (left : t.motion.mode ≠ .cue) :
    t.motion.copy = none ∧ t.cue.running = false
      ∧ CueBasisOver { s.auth with backoff := s.auth.backoff.map (fun n => n - 1) } s t
      ∧ (anyOccupied u = true → t.cue.entries = s.cue.entries ∧ t.cue.failure = s.cue.failure)
      ∧ (anyOccupied u = false → ∀ e rest, s.cue.entries = e :: rest →
          t.cue.entries = rest ∧ t.cue.failure = some { reason := .unreachable, mark := e.mark }
            ∧ eventSet t .cueFailed = true) := by
  have modeU : u.motion.mode = .cue := by rw [o.motion, hm]
  have holderU : u.auth.holder.isSome = true := by rw [o.holder holder]; exact holder
  obtain ⟨ended, halted, failed⟩ := settle_cue_over modeU holderU (by rw [← b.mode]; exact left)
  have counted := o.counted holder (by simp [hm])
  have copy : t.motion.copy = none := by
    rw [b.motion]
    exact (readied_settled u).2.2.1.trans (by rw [ended.motion])
  refine ⟨copy, by rw [b.cue]; exact ended.running, ?_, fun occ => ?_, fun free e rest entries => ?_⟩
  · have basis := (counted ▸ ended.basis).of_authority (o.authority holder)
    intro h hh
    obtain ⟨explicit, alone⟩ := basis h hh
    rw [← b.auth, ← b.event _ (by decide) (by decide)] at explicit alone
    exact ⟨explicit, alone⟩
  · rw [b.cue, ← o.cue]
    exact halted occ
  · obtain ⟨-, -, -, left, event, failure, -⟩ := failed free e rest (by rw [o.cue]; exact entries)
    rw [b.cue, b.event _ (by decide) (by decide)]
    exact ⟨left, failure, event⟩

/-- Where a stick is left for an eviction it is flushed (R37, R126). -/
theorem Opened.stickOver (o : Opened s u) (b : Begun u t) (hm : s.motion.mode = .stick) (holder : s.auth.holder.isSome = true)
    (occ : anyOccupied u = true) :
    t.auth.buffer = [] ∧ t.auth.filling = true ∧ t.auth.lastDemand = none ∧ t.auth.miss = 0 ∧ t.auth.stale = false
      ∧ t.auth.holder = s.auth.holder := by
  have settled : settle u = flushStick (setMode .evict u) := by
    simp [settle, beginEviction, o.motion, hm, occ]
  rw [b.auth, settled]
  exact ⟨rfl, rfl, rfl, rfl, rfl, o.holder holder⟩

/-- The computation that has begun, with all that it reads (R42, R43, R54, R58). -/
theorem Opened.computation (o : Opened s u) (b : Begun u t) {p : Vec3} (hp : s.motion.p = some p) :
    ∃ c, t.motion.flight = some c ∧ c.mode = t.motion.mode ∧ c.p = p ∧ c.vOld = s.motion.vOld
      ∧ c.kind = s.stop.kind ∧ c.speedClass = systemClass s.ports
      ∧ c.zones = (liveZones t.air).filter (fun z => z.state == .active)
      ∧ (c.mode = .hold ∨ c.mode = .stopping → c.demand = zero3)
      ∧ (c.mode = .stick → c.demand = stickDemand t.auth)
      ∧ (c.mode = .cue → ∀ copy, s.motion.copy = some copy → t.motion.copy = some copy
          ∧ c.demand = cueDemand s.motion.lim.a s.motion.vOld p copy)
      ∧ (c.mode = .evict →
          (t.motion.trapped = true ↔ t.motion.exit = none)
          ∧ t.motion.exit = exitSearch s.span.flightBox s.motion.lim.standoff c.zones p
          ∧ (t.motion.exit = none → c.demand = zero3)
          ∧ ∀ e, t.motion.exit = some e →
              c.demand = evictDemand s.motion.lim.a s.motion.lim.evict s.motion.vOld p e) := by
  have begun := BeginFrame.readied u
  have place : heldP (readied u) = p := by rw [heldP, begun.frame.p, o.motion, hp]; rfl
  have zones : (snapshot (readied u)).zones = (liveZones t.air).filter (fun z => z.state == .active) := by
    rw [b.air, ← begun.frame.air]
    rfl
  refine ⟨snapshot (readied u), ?_, ?_, place, begun.vOld.trans (by rw [o.motion]), ?_, ?_, zones, demandOf_still,
    fun stick => ?_, fun cue copy hc => ?_, fun evict => ?_⟩
  · exact congrArg Motion.flight b.motion
  · exact (congrArg Motion.mode b.motion).symm
  · exact congrArg StopUnit.kind (begun.stop.trans o.stop)
  · exact congrArg systemClass (begun.frame.ports.trans o.ports)
  · have auth : t.auth = (readied u).auth := b.auth.trans (readied_settled u).2.1.symm
    rw [auth]
    exact demandOf_stick stick
  · have settled : (settle u).motion.mode = .cue := (readied_mode u).symm.trans cue
    have steady := readied_steady (.inl settled)
    have copyU : u.motion.copy = some copy := by rw [o.motion, hc]
    have demand := demandOf_cue cue (copy := copy) (by rw [steady]; exact copyU)
    rw [place, begun.frame.lim, begun.vOld, o.motion] at demand
    exact ⟨(congrArg Motion.copy b.motion).trans (by rw [steady]; exact copyU), demand⟩
  · have settled : (settle u).motion.mode = .evict := (readied_mode u).symm.trans evict
    obtain ⟨search, trapped, -⟩ := readied_evict settled
    obtain ⟨idle, goes⟩ := demandOf_evict (s := readied u) evict
    have placeU : heldP u = p := by rw [heldP, o.motion, hp]; rfl
    rw [o.span, o.motion, placeU, ← b.air, ← zones] at search
    rw [place, begun.frame.lim, begun.vOld, o.motion] at goes
    obtain ⟨exit, same⟩ := b.search
    rw [same, exit]
    exact ⟨trapped, search, idle, goes⟩

end

/-- Settles O30: the mode settles, and a computation begins where the mode moves. -/
theorem expiryBeginsComputation : Obligations.ExpiryBeginsComputation := by
  intro s held landed quiet good short
  obtain ⟨t, n, closing, done⟩ := closing_expiryWork quiet good short
  refine ⟨_, (exec_periodExpiry_landed held landed).trans (congrArg _ done), ?_⟩
  clear done
  have o := opened_stands quiet
  generalize opened s = u at *
  obtain ⟨span, marks, ports, stop, period, p, vOld, lim, lengths, station⟩ := beginStands u
  rw [o.span] at span
  rw [o.marks] at marks
  rw [o.stop] at stop
  rw [o.motion] at p vOld lim lengths
  have others := closing.others
  refine ⟨?_, ?_, ?_, ?_, ?_, ?_, ?_, ?_, ?_, ?_, fun rest => ?_, fun p0 hp moving => ?_⟩
  · rw [others]; exact (congrArg _ period).trans o.index
  · rw [others]; exact period ▸ o.acc
  · rw [others]; exact p
  · rw [others]; exact vOld
  · rw [others]; exact lim
  · rw [others]; exact lengths
  · rw [others]; exact span
  · rw [others]; exact marks
  · rw [others]; exact stop
  · have wants := o.wants closing
    exact wants
  · rw [others, beginComputation_rest (by rw [o.motion]; exact rest)]
    show { u.motion with feed := quadOf 0 } = _
    rw [o.motion]
    rfl
  have b := begun_of_closing (by rw [o.motion]; exact moving) closing
  have mode := b.mode
  have occupied := o.occupied (Mode.moving_not_rest moving)
  rw [settle_mode, o.motion] at mode
  dsimp only
  refine ⟨fun hm => ?_, fun hm still => ?_, fun hm free => ?_, fun hm free => ?_, fun hm free copy hc => ?_,
    fun hm holder left => ?_, fun hm holder still => ?_, fun evict => ?_, ?_⟩
  · rw [hm] at mode
    exact mode
  · have occ := occupied.2 still
    refine mode.trans ?_
    rcases hs : s.motion.mode with _ | _ | _ | _ | _ | _ | _ <;> simp [hs, Mode.steered, occ] at moving hm ⊢
  · rcases hm with hm | hm <;> rw [hm] at mode <;> exact mode.trans (if_neg (mt occupied.1 free))
  · rw [hm] at mode
    exact mode.trans (if_neg (mt occupied.1 free))
  · rw [hm] at mode
    refine mode.trans ((if_neg (mt occupied.1 free)).trans ?_)
    rw [o.copyUnreachable b hc]
  · obtain ⟨copy, running, basis, halted, failed⟩ := o.cueOver b hm holder left
    exact ⟨copy, running, basis, fun still => halted (occupied.2 still),
      fun free => failed (Bool.eq_false_iff.2 (mt occupied.1 free))⟩
  · exact o.stickOver b hm holder (occupied.2 still)
  · obtain ⟨-, -, raised⟩ := readied_evict (b.mode.symm.trans evict)
    obtain ⟨exit, -⟩ := b.search
    have event := o.event .trapped (by decide)
    have trapped := b.trapped
    show eventSet t .trapped = true ↔ _ ∨ t.motion.exit = none ∧ _
    rw [trapped, raised, event, exit, o.motion]
  obtain ⟨c, flight, ran, place, vOldC, kind, speedClass, zones, still, stick, cue, evict⟩ := o.computation b hp
  refine ⟨c, flight, ran, place, vOldC, kind, speedClass, zones, still, stick, fun hm copy hc => ?_, evict⟩
  obtain ⟨kept, demand⟩ := cue hm copy hc
  exact ⟨kept, fun dwells => demand.trans (if_pos dwells), fun before => demand.trans (if_neg (by simp [before]))⟩

end Sys2Proof.Machine
end

