-- ==== Sys2Proof/Proofs/LimitRequests.lean ====
section
/-! PROOFS. The limit settings and the standard: the conversions of R85 and R86, and the requests that store them (R84, R87, R88,
R183). -/

namespace Sys2Proof.Machine

/-! ## A request taken in SAFE alone (R70) -/

theorem inSafe_of_not_safe {s : State} {ok : Bool} {own : State → State × Reply} (h : s.motion.mode ≠ .safe) :
    inSafe s ok own = refuse .wrongState s := if_pos h

theorem inSafe_of_bad {s : State} {own : State → State × Reply} (h : s.motion.mode = .safe) :
    inSafe s false own = refuse .badParam s := if_neg (not_not.2 h)

theorem inSafe_of_safe {s : State} {own : State → State × Reply} (h : s.motion.mode = .safe) :
    inSafe s true own = own s := if_neg (not_not.2 h)

/-! ## The conversions (R85, R86) -/

/-- The least acceleration is 1 µm per period², whatever the setting. -/
theorem accelPer_eq (std : Standard) (a : Nat) :
    accelPer std a
      = if a * (std.tns * std.tns) / 10 ^ 15 = 0 then 1 else a * (std.tns * std.tns) / 10 ^ 15 := by
  unfold accelPer
  split <;> omega

theorem tns_bounds (std : Standard) : 4166667 ≤ std.tns ∧ std.tns ≤ 5000000 := by cases std <;> decide

/-- Every product of a conversion fits 64 bits. -/
theorem conversion_products (std : Standard) :
    (∀ v, v ≤ 12000 → v * std.tns < 2 ^ 64) ∧ std.tns * std.tns < 2 ^ 64
      ∧ ∀ a, a ≤ 12000 → a * (std.tns * std.tns) ≤ 3 * 10 ^ 17 := by
  have tns : std.tns ≤ 5000000 := (tns_bounds std).2
  have square : std.tns * std.tns ≤ 5000000 * 5000000 := Nat.mul_le_mul tns tns
  refine ⟨fun v hv => ?_, by omega, fun a ha => (Nat.mul_le_mul ha square).trans (by norm_num)⟩
  exact (Nat.mul_le_mul hv tns).trans_lt (by norm_num)

/-- The least speed setting gives 416 µm per period or more. -/
theorem le_speedPer (std : Standard) {v : Nat} (hv : 100 ≤ v) : 416 ≤ speedPer std v :=
  (Nat.le_div_iff_mul_le (by norm_num)).2 <|
    calc 416 * 1000000 ≤ 100 * 4166667 := by norm_num
      _ ≤ v * std.tns := Nat.mul_le_mul hv (tns_bounds std).1

theorem accelPer_least (std : Standard) : accelPer std 100 = if std = .s50 then 2 else 1 := by cases std <;> rfl

/-- Settles O38, from the bounds of T_ns. -/
theorem limitConversion : Obligations.LimitConversion := by
  intro std t
  have nominal : t = std.tns := by cases std <;> rfl
  rw [nominal]
  obtain ⟨speedFits, squareFits, accelFits⟩ := conversion_products std
  exact ⟨fun v => ⟨rfl, Nat.div_mul_le_self _ _, speedFits v, le_speedPer std⟩,
    fun a => ⟨accelPer_eq std a, Nat.le_max_left _ _, squareFits, accelFits a, accelPer_least std,
      fun _ => ⟨rfl, rfl, rfl, rfl, rfl, rfl, rfl, rfl⟩⟩⟩

/-! ## SET_LIMITS (R84, R87) -/

/-- The ten settings clamped, each by its least and its greatest value. -/
theorem clampSettings_eq (l : LimitSettings) :
    clampSettings l =
      { vh := max 100 (min 12000 l.vh), vz := max 100 (min 6000 l.vz), a := max 100 (min 8000 l.a)
        aStop := max 100 (min 8000 l.aStop), aQuick := max 100 (min 12000 l.aQuick), aBrk := max 100 (min 8000 l.aBrk)
        evict := max 100 (min 3000 l.evict), cueDefault := max 100 (min 12000 l.cueDefault)
        standoff := min 5000 l.standoff, margin := min 10000 l.margin } := by
  simp [clampSettings, clampNat_eq]

theorem setLimits_of_safe {s : State} (l : LimitSettings) (safe : s.motion.mode = .safe) :
    setLimits l s
      = accept
          { s with
            span := { s.span with settings := clampSettings l }
            motion := { s.motion with lim := convertLimits s.period.configured (clampSettings l) } }
          (settingsBytes (clampSettings l) ++ limitBytes (convertLimits s.period.configured (clampSettings l))) :=
  inSafe_of_safe safe

/-! ## SET_STANDARD (R88, R183) -/

theorem standardOf_eq_none {n : Nat} (h : n = 0 ∨ 3 < n) : standardOf n = none := by
  rcases h with rfl | h
  · rfl
  · obtain ⟨k, rfl⟩ := Nat.exists_eq_add_of_lt h
    rw [Nat.add_assoc, Nat.add_comm]
    rfl

/-- The code a SET_STANDARD asks by is the one its answer gives. -/
theorem standardOf_eq_some {n : Nat} {std : Standard}
    (h : n = 1 ∧ std = .s50 ∨ n = 2 ∧ std = .s5994 ∨ n = 3 ∧ std = .s60) :
    standardOf n = some std ∧ standardCode (some std) = n := by
  rcases h with ⟨rfl, rfl⟩ | ⟨rfl, rfl⟩ | ⟨rfl, rfl⟩ <;> exact ⟨rfl, rfl⟩

/-- The standard that stands already leaves the generator as it was. -/
theorem setStandard_same {s : State} {n : Nat} {std : Standard} (hn : standardOf n = some std)
    (safe : s.motion.mode = .safe) (same : std = s.period.configured) :
    setStandard n s = accept (convertAll std s) (byte (standardCode (some std)) ++ byte s.period.lock.code) := by
  simp [setStandard, hn, inSafe_of_safe safe, PeriodGen.setStandard, same, raiseIf_eq]

/-- A change of standard makes the lock FREE, and raises REFERENCE where it was not (R183, R191). -/
theorem setStandard_change {s : State} {n : Nat} {std : Standard} (hn : standardOf n = some std)
    (safe : s.motion.mode = .safe) (change : std ≠ s.period.configured) :
    setStandard n s
      = accept
          (convertAll std
            { s with
              period := { s.period with
                configured := std, lock := .free, increment := std.nominal, lockRun := 0, unlockRun := 0
                loss := std.lossLimit }
              station := { s.station with
                events := if s.period.lock = .free then s.station.events else s.station.events ||| 0x1000#14 } })
          (byte (standardCode (some std)) ++ byte 0) := by
  have flag : BitVec.twoPow 14 Event.reference.bit = 0x1000#14 := by decide
  rcases lock : s.period.lock with _ | _ | _ | _ <;>
    simp [setStandard, hn, inSafe_of_safe safe, PeriodGen.setStandard, PeriodGen.enterFree, change, raiseIf_eq, lock, flag,
      Lock.code]

/-- Settles O39: each request by the mode, and SET_STANDARD by whether the standard changes. -/
theorem limitsAndStandardTaken : Obligations.LimitsAndStandardTaken := by
  refine ⟨fun s st l may => ?_, fun s st n may => ?_⟩
  · intro kept std lim
    have clamped : kept = clampSettings l := (clampSettings_eq l).symm
    have converted : lim = convertLimits std (clampSettings l) := clamped ▸ rfl
    refine ⟨fun moving => ?_, fun safe => ?_⟩
    · exact request_refused (own := fun _ t => setLimits l t) may (inSafe_of_not_safe moving)
    · refine request_accepted (own := fun _ t => setLimits l t) may ?_
      rw [clamped, converted]
      exact setLimits_of_safe (s := takeFrame s) l safe
  · refine ⟨fun bad => ?_, fun std named => ?_⟩
    · exact request_refused (own := fun _ t => setStandard n t) may (by simp only [setStandard, standardOf_eq_none bad])
    obtain ⟨hn, code⟩ := standardOf_eq_some named
    refine ⟨fun moving => request_refused (own := fun _ t => setStandard n t) may ?_,
      fun safe same => request_accepted (own := fun _ t => setStandard n t) may ?_,
      fun safe change => request_accepted (own := fun _ t => setStandard n t) may ?_⟩
    · simp only [setStandard, hn]
      exact inSafe_of_not_safe moving
    · rw [setStandard_same (s := takeFrame s) hn safe same, code]
      rfl
    · rw [setStandard_change (s := takeFrame s) hn safe change, code]
      cases std <;> rfl

end Sys2Proof.Machine
end

