-- ==== Sys2Proof/Proofs/DemandLength.lean ====
section
/-! PROOFS. From position to cable length: the geometric length, the correction between the points of the table, and the demand
length made of both (R77 to R79). -/

namespace Sys2Proof

/-! ## The truncated quotient -/

/-- A difference taken by less than its whole, and truncated toward zero, stays between nothing and the whole. -/
theorem add_quot_between (a b : Int) {f n : Nat} (hf : f < n) :
    min a b ≤ a + quot ((b - a) * f) n ∧ a + quot ((b - a) * f) n ≤ max a b := by
  have short := shortens_quot_mul (b - a) hf.le
  generalize quot ((b - a) * f) n = q at *
  unfold Shortens at short
  omega

end Sys2Proof

namespace Sys2Proof.Machine

/-! ## The correction (R78) -/

theorem correction_below {lBase g : Nat} (lStep : Nat) (c : List Int) (h : g < lBase) :
    correction lBase lStep c g = c.getD 0 0 := if_pos h

theorem correction_above {lBase lStep g : Nat} (c : List Int) (pos : 0 < lStep) (h : lBase + 32 * lStep ≤ g) :
    correction lBase lStep c g = c.getD 32 0 := by
  have beyond : 32 ≤ (g - lBase) / lStep := (Nat.le_div_iff_mul_le pos).2 (by omega)
  unfold correction
  rw [if_neg (by omega)]
  exact if_pos beyond

/-- Between point j and the next, `f` behind point j. -/
theorem correction_between {lBase lStep j f : Nat} (c : List Int) (hj : j < 32) (hf : f < lStep) :
    correction lBase lStep c (lBase + j * lStep + f)
      = c.getD j 0 + quot ((c.getD (j + 1) 0 - c.getD j 0) * (f : Int)) lStep := by
  have behind : lBase + j * lStep + f - lBase = j * lStep + f := by omega
  have point : (j * lStep + f) / lStep = j := by
    rw [Nat.mul_comm, Nat.mul_add_div (by omega), Nat.div_eq_of_lt hf, Nat.add_zero]
  unfold correction
  dsimp only
  rw [if_neg (by omega), behind, point, if_neg (by omega), Nat.add_sub_cancel_left]

theorem correction_at {lBase lStep j : Nat} (c : List Int) (pos : 0 < lStep) (hj : j ≤ 32) :
    correction lBase lStep c (lBase + j * lStep) = c.getD j 0 := by
  rcases Nat.lt_or_eq_of_le hj with hj | rfl
  · simpa [quot] using correction_between (lBase := lBase) (f := 0) c hj pos
  · exact correction_above c pos le_rfl

/-- The product of the correction fits where the table and the spacing lie in their ranges. -/
theorem correction_product {a b : Int} {f n : Nat} (ha : a.natAbs ≤ 50000) (hb : b.natAbs ≤ 50000) (hf : f < n)
    (hn : n ≤ 16000000) : ((b - a) * (f : Int)).natAbs ≤ 100000 * 16000000 := by
  rw [Int.natAbs_mul]
  exact Nat.mul_le_mul (by omega) (by omega)

/-! ## The lengths (R77, R79) -/

/-- The geometric length is the integer square root of the squared distance (R77). -/
theorem geometricLength_spec (a o p : Vec3) :
    let v := (a.minus p).minus o
    let sq := v.x * v.x + v.y * v.y + v.z * v.z
    let g := geometricLength a o p
    (g * g : Int) ≤ sq ∧ sq < ((g + 1) * (g + 1) : Int) := by
  intro v sq g
  have spec := isqrt_spec v.sq
  have whole : (v.sq : Int) = sq := Int.toNat_of_nonneg <|
    add_nonneg (add_nonneg (mul_self_nonneg _) (mul_self_nonneg _)) (mul_self_nonneg _)
  rw [← whole]
  exact_mod_cast spec

/-- Settles O37: the correction piece by piece, then the two lengths. -/
theorem demandLengthLaw : Obligations.DemandLengthLaw := by
  refine ⟨fun lBase lStep g j c pos => ⟨correction_below lStep c, correction_above c pos, fun hj lo hi => ?_,
    correction_at c pos⟩, fun a o p => geometricLength_spec a o p, fun g p i => ?_⟩
  · obtain ⟨f, rfl⟩ := Nat.exists_eq_add_of_le lo
    have hf : f < lStep := by rw [Nat.succ_mul] at hi; omega
    have offset : ((lBase + j * lStep + f : Nat) : Int) - lBase - j * lStep = f := by push_cast; ring
    dsimp only
    rw [offset, correction_between c hj hf]
    obtain ⟨least, greatest⟩ := add_quot_between (c.getD j 0) (c.getD (j + 1) 0) hf
    exact ⟨rfl, least, greatest, fun table spacing => correction_product (table j) (table (j + 1)) hf spacing⟩
  · have range : (0 : Int) ≤ g.payoutUm := by unfold Span.payoutUm; omega
    exact clamp_eq _ _ _ range

end Sys2Proof.Machine
end

