-- ==== Sys2Proof/Proofs/GeometryReport.lean ====
section
/-! PROOFS. The validity report check by check, each with the detail it names (R74, R75), and the requests that validate the
geometry (R70 to R73). -/

namespace Sys2Proof

/-! ## The four winches, one by one -/

theorem forall_lt_four {P : Nat → Prop} : (∀ i, i < 4 → P i) ↔ P 0 ∧ P 1 ∧ P 2 ∧ P 3 := by
  refine ⟨fun h => ⟨h 0 (by omega), h 1 (by omega), h 2 (by omega), h 3 (by omega)⟩, ?_⟩
  rintro ⟨h0, h1, h2, h3⟩ i hi
  interval_cases i <;> assumption

theorem exists_lt_four {P : Nat → Prop} : (∃ i, i < 4 ∧ P i) ↔ P 0 ∨ P 1 ∨ P 2 ∨ P 3 := by
  constructor
  · rintro ⟨i, hi, h⟩
    interval_cases i <;> simp [h]
  · rintro (h | h | h | h)
    exacts [⟨0, by omega, h⟩, ⟨1, by omega, h⟩, ⟨2, by omega, h⟩, ⟨3, by omega, h⟩]

theorem Quad.all_iff {α : Type} (q : Quad α) (f : α → Bool) : q.all f = true ↔ ∀ i, i < 4 → f (q.get i) = true := by
  simp [forall_lt_four, Quad.all, Quad.get, and_assoc]

/-! ## The first find of a search -/

/-- A search of a list in its order finds what its first hit gives. -/
theorem findSome?_eq_some_iff_first {α β : Type} {r : α → α → Prop} {f : α → Option β} {l : List α} {b : β}
    (rising : l.Pairwise r) (asymm : ∀ x y, r x y → ¬r y x) :
    l.findSome? f = some b ↔ ∃ a ∈ l, f a = some b ∧ ∀ x ∈ l, r x a → f x = none := by
  induction l with
  | nil => simp
  | cons a l ih =>
    have first : ∀ x ∈ a :: l, ¬r x a := by
      intro x hx before
      rcases List.mem_cons.1 hx with rfl | hx
      · exact asymm x x before before
      · exact asymm x a before (List.rel_of_pairwise_cons rising hx)
    rcases hit : f a with _ | c
    · rw [List.findSome?_cons_of_isNone (by simp [hit]), ih rising.tail]
      simp [hit]
    · rw [List.findSome?_cons_of_isSome (by simp [hit]), hit]
      constructor
      · intro found
        exact ⟨a, List.mem_cons_self, hit.trans found, fun x hx before => absurd before (first x hx)⟩
      · rintro ⟨x, hx, found, none⟩
        rcases List.mem_cons.1 hx with rfl | hx
        · exact hit.symm.trans found
        · rw [none a List.mem_cons_self (List.rel_of_pairwise_cons rising hx)] at hit
          cases hit

theorem findSome?_range_eq_some {β : Type} {f : Nat → Option β} {n : Nat} {b : β} :
    (List.range n).findSome? f = some b ↔ ∃ k, k < n ∧ f k = some b ∧ ∀ j, j < k → f j = none := by
  rw [findSome?_eq_some_iff_first List.pairwise_lt_range (fun _ _ => Nat.lt_asymm)]
  simp only [List.mem_range]
  exact exists_congr fun k => and_congr_right fun hk => and_congr_right fun _ =>
    ⟨fun h j hj => h j (hj.trans hk) hj, fun h j _ hj => h j hj⟩

end Sys2Proof

namespace Sys2Proof.Machine

/-! ## Check 1: the anchors stand apart -/

/-- Two anchors stand at least 10 m apart in plan (R74, check 1). -/
def Far (g : Span) (i j : Nat) : Prop :=
  let a := g.anchors.get i
  let b := g.anchors.get j
  10000000 ≤ isqrt ((a.x - b.x) * (a.x - b.x) + (a.y - b.y) * (a.y - b.y)).toNat

/-- Check 1 passes: every pair stands apart. -/
def Spaced (g : Span) : Prop := ∀ i j, i < j → j < 4 → Far g i j

/-- The first pair in the order of check 1 that stands too close. -/
def FirstClose (g : Span) (a b : Nat) : Prop :=
  a < b ∧ b < 4 ∧ ¬Far g a b ∧ ∀ i j, i < j → j < 4 → (i < a ∨ i = a ∧ j < b) → Far g i j

/-- The order of check 1 among the pairs. -/
def PairBefore (p q : Nat × Nat) : Prop := p.1 < q.1 ∨ p.1 = q.1 ∧ p.2 < q.2

theorem horizontal_lt_iff (g : Span) (i j : Nat) :
    horizontal (g.anchors.get i) (g.anchors.get j) < 10000000 ↔ ¬Far g i j := by
  simp [horizontal, Vec3.norm, Vec3.sq, Vec3.minus, Far]

theorem mem_anchorPairs (p : Nat × Nat) : p ∈ anchorPairs ↔ p.1 < p.2 ∧ p.2 < 4 := by
  obtain ⟨i, j⟩ := p
  simp only [anchorPairs, List.mem_cons, Prod.mk.injEq, List.not_mem_nil, or_false]
  omega

theorem checkSpacing_eq (g : Span) :
    checkSpacing g = anchorPairs.findSome? (fun q =>
      if horizontal (g.anchors.get q.1) (g.anchors.get q.2) < 10000000 then some (.anchorSpacing q.1 q.2) else none) := by
  unfold checkSpacing
  induction anchorPairs with
  | nil => rfl
  | cons q l ih =>
    by_cases close : horizontal (g.anchors.get q.1) (g.anchors.get q.2) < 10000000
    · simp [close]
    · simpa [close] using ih

theorem checkSpacing_eq_none (g : Span) : checkSpacing g = none ↔ Spaced g := by
  rw [checkSpacing_eq, List.findSome?_eq_none_iff]
  simp only [mem_anchorPairs, horizontal_lt_iff, ite_eq_right_iff, reduceCtorEq, imp_false, not_not, Prod.forall]
  exact forall₂_congr fun i j => and_imp

/-- Check 1 names the first pair that stands too close. -/
theorem checkSpacing_eq_some (g : Span) (v : Validity) :
    checkSpacing g = some v ↔ ∃ a b, v = .anchorSpacing a b ∧ FirstClose g a b := by
  have rising : anchorPairs.Pairwise PairBefore := by unfold PairBefore; decide
  have asymm : ∀ p q : Nat × Nat, PairBefore p q → ¬PairBefore q p := by unfold PairBefore; omega
  rw [checkSpacing_eq, findSome?_eq_some_iff_first rising asymm]
  simp only [mem_anchorPairs, horizontal_lt_iff, Prod.exists, Prod.forall, Option.ite_none_right_eq_some,
    ite_eq_right_iff, reduceCtorEq, imp_false, not_not, Option.some.injEq, PairBefore]
  refine exists₂_congr fun a b => ?_
  constructor
  · rintro ⟨⟨hab, hb⟩, ⟨close, rfl⟩, before⟩
    exact ⟨rfl, hab, hb, close, fun i j hij hj => before i j ⟨hij, hj⟩⟩
  · rintro ⟨rfl, hab, hb, close, before⟩
    exact ⟨⟨hab, hb⟩, ⟨close, rfl⟩, fun i j h => before i j h.1 h.2⟩

/-! ## Check 2: the box lies among the anchors in plan -/

/-- Some anchor stands at the box's lower side on the axis or beyond it. -/
def ReachesLow (g : Span) (k : Axis) : Prop := ∃ i, i < 4 ∧ (g.anchors.get i).get k ≤ g.flightBox.lo k

/-- Some anchor stands at the box's upper side on the axis or beyond it. -/
def ReachesHigh (g : Span) (k : Axis) : Prop := ∃ i, i < 4 ∧ g.flightBox.hi k ≤ (g.anchors.get i).get k

/-- Check 2 passes: the box lies among the anchors in plan. -/
def InPlan (g : Span) : Prop := ReachesLow g .x ∧ ReachesHigh g .x ∧ ReachesLow g .y ∧ ReachesHigh g .y

theorem lt_leastAnchor_iff (g : Span) (k : Axis) : g.flightBox.lo k < leastAnchor g k ↔ ¬ReachesLow g k := by
  simp only [ReachesLow, exists_lt_four, Quad.get, leastAnchor]
  omega

theorem greatestAnchor_lt_iff (g : Span) (k : Axis) : greatestAnchor g k < g.flightBox.hi k ↔ ¬ReachesHigh g k := by
  simp only [ReachesHigh, exists_lt_four, Quad.get, greatestAnchor]
  omega

theorem checkPlan_eq (g : Span) [Decidable (ReachesLow g .x)] [Decidable (ReachesHigh g .x)] [Decidable (ReachesLow g .y)]
    [Decidable (ReachesHigh g .y)] :
    checkPlan g
      = if ¬ReachesLow g .x then some (.boxOutsideAnchors .x false)
        else if ¬ReachesHigh g .x then some (.boxOutsideAnchors .x true)
        else if ¬ReachesLow g .y then some (.boxOutsideAnchors .y false)
        else if ¬ReachesHigh g .y then some (.boxOutsideAnchors .y true) else none := by
  have xLow := lt_leastAnchor_iff g .x
  have xHigh := greatestAnchor_lt_iff g .x
  have yLow := lt_leastAnchor_iff g .y
  have yHigh := greatestAnchor_lt_iff g .y
  simp only [Box.lo, Box.hi] at xLow xHigh yLow yHigh
  simp only [checkPlan, xLow, xHigh, yLow, yHigh]

theorem checkPlan_eq_none (g : Span) : checkPlan g = none ↔ InPlan g := by
  classical
  rw [checkPlan_eq]
  unfold InPlan
  split <;> [skip; split <;> [skip; split <;> [skip; split]]] <;> simp_all

/-- Check 2 names the first axis and side, X before Y and min before max. -/
theorem checkPlan_eq_some (g : Span) (v : Validity) :
    checkPlan g = some v ↔
      v = .boxOutsideAnchors .x false ∧ ¬ReachesLow g .x
      ∨ v = .boxOutsideAnchors .x true ∧ ReachesLow g .x ∧ ¬ReachesHigh g .x
      ∨ v = .boxOutsideAnchors .y false ∧ ReachesLow g .x ∧ ReachesHigh g .x ∧ ¬ReachesLow g .y
      ∨ v = .boxOutsideAnchors .y true ∧ ReachesLow g .x ∧ ReachesHigh g .x ∧ ReachesLow g .y ∧ ¬ReachesHigh g .y := by
  classical
  rw [checkPlan_eq]
  split <;> [skip; split <;> [skip; split <;> [skip; split]]] <;> simp_all [eq_comm]

/-! ## Check 3: the box stays below the anchors -/

/-- Check 3 passes: the box stays a metre below every anchor. -/
def BoxBelow (g : Span) : Prop := ∀ i, i < 4 → g.flightBox.zMax + 1000000 ≤ (g.anchors.get i).z

/-- The winch is the lowest-numbered with the lowest anchor (R74, check 3). -/
def LowestFirst (g : Span) (w : Nat) : Prop :=
  w < 4 ∧ (∀ i, i < 4 → (g.anchors.get w).z ≤ (g.anchors.get i).z)
    ∧ ∀ i, i < w → (g.anchors.get w).z < (g.anchors.get i).z

theorem LowestFirst.unique {g : Span} {v w : Nat} (hv : LowestFirst g v) (hw : LowestFirst g w) : v = w := by
  obtain ⟨v4, vLeast, vFirst⟩ := hv
  obtain ⟨w4, wLeast, wFirst⟩ := hw
  rcases Nat.lt_trichotomy v w with h | h | h
  · exact absurd (wFirst v h) (vLeast w w4).not_gt
  · exact h
  · exact absurd (vFirst w h) (wLeast v v4).not_gt

theorem le_leastAnchor_z (g : Span) (c : Int) : c ≤ leastAnchor g .z ↔ ∀ i, i < 4 → c ≤ (g.anchors.get i).z := by
  simp only [forall_lt_four, Quad.get, leastAnchor, Vec3.get]
  omega

/-- The lowest anchor is found, and its height is the least. -/
theorem lowestAnchor_spec (g : Span) :
    LowestFirst g (lowestAnchor g) ∧ (g.anchors.get (lowestAnchor g)).z = leastAnchor g .z := by
  have least := (le_leastAnchor_z g (leastAnchor g .z)).1 le_rfl
  have attained : ∃ i, i < 4 ∧ (g.anchors.get i).z = leastAnchor g .z := by
    simp only [exists_lt_four, Quad.get, leastAnchor, Vec3.get]
    omega
  have found : lowestAnchor g < 4 ∧ (g.anchors.get (lowestAnchor g)).z = leastAnchor g .z
      ∧ ∀ i, i < lowestAnchor g → (g.anchors.get i).z ≠ leastAnchor g .z := by
    have search : lowestAnchor g = ((List.range 3).find? fun i => (g.anchors.get i).z == leastAnchor g .z).getD 3 := rfl
    rw [search]
    rcases hit : (List.range 3).find? _ with _ | w
    · have higher : ∀ i, i < 3 → (g.anchors.get i).z ≠ leastAnchor g .z := by
        simpa [List.find?_range_eq_none] using hit
      obtain ⟨i, hi, lowest⟩ := attained
      obtain rfl : i = 3 := by
        by_contra other
        exact higher i (by omega) lowest
      exact ⟨hi, lowest, higher⟩
    · obtain ⟨lowest, hw, higher⟩ := List.find?_range_eq_some.1 hit
      simp only [beq_iff_eq, List.mem_range, Bool.not_eq_true', beq_eq_false_iff_ne] at lowest hw higher
      exact ⟨show w < 4 by omega, lowest, higher⟩
  obtain ⟨winch, lowest, higher⟩ := found
  exact ⟨⟨winch, fun i hi => lowest ▸ least i hi,
    fun i hi => lowest ▸ lt_of_le_of_ne (least i (hi.trans winch)) (higher i hi).symm⟩, lowest⟩

theorem checkHeight_eq_none (g : Span) : checkHeight g = none ↔ BoxBelow g := by
  simp [checkHeight, le_leastAnchor_z, BoxBelow]

/-- Check 3 names the lowest-numbered winch with the lowest anchor. -/
theorem checkHeight_eq_some (g : Span) (v : Validity) :
    checkHeight g = some v ↔ ∃ w, v = .boxTooHigh w ∧ (g.anchors.get w).z < g.flightBox.zMax + 1000000 ∧ LowestFirst g w := by
  obtain ⟨first, least⟩ := lowestAnchor_spec g
  unfold checkHeight
  rw [← least, Option.ite_none_right_eq_some]
  constructor
  · rintro ⟨low, found⟩
    exact ⟨_, (Option.some.inj found).symm, low, first⟩
  · rintro ⟨w, rfl, low, hw⟩
    obtain rfl := hw.unique first
    exact ⟨low, rfl⟩

/-! ## Check 4: the lengths at the corners -/

/-- Corner `n` of a box: X changes fastest, Z slowest (R75). -/
def cornerAt (b : Box) (n : Nat) : Vec3 :=
  ⟨if n % 2 = 0 then b.xMin else b.xMax, if n / 2 % 2 = 0 then b.yMin else b.yMax, if n / 4 = 0 then b.zMin else b.zMax⟩

/-- The length of a winch's cable at a corner with the correction of one end of its table (R75). -/
def cornerSum (g : Span) (n w : Nat) (e : Bool) : Int :=
  (geometricLength (g.anchors.get w) (g.offsets.get w) (cornerAt g.flightBox n) : Int)
    + (g.corr.get w).getD (if e then 32 else 0) 0

/-- The sum lies inside the payout range. -/
def SumFits (g : Span) (n w : Nat) (e : Bool) : Prop :=
  0 ≤ cornerSum g n w e ∧ cornerSum g n w e ≤ g.payoutMax * 1000

/-- The sum lies outside the payout range on the side named. -/
def SumFails (g : Span) (n w : Nat) (e above : Bool) : Prop :=
  (above = false → cornerSum g n w e < 0) ∧ (above = true → g.payoutMax * 1000 < cornerSum g n w e)

/-- The first sum outside the payout range in the order of R75: corner, winch, end. -/
def FirstOutside (g : Span) (n w : Nat) (e above : Bool) : Prop :=
  n < 8 ∧ w < 4 ∧ SumFails g n w e above
    ∧ ∀ n' w' e', n' < 8 → w' < 4 → n' < n ∨ n' = n ∧ w' < w ∨ n' = n ∧ w' = w ∧ e' = false ∧ e = true → SumFits g n' w' e'

theorem corners_eq (b : Box) : corners b = (List.range 8).map (cornerAt b) := rfl

theorem checkSum_eq_none (g : Span) (n w : Nat) (e : Bool) :
    checkSum g n w e (cornerSum g n w e) = none ↔ SumFits g n w e := by
  unfold checkSum SumFits Span.payoutUm
  split <;> [skip; split] <;> simp <;> omega

theorem checkSum_eq_some (g : Span) (n w : Nat) (e : Bool) (v : Validity) :
    checkSum g n w e (cornerSum g n w e) = some v ↔ ∃ above, v = .payoutRange n w e above ∧ SumFails g n w e above := by
  have range : 0 ≤ (g.payoutMax : Int) * 1000 := by omega
  unfold checkSum SumFails Span.payoutUm
  generalize cornerSum g n w e = sum
  simp only [Bool.exists_bool]
  rcases lt_or_ge sum 0 with low | high
  · have inside : ¬(g.payoutMax : Int) * 1000 < sum := by omega
    simp [low, inside, eq_comm]
  · by_cases long : (g.payoutMax : Int) * 1000 < sum <;> simp [high.not_gt, long, eq_comm]

theorem checkWinch_eq (g : Span) (n w : Nat) :
    checkWinch g n (cornerAt g.flightBox n) w
      = (checkSum g n w false (cornerSum g n w false)).or (checkSum g n w true (cornerSum g n w true)) := rfl

theorem checkWinch_eq_none (g : Span) (n w : Nat) :
    checkWinch g n (cornerAt g.flightBox n) w = none ↔ ∀ e, SumFits g n w e := by
  rw [checkWinch_eq, Option.or_eq_none_iff, checkSum_eq_none, checkSum_eq_none, Bool.forall_bool]

/-- At one corner and winch c_0 is judged before c_32. -/
theorem checkWinch_eq_some (g : Span) (n w : Nat) (v : Validity) :
    checkWinch g n (cornerAt g.flightBox n) w = some v
      ↔ ∃ e above, v = .payoutRange n w e above ∧ SumFails g n w e above ∧ (e = true → SumFits g n w false) := by
  rw [checkWinch_eq, Option.or_eq_some_iff, checkSum_eq_none, checkSum_eq_some, checkSum_eq_some]
  constructor
  · rintro (⟨above, named, fails⟩ | ⟨fits, above, named, fails⟩)
    exacts [⟨false, above, named, fails, by simp⟩, ⟨true, above, named, fails, fun _ => fits⟩]
  · rintro ⟨_ | _, above, named, fails, ends⟩
    exacts [.inl ⟨above, named, fails⟩, .inr ⟨ends rfl, above, named, fails⟩]

theorem checkCorners_eq (g : Span) :
    checkCorners g
      = (List.range 8).findSome? fun n => (List.range 4).findSome? (checkWinch g n (cornerAt g.flightBox n)) := rfl

theorem checkCorners_eq_none (g : Span) : checkCorners g = none ↔ ∀ n w e, n < 8 → w < 4 → SumFits g n w e := by
  simp only [checkCorners_eq, List.findSome?_eq_none_iff, List.mem_range, checkWinch_eq_none]
  exact ⟨fun h n w e hn hw => h n hn w hw e, fun h n hn w hw e => h n w e hn hw⟩

/-- Check 4 names the first corner, winch, end and side (R75). -/
theorem checkCorners_eq_some (g : Span) (v : Validity) :
    checkCorners g = some v ↔ ∃ n w e above, v = .payoutRange n w e above ∧ FirstOutside g n w e above := by
  simp only [checkCorners_eq, findSome?_range_eq_some, checkWinch_eq_some, checkWinch_eq_none, List.findSome?_eq_none_iff,
    List.mem_range]
  constructor
  · rintro ⟨n, hn, ⟨w, hw, ⟨e, above, rfl, fails, ends⟩, winches⟩, earlier⟩
    refine ⟨n, w, e, above, rfl, hn, hw, fails, ?_⟩
    rintro n' w' e' - hw' (before | ⟨rfl, before⟩ | ⟨rfl, rfl, rfl, last⟩)
    · exact earlier n' before w' hw' e'
    · exact winches w' before e'
    · exact ends last
  · rintro ⟨n, w, e, above, rfl, hn, hw, fails, before⟩
    exact ⟨n, hn, ⟨w, hw, ⟨e, above, rfl, fails, fun last => before n w false hn hw (.inr (.inr ⟨rfl, rfl, rfl, last⟩))⟩,
      fun w' hw' e' => before n w' e' hn (hw'.trans hw) (.inr (.inl ⟨rfl, hw'⟩))⟩,
      fun n' hn' w' hw' e' => before n' w' e' (hn'.trans hn) hw' (.inl hn')⟩

/-! ## The report (R74) -/

/-- The report is that of the first check that fails. -/
theorem validityOf_eq_iff (g : Span) (v : Validity) :
    validityOf g = v ↔ checkSpacing g = some v ∨ Spaced g ∧ (checkPlan g = some v ∨ InPlan g ∧ (checkHeight g = some v
      ∨ BoxBelow g ∧ (checkCorners g = some v ∨ (∀ n w e, n < 8 → w < 4 → SumFits g n w e) ∧ v = .valid))) := by
  rw [← checkSpacing_eq_none, ← checkPlan_eq_none, ← checkHeight_eq_none, ← checkCorners_eq_none, validityOf]
  rcases checkSpacing g with _ | a
  · rcases checkPlan g with _ | b
    · rcases checkHeight g with _ | c
      · rcases checkCorners g with _ | d <;> simp [eq_comm]
      · simp
    · simp
  · simp

theorem validityOf_eq_valid (g : Span) :
    validityOf g = .valid ↔ Spaced g ∧ InPlan g ∧ BoxBelow g ∧ ∀ n w e, n < 8 → w < 4 → SumFits g n w e := by
  simp [validityOf_eq_iff, checkSpacing_eq_some, checkPlan_eq_some, checkHeight_eq_some, checkCorners_eq_some]

theorem validityOf_eq_anchorSpacing (g : Span) (a b : Nat) :
    validityOf g = .anchorSpacing a b ↔ FirstClose g a b := by
  simp [validityOf_eq_iff, checkSpacing_eq_some, checkPlan_eq_some, checkHeight_eq_some, checkCorners_eq_some]

theorem validityOf_eq_boxTooHigh (g : Span) (w : Nat) :
    validityOf g = .boxTooHigh w ↔ Spaced g ∧ InPlan g ∧ (g.anchors.get w).z < g.flightBox.zMax + 1000000
      ∧ LowestFirst g w := by
  simp [validityOf_eq_iff, checkSpacing_eq_some, checkPlan_eq_some, checkHeight_eq_some, checkCorners_eq_some]

theorem validityOf_eq_boxOutsideAnchors (g : Span) :
    (validityOf g = .boxOutsideAnchors .x false ↔ Spaced g ∧ ¬ReachesLow g .x)
      ∧ (validityOf g = .boxOutsideAnchors .x true ↔ Spaced g ∧ ReachesLow g .x ∧ ¬ReachesHigh g .x)
      ∧ (validityOf g = .boxOutsideAnchors .y false
        ↔ Spaced g ∧ ReachesLow g .x ∧ ReachesHigh g .x ∧ ¬ReachesLow g .y)
      ∧ (validityOf g = .boxOutsideAnchors .y true
        ↔ Spaced g ∧ ReachesLow g .x ∧ ReachesHigh g .x ∧ ReachesLow g .y ∧ ¬ReachesHigh g .y)
      ∧ ∀ side, validityOf g ≠ .boxOutsideAnchors .z side := by
  simp [validityOf_eq_iff, checkSpacing_eq_some, checkPlan_eq_some, checkHeight_eq_some, checkCorners_eq_some]

theorem validityOf_eq_payoutRange (g : Span) (n w : Nat) (e above : Bool) :
    validityOf g = .payoutRange n w e above ↔ Spaced g ∧ InPlan g ∧ BoxBelow g ∧ FirstOutside g n w e above := by
  have corner : checkCorners g = some (.payoutRange n w e above) ↔ FirstOutside g n w e above := by
    rw [checkCorners_eq_some]
    constructor
    · rintro ⟨n', w', e', above', named, first⟩
      cases named
      exact first
    · exact fun first => ⟨n, w, e, above, rfl, first⟩
  simp [validityOf_eq_iff, checkSpacing_eq_some, checkPlan_eq_some, checkHeight_eq_some, corner]

/-! ## The requests (R70 to R73) -/

theorem within_iff (anchors offsets : Quad Vec3) :
    (anchors.all inRange && offsets.all offsetInRange) = true ↔ ∀ i, i < 4 →
      (-100000 ≤ (anchors.get i).x ∧ (anchors.get i).x ≤ 100000) ∧ (-100000 ≤ (anchors.get i).y ∧ (anchors.get i).y ≤ 100000)
      ∧ (0 ≤ (anchors.get i).z ∧ (anchors.get i).z ≤ 80000) ∧ (-2000 ≤ (offsets.get i).x ∧ (offsets.get i).x ≤ 2000)
      ∧ (-2000 ≤ (offsets.get i).y ∧ (offsets.get i).y ≤ 2000) ∧ (-2000 ≤ (offsets.get i).z ∧ (offsets.get i).z ≤ 2000) := by
  simp only [Bool.and_eq_true, Quad.all_iff, inRange, offsetInRange, decide_eq_true_eq, ← forall₂_and]
  exact forall₂_congr fun i _ => by tauto

theorem setPayout_of_safe {s : State} (payout lBase lStep : Nat) (safe : s.motion.mode = .safe) :
    let g : Span := { s.span with
      payoutMax := max 10000 (min 400000 payout), lBase := min 400000000 lBase
      lStep := max 1000000 (min 16000000 lStep) }
    setPayout payout lBase lStep s
      = accept { s with span := { g with validity := validityOf g } }
          (beBytes 4 g.payoutMax ++ beBytes 4 g.lBase ++ beBytes 4 g.lStep ++ validityBytes (validityOf g)) := by
  intro g
  refine (inSafe_of_safe safe).trans ?_
  simp [Span.validate, clampNat_eq, g]

/-- The sums of every corner, winch and end, as R75 lists them. -/
theorem fits_iff (g : Span) :
    (∀ p ∈ corners g.flightBox, ∀ i, i < 4 →
      let len : Int := geometricLength (g.anchors.get i) (g.offsets.get i) p
      let c := fun j => (g.corr.get i).getD j 0
      0 ≤ len + c 0 ∧ len + c 0 ≤ g.payoutMax * 1000 ∧ 0 ≤ len + c 32 ∧ len + c 32 ≤ g.payoutMax * 1000)
    ↔ ∀ n w e, n < 8 → w < 4 → SumFits g n w e := by
  simp only [corners_eq, List.forall_mem_map, List.mem_range]
  constructor
  · intro h n w e hn hw
    obtain ⟨lo, hi, loLast, hiLast⟩ := h n hn w hw
    cases e
    exacts [⟨lo, hi⟩, ⟨loLast, hiLast⟩]
  · intro h n hn w hw
    obtain ⟨lo, hi⟩ := h n w false hn hw
    obtain ⟨loLast, hiLast⟩ := h n w true hn hw
    exact ⟨lo, hi, loLast, hiLast⟩

/-- Settles O35: the three requests by the mode, and the report by the check that fails first. -/
theorem geometryRequestsAndValidity : Obligations.GeometryRequestsAndValidity := by
  refine ⟨⟨fun s st anchors offsets may => ?_, fun s st box may => ?_, fun s st payout lBase lStep may => ?_⟩, fun g => ?_⟩
  · refine ⟨fun moving => ?_, fun safe bad => ?_, fun safe good => ?_⟩
    · exact request_refused (own := fun _ t => setAnchors anchors offsets t) may (inSafe_of_not_safe moving)
    · have bad := Bool.eq_false_iff.2 (mt (within_iff anchors offsets).1 bad)
      refine request_refused (own := fun _ t => setAnchors anchors offsets t) may ?_
      rw [setAnchors, bad]
      exact inSafe_of_bad safe
    · have good := (within_iff anchors offsets).2 good
      refine request_accepted (own := fun _ t => setAnchors anchors offsets t) may ?_
      rw [setAnchors, good]
      exact inSafe_of_safe safe
  · refine ⟨fun moving => ?_, fun safe bad => ?_, fun safe good => ?_⟩
    · exact request_refused (own := fun _ t => setFlightBox box t) may (inSafe_of_not_safe moving)
    · refine request_refused (own := fun _ t => setFlightBox box t) may ?_
      rw [setFlightBox, bad]
      exact inSafe_of_bad safe
    · refine request_accepted (own := fun _ t => setFlightBox box t) may ?_
      rw [setFlightBox, good]
      exact inSafe_of_safe safe
  · refine ⟨fun moving => ?_, fun safe => ?_⟩
    · exact request_refused (own := fun _ t => setPayout payout lBase lStep t) may (inSafe_of_not_safe moving)
    · exact request_accepted (own := fun _ t => setPayout payout lBase lStep t) may
        (setPayout_of_safe (s := takeFrame s) payout lBase lStep safe)
  · intro far spaced xMin xMax yMin yMax inPlan below fits
    obtain ⟨xLow, xHigh, yLow, yHigh, never⟩ := validityOf_eq_boxOutsideAnchors g
    refine ⟨(validityOf_eq_valid g).trans ?_, validityOf_eq_anchorSpacing g, fun w => ?_, xLow, xHigh, yLow, yHigh, never,
      fun n w e above => ?_⟩
    · rw [← fits_iff]
      rfl
    · exact (validityOf_eq_boxTooHigh g w).trans (and_congr_right fun _ => and_congr_right fun _ => and_left_comm)
    · rw [validityOf_eq_payoutRange, FirstOutside, SumFails, and_assoc]
      rfl

end Sys2Proof.Machine
end

