-- ==== Sys2Proof/Proofs/Corrections.lean ====
section
/-! PROOFS. The correction requests: the window and its scan, one cell at a time, and what was written read back (R80 to R83). -/

namespace Sys2Proof.Machine

/-! ## The scan of a window (R81) -/

/-- The cell after `(winch, point)` in the scan of a window. -/
def nextCell (win : Window) (w j : Nat) : Nat × Nat :=
  match win.order with
  | .pointMajor => if j < win.j1 then (w, j + 1) else if w < win.w1 then (w + 1, win.j0) else (win.w0, win.j0)
  | .winchMajor => if w < win.w1 then (w + 1, j) else if j < win.j1 then (win.w0, j + 1) else (win.w0, win.j0)

/-- An advance moves the pointer to the next cell, and nothing else. -/
theorem advance_eq_nextCell (g : Span) :
    g.advance = { g with
      ptrW := (nextCell g.window g.ptrW g.ptrJ).1, ptrJ := (nextCell g.window g.ptrW g.ptrJ).2 } := by
  unfold Span.advance nextCell
  rcases order : g.window.order with _ | _ <;> dsimp only <;> split <;> [skip; split; skip; split] <;> rfl

/-- The next cell, case by case (R81). -/
theorem nextCell_cases (win : Window) (w j : Nat) :
    (win.order = .pointMajor → j < win.j1 → nextCell win w j = (w, j + 1))
      ∧ (win.order = .pointMajor → ¬j < win.j1 → w < win.w1 → nextCell win w j = (w + 1, win.j0))
      ∧ (win.order = .winchMajor → w < win.w1 → nextCell win w j = (w + 1, j))
      ∧ (win.order = .winchMajor → ¬w < win.w1 → j < win.j1 → nextCell win w j = (win.w0, j + 1))
      ∧ (¬w < win.w1 → ¬j < win.j1 → nextCell win w j = (win.w0, win.j0)) := by
  unfold nextCell
  refine ⟨fun o inner => ?_, fun o last outer => ?_, fun o inner => ?_, fun o last outer => ?_, fun lastWinch lastPoint => ?_⟩
  · simp [o, inner]
  · simp [o, last, outer]
  · simp [o, inner]
  · simp [o, last, outer]
  · simp only [if_neg lastWinch, if_neg lastPoint]
    split <;> rfl

/-- How many cells a scan visits before `(a, b)`, where `b` runs from `b0` to `b1` for each `a` from `a0` on. -/
def nestedRank (a0 b0 b1 a b : Nat) : Nat := (a - a0) * (b1 - b0 + 1) + (b - b0)

theorem nestedRank_inner {b0 b : Nat} (a0 b1 a : Nat) (hb : b0 ≤ b) :
    nestedRank a0 b0 b1 a (b + 1) = nestedRank a0 b0 b1 a b + 1 := by
  unfold nestedRank
  omega

theorem nestedRank_outer {a0 a b0 b1 : Nat} (ha : a0 ≤ a) :
    nestedRank a0 b0 b1 (a + 1) b0 = nestedRank a0 b0 b1 a b1 + 1 := by
  unfold nestedRank
  rw [Nat.sub_add_comm ha, Nat.succ_mul]
  omega

theorem nestedRank_last (a0 a1 b0 b1 : Nat) : nestedRank a0 b0 b1 a1 b1 + 1 = (a1 - a0 + 1) * (b1 - b0 + 1) := by
  unfold nestedRank
  rw [Nat.succ_mul]
  omega

theorem nestedRank_lt {a0 a1 b0 b1 a b : Nat} (ha : a ≤ a1) (hb : b ≤ b1) :
    nestedRank a0 b0 b1 a b < (a1 - a0 + 1) * (b1 - b0 + 1) := by
  unfold nestedRank
  have outer : (a - a0) * (b1 - b0 + 1) ≤ (a1 - a0) * (b1 - b0 + 1) := Nat.mul_le_mul_right _ (by omega)
  rw [Nat.succ_mul]
  omega

/-- How many cells of the window the scan visits before `(winch, point)`. -/
def rank (win : Window) (w j : Nat) : Nat :=
  match win.order with
  | .pointMajor => nestedRank win.w0 win.j0 win.j1 w j
  | .winchMajor => nestedRank win.j0 win.w0 win.w1 j w

/-- How many cells the window holds (R80). -/
def windowSize (win : Window) : Nat := (win.w1 - win.w0 + 1) * (win.j1 - win.j0 + 1)

/-- The scan starts at the window's first cell. -/
theorem rank_start (win : Window) : rank win win.w0 win.j0 = 0 := by
  unfold rank nestedRank
  split <;> simp

/-- Short of the window's end the next cell is one further in the scan. -/
theorem rank_nextCell {win : Window} {w j : Nat} (hw : win.w0 ≤ w ∧ w ≤ win.w1) (hj : win.j0 ≤ j ∧ j ≤ win.j1)
    (inside : rank win w j + 1 < windowSize win) :
    rank win (nextCell win w j).1 (nextCell win w j).2 = rank win w j + 1 := by
  unfold rank nextCell windowSize at *
  rcases order : win.order with _ | _ <;> simp only [order] at inside ⊢
  · by_cases inner : j < win.j1
    · rw [if_pos inner]
      exact nestedRank_inner _ _ _ hj.1
    obtain rfl : j = win.j1 := by omega
    by_cases outer : w < win.w1
    · rw [if_neg inner, if_pos outer]
      exact nestedRank_outer hw.1
    obtain rfl : w = win.w1 := by omega
    exact absurd (nestedRank_last win.w0 win.w1 win.j0 win.j1) inside.ne
  · by_cases inner : w < win.w1
    · rw [if_pos inner]
      exact nestedRank_inner _ _ _ hw.1
    obtain rfl : w = win.w1 := by omega
    by_cases outer : j < win.j1
    · rw [if_neg inner, if_pos outer]
      exact nestedRank_outer hj.1
    obtain rfl : j = win.j1 := by omega
    rw [Nat.mul_comm] at inside
    exact absurd (nestedRank_last win.j0 win.j1 win.w0 win.w1) inside.ne

/-- How many cells the scan has visited when the pointer stands where it does. -/
def Span.rank (g : Span) : Nat := Machine.rank g.window g.ptrW g.ptrJ

theorem rank_lt_windowSize {g : Span} (fits : PointerFits g) : g.rank < windowSize g.window := by
  obtain ⟨⟨-, w1, -⟩, -, j1, -⟩ := fits
  unfold Span.rank Machine.rank windowSize
  split
  · exact nestedRank_lt w1 j1
  · rw [Nat.mul_comm]
    exact nestedRank_lt j1 w1

/-! ## One value (R82, R83) -/

/-- The value of a cell of the correction tables. -/
def cellAt (g : Span) (w j : Nat) : Int := (g.corr.get w).getD j 0

theorem corr_advance (g : Span) : g.advance.corr = g.corr := by rw [advance_eq_nextCell]

theorem corr_writeOne (g : Span) (v : Int) :
    (g.writeOne v).corr = g.corr.put g.ptrW ((g.corr.get g.ptrW).set g.ptrJ (max (-50000) (min 50000 v))) := by
  rw [Span.writeOne, corr_advance, clamp_eq _ _ _ (by omega)]

/-- A value written moves the pointer to the next cell. -/
theorem pointer_writeOne (g : Span) (v : Int) :
    (g.writeOne v).window = g.window ∧ (g.writeOne v).ptrW = (nextCell g.window g.ptrW g.ptrJ).1
      ∧ (g.writeOne v).ptrJ = (nextCell g.window g.ptrW g.ptrJ).2 := by
  simp only [Span.writeOne, advance_eq_nextCell, and_self]

theorem cellAt_writeOne_self {g : Span} (v : Int) (hw : g.ptrW < 4) (hj : g.ptrJ < (g.corr.get g.ptrW).length) :
    cellAt (g.writeOne v) g.ptrW g.ptrJ = max (-50000) (min 50000 v) := by
  rw [cellAt, corr_writeOne, Quad.put_get_self _ _ _ (by omega)]
  simp [List.getD_eq_getElem?_getD, hj]

theorem cellAt_writeOne_of_ne {g : Span} (v : Int) {w j : Nat} (hw : w < 4) (other : w ≠ g.ptrW ∨ j ≠ g.ptrJ) :
    cellAt (g.writeOne v) w j = cellAt g w j := by
  rw [cellAt, cellAt, corr_writeOne]
  by_cases same : w = g.ptrW
  · have point : g.ptrJ ≠ j := fun h => other.elim (absurd same) (absurd h.symm)
    rw [same, Quad.put_get_self _ _ _ (by omega), List.getD_eq_getElem?_getD, List.getElem?_set_ne point,
      List.getD_eq_getElem?_getD]
  · rw [Quad.put_get_of_ne _ _ _ _ (by omega) same]

theorem fits_writeOne_pointer {g : Span} (v : Int) (fits : PointerFits g) : PointerFits (g.writeOne v) :=
  pointerFits_advance ⟨fits.winch, fits.point⟩

theorem rank_writeOne {g : Span} (v : Int) (fits : PointerFits g) (inside : g.rank + 1 < windowSize g.window) :
    (g.writeOne v).rank = g.rank + 1 := by
  obtain ⟨window, winch, point⟩ := pointer_writeOne g v
  obtain ⟨⟨w0, w1, -⟩, j0, j1, -⟩ := fits
  rw [Span.rank, window, winch, point]
  exact rank_nextCell ⟨w0, w1⟩ ⟨j0, j1⟩ inside

/-! ## Many values -/

/-- A write leaves the cells that the scan has visited before. -/
theorem cellAt_writeAll_of_before (vs : List Int) {g : Span} {w j : Nat} (fits : PointerFits g) (hw : w < 4)
    (before : rank g.window w j < g.rank) (room : g.rank + vs.length ≤ windowSize g.window) :
    cellAt (g.writeAll vs) w j = cellAt g w j := by
  induction vs generalizing g with
  | nil => rfl
  | cons v vs ih =>
    have other : w ≠ g.ptrW ∨ j ≠ g.ptrJ := by
      by_contra same
      simp only [not_or, not_not] at same
      obtain ⟨rfl, rfl⟩ := same
      exact before.false
    have first := cellAt_writeOne_of_ne v hw other
    rcases vs with _ | ⟨u, us⟩
    · exact first
    have window := (pointer_writeOne g v).1
    simp only [List.length_cons] at room ih
    have next := rank_writeOne v fits (by omega)
    exact (ih (fits_writeOne_pointer v fits) (by rw [window]; omega) (by rw [window]; omega)).trans first

/-- What was written from a pointer on, read from the same pointer on. -/
theorem readMany_writeAll (vs : List Int) {g h : Span} (fits : PointerFits g) (tables : TablesFit g)
    (room : g.rank + vs.length ≤ windowSize g.window) (window : h.window = g.window) (winch : h.ptrW = g.ptrW)
    (point : h.ptrJ = g.ptrJ) (corr : h.corr = (g.writeAll vs).corr) :
    (h.readMany vs.length).1 = vs.map (fun v => max (-50000) (min 50000 v))
      ∧ (h.readMany vs.length).2.ptrW = (g.writeAll vs).ptrW ∧ (h.readMany vs.length).2.ptrJ = (g.writeAll vs).ptrJ
      ∧ (h.readMany vs.length).2.corr = h.corr := by
  induction vs generalizing g h with
  | nil => exact ⟨rfl, winch, point, rfl⟩
  | cons v vs ih =>
    obtain ⟨window', winch', point'⟩ := pointer_writeOne g v
    obtain ⟨-, tables'⟩ := fits_writeOne v fits tables
    simp only [List.length_cons] at room
    have inTable : g.ptrW < 4 ∧ g.ptrJ < (g.corr.get g.ptrW).length := by
      obtain ⟨⟨-, w1, w⟩, -, j1, j⟩ := fits
      have row := (tables _ ((Quad.mem_list _ _).2 ⟨g.ptrW, by omega, rfl⟩)).1
      omega
    have head : h.cell = max (-50000) (min 50000 v) := by
      show (h.corr.get h.ptrW).getD h.ptrJ 0 = _
      rw [corr, winch, point, ← cellAt_writeOne_self v inTable.1 inTable.2]
      rcases vs with _ | ⟨u, us⟩
      · rfl
      simp only [List.length_cons] at room
      have next := rank_writeOne v fits (by omega)
      refine cellAt_writeAll_of_before (u :: us) (fits_writeOne_pointer v fits) inTable.1 ?_ ?_
      · rw [window', next]
        exact Nat.lt_succ_self _
      · rw [window', next, List.length_cons]
        omega
    have room' : (g.writeOne v).rank + vs.length ≤ windowSize (g.writeOne v).window := by
      rcases vs with _ | ⟨u, us⟩
      · exact (rank_lt_windowSize (fits_writeOne_pointer v fits)).le
      · simp only [List.length_cons] at room ⊢
        rw [rank_writeOne v fits (by omega), window']
        omega
    have moved : h.advance.window = (g.writeOne v).window ∧ h.advance.ptrW = (g.writeOne v).ptrW
        ∧ h.advance.ptrJ = (g.writeOne v).ptrJ := by
      rw [window', winch', point', advance_eq_nextCell, ← window, ← winch, ← point]
      exact ⟨rfl, rfl, rfl⟩
    obtain ⟨values, winchEnd, pointEnd, same⟩ := ih (fits_writeOne_pointer v fits) tables' room' moved.1 moved.2.1 moved.2.2
      ((corr_advance h).trans corr)
    exact ⟨congrArg₂ List.cons head values, winchEnd, pointEnd, same.trans (corr_advance h)⟩

/-! ## The requests (R80 to R83) -/

theorem maySend_supervisor (r : Req) {s : State} (free : s.resetHeld = false) : MaySend s r 0 := ⟨free, rfl⟩

theorem scanOrderOf_eq_none {n : Nat} (h : 1 < n) : scanOrderOf n = none := by
  obtain ⟨k, rfl⟩ := Nat.exists_eq_add_of_lt h
  rw [Nat.add_assoc, Nat.add_comm]
  rfl

/-- A span with the window set and the pointer at its start (R80). -/
def Span.windowed (g : Span) (w0 w1 j0 j1 : Nat) (o : ScanOrder) : Span :=
  { g with window := { w0 := w0, w1 := w1, j0 := j0, j1 := j1, order := o }, ptrW := w0, ptrJ := j0 }

theorem corrWindow_bad {s : State} {st w0 w1 j0 j1 order : Nat} (may : MaySend s .corrWindow st)
    (bad : w1 < w0 ∨ j1 < j0 ∨ 3 < w1 ∨ 32 < j1 ∨ 1 < order) :
    exec (.corrWindow st w0 w1 j0 j1 order) s = turnedAway st .corrWindow .badParam s := by
  refine request_refused (own := fun _ t => corrWindow w0 w1 j0 j1 order t) may ?_
  unfold corrWindow
  split
  · rfl
  · next named =>
    have known : ¬1 < order := fun h => by rw [scanOrderOf_eq_none h] at named; cases named
    exact if_pos (by tauto)

theorem corrWindow_taken {s : State} {st w0 w1 j0 j1 order : Nat} {o : ScanOrder} (may : MaySend s .corrWindow st)
    (hw : w0 ≤ w1 ∧ w1 ≤ 3) (hj : j0 ≤ j1 ∧ j1 ≤ 32) (named : scanOrderOf order = some o) :
    exec (.corrWindow st w0 w1 j0 j1 order) s
      = taken st .corrWindow (byte ((w1 - w0 + 1) * (j1 - j0 + 1)))
          (fun t => { t with span := t.span.windowed w0 w1 j0 j1 o }) s := by
  refine request_accepted (own := fun _ t => corrWindow w0 w1 j0 j1 order t) may ?_
  simp only [corrWindow, named]
  exact if_neg (by omega)

theorem corrWrite_badLength {s : State} {st : Nat} {vs : List Int} (may : MaySend s .corrWrite st)
    (bad : vs.length = 0 ∨ 60 < vs.length) : exec (.corrWrite st vs) s = turnedAway st .corrWrite .badLength s := by
  have answered : badLengthOf .corrWrite st s = refuseFrame st Req.corrWrite.code .badLength s := by
    rw [badLengthOf, if_pos may.2]
  refine (if_pos (by omega)).trans ?_
  rw [unlessHeld_free _ _ may.1, answered]
  rfl

theorem corrWrite_of_safe {s : State} (vs : List Int) (safe : s.motion.mode = .safe) :
    let g := s.span.writeAll vs
    corrWrite vs s
      = accept { s with span := { g with validity := validityOf g } }
          (byte (vs.filter (fun v => decide (v < -50000 ∨ 50000 < v))).length ++ byte g.ptrW ++ byte g.ptrJ
            ++ validityBytes (validityOf g)) := by
  intro g
  refine (inSafe_of_safe safe).trans ?_
  simp [clampedCount, List.countP_eq_length_filter, pointerBytes, Span.validate, g]

theorem exec_corrWrite {s : State} (st : Nat) {vs : List Int} (lo : 1 ≤ vs.length) (hi : vs.length ≤ 60) :
    exec (.corrWrite st vs) s = request .corrWrite st s (fun _ t => corrWrite vs t) := if_neg (by omega)

theorem corrWrite_taken {s : State} {st : Nat} {vs : List Int} (may : MaySend s .corrWrite st) (lo : 1 ≤ vs.length)
    (hi : vs.length ≤ 60) (safe : s.motion.mode = .safe) :
    let g := s.span.writeAll vs
    exec (.corrWrite st vs) s
      = taken st .corrWrite
          (byte (vs.filter (fun v => decide (v < -50000 ∨ 50000 < v))).length ++ byte g.ptrW ++ byte g.ptrJ
            ++ validityBytes (validityOf g))
          (fun t => { t with span := { g with validity := validityOf g } }) s := by
  intro g
  rw [exec_corrWrite st lo hi]
  exact request_accepted may (corrWrite_of_safe (s := takeFrame s) vs safe)

theorem readMany_length (g : Span) (n : Nat) : (g.readMany n).1.length = n := by
  induction n generalizing g with
  | zero => rfl
  | succ n ih => exact congrArg Nat.succ (ih g.advance)

theorem corrRead_of_count {n : Nat} (lo : 1 ≤ n) (hi : n ≤ 60) (s : State) :
    corrRead n s = inSafe s true fun t =>
      accept { t with span := (t.span.readMany n).2 }
        (byte n ++ (t.span.readMany n).1.flatMap (beInt 4) ++ byte (t.span.readMany n).2.ptrW
          ++ byte (t.span.readMany n).2.ptrJ) := by
  refine (if_neg (by omega)).trans ?_
  simp [countedList, readMany_length, pointerBytes, List.flatMap_def]

theorem corrRead_taken {s : State} {st n : Nat} (may : MaySend s .corrRead st) (lo : 1 ≤ n) (hi : n ≤ 60)
    (safe : s.motion.mode = .safe) :
    let r := s.span.readMany n
    exec (.corrRead st n) s
      = taken st .corrRead (byte n ++ r.1.flatMap (beInt 4) ++ byte r.2.ptrW ++ byte r.2.ptrJ)
          (fun t => { t with span := r.2 }) s :=
  request_accepted (own := fun _ t => corrRead n t) may ((corrRead_of_count lo hi _).trans (inSafe_of_safe safe))

/-! ## What was written is read back (R80 to R83) -/

theorem readBack {s : State} {w0 w1 j0 j1 order : Nat} {vs : List Int} (span : SpanOk s) (free : s.resetHeld = false)
    (safe : s.motion.mode = .safe) (hw : w0 ≤ w1 ∧ w1 ≤ 3) (hj : j0 ≤ j1 ∧ j1 ≤ 32) (known : order ≤ 1)
    (lo : 1 ≤ vs.length) (hi : vs.length ≤ 60) (room : vs.length ≤ (w1 - w0 + 1) * (j1 - j0 + 1)) :
    ∃ t1 t2 t3 t4 v, exec (.corrWindow 0 w0 w1 j0 j1 order) s = .next t1 ∧ exec (.corrWrite 0 vs) t1 = .next t2
      ∧ exec (.corrWindow 0 w0 w1 j0 j1 order) t2 = .next t3 ∧ exec (.corrRead 0 vs.length) t3 = .next t4
      ∧ t4.station.inService = some v ∧ v.status = .ok
      ∧ v.payload = byte vs.length ++ vs.flatMap (fun x => beInt 4 (max (-50000) (min 50000 x)))
          ++ byte t2.span.ptrW ++ byte t2.span.ptrJ
      ∧ t4.span.corr = t2.span.corr := by
  obtain ⟨o, named⟩ : ∃ o, scanOrderOf order = some o := by
    interval_cases order
    exacts [⟨_, rfl⟩, ⟨_, rfl⟩]
  let g := s.span.windowed w0 w1 j0 j1 o
  let h : Span := { (g.writeAll vs) with validity := validityOf (g.writeAll vs) }
  have tables : TablesFit g := ((spanOk_iff s).1 span).2.1
  have fits : PointerFits g := ⟨⟨le_rfl, hw⟩, le_rfl, hj⟩
  have start : g.rank = 0 := rank_start g.window
  have size : g.rank + vs.length ≤ windowSize g.window := by rw [start, Nat.zero_add]; exact room
  obtain ⟨values, winch, point, corr⟩ :=
    readMany_writeAll vs (h := h.windowed w0 w1 j0 j1 o) fits tables size rfl rfl rfl rfl
  refine ⟨_, _, _, _, _, corrWindow_taken (maySend_supervisor _ free) hw hj named,
    corrWrite_taken (maySend_supervisor _ free) lo hi safe, corrWindow_taken (maySend_supervisor _ free) hw hj named,
    corrRead_taken (maySend_supervisor _ free) lo hi safe, rfl, rfl, ?_, corr⟩
  show byte vs.length ++ ((h.windowed w0 w1 j0 j1 o).readMany vs.length).1.flatMap (beInt 4)
    ++ byte ((h.windowed w0 w1 j0 j1 o).readMany vs.length).2.ptrW
    ++ byte ((h.windowed w0 w1 j0 j1 o).readMany vs.length).2.ptrJ = _
  rw [values, winch, point, List.flatMap_map]
  rfl

/-- Settles O36: each request by its count and the mode, one value by the pointer, and the read-back by the scan. -/
theorem correctionRequestsAndReadBack : Obligations.CorrectionRequestsAndReadBack := by
  refine ⟨fun s st w0 w1 j0 j1 order may => ⟨corrWindow_bad may, fun hw hj w j o named => ?_⟩,
    fun s st vs may => ⟨corrWrite_badLength may, fun lo hi moving => ?_, corrWrite_taken may⟩,
    fun s st n may => ⟨fun bad => ?_, fun lo hi moving => ?_, corrRead_taken may⟩,
    fun g v => ?_,
    fun s w0 w1 j0 j1 order vs span free safe hw w hj j known lo hi room =>
      readBack span free safe ⟨hw, w⟩ ⟨hj, j⟩ known lo hi room⟩
  · refine corrWindow_taken may ⟨hw, w⟩ ⟨hj, j⟩ ?_
    rcases named with ⟨rfl, rfl⟩ | ⟨rfl, rfl⟩ <;> rfl
  · rw [exec_corrWrite st lo hi]
    exact request_refused may (inSafe_of_not_safe moving)
  · exact request_refused (own := fun _ t => corrRead n t) may (if_pos bad)
  · exact request_refused (own := fun _ t => corrRead n t) may
      ((corrRead_of_count lo hi _).trans (inSafe_of_not_safe moving))
  · intro step next
    have moves : ∀ h : Span, (h.ptrW, h.ptrJ) = nextCell g.window g.ptrW g.ptrJ → next h := by
      intro h moved
      obtain ⟨nextPoint, newWinch, nextWinch, newPoint, wraps⟩ := nextCell_cases g.window g.ptrW g.ptrJ
      exact ⟨fun o lt => Prod.mk.inj (moved.trans (nextPoint o lt)),
        fun o last lt => Prod.mk.inj (moved.trans (newWinch o last lt)),
        fun o lt => Prod.mk.inj (moved.trans (nextWinch o lt)),
        fun o last lt => Prod.mk.inj (moved.trans (newPoint o last lt)),
        fun lastWinch lastPoint => Prod.mk.inj (moved.trans (wraps lastWinch lastPoint))⟩
    obtain ⟨-, winch, point⟩ := pointer_writeOne g v
    refine ⟨moves _ (Prod.ext winch point), moves _ ?_, rfl, corr_advance g, cellAt_writeOne_self v,
      fun w j hw other => cellAt_writeOne_of_ne v hw other⟩
    show (g.advance.ptrW, g.advance.ptrJ) = _
    rw [advance_eq_nextCell]

end Sys2Proof.Machine
end

