-- ==== Sys2Proof/Proofs/PortChecks.lean ====
section
/-! PROOFS. The four checks of a good frame, by its last character (R197, R199, R201, 10.3, 10.5). -/

namespace Sys2Proof

/-! ## The length of the parameters (R201, check 4) -/

/-- A field of one byte is that byte, 0 where there is none. -/
theorem field_one (ps : List Byte) (k : Nat) : field ps k 1 = (ps.getD k 0#8).toNat := by
  rw [field, List.take_one, List.head?_drop, List.getD_eq_getElem?_getD]
  rcases ps[k]? with _ | b <;> simp [beNat]

theorem ofLength_eq_badLength {n : Nat} {ps : List Byte} {d : Decoded} (good : d ≠ .badLength) :
    ofLength n ps d = .badLength ↔ ¬ps.length = n := by
  unfold ofLength
  split <;> simp [*]

/-- What is judged behind the length is another refusal. -/
theorem decodeRequest_eq_badLength (r : Req) (st : Nat) (ps : List Byte) :
    decodeRequest r st ps = .badLength ↔ ¬Machine.RightLength r ps := by
  cases r
  case zoneCreate | zoneAmend | markSet =>
    simp only [decodeRequest, Machine.RightLength, field_one]
    split
    · exact iff_of_true rfl (by omega)
    · exact ofLength_eq_badLength (by simp)
  case corrWrite =>
    simp only [decodeRequest, Machine.RightLength, field_one]
    split
    · exact iff_of_true rfl (by omega)
    · rw [ofLength_eq_badLength (by simp)]
      omega
  case portControl | portTest =>
    simp only [decodeRequest, Machine.RightLength]
    refine ofLength_eq_badLength ?_
    split <;> simp
  all_goals exact ofLength_eq_badLength (by simp)

/-- An action byte outside the table of PORT_CONTROL or PORT_TEST. -/
theorem decodeRequest_eq_badParam {r : Req} (st : Nat) {ps : List Byte} (length : Machine.RightLength r ps)
    (outside : r = .portControl ∧ 4 < (ps.getD 1 0#8).toNat ∨ r = .portTest ∧ 1 < (ps.getD 1 0#8).toNat) :
    decodeRequest r st ps = .badParam := by
  rw [← field_one] at outside
  rcases outside with ⟨rfl, action⟩ | ⟨rfl, action⟩
  · refine (if_pos length).trans ?_
    split
    case h_6 => rfl
    all_goals omega
  · refine (if_pos length).trans ?_
    split
    case h_3 => rfl
    all_goals omega

end Sys2Proof

namespace Sys2Proof.Machine

/-! ## A good frame behind its sync (R196, R197) -/

theorem byte_eq (n : Nat) : byte n = [BitVec.ofNat 8 n] := by simp [byte, beBytes]

theorem byte_toNat {n : Nat} (h : n < 256) : (BitVec.ofNat 8 n).toNat = n := by simpa using h

/-- Behind its sync a request's frame is found whole, with nothing behind it. -/
theorem frameBehind_requestFrame {st code : Nat} {ps : List Byte} (hst : st < 8) (hcode : code < 256)
    (hps : ps.length ≤ 246) :
    ∃ rest, requestFrame st code ps = 0x5C#8 :: rest ∧ frameBehind rest = .good st code ps [] := by
  let head : List Byte := BitVec.ofNat 8 st :: BitVec.ofNat 8 code :: ps
  let check : List Byte := beBytes 2 (crc (BitVec.ofNat 8 (2 + ps.length) :: head))
  refine ⟨BitVec.ofNat 8 (2 + ps.length) :: (head ++ check), by simp [requestFrame, byte_eq, head, check], ?_⟩
  have length : (BitVec.ofNat 8 (2 + ps.length)).toNat = head.length := by
    rw [byte_toNat (by omega)]
    simp only [head, List.length_cons]
    omega
  have two : check.length = 2 := beBytes_length _ _
  have matched : field (head ++ check) head.length 2 = crc (BitVec.ofNat 8 (2 + ps.length) :: head) := by
    rw [field, List.drop_left, List.take_of_length_le two.le]
    exact beNat_beBytes 2 _ (BitVec.isLt _)
  have station : field (head ++ check) 0 1 = st := by
    rw [field_one]
    exact byte_toNat (by omega)
  have request : field (head ++ check) 1 1 = code := by
    rw [field_one]
    exact byte_toNat hcode
  have size : head.length = 2 + ps.length := by simp only [head, List.length_cons]; omega
  have behind : (head ++ check).drop (head.length + 2) = [] :=
    List.drop_of_length_le (by rw [List.length_append]; omega)
  unfold frameBehind
  dsimp only
  rw [length, List.take_left, matched, station, request, if_neg (by omega), if_neg (by rw [List.length_append]; omega),
    if_neg (by simp), if_neg (by omega), behind]
  rfl

/-- An empty receiver in HUNTING has nothing to do. -/
theorem scanStation_idle {s : State} (fuel : Nat) (empty : s.station.buffer = []) (hunting : s.station.receiver = .hunting) :
    scanStation fuel s = s := by
  cases fuel with
  | zero => rfl
  | succ fuel =>
    unfold scanStation
    rw [empty]
    show { s with station := { s.station with buffer := [], receiver := .hunting } } = s
    rw [← empty, ← hunting]

/-- The last character of a good frame lets the frame be taken at once (log 19). -/
theorem stationCharacter_completes {s : State} {st code : Nat} {ps front : List Byte} {b : Byte} (hst : st < 8)
    (hcode : code < 256) (hps : ps.length ≤ 246) (frame : requestFrame st code ps = front ++ [b])
    (free : s.resetHeld = false) (idle : s.station.inService = none) (held : s.station.buffer = front) :
    ∃ fuel, exec (.stationCharacter b) s
      = .next (scanStation fuel (takeGoodFrame st code ps (withBuffer [] .hunting s))) := by
  obtain ⟨rest, sync, good⟩ := frameBehind_requestFrame hst hcode hps
  have room : ¬512 ≤ s.station.buffer.length := by
    have total := congrArg List.length frame
    simp only [requestFrame, byte_eq, List.length_cons, List.length_append, List.length_nil, beBytes_length] at total
    rw [held]
    omega
  refine ⟨(requestFrame st code ps).length, ?_⟩
  have arrived : exec (.stationCharacter b) s = .next (arriveChar b s) :=
    congrArg Host.Outcome.next (unlessHeld_free s _ free)
  rw [arrived, arriveChar, if_neg room, held, ← frame, scan, sync, scanStation]
  dsimp only
  rw [if_neg (by simp), good]
  dsimp only
  rw [if_neg (by simp [idle])]
  rfl

/-! ## The checks in order (R201) -/

theorem takeGoodFrame_absent {s : State} {st : Nat} (code : Nat) (ps : List Byte) (absent : classOf s st = .absent) :
    takeGoodFrame st code ps s = refuseFrame st code .notPermitted s := if_pos absent

theorem takeGoodFrame_unknown {s : State} {st code : Nat} (ps : List Byte) (present : classOf s st ≠ .absent)
    (unknown : Req.ofCode code = none) : takeGoodFrame st code ps s = refuseFrame st code .unknownRequest s := by
  rw [takeGoodFrame, if_neg present, unknown]

/-- A request that the table bars is refused so whether its station is ABSENT or not. -/
theorem takeGoodFrame_barred {s : State} {st code : Nat} {r : Req} (ps : List Byte) (known : Req.ofCode code = some r)
    (barred : permitted r (classOf s st) = false) :
    takeGoodFrame st code ps s = refuseFrame st code .notPermitted s := by
  by_cases absent : classOf s st = .absent
  · exact takeGoodFrame_absent code ps absent
  · rw [takeGoodFrame, if_neg absent, known]
    exact if_pos (by rw [barred]; rfl)

/-- A request that the table permits is judged by its parameters. -/
theorem takeGoodFrame_permitted {s : State} {st code : Nat} {r : Req} {ps : List Byte} (known : Req.ofCode code = some r)
    (may : permitted r (classOf s st) = true) :
    (decodeRequest r st ps = .badLength → takeGoodFrame st code ps s = refuseFrame st code .badLength s)
      ∧ (decodeRequest r st ps = .badParam → takeGoodFrame st code ps s = refuseFrame st code .badParam s) := by
  have present : classOf s st ≠ .absent := by
    intro absent
    rw [absent] at may
    cases may
  constructor <;> intro decoded <;>
    simp [takeGoodFrame, present, known, may, decoded]

/-- The last character of a good frame that is refused answers the refusal, and the receiver holds nothing more. -/
theorem stationCharacter_refuses {s : State} {st code : Nat} {ps front : List Byte} {b : Byte} {why : Status} (hst : st < 8)
    (hcode : code < 256) (hps : ps.length ≤ 246) (frame : requestFrame st code ps = front ++ [b])
    (free : s.resetHeld = false) (idle : s.station.inService = none) (held : s.station.buffer = front)
    (refused : takeGoodFrame st code ps (withBuffer [] .hunting s) = refuseFrame st code why (withBuffer [] .hunting s)) :
    exec (.stationCharacter b) s = .next (refuseFrame st code why (withBuffer [] .hunting s)) := by
  obtain ⟨fuel, taken⟩ := stationCharacter_completes hst hcode hps frame free idle held
  rw [taken, refused, scanStation_idle fuel rfl rfl]

end Sys2Proof.Machine
end

