-- ==== Sys2Proof/Proofs/StationAnswers.lean ====
section
/-! PROOFS. Every request that is taken is answered, and the silence counter it sets to 0 stays there whatever its owner does
(R199, R201, R206). -/

namespace Sys2Proof.Machine

/-! ## The silence counter -/

/-- A silence counter at 0 stays there. -/
def StaysHeard (s t : State) : Prop := s.station.silence = 0 → t.station.silence = 0

namespace StaysHeard

theorem refl (s : State) : StaysHeard s s := id

theorem trans {s t u : State} (h : StaysHeard s t) (k : StaysHeard t u) : StaysHeard s u := fun quiet => k (h quiet)

theorem ite {c : Prop} [Decidable c] {s t : State} (h : StaysHeard s t) : StaysHeard s (if c then t else s) := by
  split
  · exact h
  · exact refl s

theorem controlEdits : ControlEdits StaysHeard where
  refl := refl
  trans := trans
  raise := fun _ _ _ => id
  mode := fun _ _ _ => id
  auth := fun _ _ => id
  cue := fun _ _ => id
  stop := fun _ _ => id
  copy := fun _ _ => id
  exit := fun _ _ _ => id
  lengths := fun _ _ _ => id
  dropCopy := fun _ => id
  freeze := fun _ => id

theorem movePort (i : Nat) (q : Port) (s : State) : StaysHeard s (movePort i q s) := by
  rw [movePort_eq]
  exact id

theorem reclass (i : Nat) (q : Port) (classes : BitVec 4) (s : State) : StaysHeard s (reclass i q classes s) := by
  unfold Machine.reclass
  split
  · exact (movePort _ _ s).trans (controlEdits.raiseCause _ _ _ _)
  · have written : ∀ p, StaysHeard s (withPort i p s) := fun _ => id
    exact (written _).trans (controlEdits.raiseIf _ .derate _ (by decide))

theorem inSafe {s : State} {ok : Bool} {own : State → State × Reply} (h : StaysHeard s (own s).1) :
    StaysHeard s (inSafe s ok own).1 := by
  rcases inSafe_cases s ok own with e | ⟨-, -, e⟩ <;> rw [e]
  · exact refl s
  · exact h

end StaysHeard

/-! ## What each owner does to it -/

theorem staysHeard_setAttentionMask (mask : Nat) (s : State) : StaysHeard s (setAttentionMask mask s).1 := by
  unfold setAttentionMask
  repeat' split
  all_goals exact id

theorem staysHeard_createZone (kind : Nat) (box : Box) (initial policy standing cap lifetime : Nat) (label : List Byte) (st : Nat) (c : StationClass) (s : State) : StaysHeard s (createZone kind box initial policy standing cap lifetime label st c s).1 := by
  unfold createZone
  repeat' split
  all_goals exact id

theorem staysHeard_lookupZone (handle : Nat) (s : State) : StaysHeard s (lookupZone handle s).1 := by
  unfold lookupZone
  repeat' split
  all_goals exact id

theorem staysHeard_findZones (point : Vec3) (s : State) : StaysHeard s (findZones point s).1 := by
  unfold findZones
  repeat' split
  all_goals exact id

theorem staysHeard_listZones (states owner : Nat) (s : State) : StaysHeard s (listZones states owner s).1 := by
  unfold listZones
  repeat' split
  all_goals exact id

theorem staysHeard_corrWindow (w0 w1 j0 j1 order : Nat) (s : State) : StaysHeard s (corrWindow w0 w1 j0 j1 order s).1 := by
  unfold corrWindow
  repeat' split
  all_goals exact id

theorem staysHeard_markSet (n : Nat) (pos : Vec3) (label : List Byte) (st : Nat) (c : StationClass) (s : State) : StaysHeard s (markSet n pos label st c s).1 := by
  unfold markSet
  repeat' split
  all_goals exact id

theorem staysHeard_markRetire (n st : Nat) (c : StationClass) (s : State) : StaysHeard s (markRetire n st c s).1 := by
  unfold markRetire
  repeat' split
  all_goals exact id

theorem staysHeard_markRead (n : Nat) (s : State) : StaysHeard s (markRead n s).1 := by
  unfold markRead
  repeat' split
  all_goals exact id

theorem staysHeard_cueAppend (n cruise dwell flags st : Nat) (s : State) : StaysHeard s (cueAppend n cruise dwell flags st s).1 := by
  unfold cueAppend
  repeat' split
  all_goals exact id

theorem staysHeard_claim (st : Nat) (s : State) : StaysHeard s (claim st s).1 := by
  unfold claim
  repeat' split
  all_goals exact id

theorem staysHeard_stick (d : Vec3) (scale flags st : Nat) (s : State) : StaysHeard s (stick d scale flags st s).1 := by
  unfold stick
  repeat' split
  all_goals exact id

theorem staysHeard_setOrientation (flags st : Nat) (c : StationClass) (s : State) : StaysHeard s (setOrientation flags st c s).1 := by
  unfold setOrientation
  repeat' split
  all_goals exact id

theorem staysHeard_endSwap (st : Nat) (s : State) : StaysHeard s (endSwap st s).1 := by
  unfold endSwap
  repeat' split
  all_goals exact id

theorem staysHeard_setStick (start hold deadband st : Nat) (c : StationClass) (s : State) : StaysHeard s (setStick start hold deadband st c s).1 := by
  unfold setStick
  repeat' split
  all_goals exact id

theorem staysHeard_portClear (i : Nat) (s : State) : StaysHeard s (portClear i s).1 := by
  unfold portClear
  repeat' split
  all_goals exact id

theorem staysHeard_restart (s : State) : StaysHeard s (restart s).1 := by
  unfold restart
  split
  · exact fun _ => rfl
  · exact id

theorem staysHeard_disable (s : State) : StaysHeard s (disable s).1 := by
  unfold disable
  repeat' split
  all_goals exact id

theorem staysHeard_enable (p0 : Vec3) (s : State) : StaysHeard s (enable p0 s).1 := by
  unfold enable
  dsimp only
  repeat' split
  all_goals exact id

theorem staysHeard_readAuthority (clear st : Nat) (c : StationClass) (s : State) :
    StaysHeard s (readAuthority clear st c s).1 := by
  unfold readAuthority
  split
  · exact id
  · exact .ite id

theorem staysHeard_portRead (i clear : Nat) (c : StationClass) (s : State) : StaysHeard s (portRead i clear c s).1 := by
  unfold portRead
  split
  · exact id
  · split
    · exact id
    · exact .ite id

theorem staysHeard_onZone (c : StationClass) (st handle : Nat) (s : State) (own : Zone → State × Reply)
    (h : ∀ z, StaysHeard s (own z).1) : StaysHeard s (onZone c st handle s own).1 := by
  rcases onZone_cases c st handle s own with ⟨-, e⟩ | ⟨sl, z, -, ⟨-, -, e⟩ | ⟨-, -, -, e⟩ | ⟨-, e⟩⟩ <;> rw [e]
  · exact id
  · exact id
  · exact id
  · exact h z

theorem staysHeard_amendZone (handle changes : Nat) (box : Box) (cap lifetime : Nat) (label : List Byte) (st : Nat)
    (c : StationClass) (s : State) : StaysHeard s (amendZone handle changes box cap lifetime label st c s).1 := by
  refine staysHeard_onZone c st handle s _ fun z => ?_
  split <;> exact id

theorem staysHeard_suspendZone (handle st : Nat) (c : StationClass) (s : State) :
    StaysHeard s (suspendZone handle st c s).1 := by
  refine staysHeard_onZone c st handle s _ fun z => ?_
  split <;> exact id

theorem staysHeard_resumeZone (handle policy st : Nat) (c : StationClass) (s : State) :
    StaysHeard s (resumeZone handle policy st c s).1 := by
  refine staysHeard_onZone c st handle s _ fun z => ?_
  split
  · exact id
  · split <;> exact id

theorem staysHeard_retireZone (handle st : Nat) (c : StationClass) (s : State) :
    StaysHeard s (retireZone handle st c s).1 := staysHeard_onZone c st handle s _ fun _ => id

theorem staysHeard_corrRead (n : Nat) (s : State) : StaysHeard s (corrRead n s).1 := by
  unfold corrRead
  split
  · exact id
  · exact .inSafe id

theorem staysHeard_setStandard (n : Nat) (s : State) : StaysHeard s (setStandard n s).1 := by
  unfold setStandard
  split
  · exact id
  · next std _ =>
    have written : StaysHeard s { s with period := s.period.setStandard std } := id
    have flagged := written.trans (StaysHeard.controlEdits.raiseIf
      ((s.period.setStandard std).lock != s.period.lock) .reference _ (by decide))
    exact .inSafe flagged

theorem staysHeard_setStationClass (station cls : Nat) (s : State) : StaysHeard s (setStationClass station cls s).1 := by
  unfold setStationClass
  split
  · exact id
  · next k _ =>
    split
    · exact id
    · have written : StaysHeard s
          { s with station := { s.station with classes := s.station.classes.set (station - 1) k } } := id
      exact written.trans (.ite (StaysHeard.controlEdits.classLoss station _))

theorem staysHeard_release (st : Nat) (s : State) : StaysHeard s (release st s).1 := by
  unfold release
  split
  · exact id
  · split
    · exact id
    · have written : StaysHeard s { s with auth := { s.auth with explicit := false } } := id
      exact written.trans (StaysHeard.controlEdits.endAuthority _)

theorem staysHeard_selectMode (mode st : Nat) (s : State) : StaysHeard s (selectMode mode st s).1 := by
  unfold selectMode
  split
  · exact id
  · split
    · exact id
    · split
      · exact id
      · exact StaysHeard.controlEdits.selected _ st s

theorem staysHeard_cueGo (st : Nat) (s : State) : StaysHeard s (cueGo st s).1 := by
  unfold cueGo
  split
  · exact id
  · split
    · exact id
    · split
      · exact id
      · exact StaysHeard.controlEdits.goHead s

theorem staysHeard_cueHalt (st : Nat) (c : StationClass) (s : State) : StaysHeard s (cueHalt st c s).1 := by
  unfold cueHalt
  split
  · exact id
  · exact StaysHeard.controlEdits.haltIfRunning s

theorem staysHeard_cueFlush (st : Nat) (c : StationClass) (s : State) : StaysHeard s (cueFlush st c s).1 := by
  unfold cueFlush
  split
  · exact id
  · exact (StaysHeard.controlEdits.haltIfRunning s).trans (StaysHeard.controlEdits.removeTo [] _)

theorem staysHeard_controlPort (i : Nat) (s : State) (act : Port → Option Port) : StaysHeard s (controlPort i s act).1 := by
  unfold controlPort
  split
  · exact id
  · split
    · exact id
    · split
      · exact id
      · exact .movePort _ _ s

theorem staysHeard_setAbility (i classes : Nat) (s : State) : StaysHeard s (setAbility i classes s).1 := by
  unfold setAbility
  split
  · exact id
  · split
    · exact id
    · dsimp only [accept]
      split
      · exact .reclass _ _ _ s
      · exact id

theorem staysHeard_portTestStart (i pattern loop : Nat) (s : State) : StaysHeard s (portTestStart i pattern loop s).1 := by
  unfold portTestStart
  split
  · dsimp only
    split
    · exact id
    · split
      · exact id
      · split
        · exact id
        · split
          · exact id
          · exact .movePort _ _ s
  · exact id

theorem staysHeard_portTestStop (i : Nat) (s : State) : StaysHeard s (portTestStop i s).1 := by
  unfold portTestStop
  split
  · exact id
  · exact .ite (.movePort _ _ s)

theorem staysHeard_stop (kind st : Nat) (c : StationClass) (s : State) : StaysHeard s (stop kind st c s).1 := by
  unfold stop
  split
  · exact id
  · split
    · exact id
    · exact StaysHeard.controlEdits.raiseCause _ _ _ s

theorem staysHeard_clearStop (s : State) : StaysHeard s (clearStop s).1 := by
  have moved : ∀ t : State, StaysHeard t (clearMotion t) := by
    intro t
    unfold clearMotion
    split <;> exact id
  unfold clearStop
  split
  · exact id
  · split
    · exact id
    · split
      · exact id
      · exact moved { s with stop := stopEmpty s.stop.estopOpen }

/-! ## Every request -/

/-- A request is taken by its owner, who leaves the silence counter at 0, or the port itself refuses its length. -/
def TakenByOwner (c : Instr) (s : State) (st : Nat) (r : Req) : Prop :=
  (∃ own, (∀ k u, StaysHeard u (own k u).1) ∧ exec c s = request r st s own)
    ∨ ∃ why, exec c s = .next (refuseFrame st r.code why s)

theorem takenByOwner_corrWrite (st : Nat) (vs : List Int) {s : State} (free : s.resetHeld = false) :
    TakenByOwner (.corrWrite st vs) s st .corrWrite := by
  by_cases count : vs.length < 1 ∨ 60 < vs.length
  · exact .inr ⟨_, (if_pos count).trans (congrArg _ (unlessHeld_free s _ free))⟩
  · exact .inl ⟨fun _ t => corrWrite vs t, fun _ _ => .inSafe id, if_neg count⟩

theorem takenByOwner_of_encoded {c : Instr} {s : State} {st : Nat} {r : Req} {ps : List Byte}
    (encoded : encodeRequest c = some (st, r, ps)) (free : s.resetHeld = false) : TakenByOwner c s st r := by
  cases c <;> cases encoded
  case corrWrite => exact takenByOwner_corrWrite _ _ free
  case setAttentionMask => exact .inl ⟨_, fun _ u => staysHeard_setAttentionMask _ u, rfl⟩
  case setStationClass => exact .inl ⟨_, fun _ u => staysHeard_setStationClass _ _ u, rfl⟩
  case restart => exact .inl ⟨_, fun _ u => staysHeard_restart u, rfl⟩
  case zoneCreate => exact .inl ⟨_, fun c u => staysHeard_createZone _ _ _ _ _ _ _ _ _ c u, rfl⟩
  case zoneAmend => exact .inl ⟨_, fun c u => staysHeard_amendZone _ _ _ _ _ _ _ c u, rfl⟩
  case zoneSuspend => exact .inl ⟨_, fun c u => staysHeard_suspendZone _ _ c u, rfl⟩
  case zoneResume => exact .inl ⟨_, fun c u => staysHeard_resumeZone _ _ _ c u, rfl⟩
  case zoneRetire => exact .inl ⟨_, fun c u => staysHeard_retireZone _ _ c u, rfl⟩
  case zoneLookup => exact .inl ⟨_, fun _ u => staysHeard_lookupZone _ u, rfl⟩
  case zoneFind => exact .inl ⟨_, fun _ u => staysHeard_findZones _ u, rfl⟩
  case zoneList => exact .inl ⟨_, fun _ u => staysHeard_listZones _ _ u, rfl⟩
  case enable => exact .inl ⟨_, fun _ u => staysHeard_enable _ u, rfl⟩
  case disable => exact .inl ⟨_, fun _ u => staysHeard_disable u, rfl⟩
  case corrWindow => exact .inl ⟨_, fun _ u => staysHeard_corrWindow _ _ _ _ _ u, rfl⟩
  case corrRead => exact .inl ⟨_, fun _ u => staysHeard_corrRead _ u, rfl⟩
  case setStandard => exact .inl ⟨_, fun _ u => staysHeard_setStandard _ u, rfl⟩
  case markSet => exact .inl ⟨_, fun c u => staysHeard_markSet _ _ _ _ c u, rfl⟩
  case markRetire => exact .inl ⟨_, fun c u => staysHeard_markRetire _ _ c u, rfl⟩
  case markRead => exact .inl ⟨_, fun _ u => staysHeard_markRead _ u, rfl⟩
  case cueAppend => exact .inl ⟨_, fun _ u => staysHeard_cueAppend _ _ _ _ _ u, rfl⟩
  case cueGo => exact .inl ⟨_, fun _ u => staysHeard_cueGo _ u, rfl⟩
  case cueHalt => exact .inl ⟨_, fun c u => staysHeard_cueHalt _ c u, rfl⟩
  case cueFlush => exact .inl ⟨_, fun c u => staysHeard_cueFlush _ c u, rfl⟩
  case claim => exact .inl ⟨_, fun _ u => staysHeard_claim _ u, rfl⟩
  case release => exact .inl ⟨_, fun _ u => staysHeard_release _ u, rfl⟩
  case preempt => exact .inl ⟨fun _ t => preempt _ t, fun _ u => StaysHeard.controlEdits.preempted _ u, rfl⟩
  case selectMode => exact .inl ⟨_, fun _ u => staysHeard_selectMode _ _ u, rfl⟩
  case stick => exact .inl ⟨_, fun _ u => staysHeard_stick _ _ _ _ u, rfl⟩
  case setOrientation => exact .inl ⟨_, fun c u => staysHeard_setOrientation _ _ c u, rfl⟩
  case endSwap => exact .inl ⟨_, fun _ u => staysHeard_endSwap _ u, rfl⟩
  case setStick => exact .inl ⟨_, fun c u => staysHeard_setStick _ _ _ _ c u, rfl⟩
  case readAuthority => exact .inl ⟨_, fun c u => staysHeard_readAuthority _ _ c u, rfl⟩
  case portControlEnable | portControlDisable | portControlRetrain | portControlSleep | portControlWake =>
    exact .inl ⟨_, fun _ u => staysHeard_controlPort _ u _, rfl⟩
  case setAbility => exact .inl ⟨_, fun _ u => staysHeard_setAbility _ _ u, rfl⟩
  case portTestStart => exact .inl ⟨_, fun _ u => staysHeard_portTestStart _ _ _ u, rfl⟩
  case portTestStop => exact .inl ⟨_, fun _ u => staysHeard_portTestStop _ u, rfl⟩
  case portClear => exact .inl ⟨_, fun _ u => staysHeard_portClear _ u, rfl⟩
  case portRead => exact .inl ⟨_, fun c u => staysHeard_portRead _ _ c u, rfl⟩
  case stop => exact .inl ⟨_, fun c u => staysHeard_stop _ _ c u, rfl⟩
  case clearStop => exact .inl ⟨_, fun _ u => staysHeard_clearStop u, rfl⟩
  case setAnchors | setFlightBox | setPayout | setLimits | setPortLimits => exact .inl ⟨_, fun _ _ => .inSafe id, rfl⟩
  case readStatus => exact .inl ⟨readStatus, fun _ _ => id, rfl⟩
  case readEvents => exact .inl ⟨fun _ t => readEvents t, fun _ _ => id, rfl⟩
  case setWatchdog => exact .inl ⟨fun _ t => setWatchdog _ t, fun _ _ => id, rfl⟩
  case zoneClear => exact .inl ⟨fun _ t => clearZones t, fun _ _ => id, rfl⟩
  case readMotion => exact .inl ⟨fun _ t => readMotion t, fun _ _ => id, rfl⟩
  case readGeometry => exact .inl ⟨fun _ t => readGeometry t, fun _ _ => id, rfl⟩
  case readLimits => exact .inl ⟨fun _ t => readLimits t, fun _ _ => id, rfl⟩
  case cueRead => exact .inl ⟨fun _ t => cueRead t, fun _ _ => id, rfl⟩
  case setCueWindow => exact .inl ⟨fun _ t => setCueWindow _ t, fun _ _ => id, rfl⟩
  case withdraw => exact .inl ⟨fun _ t => withdraw _ t, fun _ _ => id, rfl⟩
  case readStop => exact .inl ⟨fun _ t => readStop t, fun _ _ => id, rfl⟩
  case readPeriod => exact .inl ⟨fun _ t => readPeriod t, fun _ _ => id, rfl⟩

/-- A request that is taken is answered with its station and its code, and the silence counter is 0 (R199, R206). -/
theorem TakenByOwner.answered {c : Instr} {s : State} {st : Nat} {r : Req} (taken : TakenByOwner c s st r)
    (free : s.resetHeld = false) :
    ∃ t v, exec c s = .next t ∧ t.station.silence = 0 ∧ t.station.inService = some v ∧ v.station = st
      ∧ v.code = r.code := by
  rcases taken with ⟨own, heard, e⟩ | ⟨why, e⟩
  · rw [e]
    by_cases may : permitted r (classOf s st) = true
    · exact ⟨_, _, request_of_maySend r st s own ⟨free, may⟩, heard _ (takeFrame s) rfl, rfl, rfl, rfl⟩
    · exact ⟨_, _, request_of_barred r st s own free (Bool.eq_false_iff.2 may), rfl, rfl, rfl, rfl⟩
  · exact ⟨_, _, e, rfl, rfl, rfl, rfl⟩

/-- A frame with a code the part does not know is answered, with the checks of R201 up to the code. -/
theorem unknownRequestFrame_answered {s : State} {st code : Nat} (free : s.resetHeld = false)
    (unknown : Req.ofCode code = none) :
    exec (.unknownRequestFrame st code) s
      = .next (refuseFrame st code (if classOf s st = .absent then .notPermitted else .unknownRequest) s) := by
  refine congrArg Host.Outcome.next ((unlessHeld_free s _ free).trans (if_neg ?_))
  simp [unknown]

/-- Settles O6: every row by its owner, the unknown code, and the four checks on the last character. -/
theorem requestsAnsweredOrRefusedAtThePort : Obligations.RequestsAnsweredOrRefusedAtThePort := by
  refine ⟨fun c s st r ps encoded free => (takenByOwner_of_encoded encoded free).answered free,
    fun s st code free unknown => ⟨fun absent => ?_, fun present => ?_⟩,
    fun s st code ps front b hst hcode hps frame free idle held => ?_⟩
  · rw [unknownRequestFrame_answered free unknown, if_pos absent]
    rfl
  · rw [unknownRequestFrame_answered free unknown, if_neg present]
    rfl
  · have refuses := fun why => stationCharacter_refuses (why := why) hst hcode hps frame free idle held
    refine ⟨fun absent => refuses _ (takeGoodFrame_absent code ps absent),
      fun present unknown => refuses _ (takeGoodFrame_unknown ps present unknown),
      fun r known => ⟨fun barred => refuses _ (takeGoodFrame_barred ps known barred), fun may => ?_⟩⟩
    obtain ⟨badLength, badParam⟩ := takeGoodFrame_permitted (s := withBuffer [] .hunting s) (ps := ps) known may
    exact ⟨fun wrong => refuses _ (badLength ((decodeRequest_eq_badLength r st ps).2 wrong)),
      fun right outside => refuses _ (badParam (decodeRequest_eq_badParam st right outside))⟩

end Sys2Proof.Machine
end

