-- ==== Sys2Proof/Proofs/CueListLaw.lean ====
section
/-! PROOFS. The law of the marks and of the cue list across the shared transitions, a period computation and its commit: they
leave the marks and the window as they are, and only ever remove entries (R57 to R64, R96, R100 to R104). -/

namespace Sys2Proof.Machine

/-- The move keeps the law of the marks and of the list. -/
def ListKept (s t : State) : Prop := CuesOk s → CuesOk t

namespace ListKept

theorem refl (s : State) : ListKept s s := id

theorem trans {s t u : State} (h : ListKept s t) (k : ListKept t u) : ListKept s u := fun ok => k (h ok)

theorem ite {c : Prop} [Decidable c] {s t : State} (h : ListKept s t) : ListKept s (if c then t else s) := by
  split
  · exact h
  · exact refl s

/-- Entries of a list may be removed, wherever they stand. -/
theorem shrink {s t : State} (marks : t.marks = s.marks) (window : t.cue.window = s.cue.window)
    (entries : t.cue.entries.Sublist s.cue.entries) : ListKept s t := by
  rintro ⟨store, count, least, most, set⟩
  refine ⟨by rw [marks]; exact store, entries.length_le.trans count, by rw [window]; exact least,
    by rw [window]; exact most, fun e he => ?_⟩
  rw [markAt, marks]
  exact set e (entries.subset he)

/-- A move that leaves the marks and the list. -/
theorem still {s t : State} (marks : t.marks = s.marks) (cue : t.cue = s.cue) : ListKept s t :=
  shrink marks (by rw [cue]) (by rw [cue])

theorem raiseIf (b : Bool) (e : Event) (s : State) : ListKept s (raiseIf b e s) := by
  rw [raiseIf_eq]
  exact still rfl rfl

theorem raiseEvent (e : Event) (s : State) : ListKept s (raiseEvent e s) := still rfl rfl

/-! ## Authority (R115 to R119) -/

theorem endAuthority (s : State) : ListKept s (endAuthority s) := by
  unfold Machine.endAuthority
  dsimp only
  split <;> exact still rfl rfl

theorem flushStick (s : State) : ListKept s (flushStick s) := still rfl rfl

theorem dropCopy (s : State) : ListKept s (dropCopy s) := shrink rfl rfl (.refl _)

theorem haltCue (s : State) : ListKept s (haltCue s) :=
  (dropCopy s).trans (still (frame_clearCueBasis _).marks (clearCueBasis_cue _))

theorem loseAuthority (s : State) : ListKept s (loseAuthority s) := by
  have dropped : ListKept s (if s.motion.mode = .cue then Machine.dropCopy s else s) := ite (dropCopy s)
  unfold Machine.loseAuthority
  dsimp only
  split <;> exact dropped.trans (still rfl rfl)

theorem claimDecision (s : State) : ListKept s (claimDecision s) := by
  unfold Machine.claimDecision
  split <;> exact still rfl rfl

theorem stickStep (s : State) : ListKept s (stickStep s) := by
  have written : ∀ a, ListKept s { s with auth := a } := fun _ => still rfl rfl
  unfold Machine.stickStep
  split
  · split
    · exact written _
    · exact (written _).trans (raiseIf _ _ _)
  · exact refl s

theorem arbiterExpiry (s : State) : ListKept s (arbiterExpiry s) :=
  have counted : ListKept s (countBackoffs s) := still rfl rfl
  (counted.trans (claimDecision _)).trans (stickStep _)

/-! ## Cues (R57 to R62, R98 to R104) -/

theorem endCue (s : State) : ListKept s (endCue s) := (haltCue s).trans (still rfl rfl)

theorem haltIfRunning (s : State) : ListKept s (haltIfRunning s) := ite (endCue s)

theorem removeTo {rest : List CueEntry} {s : State} (h : rest.Sublist s.cue.entries) : ListKept s (removeTo rest s) := by
  rw [removeTo_eq]
  exact shrink rfl rfl h

/-- The head that fails is removed (R62, R101). -/
theorem failHead (why : FailReason) (s : State) : ListKept s (failHead why s) := by
  have frame := (listWritten_failRecorded why s).frame
  rw [failHead_eq]
  refine (shrink frame.marks frame.window ?_ : ListKept s (failRecorded why s)).trans (endCue _)
  rw [failRecorded_cue]
  exact List.tail_sublist _

theorem startHead (s : State) : ListKept s (startHead s) := by
  unfold Machine.startHead
  split
  · exact refl s
  · split
    · exact failHead _ s
    · exact shrink rfl rfl (.refl _)

/-- The head that completes is removed, and the next may fail at once (R59, R99, R100). -/
theorem completeCue (s : State) : ListKept s (completeCue s) := by
  unfold Machine.completeCue
  split
  · exact endCue s
  · next e rest entries =>
    have done : ListKept s (Machine.raiseEvent .cueDone (Machine.dropCopy (Machine.removeTo rest s))) :=
      ((removeTo (entries ▸ List.sublist_cons_self e rest)).trans (dropCopy _)).trans (raiseEvent _ _)
    dsimp only
    split
    · exact done.trans ((still (frame_clearCueBasis _).marks (clearCueBasis_cue _)).trans (still rfl rfl))
    · exact done.trans (startHead _)

theorem cueChecks (s : State) : ListKept s (cueChecks s) := by
  have copied : ∀ c, ListKept s { s with motion := { s.motion with copy := c } } := fun _ => still rfl rfl
  unfold Machine.cueChecks
  split
  · exact refl s
  · split
    · unfold dwellStep
      split
      · exact completeCue s
      · exact copied _
    · split
      · unfold arrive
        split
        · exact completeCue s
        · exact copied _
      · unfold progressTest
        dsimp only
        generalize (if (Vec3.minus _ (heldP s)).norm < _ then 0 else _ + 1) = n
        split
        · exact (copied _).trans (failHead _ _)
        · exact copied _

theorem goHead (s : State) : ListKept s (goHead s) := by
  have ready : ListKept s (readyHead s) := by
    rw [readyHead_eq]
    exact still rfl rfl
  rw [goHead_eq]
  exact ready.trans (startHead _)

theorem selected (toStick : Bool) (st : Nat) (s : State) : ListKept s (selected toStick st s) := by
  unfold Machine.selected
  split
  · exact ite (still rfl rfl)
  · split
    · exact refl s
    · exact still rfl rfl
  · dsimp only
    split <;> exact (haltCue s).trans (still rfl rfl)
  all_goals exact refl s

/-! ## Stops (R63 to R66, R166) -/

theorem leaveSteered (kind : StopKind) (s : State) : ListKept s (leaveSteered kind s) := by
  have stopped : ListKept s (if kind = .brake
      then freeze { s with motion := { s.motion with exit := none, trapped := false } }
      else setMode .stopping { s with motion := { s.motion with exit := none, trapped := false } }) := by
    split <;> exact still rfl rfl
  unfold Machine.leaveSteered
  dsimp only
  refine trans ?_ (flushStick _)
  split
  · exact stopped.trans (haltCue _)
  · exact stopped

theorem reportKind (kind : StopKind) (s : State) : ListKept s (reportKind kind s) := by
  rcases reportKind_cases kind s with ⟨-, e⟩ | ⟨-, -, e⟩ | ⟨-, -, e⟩ | ⟨-, e⟩ <;> rw [e]
  · exact leaveSteered kind s
  · exact still rfl rfl
  · exact refl s
  · exact refl s

theorem raiseCause (c : Cause) (port : Option Nat) (asked : StopKind) (s : State) :
    ListKept s (raiseCause c port asked s) := by
  have joined : ∀ u, ListKept s { s with stop := u } := fun _ => still rfl rfl
  unfold Machine.raiseCause
  dsimp only
  refine trans ?_ (raiseIf _ _ _)
  split
  · exact joined _
  · exact (joined _).trans (reportKind _ _)

theorem takeEstop (lineOpen : Bool) (s : State) : ListKept s (takeEstop lineOpen s) := by
  have line : ListKept s { s with estopLineOpen := lineOpen, stop := { s.stop with estopOpen := lineOpen } } :=
    still rfl rfl
  unfold Machine.takeEstop
  dsimp only
  split
  · exact line.trans (raiseCause _ _ _ _)
  · exact line

/-- Each of the small edits of a port or of the clock keeps the law. -/
theorem deviceEdits : DeviceEdits ListKept where
  refl := refl
  trans := trans
  station := fun _ _ => still rfl rfl
  ports := fun _ _ => still rfl rfl
  period := fun _ _ _ => still rfl rfl
  cause := fun c port s _ => raiseCause c port .none s

/-! ## A period computation and its commit (R37, R42, R51, R52) -/

theorem of_opening {s t : State} (h : Opening s t) : ListKept s t := by
  rw [h.others]
  exact still rfl rfl

theorem beginEviction (s : State) : ListKept s (beginEviction s) := by
  have frame := (BeginFrame.beginEviction s).frame
  exact shrink frame.marks frame.window (by rw [(beginEviction_list s).1])

theorem settle (s : State) : ListKept s (settle s) := by
  rcases settle_cases s with e | ⟨-, -, e⟩ | ⟨-, -, -, e⟩ | ⟨-, -, e⟩ <;> rw [e]
  · exact refl s
  · exact beginEviction s
  · exact failHead _ s
  · exact still rfl rfl

theorem readied (s : State) : ListKept s (readied s) :=
  (settle s).trans (still ((BeginFrame.readied s).frame.marks.trans (BeginFrame.settle s).frame.marks.symm)
    (readied_settled s).1)

theorem beginComputation (s : State) : ListKept s (beginComputation s) := by
  rcases Mode.moving_or_rest s.motion.mode with moving | rest
  · rw [beginComputation_moving moving]
    exact (readied s).trans (still rfl rfl)
  · rw [beginComputation_rest rest]
    exact still rfl rfl

/-- After the table's work the checks of a running cue are all that a commit does to the list. -/
theorem commit (c : Computation) (s : State) : ListKept s (commit c s) := by
  have table : ListKept s (committedTable c s) := by
    rw [committedTable, tableCommit_eq]
    exact still rfl rfl
  have checks : ListKept (committedTable c s) (checked c s) := ite (cueChecks _)
  obtain ⟨m, e, -⟩ := commit_eq_with c s
  rw [e]
  exact (table.trans checks).trans (still rfl rfl)

theorem commitFlight (s : State) : ListKept s (commitFlight s) := by
  unfold Machine.commitFlight
  split
  · exact commit _ s
  · exact refl s

/-- The work of an expiry: the table and the Arbiter leave the list, and a running cue may fail as its computation begins. -/
theorem expiryWork (s : State) : ListKept s (expiryWork s) :=
  have table := of_opening ((opening_countLifetimes s).trans (opening_promoteAtRest _))
  (((table.trans (arbiterExpiry _)).trans (beginComputation _)).trans (deviceEdits.portsExpiry _)).trans
    (deviceEdits.silenceStep _)

end ListKept

end Sys2Proof.Machine
end

