-- ==== Sys2Proof/Proofs/CueListRequests.lean ====
section
/-! PROOFS. Every request keeps the law of the marks and of the list: its owner checks, and then writes elsewhere, moves the
mode by a shared transition, or is the Mark Store and Cue List itself (R91 to R107). -/

namespace Sys2Proof.Machine

namespace ListKept

/-- A check of an owner: what is refused leaves the state. -/
theorem check {c : Prop} [Decidable c] {why : Status} {s : State} {p : State × Reply} (h : ListKept s p.1) :
    ListKept s (if c then refuse why s else p).1 := by
  split
  · exact refl s
  · exact h

theorem branch {c : Prop} [Decidable c] {s : State} {p q : State × Reply} (h : ListKept s p.1) (k : ListKept s q.1) :
    ListKept s (if c then p else q).1 := by
  split
  · exact h
  · exact k

theorem inSafe {s : State} {ok : Bool} {own : State → State × Reply} (h : ListKept s (own s).1) :
    ListKept s (inSafe s ok own).1 := by
  rcases inSafe_cases s ok own with e | ⟨-, -, e⟩ <;> rw [e]
  · exact refl s
  · exact h

theorem onZone {c : StationClass} {st handle : Nat} {s : State} {own : Zone → State × Reply}
    (h : ∀ z, ListKept s (own z).1) : ListKept s (onZone c st handle s own).1 := by
  rcases onZone_cases c st handle s own with ⟨-, e⟩ | ⟨sl, z, -, ⟨-, -, e⟩ | ⟨-, -, -, e⟩ | ⟨-, e⟩⟩ <;> rw [e]
  · exact refl s
  · exact refl s
  · exact refl s
  · exact h z

end ListKept

/-! ## The Mark Store and the Cue List (R91 to R107) -/

theorem markAt_set (s : State) (n k : Nat) (m : Option Mark) (h : n < s.marks.length) :
    markAt { s with marks := s.marks.set n m } k = if k = n then m else markAt s k := by
  unfold markAt
  rcases eq_or_ne k n with rfl | other
  · simp [List.getD_eq_getElem?_getD, List.getElem?_set_self h]
  · simp [List.getD_eq_getElem?_getD, List.getElem?_set_ne other.symm, other]

/-- A mark is written; one that becomes FREE is named by no entry (R91, R93). -/
theorem ListKept.mark {s : State} {n : Nat} {m : Option Mark} (inStore : n ≤ 31)
    (named : m = none → ∀ e ∈ s.cue.entries, e.mark ≠ n) : ListKept s { s with marks := s.marks.set n m } := by
  rintro ⟨store, count, least, most, set⟩
  refine ⟨(List.length_set ..).trans store, count, least, most, fun e he => ?_⟩
  rw [markAt_set s n e.mark m (by omega)]
  split
  · next same => exact Option.isSome_iff_ne_none.2 fun free => named free e he same
  · exact set e he

theorem listKept_markSet (n : Nat) (pos : Vec3) (label : List Byte) (st : Nat) (c : StationClass) (s : State) :
    ListKept s (markSet n pos label st c s).1 := by
  unfold markSet
  split
  · exact .refl s
  · next inStore =>
    have written : ∀ m : Mark, ListKept s { s with marks := s.marks.set n (some m) } := fun m =>
      .mark (not_lt.1 inStore) fun free => nomatch free
    split
    · exact .check (written _)
    · exact .check (.check (written _))

theorem entriesNaming_eq_zero (s : State) (n : Nat) : entriesNaming s n = 0 ↔ ∀ e ∈ s.cue.entries, e.mark ≠ n := by
  simp [entriesNaming, List.countP_eq_zero]

theorem listKept_markRetire (n st : Nat) (c : StationClass) (s : State) : ListKept s (markRetire n st c s).1 := by
  unfold markRetire
  split
  · exact .refl s
  · next inStore =>
    split
    · exact .refl s
    · refine .check ?_
      split
      · exact .refl s
      · next unnamed =>
        exact .mark (not_lt.1 inStore) fun _ => (entriesNaming_eq_zero s n).1 (not_not.1 unnamed)

/-- CUE_APPEND adds one entry to a list with room, and names a SET mark (R97). -/
theorem listKept_cueAppend (n cruise dwell flags st : Nat) (s : State) :
    ListKept s (cueAppend n cruise dwell flags st s).1 := by
  unfold cueAppend
  refine .check ?_
  split
  · exact .refl s
  · next params =>
    split
    · exact .refl s
    · next room =>
      rintro ⟨store, -, least, most, set⟩
      refine ⟨store, by simp [accept]; omega, least, most, fun e he => ?_⟩
      rcases List.mem_append.1 he with old | new
      · exact set e old
      · obtain rfl := List.mem_singleton.1 new
        exact Option.isSome_iff_ne_none.2 fun free => params (.inr (.inl (Option.isNone_iff_eq_none.2 free)))

theorem listKept_setCueWindow (w : Nat) (s : State) : ListKept s (setCueWindow w s).1 := by
  rintro ⟨store, count, -, -, set⟩
  have kept : 1 ≤ clampNat w 1 16 ∧ clampNat w 1 16 ≤ 16 := by rw [clampNat_eq _ _ _ (by omega)]; omega
  exact ⟨store, count, kept.1, kept.2, set⟩

theorem listKept_cueGo (st : Nat) (s : State) : ListKept s (cueGo st s).1 :=
  .check (.check (.check (ListKept.goHead s : ListKept s (accept (goHead s) _).1)))

theorem listKept_cueFlush (st : Nat) (c : StationClass) (s : State) : ListKept s (cueFlush st c s).1 := by
  have emptied : ∀ t, ListKept t (removeTo [] t) := fun t => .removeTo (List.nil_sublist _)
  exact .check (((ListKept.haltIfRunning s).trans (emptied _)).trans (.shrink rfl rfl (.refl _)))

theorem listKept_restart (s : State) : ListKept s (restart s).1 :=
  .branch (.shrink rfl rfl (List.nil_sublist _)) (.refl s)

/-! ## The requests of the Arbiter, of the Motion Generator and of the Stop Unit -/

theorem listKept_claim (st : Nat) (s : State) : ListKept s (claim st s).1 :=
  .branch (.still rfl rfl) (.branch (.refl s) (.check (.still rfl rfl)))

theorem listKept_release (st : Nat) (s : State) : ListKept s (release st s).1 := by
  have dropped : ListKept s { s with auth := { s.auth with explicit := false } } := .still rfl rfl
  exact .check (.branch dropped (dropped.trans (.endAuthority _)))

theorem listKept_preempted (st : Nat) (s : State) : ListKept s (preempted st s) := by
  have lost : ListKept s (if s.auth.holder.isSome then loseAuthority s else s) := .ite (.loseAuthority s)
  unfold preempted
  split
  · exact .still rfl rfl
  · exact lost.trans (.still rfl rfl)

theorem listKept_classLoss (st : Nat) (s : State) : ListKept s (classLoss st s) := by
  unfold classLoss
  split
  · exact (ListKept.loseAuthority s).trans (.raiseEvent _ _)
  · exact .still rfl rfl

theorem listKept_setStationClass (station cls : Nat) (s : State) : ListKept s (setStationClass station cls s).1 := by
  have told : ∀ g, ListKept s { s with station := g } := fun _ => .still rfl rfl
  unfold setStationClass
  split
  · exact .refl s
  · refine .check ?_
    dsimp only [accept]
    split
    · exact (told _).trans (listKept_classLoss _ _)
    · exact told _

theorem listKept_readAuthority (clear st : Nat) (c : StationClass) (s : State) :
    ListKept s (readAuthority clear st c s).1 := by
  unfold readAuthority
  split
  · exact .refl s
  · exact .ite (.still rfl rfl)

theorem listKept_stick (d : Vec3) (scale flags st : Nat) (s : State) : ListKept s (stick d scale flags st s).1 :=
  .check (.check (.check (.still rfl rfl)))

theorem listKept_selectMode (mode st : Nat) (s : State) : ListKept s (selectMode mode st s).1 := by
  unfold selectMode
  refine .check (.check ?_)
  split
  · exact .refl s
  · exact .selected _ st s

theorem listKept_enable (p0 : Vec3) (s : State) : ListKept s (enable p0 s).1 := by
  unfold enable
  exact .check (.check (.check (.check (.check (.check (.branch (.refl s) (.still rfl rfl)))))))

theorem listKept_stop (kind st : Nat) (c : StationClass) (s : State) : ListKept s (stop kind st c s).1 := by
  unfold stop
  refine .check ?_
  split
  · exact .refl s
  · exact .raiseCause _ _ _ s

theorem listKept_clearStop (s : State) : ListKept s (clearStop s).1 := by
  have emptied : ListKept s { s with stop := stopEmpty s.stop.estopOpen } := .still rfl rfl
  have moved : ∀ t : State, ListKept t (clearMotion t) := by
    intro t
    unfold clearMotion
    split <;> exact .still rfl rfl
  unfold clearStop
  refine .check (.branch (.refl s) ?_)
  split
  · exact .refl s
  · exact emptied.trans (moved _)

/-! ## The requests of the Airspace Table, of the Span Solver and of the clock -/

theorem listKept_setAttentionMask (mask : Nat) (s : State) : ListKept s (setAttentionMask mask s).1 :=
  .check (.still rfl rfl)

theorem listKept_createZone (kind : Nat) (box : Box) (initial policy standing cap lifetime : Nat) (label : List Byte)
    (st : Nat) (c : StationClass) (s : State) :
    ListKept s (createZone kind box initial policy standing cap lifetime label st c s).1 := by
  unfold createZone
  refine .check ?_
  split
  · refine .check ?_
    split
    · exact .refl s
    · exact .still rfl rfl
  · exact .refl s

theorem listKept_amendZone (handle changes : Nat) (box : Box) (cap lifetime : Nat) (label : List Byte) (st : Nat)
    (c : StationClass) (s : State) : ListKept s (amendZone handle changes box cap lifetime label st c s).1 :=
  .onZone fun _ => .check (.still rfl rfl)

theorem listKept_suspendZone (handle st : Nat) (c : StationClass) (s : State) :
    ListKept s (suspendZone handle st c s).1 :=
  .onZone fun _ => .check (.still rfl rfl)

theorem listKept_resumeZone (handle policy st : Nat) (c : StationClass) (s : State) :
    ListKept s (resumeZone handle policy st c s).1 := by
  refine .onZone fun z => ?_
  split
  · exact .refl s
  · exact .check (.still rfl rfl)

theorem listKept_retireZone (handle st : Nat) (c : StationClass) (s : State) : ListKept s (retireZone handle st c s).1 :=
  .onZone fun _ => .still rfl rfl

theorem listKept_lookupZone (handle : Nat) (s : State) : ListKept s (lookupZone handle s).1 := by
  unfold lookupZone
  split <;> exact .refl s

theorem listKept_corrWindow (w0 w1 j0 j1 order : Nat) (s : State) : ListKept s (corrWindow w0 w1 j0 j1 order s).1 := by
  unfold corrWindow
  split
  · exact .refl s
  · exact .check (.still rfl rfl)

theorem listKept_setStandard (standard : Nat) (s : State) : ListKept s (setStandard standard s).1 := by
  unfold setStandard
  split
  · exact .refl s
  · refine .inSafe ?_
    simp only [accept, convertAll, raiseIf_eq]
    exact .still rfl rfl

/-! ## The requests of the winch ports -/

theorem listKept_controlPort (i : Nat) (s : State) (act : Port → Option Port) : ListKept s (controlPort i s act).1 := by
  unfold controlPort
  refine .check (.check ?_)
  split
  · exact .refl s
  · exact ListKept.deviceEdits.movePort _ _ s

theorem listKept_portRead (i clear : Nat) (c : StationClass) (s : State) : ListKept s (portRead i clear c s).1 := by
  unfold portRead
  split
  · exact .refl s
  · split
    · exact .refl s
    · exact .ite (.still rfl rfl)

theorem listKept_setAbility (i classes : Nat) (s : State) : ListKept s (setAbility i classes s).1 := by
  unfold setAbility
  split
  · exact .refl s
  · split
    · exact .refl s
    · dsimp only [accept]
      split
      · exact ListKept.deviceEdits.reclass _ _ _ s
      · exact .still rfl rfl

theorem listKept_portTestStop (i : Nat) (s : State) : ListKept s (portTestStop i s).1 := by
  have moved : ListKept s (if (s.ports.get i).state = .test then movePort i (s.ports.get i).enterTraining s else s) :=
    .ite (ListKept.deviceEdits.movePort _ _ s)
  exact .check moved

theorem listKept_portTestStart (i pattern loop : Nat) (s : State) : ListKept s (portTestStart i pattern loop s).1 := by
  unfold portTestStart
  split
  · dsimp only
    refine .check (.check (.check (.check ?_)))
    exact ListKept.deviceEdits.movePort _ _ s
  · exact .refl s

/-! ## Every request -/

theorem listKept_request {r : Req} {st : Nat} {s t : State} {own : StationClass → State → State × Reply}
    (h : request r st s own = .next t) (keeps : ∀ c u, ListKept u (own c u).1) : ListKept s t := by
  rcases request_cases r st s t own h with ⟨-, e⟩ | ⟨-, -, e⟩ | ⟨-, u, p, e, rfl⟩
  · rw [e]; exact .refl s
  · rw [e]; exact .still rfl rfl
  · have owner := keeps (classOf s st) (takeFrame s)
    rw [e] at owner
    exact (ListKept.still rfl rfl : ListKept s (takeFrame s)).trans (owner.trans (.still rfl rfl))

theorem ListKept.unlessHeld {s : State} {f : State → State} (h : ListKept s (f s)) : ListKept s (unlessHeld s f) := by
  unfold Machine.unlessHeld
  split
  · exact .refl s
  · exact h

theorem listKept_execCorrWrite {st : Nat} {values : List Int} {s t : State} (h : execCorrWrite st values s = .next t) :
    ListKept s t := by
  unfold execCorrWrite at h
  split at h
  · cases h
    exact .unlessHeld (.still rfl rfl)
  · exact listKept_request h fun _ u => .inSafe (.still rfl rfl)

theorem listKept_serve (i : Instr) (s t : State) (h : serve i s = .next t) : ListKept s t := by
  cases i
  all_goals simp only [serve] at h
  case setAttentionMask => exact listKept_request h fun _ u => listKept_setAttentionMask _ u
  case setStationClass => exact listKept_request h fun _ u => listKept_setStationClass _ _ u
  case restart => exact listKept_request h fun _ u => listKept_restart u
  case zoneCreate => exact listKept_request h fun c u => listKept_createZone _ _ _ _ _ _ _ _ _ c u
  case zoneAmend => exact listKept_request h fun c u => listKept_amendZone _ _ _ _ _ _ _ c u
  case zoneSuspend => exact listKept_request h fun c u => listKept_suspendZone _ _ c u
  case zoneResume => exact listKept_request h fun c u => listKept_resumeZone _ _ _ c u
  case zoneRetire => exact listKept_request h fun c u => listKept_retireZone _ _ c u
  case zoneLookup => exact listKept_request h fun _ u => listKept_lookupZone _ u
  case zoneFind | zoneList => exact listKept_request h fun _ u => .check (.refl u)
  case enable => exact listKept_request h fun _ u => listKept_enable _ u
  case disable => exact listKept_request h fun _ u => .branch (.still rfl rfl) (.refl u)
  case setAnchors | setFlightBox | setPayout | setLimits | setPortLimits =>
    exact listKept_request h fun _ _ => .inSafe (.still rfl rfl)
  case corrWindow => exact listKept_request h fun _ u => listKept_corrWindow _ _ _ _ _ u
  case corrWrite => exact listKept_execCorrWrite h
  case corrRead => exact listKept_request h fun _ _ => .check (.inSafe (.still rfl rfl))
  case markSet => exact listKept_request h fun c u => listKept_markSet _ _ _ _ c u
  case markRetire => exact listKept_request h fun c u => listKept_markRetire _ _ c u
  case markRead => exact listKept_request h fun _ u => .check (.refl u)
  case cueAppend => exact listKept_request h fun _ u => listKept_cueAppend _ _ _ _ _ u
  case cueGo => exact listKept_request h fun _ u => listKept_cueGo _ u
  case cueHalt => exact listKept_request h fun _ u => .check (.haltIfRunning u)
  case cueFlush => exact listKept_request h fun c u => listKept_cueFlush _ c u
  case setCueWindow => exact listKept_request h fun _ u => listKept_setCueWindow _ u
  case claim => exact listKept_request h fun _ u => listKept_claim _ u
  case release => exact listKept_request h fun _ u => listKept_release _ u
  case preempt => exact listKept_request h fun _ u => listKept_preempted _ u
  case selectMode => exact listKept_request h fun _ u => listKept_selectMode _ _ u
  case stick => exact listKept_request h fun _ u => listKept_stick _ _ _ _ u
  case setOrientation => exact listKept_request h fun _ _ => .check (.check (.still rfl rfl))
  case endSwap | setStick => exact listKept_request h fun _ _ => .check (.still rfl rfl)
  case readAuthority => exact listKept_request h fun c u => listKept_readAuthority _ _ c u
  case portControlEnable | portControlDisable | portControlRetrain | portControlSleep | portControlWake =>
    exact listKept_request h fun _ u => listKept_controlPort _ u _
  case setAbility => exact listKept_request h fun _ u => listKept_setAbility _ _ u
  case portTestStart => exact listKept_request h fun _ u => listKept_portTestStart _ _ _ u
  case portTestStop => exact listKept_request h fun _ u => listKept_portTestStop _ u
  case portClear => exact listKept_request h fun _ _ => .branch (.still rfl rfl) (.check (.still rfl rfl))
  case portRead => exact listKept_request h fun c u => listKept_portRead _ _ c u
  case stop => exact listKept_request h fun c u => listKept_stop _ _ c u
  case clearStop => exact listKept_request h fun _ u => listKept_clearStop u
  case setStandard => exact listKept_request h fun _ u => listKept_setStandard _ u
  case readStatus | readEvents | setWatchdog | zoneClear | readMotion | readGeometry | readLimits | cueRead | withdraw
      | readStop | readPeriod =>
    exact listKept_request h fun _ _ => .still rfl rfl
  all_goals cases h; exact .refl s

end Sys2Proof.Machine
end

