-- ==== Sys2Proof/Proofs/CueListStep.lean ====
section
/-! PROOFS. Every command and the idle step keep the list at most 16 entries long, with each of them naming a SET mark (R94, R96,
R107). -/

namespace Sys2Proof.Machine

/-- The receivers and the clock up to the wrap serve requests and make the edits of a device, and keep the law by both. -/
theorem ListKept.servedEdits : ServedEdits ListKept where
  toDeviceEdits := deviceEdits
  serves := listKept_serve

theorem ListKept.periodExpiry (s : State) : ListKept s (periodExpiry s) :=
  ((ListKept.commitFlight s).trans (servedEdits.clockToWrap _)).trans (.expiryWork _)

theorem ListKept.tick (s : State) : ListKept s (tick s) := by
  have timers := servedEdits.runTimers 1 s
  have wrapped : ∀ u : State, ListKept u { u with period := u.period.wrap } := fun _ => .still rfl rfl
  unfold Machine.tick
  dsimp only
  split
  · exact ((timers.trans (.commitFlight _)).trans (wrapped _)).trans (.expiryWork _)
  · exact timers

theorem cuesOk_powerOn {s : State} (marks : s.marks = List.replicate 32 none) (cue : s.cue = cuePowerOn) : CuesOk s := by
  unfold CuesOk
  rw [marks, cue]
  exact ⟨rfl, by decide, by decide, by decide, fun _ he => nomatch he⟩

/-! ## Every command, and a step -/

theorem listKept_exec (i : Instr) (s t : State) (h : exec i s = .next t) : ListKept s t := by
  have devices := ListKept.deviceEdits
  have served := listKept_serve i s t
  cases i
  case powerOnReset => cases h; exact fun _ => cuesOk_powerOn rfl rfl
  case resetAsserted => cases h; exact fun _ => cuesOk_powerOn rfl rfl
  case periodExpiry => cases h; exact .unlessHeld (.periodExpiry s)
  case periodCommit => cases h; exact .unlessHeld (.commitFlight s)
  case cueDwellExpiry => cases h; exact .unlessHeld (.ite (.completeCue s))
  case cueBlocked => cases h; exact .unlessHeld (.ite (.failHead _ s))
  case zoneLifetimeExpiry => cases h; exact .unlessHeld (.ite (.still rfl rfl))
  case backoffExpiry station =>
    cases h
    have counted : ListKept s { s with auth := { s.auth with backoff := s.auth.backoff.set station 0 } } :=
      .still rfl rfl
    exact .unlessHeld (.ite (counted.trans (.claimDecision _)))
  case stickHoldExpiry => cases h; exact .unlessHeld (.ite (.stickStep s))
  case watchdogExpiry => cases h; exact .unlessHeld (.ite (devices.silenceStep s))
  case trainingSilenceExpiry => cases h; exact .unlessHeld (.ite (devices.movePort _ _ s))
  case breakExpiry => cases h; exact .unlessHeld (.ite (devices.movePort _ _ s))
  case consecutiveMissLimit => cases h; exact .unlessHeld (.ite (devices.missCheck _ s))
  case refPulse => cases h; exact .unlessHeld (devices.withPeriod (by simp))
  case referenceLoss => cases h; exact .unlessHeld (.ite (devices.withPeriod (by simp)))
  case estopLineChange =>
    cases h
    split
    · exact .still rfl rfl
    · exact .takeEstop _ s
  case stationCharacter => cases h; exact .unlessHeld (ListKept.servedEdits.arriveChar _ s)
  case stationFrameTimeout => cases h; exact .unlessHeld (ListKept.servedEdits.timeOutStation s)
  case answerSent => cases h; exact .unlessHeld (ListKept.servedEdits.finishAnswer s)
  case unknownRequestFrame =>
    cases h
    refine .unlessHeld ?_
    split
    · exact .refl s
    · exact .still rfl rfl
  case driveAbilityFrame => cases h; exact .unlessHeld (devices.driveAbility _ _ s)
  case driveFeedbackFrame => cases h; exact .unlessHeld (devices.driveFeedback _ _ _ _ _ s)
  case driveWakeFrame => cases h; exact .unlessHeld (devices.driveWake _ s)
  case driveTestFrame => cases h; exact .unlessHeld (devices.driveTest _ _ s)
  case winchFrameBadCheck => cases h; exact .unlessHeld (devices.badCheck _ s)
  case winchFrameTimeout => cases h; exact .unlessHeld (devices.timeOutWinch _ s)
  case winchCharacter =>
    cases h
    refine .unlessHeld ?_
    split
    · exact .refl s
    · exact devices.receive _ _ s
  all_goals exact served h

theorem listKept_step (s t : State) (h : step s = .next t) : ListKept s t := by
  unfold step at h
  split at h
  · next c rest _ =>
    have front : ListKept s { s with pending := rest } := .still rfl rfl
    exact front.trans (listKept_exec c _ t h)
  · cases h
    exact .unlessHeld (.tick s)

/-- Settles O43: a step removes entries, or appends one that names a SET mark, or frees a mark that no entry names. -/
theorem cuesKept : Obligations.CuesKept := fun s t ok h => listKept_step s t h ok

end Sys2Proof.Machine
end

