-- ==== Sys2Proof/Proofs/MarkRequests.lean ====
section
/-! PROOFS. The requests of the Mark Store and of the Cue List, each with its checks in order and its effect: MARK_SET and
MARK_RETIRE, CUE_APPEND and SET_CUE_WINDOW, and CUE_HALT and CUE_FLUSH with no cue running (R91 to R93, R97, R103, R104,
R106, R107). -/

namespace Sys2Proof.Machine

/-! ## MARK_SET (R91, R92) -/

theorem markPlaceOk_iff (s : State) (pos : Vec3) (label : List Byte) :
    markPlaceOk s pos label = true
      ↔ inRange pos = true ∧ s.span.flightBox.has pos.um = true ∧ label.length ≤ 12 := by
  simp [markPlaceOk, and_assoc]

section

variable {s : State} {n st : Nat} {c : StationClass} {m : Mark} {pos : Vec3} {label : List Byte}

/-- A FREE mark becomes one of the sender, past the check of its place. -/
theorem markSet_of_free (inStore : n ≤ 31) (free : markAt s n = none) :
    markSet n pos label st c s =
      if !markPlaceOk s pos label then refuse .badParam s
      else accept { s with marks := s.marks.set n (some { pos := pos, label := label, owner := st }) } (byte 0) := by
  simp only [markSet, if_neg (not_lt.2 inStore), free]

theorem markSet_of_other (inStore : n ≤ 31) (set : markAt s n = some m) (other : c = .pilot ∧ m.owner ≠ st) :
    markSet n pos label st c s = refuse .notOwner s := by
  simp only [markSet, if_neg (not_lt.2 inStore), set, if_pos other]

/-- A SET mark keeps its owner, past the check of its place. -/
theorem markSet_of_own (inStore : n ≤ 31) (set : markAt s n = some m) (own : c = .pilot → m.owner = st) :
    markSet n pos label st c s =
      if !markPlaceOk s pos label then refuse .badParam s
      else accept { s with marks := s.marks.set n (some { pos := pos, label := label, owner := m.owner }) } (byte 1) := by
  have may : ¬(c = .pilot ∧ m.owner ≠ st) := fun h => h.2 (own h.1)
  simp only [markSet, if_neg (not_lt.2 inStore), set, if_neg may]

/-! ## MARK_RETIRE (R93) -/

theorem markRetire_of_free (inStore : n ≤ 31) (free : markAt s n = none) : markRetire n st c s = refuse .wrongState s := by
  simp only [markRetire, if_neg (not_lt.2 inStore), free]

theorem markRetire_of_other (inStore : n ≤ 31) (set : markAt s n = some m) (other : c = .pilot ∧ m.owner ≠ st) :
    markRetire n st c s = refuse .notOwner s := by
  simp only [markRetire, if_neg (not_lt.2 inStore), set, if_pos other]

theorem markRetire_of_own (inStore : n ≤ 31) (set : markAt s n = some m) (own : c = .pilot → m.owner = st) :
    markRetire n st c s =
      if entriesNaming s n ≠ 0 then refuse .inUse s else accept { s with marks := s.marks.set n none } [] := by
  have may : ¬(c = .pilot ∧ m.owner ≠ st) := fun h => h.2 (own h.1)
  simp only [markRetire, if_neg (not_lt.2 inStore), set, if_neg may]

/-! ## CUE_APPEND (R97) -/

variable {cruise dwell flags : Nat}

theorem cueAppend_of_other (other : s.auth.holder ≠ some st) :
    cueAppend n cruise dwell flags st s = refuse .notHolder s := if_pos (by simpa [holds] using other)

theorem cueAppend_of_bad (holder : s.auth.holder = some st) (bad : 31 < n ∨ (markAt s n).isNone ∨ 1 < flags) :
    cueAppend n cruise dwell flags st s = refuse .badParam s :=
  (if_neg (by simp [holds, holder])).trans (if_pos bad)

/-- CUE_APPEND past its checks but that of the room. -/
theorem cueAppend_of_good (holder : s.auth.holder = some st) (inStore : n ≤ 31) (set : (markAt s n).isSome = true)
    (flag : flags ≤ 1) :
    cueAppend n cruise dwell flags st s =
      if 16 ≤ s.cue.entries.length then refuse .noRoom s
      else
        accept { s with cue := { s.cue with entries := s.cue.entries
            ++ [{ mark := n, cruise := storedCruise s cruise, dwell := dwell, haltAfter := flags == 1 }] } }
          (byte s.cue.entries.length ++ byte (s.cue.entries.length + 1)
            ++ boolByte (decide (s.cue.entries.length + 1 < s.cue.window))) := by
  have good : ¬(31 < n ∨ (markAt s n).isNone = true ∨ 1 < flags) := by
    rintro (outside | free | wide)
    · omega
    · rw [Option.isNone_iff_eq_none.1 free] at set
      cases set
    · omega
  rw [cueAppend, if_neg (by simp [holds, holder]), if_neg good]
  simp [windowFlag]

/-! ## CUE_HALT and CUE_FLUSH with no cue running (R103, R104, R106) -/

theorem not_mayHalt (other : s.auth.holder ≠ some st) (cls : c ≠ .safety) : mayHalt c st s = false := by
  simpa using mt (mayHalt_iff c st s).1 (not_or.2 ⟨other, cls⟩)

theorem cueHalt_of_barred (other : s.auth.holder ≠ some st) (cls : c ≠ .safety) :
    cueHalt st c s = refuse .notHolder s := if_pos (by simp [not_mayHalt other cls])

theorem cueFlush_of_barred (other : s.auth.holder ≠ some st) (cls : c ≠ .safety) :
    cueFlush st c s = refuse .notHolder s := if_pos (by simp [not_mayHalt other cls])

theorem haltIfRunning_idle (idle : s.motion.mode ≠ .cue) : haltIfRunning s = s := if_neg idle

theorem cueHalt_idle (may : s.auth.holder = some st ∨ c = .safety) (idle : s.motion.mode ≠ .cue) :
    cueHalt st c s = accept s (byte 0) := by
  have running : (s.motion.mode == .cue) = false := beq_false_of_ne idle
  rw [cueHalt, if_neg (by simp [(mayHalt_iff c st s).2 may]), haltIfRunning_idle idle, running]
  rfl

/-- A flush removes every entry and the failure record, and wants entries where there were W of them or more. -/
theorem cueFlush_idle (may : s.auth.holder = some st ∨ c = .safety) (idle : s.motion.mode ≠ .cue) :
    cueFlush st c s =
      accept { s with
          cue := { s.cue with entries := [], failure := none }
          station := { s.station with
            events := if s.cue.window ≤ s.cue.entries.length ∧ 0 < s.cue.window then s.station.events ||| 0x10#14
              else s.station.events } }
        (byte s.cue.entries.length) := by
  have flag : BitVec.twoPow 14 Event.cueWant.bit = 0x10#14 := by decide
  simp [cueFlush, (mayHalt_iff c st s).2 may, haltIfRunning_idle idle, removeTo_eq, flag]

end

/-! ## The requests -/

/-- Settles O41: each request by its owner, check after check. -/
theorem markAndCueListRequests : Obligations.MarkAndCueListRequests := by
  refine ⟨⟨fun s st n pos label may => ?_, fun s st n may => ?_⟩, fun s st n cruise dwell flags may => ?_,
    fun s st w may => ?_, fun s st may => ⟨?_, ?_⟩, fun s st may => ⟨?_, ?_⟩⟩
  · have refused := fun why => request_refused (own := markSet n pos label st) (why := why) may
    have accepted := fun payload f => request_accepted (own := markSet n pos label st) (payload := payload) (f := f) may
    have placed := markPlaceOk_iff (takeFrame s) pos label
    refine ⟨fun outside => refused _ (if_pos outside), fun inStore free => ?_,
      fun m inStore set => ⟨fun pilot other => ?_, fun own => ?_⟩⟩
    · have owner := markSet_of_free (s := takeFrame s) (st := st) (c := classOf s st) (pos := pos) (label := label)
        inStore free
      exact ⟨fun bad => refused _ (owner.trans (if_pos (by simpa using mt placed.1 bad))),
        fun good => accepted _ _ (owner.trans (if_neg (by simp [placed.2 good])))⟩
    · exact refused _ (markSet_of_other (s := takeFrame s) inStore set ⟨pilot, other⟩)
    · have owner := markSet_of_own (s := takeFrame s) (pos := pos) (label := label) inStore set own
      exact ⟨fun bad => refused _ (owner.trans (if_pos (by simpa using mt placed.1 bad))),
        fun good => accepted _ _ (owner.trans (if_neg (by simp [placed.2 good])))⟩
  · have refused := fun why => request_refused (own := markRetire n st) (why := why) may
    have unnamed := entriesNaming_eq_zero (takeFrame s) n
    refine ⟨fun outside => refused _ (if_pos outside), fun inStore free => refused _ (markRetire_of_free inStore free),
      fun m inStore set => ⟨fun pilot other => refused _ (markRetire_of_other inStore set ⟨pilot, other⟩), fun own => ?_⟩⟩
    have owner := markRetire_of_own (s := takeFrame s) inStore set own
    exact ⟨fun ⟨e, he, same⟩ => refused _ (owner.trans (if_pos fun zero => unnamed.1 zero e he same)),
      fun apart => request_accepted may (owner.trans (if_neg (not_not.2 (unnamed.2 apart))))⟩
  · have refused := fun why => request_refused (own := fun _ t => cueAppend n cruise dwell flags st t) (why := why) may
    refine ⟨fun other => refused _ (cueAppend_of_other other), fun holder bad => refused _ (cueAppend_of_bad holder ?_),
      fun holder inStore set flag => ?_⟩
    · rwa [Option.isNone_iff_eq_none]
    · have owner := cueAppend_of_good (s := takeFrame s) (cruise := cruise) (dwell := dwell) holder inStore set flag
      exact ⟨fun full => refused _ (owner.trans (if_pos full)),
        fun room => request_accepted (own := fun _ t => cueAppend n cruise dwell flags st t) may
          (owner.trans (if_neg (not_le.2 room)))⟩
  · have clamped : max 1 (min 16 w) = clampNat w 1 16 := (clampNat_eq w 1 16 (by omega)).symm
    dsimp only
    rw [clamped]
    exact request_accepted (own := fun _ t => setCueWindow w t) may rfl
  · exact fun other cls => request_refused (own := cueHalt st) may (cueHalt_of_barred other cls)
  · exact fun halts idle => request_accepted (own := cueHalt st) may (cueHalt_idle halts idle)
  · exact fun other cls => request_refused (own := cueFlush st) may (cueFlush_of_barred other cls)
  · exact fun halts idle => request_accepted (own := cueFlush st) may (cueFlush_idle (s := takeFrame s) halts idle)

end Sys2Proof.Machine
end

