-- ==== Sys2Proof/Proofs/AuthorityLaw.lean ====
section
/-! PROOFS. The law of the authority record across the shared transitions, a period computation and its commit: the record alone
changes, by a few moves that each keep it, and the classes stand (R110, R111, R115 to R119, R122 to R126). -/

namespace Sys2Proof.Machine

/-! ## The record by itself -/

/-- The authority record is as R110, R111 and R122 say, for the stations that `may` steer. -/
structure RecordOk (may : Nat → Prop) (a : Authority) : Prop where
  vacant : a.holder = none → a.explicit = false ∧ a.cue = false
  based : ∀ h, a.holder = some h → a.explicit = true ∨ a.cue = true
  steers : ∀ h, a.holder = some h → may h
  apart : ∀ h, a.holder = some h → h ∉ a.pending
  few : a.pending.length ≤ 7
  rising : a.pending.Pairwise (· < ·)
  claims : ∀ st ∈ a.pending, may st
  stations : a.backoff.length = 8
  backoff : ∀ n ∈ a.backoff, n ≤ 2
  buffer : a.buffer.length ≤ 4
  overrun : a.overrun ≤ 255
  miss : a.miss ≤ 251
  start : 1 ≤ a.start ∧ a.start ≤ 3
  hold : 1 ≤ a.hold ∧ a.hold ≤ 250
  deadband : a.deadband ≤ 200

/-- The class of the station lets it steer (R111). -/
def MaySteer (s : State) (st : Nat) : Prop := steeringClass (classOf s st) = true

theorem authorityOk_iff (s : State) : AuthorityOk s ↔ s.station.classes.length = 7 ∧ RecordOk (MaySteer s) s.auth := by
  constructor
  · rintro ⟨classes, vacant, holds, few, rising, claims, stations, backoff, buffer, overrun, miss, start0, start1, hold0, hold1,
      deadband⟩
    exact ⟨classes, vacant, fun h hh => (holds h hh).1, fun h hh => (holds h hh).2.1, fun h hh => (holds h hh).2.2, few, rising,
      claims, stations, backoff, buffer, overrun, miss, ⟨start0, start1⟩, ⟨hold0, hold1⟩, deadband⟩
  · rintro ⟨classes, ok⟩
    exact ⟨classes, ok.vacant, fun h hh => ⟨ok.based h hh, ok.steers h hh, ok.apart h hh⟩, ok.few, ok.rising, ok.claims,
      ok.stations, ok.backoff, ok.buffer, ok.overrun, ok.miss, ok.start.1, ok.start.2, ok.hold.1, ok.hold.2, ok.deadband⟩

/-- The record as the clearing of its CUE basis leaves it (R117). -/
def basisCleared (a : Authority) : Authority :=
  if a.holder.isNone then a else if a.explicit then { a with cue := false } else a.vacate

theorem backoff_set {bs : List Nat} (ok : ∀ n ∈ bs, n ≤ 2) (st : Nat) {k : Nat} (hk : k ≤ 2) : ∀ n ∈ bs.set st k, n ≤ 2 :=
  fun n hn => (List.mem_or_eq_of_mem_set hn).elim (ok n) fun e => e ▸ hk

namespace RecordOk

variable {may : Nat → Prop} {a : Authority}

theorem flush (ok : RecordOk may a) : RecordOk may (flush a) :=
  { ok with buffer := Nat.zero_le _, miss := Nat.zero_le _ }

/-- The holder goes with both flags, and its backoff is 2 (R117). -/
theorem vacate (ok : RecordOk may a) : RecordOk may a.vacate := by
  have free : RecordOk may { a with holder := none, explicit := false, cue := false } :=
    { ok with vacant := fun _ => ⟨rfl, rfl⟩, based := nofun, steers := nofun, apart := nofun }
  refine RecordOk.flush { free with stations := ?_, backoff := ?_ }
  · dsimp only; split
    · exact (List.length_set ..).trans ok.stations
    · exact ok.stations
  · dsimp only; split
    · exact backoff_set ok.backoff _ (by omega)
    · exact ok.backoff

theorem basisCleared (ok : RecordOk may a) : RecordOk may (basisCleared a) := by
  unfold Machine.basisCleared
  split
  · exact ok
  · next held =>
    split
    · next explicit =>
      exact { ok with vacant := fun free => absurd (Option.isNone_iff_eq_none.2 free) held, based := fun _ _ => .inl explicit }
    · exact ok.vacate

/-- One basis flag is set, or one is cleared while the other stands. -/
theorem basis (ok : RecordOk may a) {h : Nat} (holder : a.holder = some h) {e c : Bool} (one : e = true ∨ c = true) :
    RecordOk may { a with explicit := e, cue := c } :=
  { ok with vacant := fun free => (nomatch holder.symm.trans free), based := fun _ _ => one }

theorem left (ok : RecordOk may a) (p : Nat → Bool) : RecordOk may { a with pending := a.pending.filter p } :=
  { ok with
    apart := fun h hh hp => ok.apart h hh (List.mem_filter.1 hp).1
    few := (List.length_filter_le ..).trans ok.few
    rising := ok.rising.filter p
    claims := fun st hst => ok.claims st (List.mem_filter.1 hst).1 }

/-- A station becomes holder and leaves the pending set (R111). -/
theorem become (ok : RecordOk may a) {st : Nat} (steers : may st) : RecordOk may (a.become st) :=
  { ok.left (· != st) with
    vacant := nofun
    based := fun _ _ => .inl rfl
    steers := fun h hh => Option.some.inj hh ▸ steers
    apart := fun h hh hp => by
      have := (List.mem_filter.1 hp).2
      simp [← Option.some.inj hh] at this
    stations := (List.length_set ..).trans ok.stations
    backoff := backoff_set ok.backoff _ (by omega) }

theorem counted (ok : RecordOk may a) : RecordOk may { a with backoff := a.backoff.map (· - 1) } :=
  { ok with
    stations := (List.length_map ..).trans ok.stations
    backoff := fun n hn => by
      obtain ⟨m, hm, rfl⟩ := List.mem_map.1 hn
      have := ok.backoff m hm
      omega }

theorem backoffRun (ok : RecordOk may a) (st : Nat) : RecordOk may { a with backoff := a.backoff.set st 0 } :=
  { ok with
    stations := (List.length_set ..).trans ok.stations
    backoff := backoff_set ok.backoff _ (by omega) }

theorem consumeStep (ok : RecordOk may a) (lim : Limits) (q : Sample) : RecordOk may (consumeStep lim q a) :=
  { ok with
    buffer := (List.length_tail ▸ Nat.sub_le _ _ : a.buffer.tail.length ≤ _).trans ok.buffer
    miss := Nat.zero_le _ }

/-- The miss count stops at the stick hold plus one, which is at most 251 (R125). -/
theorem missStep (ok : RecordOk may a) : RecordOk may (missStep a) :=
  { ok with
    miss := by
      have := ok.miss
      have := ok.hold
      show nextMiss a ≤ 251
      unfold nextMiss
      split <;> omega }

/-- A sample joins, and a full buffer drops its oldest first (R123). -/
theorem buffered (ok : RecordOk may a) (q : Sample) : RecordOk may (buffered q a) := by
  have most := ok.buffer
  unfold Machine.buffered
  split
  · exact { ok with buffer := by simp; omega }
  · exact { ok with buffer := by simp; omega, overrun := saturate_le _ _ ok.overrun }

end RecordOk

/-- The pending set with one more station in it (R113). -/
theorem mem_joinPending {st n : Nat} {ps : List Nat} (h : n ∈ joinPending st ps) : n = st ∨ n ∈ ps := by
  simp only [joinPending, List.mem_append, List.mem_cons, List.mem_filter] at h
  tauto

theorem joinPending_rising {st : Nat} {ps : List Nat} (rising : ps.Pairwise (· < ·)) :
    (joinPending st ps).Pairwise (· < ·) := by
  refine List.pairwise_append.2 ⟨rising.filter _, List.pairwise_cons.2 ⟨fun n hn => ?_, rising.filter _⟩, fun m hm n hn => ?_⟩
  · simpa using (List.mem_filter.1 hn).2
  · have below : m < st := by simpa using (List.mem_filter.1 hm).2
    rcases List.mem_cons.1 hn with rfl | hn
    · exact below
    · exact below.trans (by simpa using (List.mem_filter.1 hn).2)

/-- No station stands on both sides of the one that joins. -/
theorem joinPending_length_le (st : Nat) (ps : List Nat) : (joinPending st ps).length ≤ ps.length + 1 := by
  have sides : (ps.filter (· < st)).length + (ps.filter (st < ·)).length ≤ ps.length := by
    induction ps with
    | nil => simp
    | cons n ps ih =>
      simp only [List.filter_cons, decide_eq_true_eq]
      split <;> split <;> simp only [List.length_cons] <;> omega
  simp only [joinPending, List.length_append, List.length_cons]
  omega

theorem RecordOk.join {may : Nat → Prop} {a : Authority} (ok : RecordOk may a) {st : Nat} (other : a.holder ≠ some st)
    (room : a.pending.length < 7) (steers : may st) : RecordOk may { a with pending := joinPending st a.pending } :=
  { ok with
    apart := fun h hh hp => (mem_joinPending hp).elim (fun e => other (e ▸ hh)) (ok.apart h hh)
    few := (joinPending_length_le st a.pending).trans room
    rising := joinPending_rising ok.rising
    claims := fun n hn => (mem_joinPending hn).elim (fun e => e ▸ steers) (ok.claims n) }

/-! ## The shared transitions -/

/-- The move keeps the law of the authority record. -/
def AuthKept (s t : State) : Prop := AuthorityOk s → AuthorityOk t

theorem classOf_congr {s t : State} (classes : t.station.classes = s.station.classes) (st : Nat) : classOf t st = classOf s st := by
  rw [classOf, classOf, classes]

theorem ControlFrame.classes {s t : State} (h : ControlFrame s t) : t.station.classes = s.station.classes := by
  rw [h.station]

namespace AuthKept

theorem refl (s : State) : AuthKept s s := id

theorem trans {s t u : State} (h : AuthKept s t) (k : AuthKept t u) : AuthKept s u := fun ok => k (h ok)

theorem ite {c : Prop} [Decidable c] {s t : State} (h : AuthKept s t) : AuthKept s (if c then t else s) := by
  split
  · exact h
  · exact refl s

/-- The classes stand, and the record makes a move that keeps it. -/
theorem record {s t : State} (classes : t.station.classes = s.station.classes)
    (moves : ∀ {may}, RecordOk may s.auth → RecordOk may t.auth) : AuthKept s t := by
  intro ok
  obtain ⟨length, rec⟩ := (authorityOk_iff s).1 ok
  have same : MaySteer t = MaySteer s := funext fun st => by rw [MaySteer, MaySteer, classOf_congr classes]
  exact (authorityOk_iff t).2 ⟨by rw [classes]; exact length, same ▸ moves rec⟩

/-- A move that leaves the record and the classes. -/
theorem still {s t : State} (classes : t.station.classes = s.station.classes) (auth : t.auth = s.auth) : AuthKept s t :=
  record classes fun ok => auth ▸ ok

theorem raiseEvent (e : Event) (s : State) : AuthKept s (raiseEvent e s) := still rfl rfl

theorem raiseIf (b : Bool) (e : Event) (s : State) : AuthKept s (raiseIf b e s) := by
  rw [raiseIf_eq]
  exact still rfl rfl

end AuthKept

/-! ### Authority (R115 to R119) -/

theorem endAuthority_auth (s : State) : (endAuthority s).auth = s.auth.vacate := by
  unfold endAuthority
  dsimp only
  split <;> rfl

theorem clearCueBasis_auth_eq (s : State) : (clearCueBasis s).auth = basisCleared s.auth := by
  unfold clearCueBasis basisCleared
  split
  · rfl
  · split
    · rfl
    · rw [endAuthority_auth]
      rfl

theorem endCue_auth (s : State) : (endCue s).auth = basisCleared s.auth := clearCueBasis_auth_eq (dropCopy s)

theorem failHead_auth (why : FailReason) (s : State) : (failHead why s).auth = basisCleared s.auth := by
  rw [failHead_eq, endCue_auth, (listWritten_failRecorded why s).auth]

theorem loseAuthority_auth (s : State) : (loseAuthority s).auth = s.auth.vacate := by
  unfold loseAuthority
  dsimp only
  split <;> split <;> rfl

namespace AuthKept

theorem flushStick (s : State) : AuthKept s (flushStick s) := record rfl RecordOk.flush

theorem dropCopy (s : State) : AuthKept s (dropCopy s) := still rfl rfl

theorem endAuthority (s : State) : AuthKept s (endAuthority s) :=
  record (frame_endAuthority s).classes fun ok => endAuthority_auth s ▸ ok.vacate

theorem clearCueBasis (s : State) : AuthKept s (clearCueBasis s) :=
  record (frame_clearCueBasis s).classes fun ok => clearCueBasis_auth_eq s ▸ ok.basisCleared

theorem haltCue (s : State) : AuthKept s (haltCue s) := (dropCopy s).trans (clearCueBasis _)

theorem loseAuthority (s : State) : AuthKept s (loseAuthority s) :=
  record (frame_loseAuthority s).classes fun ok => loseAuthority_auth s ▸ ok.vacate

/-- The station chosen is a pending one (R115). -/
theorem claimDecision (s : State) : AuthKept s (claimDecision s) := by
  unfold Machine.claimDecision
  split
  · next st _ chosen =>
    have joins : AuthKept s { s with auth := s.auth.become st } :=
      record rfl fun ok => ok.become (ok.claims st (List.mem_of_find?_eq_some chosen))
    exact joins.trans (raiseEvent _ _)
  · exact refl s

theorem stickStep (s : State) : AuthKept s (stickStep s) := by
  unfold Machine.stickStep
  split
  · split
    · exact record rfl fun ok => ok.consumeStep _ _
    · exact (record rfl RecordOk.missStep : AuthKept s { s with auth := missStep s.auth }).trans (raiseIf _ _ _)
  · exact refl s

theorem arbiterExpiry (s : State) : AuthKept s (arbiterExpiry s) :=
  have counted : AuthKept s (countBackoffs s) := record rfl RecordOk.counted
  (counted.trans (claimDecision _)).trans (stickStep _)

/-! ### Cues (R57 to R62, R98 to R104) -/

theorem endCue (s : State) : AuthKept s (endCue s) := (haltCue s).trans (still rfl rfl)

theorem haltIfRunning (s : State) : AuthKept s (haltIfRunning s) := ite (endCue s)

theorem failHead (why : FailReason) (s : State) : AuthKept s (failHead why s) :=
  record (frame_failHead why s).classes fun ok => failHead_auth why s ▸ ok.basisCleared

theorem startHead (s : State) : AuthKept s (startHead s) := by
  unfold Machine.startHead
  split
  · exact refl s
  · split
    · exact failHead _ s
    · exact still rfl rfl

theorem completeCue (s : State) : AuthKept s (completeCue s) := by
  unfold Machine.completeCue
  split
  · exact endCue s
  · next e rest _ =>
    have removed := listWritten_doneRecorded rest s
    have done : AuthKept s (Machine.dropCopy (doneRecorded rest s)) := still removed.frame.classes removed.auth
    dsimp only
    split
    · exact done.trans ((clearCueBasis _).trans (still rfl rfl))
    · exact done.trans (startHead _)

theorem cueChecks (s : State) : AuthKept s (cueChecks s) := by
  have copied : ∀ c, AuthKept s { s with motion := { s.motion with copy := c } } := fun _ => still rfl rfl
  unfold Machine.cueChecks
  split
  · exact refl s
  · split
    · unfold dwellStep
      split
      · exact completeCue s
      · exact copied _
    · split
      · unfold arrive
        split
        · exact completeCue s
        · exact copied _
      · unfold progressTest
        dsimp only
        generalize (if (Vec3.minus _ (heldP s)).norm < _ then 0 else _ + 1) = n
        split
        · exact (copied _).trans (failHead _ _)
        · exact copied _

/-- The head entry is started for the holder, whose CUE basis is set (R98). -/
theorem goHead {s : State} {h : Nat} (holder : s.auth.holder = some h) : AuthKept s (goHead s) := by
  have left : AuthKept s (if s.motion.mode = .stick then Machine.flushStick (setMode .hold s) else s) :=
    ite (record rfl RecordOk.flush)
  have holderL : (if s.motion.mode = .stick then Machine.flushStick (setMode .hold s) else s).auth.holder = some h := by
    split <;> exact holder
  unfold Machine.goHead
  dsimp only
  generalize (if s.motion.mode = .stick then Machine.flushStick (setMode .hold s) else s) = u at left holderL ⊢
  have based : AuthKept u (setCueBasis u) := record rfl fun ok => ok.basis holderL (.inr rfl)
  exact (left.trans based).trans (startHead _)

theorem selected (toStick : Bool) (st : Nat) (s : State) : AuthKept s (selected toStick st s) := by
  unfold Machine.selected
  split
  · exact ite (still rfl rfl)
  · split
    · exact refl s
    · exact (flushStick s).trans (still rfl rfl)
  · dsimp only
    split <;> exact (haltCue s).trans (still rfl rfl)
  all_goals exact refl s

/-! ### Stops (R63 to R66, R166) -/

theorem leaveSteered (kind : StopKind) (s : State) : AuthKept s (leaveSteered kind s) := by
  have stopped : AuthKept s (if kind = .brake
      then freeze { s with motion := { s.motion with exit := none, trapped := false } }
      else setMode .stopping { s with motion := { s.motion with exit := none, trapped := false } }) := by
    split <;> exact still rfl rfl
  unfold Machine.leaveSteered
  dsimp only
  refine trans ?_ (flushStick _)
  split
  · exact stopped.trans (haltCue _)
  · exact stopped

theorem reportKind (kind : StopKind) (s : State) : AuthKept s (reportKind kind s) := by
  rcases reportKind_cases kind s with ⟨-, e⟩ | ⟨-, -, e⟩ | ⟨-, -, e⟩ | ⟨-, e⟩ <;> rw [e]
  · exact leaveSteered kind s
  · exact still rfl rfl
  · exact refl s
  · exact refl s

theorem raiseCause (c : Cause) (port : Option Nat) (asked : StopKind) (s : State) :
    AuthKept s (raiseCause c port asked s) := by
  have joined : ∀ u, AuthKept s { s with stop := u } := fun _ => still rfl rfl
  unfold Machine.raiseCause
  dsimp only
  refine trans ?_ (raiseIf _ _ _)
  split
  · exact joined _
  · exact (joined _).trans (reportKind _ _)

theorem takeEstop (lineOpen : Bool) (s : State) : AuthKept s (takeEstop lineOpen s) := by
  have line : AuthKept s { s with estopLineOpen := lineOpen, stop := { s.stop with estopOpen := lineOpen } } :=
    still rfl rfl
  unfold Machine.takeEstop
  dsimp only
  split
  · exact line.trans (raiseCause _ _ _ _)
  · exact line

/-- Each of the small edits of a port or of the clock keeps the law. -/
theorem partEdits : PartEdits AuthKept where
  refl := refl
  trans := trans
  raise := fun e s _ => raiseEvent e s
  cause := fun c port s => raiseCause c port .none s
  port := fun _ _ _ => still rfl rfl
  period := fun _ _ => still rfl rfl
  silence := fun _ _ => still rfl rfl

/-! ### A period computation and its commit (R37, R42, R51, R52) -/

theorem of_opening {s t : State} (auth : t.auth = s.auth) (h : Opening s t) : AuthKept s t := by
  refine still ?_ auth
  rw [h.others]

theorem beginEviction (s : State) : AuthKept s (beginEviction s) := by
  have evict : AuthKept s (setMode .evict s) := still rfl rfl
  unfold Machine.beginEviction
  dsimp only
  split
  · exact evict.trans (haltCue _)
  · split
    · exact evict.trans (flushStick _)
    · exact evict

theorem settle (s : State) : AuthKept s (settle s) := by
  rcases settle_cases s with e | ⟨-, -, e⟩ | ⟨-, -, -, e⟩ | ⟨-, -, e⟩ <;> rw [e]
  · exact refl s
  · exact beginEviction s
  · exact failHead _ s
  · exact still rfl rfl

theorem beginComputation (s : State) : AuthKept s (beginComputation s) := by
  rcases Mode.moving_or_rest s.motion.mode with moving | rest
  · have readied : AuthKept s (readied s) :=
      (settle s).trans (still ((BeginFrame.readied s).frame.classes.trans (BeginFrame.settle s).frame.classes.symm)
        (readied_settled s).2.1)
    rw [beginComputation_moving moving]
    exact readied.trans (still rfl rfl)
  · rw [beginComputation_rest rest]
    exact still rfl rfl

/-- After the table's work the checks of a running cue are all that a commit does to the record. -/
theorem commit (c : Computation) (s : State) : AuthKept s (commit c s) := by
  have table : AuthKept s (committedTable c s) := by
    rw [committedTable, tableCommit_eq]
    exact still rfl rfl
  have checks : AuthKept (committedTable c s) (checked c s) := ite (cueChecks _)
  obtain ⟨m, e, -⟩ := commit_eq_with c s
  rw [e]
  exact (table.trans checks).trans (still rfl rfl)

theorem commitFlight (s : State) : AuthKept s (commitFlight s) := by
  unfold Machine.commitFlight
  split
  · exact commit _ s
  · exact refl s

/-- The work of an expiry: the Arbiter's own, and the running cue or the stick that ends as a computation begins. -/
theorem expiryWork (s : State) : AuthKept s (expiryWork s) :=
  have table : AuthKept s (promoteAtRest (countLifetimes s)) :=
    of_opening (promoteAtRest_countLifetimes s).2.1 ((opening_countLifetimes s).trans (opening_promoteAtRest _))
  (((table.trans (arbiterExpiry _)).trans (beginComputation _)).trans (partEdits.portsExpiry _)).trans
    (partEdits.silenceStep _)

end AuthKept

end Sys2Proof.Machine
end

