-- ==== Sys2Proof/Proofs/AuthorityRequests.lean ====
section
/-! PROOFS. Every request keeps the law of the authority record: its owner checks, and then writes elsewhere, moves the mode by a
shared transition, or is the Arbiter or the class table itself (R111 to R130, R200). -/

namespace Sys2Proof.Machine

namespace AuthKept

/-- A check of an owner: what is refused leaves the state. -/
theorem check {c : Prop} [Decidable c] {why : Status} {s : State} {p : State × Reply} (h : ¬c → AuthKept s p.1) :
    AuthKept s (if c then refuse why s else p).1 := by
  split
  · exact refl s
  · next pass => exact h pass

theorem branch {c : Prop} [Decidable c] {s : State} {p q : State × Reply} (h : AuthKept s p.1) (k : AuthKept s q.1) :
    AuthKept s (if c then p else q).1 := by
  split
  · exact h
  · exact k

theorem inSafe {s : State} {ok : Bool} {own : State → State × Reply} (h : AuthKept s (own s).1) :
    AuthKept s (inSafe s ok own).1 := by
  rcases inSafe_cases s ok own with e | ⟨-, -, e⟩ <;> rw [e]
  · exact refl s
  · exact h

theorem onZone {c : StationClass} {st handle : Nat} {s : State} {own : Zone → State × Reply}
    (h : ∀ z, AuthKept s (own z).1) : AuthKept s (onZone c st handle s own).1 := by
  rcases onZone_cases c st handle s own with ⟨-, e⟩ | ⟨sl, z, -, ⟨-, -, e⟩ | ⟨-, -, -, e⟩ | ⟨-, e⟩⟩ <;> rw [e]
  · exact refl s
  · exact refl s
  · exact refl s
  · exact h z

end AuthKept

/-! ## The requests of the holder and of those who would be it (R113 to R130) -/

theorem holder_of_holds {s : State} {st : Nat} (h : ¬(!holds s st) = true) : s.auth.holder = some st :=
  (holds_iff s st).1 (by simpa using h)

theorem authKept_claim {st : Nat} {s : State} (steers : MaySteer s st) : AuthKept s (claim st s).1 := by
  unfold claim
  split
  · next own => exact .record rfl fun ok => ok.basis ((holds_iff s st).1 own) (.inl rfl)
  · next other =>
    refine .branch (.refl s) (.check fun room ok => ?_)
    obtain ⟨length, rec⟩ := (authorityOk_iff s).1 ok
    exact (authorityOk_iff _).2 ⟨length, rec.join (mt (holds_iff s st).2 other) (not_le.1 room) steers⟩

theorem authKept_release (st : Nat) (s : State) : AuthKept s (release st s).1 := by
  refine .check fun own => ?_
  have holder := holder_of_holds own
  dsimp only
  split
  · next cue => exact .record rfl fun ok => ok.basis holder (.inr cue)
  · refine .record (frame_endAuthority _).classes fun ok => ?_
    dsimp only [accept]
    rw [endAuthority_auth]
    exact ok.vacate

theorem authKept_preempted {st : Nat} {s : State} (steers : MaySteer s st) : AuthKept s (preempted st s) := by
  unfold preempted
  split
  · next own => exact .record rfl fun ok => ok.basis ((holds_iff s st).1 own) (.inl rfl)
  · have lost : AuthKept s (if s.auth.holder.isSome then loseAuthority s else s) := .ite (.loseAuthority s)
    have classes : (if s.auth.holder.isSome then loseAuthority s else s).station.classes = s.station.classes := by
      split
      · exact (frame_loseAuthority s).classes
      · rfl
    dsimp only
    generalize (if s.auth.holder.isSome then loseAuthority s else s) = u at lost classes ⊢
    refine (lost.trans fun ok => ?_).trans (.raiseEvent _ _)
    obtain ⟨length, rec⟩ := (authorityOk_iff u).1 ok
    refine (authorityOk_iff _).2 ⟨length, rec.become ?_⟩
    rw [MaySteer, classOf_congr classes]
    exact steers

theorem authKept_selectMode (mode st : Nat) (s : State) : AuthKept s (selectMode mode st s).1 := by
  unfold selectMode
  refine .check fun _ => .check fun _ => ?_
  split
  · exact .refl s
  · exact .selected _ st s

theorem authKept_stick (d : Vec3) (scale flags st : Nat) (s : State) : AuthKept s (stick d scale flags st s).1 :=
  .check fun _ => .check fun _ => .check fun _ => .record rfl fun ok => ok.buffered _

theorem authKept_setStick (start hold deadband st : Nat) (c : StationClass) (s : State) :
    AuthKept s (setStick start hold deadband st c s).1 := by
  refine .check fun _ => .record rfl fun ok => { ok with start := ?_, hold := ?_, deadband := ?_ }
  · dsimp only [accept]; rw [clampNat_eq _ _ _ (by omega)]; omega
  · dsimp only [accept]; rw [clampNat_eq _ _ _ (by omega)]; omega
  · dsimp only [accept]; rw [clampNat_zero]; omega

theorem authKept_readAuthority (clear st : Nat) (c : StationClass) (s : State) :
    AuthKept s (readAuthority clear st c s).1 := by
  unfold readAuthority
  split
  · exact .refl s
  · exact .ite (.record rfl fun ok => { ok with overrun := Nat.zero_le _ })

/-! ## The class table (R119, R200) -/

theorem classOf_set {s t : State} {n : Nat} {k : StationClass} (classes : t.station.classes = s.station.classes.set (n - 1) k)
    (known : 1 ≤ n) (m : Nat) (other : m ≠ n) : classOf t m = classOf s m := by
  unfold classOf
  split
  · rfl
  · rw [classes, List.getD_eq_getElem?_getD, List.getD_eq_getElem?_getD, List.getElem?_set_ne (by omega)]

theorem classOf_set_self {s t : State} {n : Nat} {k : StationClass} (classes : t.station.classes = s.station.classes.set (n - 1) k)
    (known : 1 ≤ n) (stored : n ≤ s.station.classes.length) : classOf t n = k := by
  rw [classOf, if_neg (by omega), classes, List.getD_eq_getElem?_getD, List.getElem?_set_self (by omega)]
  rfl

theorem RecordOk.mono {may may' : Nat → Prop} {a : Authority} (ok : RecordOk may a)
    (h : ∀ n, a.holder = some n ∨ n ∈ a.pending → may n → may' n) : RecordOk may' a :=
  { ok with
    steers := fun n hn => h n (.inl hn) (ok.steers n hn)
    claims := fun n hn => h n (.inr hn) (ok.claims n hn) }

/-- A station is given a class with which it may steer, or it is neither holder nor pending afterwards. -/
theorem AuthKept.reclassed {s t : State} {n : Nat} {k : StationClass} (known : 1 ≤ n) (last : n ≤ 7)
    (classes : t.station.classes = s.station.classes.set (n - 1) k)
    (moves : ∀ {may}, RecordOk may s.auth → RecordOk may t.auth ∧
      (steeringClass k = true ∨ t.auth.holder ≠ some n ∧ n ∉ t.auth.pending)) : AuthKept s t := by
  intro ok
  obtain ⟨length, rec⟩ := (authorityOk_iff s).1 ok
  obtain ⟨kept, clear⟩ := moves rec
  refine (authorityOk_iff t).2 ⟨by rw [classes, List.length_set]; exact length, kept.mono fun m place steers => ?_⟩
  rcases eq_or_ne m n with rfl | other
  · rcases clear with given | ⟨notHolder, notPending⟩
    · rw [MaySteer, classOf_set_self classes known (by omega)]
      exact given
    · exact (place.elim notHolder notPending).elim
  · rw [MaySteer, classOf_set classes known m other]
    exact steers

theorem authKept_setStationClass (station cls : Nat) (s : State) : AuthKept s (setStationClass station cls s).1 := by
  unfold setStationClass
  split
  · exact .refl s
  · next k _ =>
    refine .check fun stored => ?_
    dsimp only [accept]
    split
    · unfold classLoss
      split
      · next own =>
        have holder := (holds_iff _ station).1 own
        refine (AuthKept.reclassed (k := k) (by omega) (by omega) (frame_loseAuthority _).classes fun ok => ?_).trans
          (.raiseEvent _ _)
        rw [loseAuthority_auth]
        exact ⟨ok.vacate, .inr ⟨nofun, ok.apart station holder⟩⟩
      · next other =>
        refine .reclassed (by omega) (by omega) rfl fun ok => ⟨ok.left _, .inr ⟨mt (holds_iff _ station).2 other, ?_⟩⟩
        simp
    · next steering =>
      refine .reclassed (k := k) (by omega) (by omega) rfl fun ok => ⟨ok, .inl ?_⟩
      cases k <;> simp [steeringClass] at steering ⊢

/-! ## The cue list, the Motion Generator, the Stop Unit and RESTART -/

theorem authKept_cueGo (st : Nat) (s : State) : AuthKept s (cueGo st s).1 :=
  .check fun own => .check fun _ => .check fun _ => (.goHead (holder_of_holds own) : AuthKept s (accept (goHead s) _).1)

theorem authKept_cueFlush (st : Nat) (c : StationClass) (s : State) : AuthKept s (cueFlush st c s).1 := by
  refine .check fun _ => (AuthKept.haltIfRunning s).trans (.still ?_ ?_)
  · exact (frame_removeTo [] _).classes
  · exact (listWritten_removeTo [] _).auth

theorem authKept_stop (kind st : Nat) (c : StationClass) (s : State) : AuthKept s (stop kind st c s).1 := by
  unfold stop
  refine .check fun _ => ?_
  split
  · exact .refl s
  · exact .raiseCause _ _ _ s

theorem authKept_clearStop (s : State) : AuthKept s (clearStop s).1 := by
  have moved : ∀ t : State, AuthKept t (clearMotion t) := by
    intro t
    unfold clearMotion
    split <;> exact .still rfl rfl
  unfold clearStop
  refine .check fun _ => .branch (.refl s) ?_
  split
  · exact .refl s
  · have emptied : AuthKept s { s with stop := stopEmpty s.stop.estopOpen } := .still rfl rfl
    exact emptied.trans (moved _)

/-- No holder, no claim and an empty stick, with stick settings in range (R110). -/
theorem recordOk_fresh (may : Nat → Prop) {start hold deadband : Nat} (h : 1 ≤ start ∧ start ≤ 3) (k : 1 ≤ hold ∧ hold ≤ 250)
    (b : deadband ≤ 200) (swap mirrorX mirrorY : Bool) :
    RecordOk may { authorityPowerOn with
      start := start, hold := hold, deadband := deadband, swap := swap, mirrorX := mirrorX, mirrorY := mirrorY } where
  vacant := fun _ => ⟨rfl, rfl⟩
  based := nofun
  steers := nofun
  apart := nofun
  few := Nat.zero_le _
  rising := .nil
  claims := nofun
  stations := rfl
  backoff := by simp [authorityPowerOn]
  buffer := Nat.zero_le _
  overrun := Nat.zero_le _
  miss := Nat.zero_le _
  start := h
  hold := k
  deadband := b

theorem authKept_restart (s : State) : AuthKept s (restart s).1 :=
  .branch (.record rfl fun ok => recordOk_fresh _ ok.start ok.hold ok.deadband _ _ _) (.refl s)

/-! ## The requests of the other blocks -/

theorem authKept_setAttentionMask (mask : Nat) (s : State) : AuthKept s (setAttentionMask mask s).1 :=
  .check fun _ => .still rfl rfl

theorem authKept_createZone (kind : Nat) (box : Box) (initial policy standing cap lifetime : Nat) (label : List Byte)
    (st : Nat) (c : StationClass) (s : State) :
    AuthKept s (createZone kind box initial policy standing cap lifetime label st c s).1 := by
  unfold createZone
  refine .check fun _ => ?_
  split
  · refine .check fun _ => ?_
    split
    · exact .refl s
    · exact .still rfl rfl
  · exact .refl s

theorem authKept_amendZone (handle changes : Nat) (box : Box) (cap lifetime : Nat) (label : List Byte) (st : Nat)
    (c : StationClass) (s : State) : AuthKept s (amendZone handle changes box cap lifetime label st c s).1 :=
  .onZone fun _ => .check fun _ => .still rfl rfl

theorem authKept_suspendZone (handle st : Nat) (c : StationClass) (s : State) :
    AuthKept s (suspendZone handle st c s).1 :=
  .onZone fun _ => .check fun _ => .still rfl rfl

theorem authKept_resumeZone (handle policy st : Nat) (c : StationClass) (s : State) :
    AuthKept s (resumeZone handle policy st c s).1 := by
  refine .onZone fun z => ?_
  split
  · exact .refl s
  · exact .check fun _ => .still rfl rfl

theorem authKept_retireZone (handle st : Nat) (c : StationClass) (s : State) : AuthKept s (retireZone handle st c s).1 :=
  .onZone fun _ => .still rfl rfl

theorem authKept_lookupZone (handle : Nat) (s : State) : AuthKept s (lookupZone handle s).1 := by
  unfold lookupZone
  split <;> exact .refl s

theorem authKept_enable (p0 : Vec3) (s : State) : AuthKept s (enable p0 s).1 := by
  unfold enable
  exact .check fun _ => .check fun _ => .check fun _ => .check fun _ => .check fun _ => .check fun _ =>
    .branch (.refl s) (.still rfl rfl)

theorem authKept_corrWindow (w0 w1 j0 j1 order : Nat) (s : State) : AuthKept s (corrWindow w0 w1 j0 j1 order s).1 := by
  unfold corrWindow
  split
  · exact .refl s
  · exact .check fun _ => .still rfl rfl

theorem authKept_setStandard (standard : Nat) (s : State) : AuthKept s (setStandard standard s).1 := by
  unfold setStandard
  split
  · exact .refl s
  · refine .inSafe ?_
    simp only [accept, convertAll, raiseIf_eq]
    exact .still rfl rfl

theorem authKept_markSet (n : Nat) (pos : Vec3) (label : List Byte) (st : Nat) (c : StationClass) (s : State) :
    AuthKept s (markSet n pos label st c s).1 := by
  refine .check fun _ => ?_
  split
  · exact .check fun _ => .still rfl rfl
  · exact .check fun _ => .check fun _ => .still rfl rfl

theorem authKept_markRetire (n st : Nat) (c : StationClass) (s : State) : AuthKept s (markRetire n st c s).1 := by
  refine .check fun _ => ?_
  split
  · exact .refl s
  · exact .check fun _ => .check fun _ => .still rfl rfl

theorem authKept_cueAppend (n cruise dwell flags st : Nat) (s : State) :
    AuthKept s (cueAppend n cruise dwell flags st s).1 :=
  .check fun _ => .check fun _ => .check fun _ => .still rfl rfl

theorem authKept_controlPort (i : Nat) (s : State) (act : Port → Option Port) : AuthKept s (controlPort i s act).1 := by
  unfold controlPort
  refine .check fun _ => .check fun _ => ?_
  split
  · exact .refl s
  · exact AuthKept.partEdits.movePort _ _ s

theorem authKept_portRead (i clear : Nat) (c : StationClass) (s : State) : AuthKept s (portRead i clear c s).1 := by
  unfold portRead
  split
  · exact .refl s
  · split
    · exact .refl s
    · exact .ite (.still rfl rfl)

theorem authKept_setAbility (i classes : Nat) (s : State) : AuthKept s (setAbility i classes s).1 := by
  unfold setAbility
  split
  · exact .refl s
  · split
    · exact .refl s
    · dsimp only [accept]
      split
      · exact AuthKept.partEdits.reclass _ _ _ s
      · exact .still rfl rfl

theorem authKept_portTestStop (i : Nat) (s : State) : AuthKept s (portTestStop i s).1 := by
  have moved : AuthKept s (if (s.ports.get i).state = .test then movePort i (s.ports.get i).enterTraining s else s) :=
    .ite (AuthKept.partEdits.movePort _ _ s)
  exact .check fun _ => moved

theorem authKept_portTestStart (i pattern loop : Nat) (s : State) : AuthKept s (portTestStart i pattern loop s).1 := by
  unfold portTestStart
  split
  · dsimp only
    refine .check fun _ => .check fun _ => .check fun _ => .check fun _ => ?_
    exact AuthKept.partEdits.movePort _ _ s
  · exact .refl s

/-! ## Every request -/

/-- A request keeps the law where its owner does for a sender that the class table permits. -/
theorem authKept_request {r : Req} {st : Nat} {s t : State} {own : StationClass → State → State × Reply}
    (h : request r st s own = .next t)
    (keeps : ∀ c u, permitted r (classOf u st) = true → AuthKept u (own c u).1) : AuthKept s t := by
  rcases request_cases r st s t own h with ⟨-, e⟩ | ⟨-, -, e⟩ | ⟨⟨-, may⟩, u, p, e, rfl⟩
  · rw [e]; exact .refl s
  · rw [e]; exact .still rfl rfl
  · have owner := keeps (classOf s st) (takeFrame s) may
    rw [e] at owner
    exact (AuthKept.still rfl rfl : AuthKept s (takeFrame s)).trans (owner.trans (.still rfl rfl))

/-- CLAIM and PREEMPT are admitted from the classes that may steer alone (R111, R112). -/
theorem steeringClass_of_permitted {c : StationClass}
    (may : permitted .claim c = true ∨ permitted .preempt c = true) : steeringClass c = true := by
  cases c <;> simp [permitted, steeringClass] at may ⊢

theorem AuthKept.unlessHeld {s : State} {f : State → State} (h : AuthKept s (f s)) : AuthKept s (unlessHeld s f) := by
  unfold Machine.unlessHeld
  split
  · exact .refl s
  · exact h

theorem authKept_execCorrWrite {st : Nat} {values : List Int} {s t : State} (h : execCorrWrite st values s = .next t) :
    AuthKept s t := by
  unfold execCorrWrite at h
  split at h
  · cases h
    exact .unlessHeld (.still rfl rfl)
  · exact authKept_request h fun _ u _ => .inSafe (.still rfl rfl)

theorem authKept_serve (i : Instr) (s t : State) (h : serve i s = .next t) : AuthKept s t := by
  cases i
  all_goals simp only [serve] at h
  case setAttentionMask => exact authKept_request h fun _ u _ => authKept_setAttentionMask _ u
  case setStationClass => exact authKept_request h fun _ u _ => authKept_setStationClass _ _ u
  case restart => exact authKept_request h fun _ u _ => authKept_restart u
  case zoneCreate => exact authKept_request h fun c u _ => authKept_createZone _ _ _ _ _ _ _ _ _ c u
  case zoneAmend => exact authKept_request h fun c u _ => authKept_amendZone _ _ _ _ _ _ _ c u
  case zoneSuspend => exact authKept_request h fun c u _ => authKept_suspendZone _ _ c u
  case zoneResume => exact authKept_request h fun c u _ => authKept_resumeZone _ _ _ c u
  case zoneRetire => exact authKept_request h fun c u _ => authKept_retireZone _ _ c u
  case zoneLookup => exact authKept_request h fun _ u _ => authKept_lookupZone _ u
  case zoneFind | zoneList => exact authKept_request h fun _ u _ => .check fun _ => .refl u
  case enable => exact authKept_request h fun _ u _ => authKept_enable _ u
  case disable => exact authKept_request h fun _ u _ => .branch (.still rfl rfl) (.refl u)
  case setAnchors | setFlightBox | setPayout | setLimits | setPortLimits =>
    exact authKept_request h fun _ _ _ => .inSafe (.still rfl rfl)
  case corrWindow => exact authKept_request h fun _ u _ => authKept_corrWindow _ _ _ _ _ u
  case corrWrite => exact authKept_execCorrWrite h
  case corrRead => exact authKept_request h fun _ _ _ => .check fun _ => .inSafe (.still rfl rfl)
  case markSet => exact authKept_request h fun c u _ => authKept_markSet _ _ _ _ c u
  case markRetire => exact authKept_request h fun c u _ => authKept_markRetire _ _ c u
  case markRead => exact authKept_request h fun _ u _ => .check fun _ => .refl u
  case cueAppend => exact authKept_request h fun _ u _ => authKept_cueAppend _ _ _ _ _ u
  case cueGo => exact authKept_request h fun _ u _ => authKept_cueGo _ u
  case cueHalt => exact authKept_request h fun _ u _ => .check fun _ => .haltIfRunning u
  case cueFlush => exact authKept_request h fun c u _ => authKept_cueFlush _ c u
  case claim => exact authKept_request h fun _ u may => authKept_claim (steeringClass_of_permitted (.inl may))
  case withdraw => exact authKept_request h fun _ u _ => .record rfl fun ok => ok.left _
  case release => exact authKept_request h fun _ u _ => authKept_release _ u
  case preempt => exact authKept_request h fun _ u may => authKept_preempted (steeringClass_of_permitted (.inr may))
  case selectMode => exact authKept_request h fun _ u _ => authKept_selectMode _ _ u
  case stick => exact authKept_request h fun _ u _ => authKept_stick _ _ _ _ u
  case setOrientation =>
    exact authKept_request h fun _ _ _ => .check fun _ => .check fun _ => .record rfl fun ok => { ok with }
  case endSwap => exact authKept_request h fun _ _ _ => .check fun _ => .record rfl fun ok => { ok with }
  case setStick => exact authKept_request h fun c u _ => authKept_setStick _ _ _ _ c u
  case readAuthority => exact authKept_request h fun c u _ => authKept_readAuthority _ _ c u
  case portControlEnable | portControlDisable | portControlRetrain | portControlSleep | portControlWake =>
    exact authKept_request h fun _ u _ => authKept_controlPort _ u _
  case setAbility => exact authKept_request h fun _ u _ => authKept_setAbility _ _ u
  case portTestStart => exact authKept_request h fun _ u _ => authKept_portTestStart _ _ _ u
  case portTestStop => exact authKept_request h fun _ u _ => authKept_portTestStop _ u
  case portClear => exact authKept_request h fun _ _ _ => .branch (.still rfl rfl) (.check fun _ => .still rfl rfl)
  case portRead => exact authKept_request h fun c u _ => authKept_portRead _ _ c u
  case stop => exact authKept_request h fun c u _ => authKept_stop _ _ c u
  case clearStop => exact authKept_request h fun _ u _ => authKept_clearStop u
  case setStandard => exact authKept_request h fun _ u _ => authKept_setStandard _ u
  case readStatus | readEvents | setWatchdog | zoneClear | readMotion | readGeometry | readLimits | cueRead | setCueWindow
      | readStop | readPeriod =>
    exact authKept_request h fun _ _ _ => .still rfl rfl
  all_goals cases h; exact .refl s

end Sys2Proof.Machine
end

