-- ==== Sys2Proof/Proofs/AuthorityStep.lean ====
section
/-! PROOFS. Every command and the idle step keep the authority record as R110, R111 and R122 say. -/

namespace Sys2Proof.Machine

/-- The relation holds across the edits of the ports and the clock, across every edit of the Station Port that leaves the class
table, and across the serving of a request. -/
structure ClassedEdits (R : State → State → Prop) : Prop extends PartEdits R where
  station : ∀ g s, g.classes = s.station.classes → R s { s with station := g }
  serves : ∀ i s t, serve i s = .next t → R s t

namespace ClassedEdits

variable {R : State → State → Prop}

/-! ## The station line (R197 to R201) -/

theorem takeGoodFrame (h : ClassedEdits R) (st code : Nat) (ps : List Byte) (s : State) :
    R s (takeGoodFrame st code ps s) := by
  have refused : ∀ why, R s (refuseFrame st code why s) := fun _ => h.station _ s rfl
  unfold Machine.takeGoodFrame
  split
  · exact refused _
  · split
    · exact refused _
    · split
      · exact refused _
      · split
        · exact refused _
        · exact refused _
        · next i _ =>
          rcases outcome : serve i s with t | f | r
          · exact h.serves i s t outcome
          · exact h.refl s
          · exact h.refl s

theorem scanStation (h : ClassedEdits R) (fuel : Nat) (s : State) : R s (scanStation fuel s) := by
  induction fuel generalizing s with
  | zero => exact h.refl s
  | succ fuel ih =>
    unfold Machine.scanStation
    split
    · exact h.station _ s rfl
    · split
      · exact h.trans (h.station _ s (by rfl)) (ih _)
      · split
        · exact h.station _ s rfl
        · exact h.trans (h.station _ s (by rfl)) (ih _)
        · split
          · exact h.station _ s rfl
          · exact h.trans (h.trans (h.station _ s (by rfl)) (h.takeGoodFrame _ _ _ _)) (ih _)

theorem arriveChar (h : ClassedEdits R) (b : Byte) (s : State) : R s (arriveChar b s) := by
  unfold Machine.arriveChar
  split
  · exact h.station _ s rfl
  · exact h.trans (h.station _ s (by rfl)) (h.scanStation _ _)

theorem timeOutStation (h : ClassedEdits R) (s : State) : R s (timeOutStation s) := by
  unfold Machine.timeOutStation
  split
  · split
    · exact h.trans (h.station _ s (by rfl)) (h.scanStation _ _)
    · exact h.refl s
  · exact h.refl s

theorem finishAnswer (h : ClassedEdits R) (s : State) : R s (finishAnswer s) := by
  unfold Machine.finishAnswer
  split
  · exact h.trans (h.station _ s (by rfl)) (h.scanStation _ _)
  · exact h.refl s

/-! ## The clock up to the wrap (R181, R197, R214) -/

theorem runReceivers (h : ClassedEdits R) (k : Nat) (s : State) : R s (runReceivers k s) := by
  have port : ∀ i t, R t (runPort i k t) := fun i t => h.runReceiver _ i k t
  exact h.trans (h.trans (h.trans (h.trans (port 0 s) (port 1 _)) (port 2 _)) (port 3 _)) (h.station _ _ (by rfl))

theorem stationTimer (h : ClassedEdits R) (s : State) : R s (stationTimer s) := by
  unfold Machine.stationTimer
  split
  · split
    · exact h.timeOutStation s
    · exact h.refl s
  · exact h.refl s

theorem runTimers (h : ClassedEdits R) (k : Nat) (s : State) : R s (runTimers k s) :=
  h.trans (h.trans (h.trans (h.runReceivers k s) (h.withPeriod _ _)) (h.stationTimer _)) (h.period _ _)

theorem runToWrap (h : ClassedEdits R) (fuel : Nat) (s : State) : R s (runToWrap fuel s) := by
  induction fuel generalizing s with
  | zero => exact h.runTimers _ s
  | succ fuel ih =>
    unfold Machine.runToWrap
    split
    · exact h.trans (h.runTimers _ s) (ih _)
    · exact h.runTimers _ s

theorem clockToWrap (h : ClassedEdits R) (s : State) : R s (clockToWrap s) :=
  h.trans (h.runToWrap _ s) (h.period _ _)

end ClassedEdits

/-- The receivers and the clock up to the wrap serve requests and leave the class table otherwise. -/
theorem AuthKept.classedEdits : ClassedEdits AuthKept where
  toPartEdits := partEdits
  station := fun _ _ classes => .still classes rfl
  serves := authKept_serve

theorem AuthKept.periodExpiry (s : State) : AuthKept s (periodExpiry s) :=
  ((AuthKept.commitFlight s).trans (classedEdits.clockToWrap _)).trans (.expiryWork _)

theorem AuthKept.tick (s : State) : AuthKept s (tick s) := by
  have timers := classedEdits.runTimers 1 s
  have wrapped : ∀ u : State, AuthKept u { u with period := u.period.wrap } := fun _ => .still rfl rfl
  unfold Machine.tick
  dsimp only
  split
  · exact ((timers.trans (.commitFlight _)).trans (wrapped _)).trans (.expiryWork _)
  · exact timers

theorem authorityOk_powerOn {s : State} (classes : s.station.classes = List.replicate 7 .absent)
    (auth : s.auth = authorityPowerOn) : AuthorityOk s := by
  refine (authorityOk_iff s).2 ⟨by rw [classes]; rfl, ?_⟩
  rw [auth]
  exact recordOk_fresh _ (by decide) (by decide) (by decide) false false false

/-! ## Every command, and a step -/

theorem authKept_exec (i : Instr) (s t : State) (h : exec i s = .next t) : AuthKept s t := by
  have parts := AuthKept.partEdits
  have line := AuthKept.classedEdits
  have served := authKept_serve i s t
  cases i
  case powerOnReset => cases h; exact fun _ => authorityOk_powerOn rfl rfl
  case resetAsserted => cases h; exact fun _ => authorityOk_powerOn rfl rfl
  case periodExpiry => cases h; exact .unlessHeld (.periodExpiry s)
  case periodCommit => cases h; exact .unlessHeld (.commitFlight s)
  case cueDwellExpiry => cases h; exact .unlessHeld (.ite (.completeCue s))
  case cueBlocked => cases h; exact .unlessHeld (.ite (.failHead _ s))
  case zoneLifetimeExpiry => cases h; exact .unlessHeld (.ite (.still rfl rfl))
  case backoffExpiry station =>
    cases h
    have counted : AuthKept s { s with auth := { s.auth with backoff := s.auth.backoff.set station 0 } } :=
      .record rfl fun ok => ok.backoffRun station
    exact .unlessHeld (.ite (counted.trans (.claimDecision _)))
  case stickHoldExpiry => cases h; exact .unlessHeld (.ite (.stickStep s))
  case watchdogExpiry => cases h; exact .unlessHeld (.ite (parts.silenceStep s))
  case trainingSilenceExpiry => cases h; exact .unlessHeld (.ite (parts.movePort _ _ s))
  case breakExpiry => cases h; exact .unlessHeld (.ite (parts.movePort _ _ s))
  case consecutiveMissLimit => cases h; exact .unlessHeld (.ite (parts.missCheck _ s))
  case refPulse => cases h; exact .unlessHeld (parts.withPeriod _ s)
  case referenceLoss => cases h; exact .unlessHeld (.ite (parts.withPeriod _ s))
  case estopLineChange =>
    cases h
    split
    · exact .still rfl rfl
    · exact .takeEstop _ s
  case stationCharacter => cases h; exact .unlessHeld (line.arriveChar _ s)
  case stationFrameTimeout => cases h; exact .unlessHeld (line.timeOutStation s)
  case answerSent => cases h; exact .unlessHeld (line.finishAnswer s)
  case unknownRequestFrame =>
    cases h
    refine .unlessHeld ?_
    split
    · exact .refl s
    · exact .still rfl rfl
  case driveAbilityFrame => cases h; exact .unlessHeld (parts.driveAbility _ _ s)
  case driveFeedbackFrame => cases h; exact .unlessHeld (parts.driveFeedback _ _ _ _ _ s)
  case driveWakeFrame => cases h; exact .unlessHeld (parts.driveWake _ s)
  case driveTestFrame => cases h; exact .unlessHeld (parts.driveTest _ _ s)
  case winchFrameBadCheck => cases h; exact .unlessHeld (parts.badCheck _ s)
  case winchFrameTimeout => cases h; exact .unlessHeld (parts.timeOutWinch _ s)
  case winchCharacter =>
    cases h
    refine .unlessHeld ?_
    split
    · exact .refl s
    · exact parts.receive _ _ s
  all_goals exact served h

theorem authKept_step (s t : State) (h : step s = .next t) : AuthKept s t := by
  unfold step at h
  split at h
  · next c rest _ =>
    have front : AuthKept s { s with pending := rest } := .still rfl rfl
    exact front.trans (authKept_exec c _ t h)
  · cases h
    exact .unlessHeld (.tick s)

/-- Settles O48: every part of a step makes a move of the record that keeps it, or leaves it and the classes. -/
theorem authorityKept : Obligations.AuthorityKept := fun s t ok h => authKept_step s t h ok

end Sys2Proof.Machine
end

