-- ==== Sys2Proof/Proofs/ClassTable.lean ====
section
/-! PROOFS. The Station Port's own requests, ATTN, and SET_STATION_CLASS with what the Arbiter does on it (R119, R200, R204, R205,
R207). -/

namespace Sys2Proof.Machine

/-! ## ATTN (R205) -/

/-- Every bit of the event set is the flag of an event (10.1). -/
theorem exists_event_bit {i : Nat} (hi : i < 14) : ∃ e : Event, e.bit = i := by
  interval_cases i
  exacts [⟨.stop, rfl⟩, ⟨.authority, rfl⟩, ⟨.cueDone, rfl⟩, ⟨.cueFailed, rfl⟩, ⟨.cueWant, rfl⟩, ⟨.zoneActive, rfl⟩,
    ⟨.zoneExpired, rfl⟩, ⟨.trapped, rfl⟩, ⟨.stickStale, rfl⟩, ⟨.port, rfl⟩, ⟨.portWake, rfl⟩, ⟨.derate, rfl⟩,
    ⟨.reference, rfl⟩, ⟨.overrun, rfl⟩]

theorem attn_iff (s : State) :
    attn s = true ↔ s.resetHeld = false ∧ ∃ e : Event, eventSet s e = true ∧ s.station.mask.getLsbD e.bit = true := by
  have enabled : s.station.events &&& s.station.mask ≠ 0#14
      ↔ ∃ e : Event, eventSet s e = true ∧ s.station.mask.getLsbD e.bit = true := by
    constructor
    · intro some
      by_contra none
      refine some (BitVec.eq_of_getLsbD_eq fun i hi => ?_)
      obtain ⟨e, rfl⟩ := exists_event_bit hi
      rw [BitVec.getLsbD_and, BitVec.getLsbD_zero]
      exact Bool.eq_false_iff.2 fun both => none ⟨e, Bool.and_eq_true_iff.1 both⟩
    · rintro ⟨e, set, mask⟩ zero
      have bit := congrArg (BitVec.getLsbD · e.bit) zero
      rw [eventSet] at set
      simp [set, mask] at bit
  rw [attn, Bool.and_eq_true, Bool.not_eq_true', bne_iff_ne, enabled]

/-! ## SET_STATION_CLASS (R119, R200) -/

theorem givenClassOf_eq_none {cls : Nat} (h : cls = 0 ∨ 4 < cls) : givenClassOf cls = none := by
  match cls with
  | 0 => rfl
  | 1 | 2 | 3 | 4 => omega
  | _ + 5 => rfl

theorem setStationClass_badParam {station cls : Nat} (h : station = 0 ∨ 7 < station ∨ cls = 0 ∨ 4 < cls) (s : State) :
    setStationClass station cls s = refuse .badParam s := by
  unfold setStationClass
  rcases hk : givenClassOf cls with _ | k
  · rfl
  · refine if_pos (by_contra fun good => ?_)
    have bad : cls = 0 ∨ 4 < cls := by omega
    rw [givenClassOf_eq_none bad] at hk
    cases hk

/-- The class of a station replaced in the table (R200). -/
def withClass (station : Nat) (k : StationClass) (s : State) : State :=
  { s with station := { s.station with classes := s.station.classes.set (station - 1) k } }

theorem steeringClass_eq_false_iff (k : StationClass) : steeringClass k = false ↔ k = .viewer ∨ k = .absent := by
  cases k <;> simp [steeringClass]

theorem setStationClass_taken {station cls : Nat} {k : StationClass} (known : 1 ≤ station) (last : station ≤ 7)
    (given : givenClassOf cls = some k) (s : State) :
    setStationClass station cls s
      = accept (if steeringClass k = false then classLoss station (withClass station k s) else withClass station k s)
          (byte (classOf s station).code) := by
  unfold setStationClass
  rw [given]
  refine (if_neg (by omega)).trans ?_
  simp only [steeringClass_eq_false_iff]
  rfl

/-- The holder is given a class with which it may not steer: it loses authority, and nobody gains it (R119). -/
theorem classLoss_of_holder {s : State} {st : Nat} (holder : s.auth.holder = some st) :
    classLoss st s = raiseEvent .authority (loseAuthority s) := if_pos ((holds_iff s st).2 holder)

theorem classLoss_of_other {s : State} {st : Nat} (other : s.auth.holder ≠ some st) :
    classLoss st s = { s with auth := { s.auth with pending := s.auth.pending.filter (· != st) } } :=
  if_neg (mt (holds_iff s st).1 other)

theorem execSetStationClass_eq {s : State} {st station cls : Nat} {k : StationClass} (may : MaySend s .setStationClass st)
    (known : 1 ≤ station) (last : station ≤ 7) (given : givenClassOf cls = some k) :
    exec (.setStationClass st station cls) s
      = taken st .setStationClass (byte (classOf s station).code)
          (fun t => if steeringClass k = false then classLoss station (withClass station k t) else withClass station k t) s :=
  request_accepted (own := fun _ t => setStationClass station cls t) may (setStationClass_taken known last given _)

/-- Settles O12: each request by its owner, ATTN bit by bit, and a class loss by what a holder that loses authority leaves. -/
theorem stationPortRequestsTaken : Obligations.StationPortRequestsTaken := by
  refine ⟨⟨fun s st may => ?_, fun s st mask may => ⟨fun fits => ?_, fun wide => ?_⟩, fun s st periods may => ?_, attn_iff⟩,
    fun s st station cls may => ⟨fun bad => ?_, fun known last k given => ?_⟩⟩
  · exact request_accepted (own := fun _ t => readEvents t) may rfl
  · exact request_accepted (own := fun _ t => setAttentionMask mask t) may (if_neg (not_le.2 fits))
  · exact request_refused (own := fun _ t => setAttentionMask mask t) may (if_pos wide)
  · rw [← clampNat_eq periods 10 1000 (by omega)]
    exact request_accepted (own := fun _ t => setWatchdog periods t) may rfl
  · exact request_refused (own := fun _ t => setStationClass station cls t) may (setStationClass_badParam bad _)
  · rw [execSetStationClass_eq may known last given]
    refine ⟨fun steers => by simp only [steers]; rfl, fun barred other => ?_, fun barred holder => ?_⟩
    · rw [taken, if_pos barred, classLoss_of_other (s := withClass station k (takeFrame s)) other]
      rfl
    · rw [taken, if_pos barred, classLoss_of_holder (s := withClass station k (takeFrame s)) holder]
      obtain ⟨frame, stop, auth, entries, vOld, halted, mode, motion⟩ :=
        authorityLost_loseAuthority (s := withClass station k (takeFrame s)) holder
      refine ⟨_, _, rfl, rfl, rfl, rfl, rfl, rfl, frame.classes, ?_, auth, entries, halted, mode,
        fun notCue notStick => congrArg Motion.mode (motion notCue notStick), frame.p, vOld, frame.air, frame.span, frame.marks,
        frame.ports, stop, frame.period⟩
      exact (eventSet_raiseEvent ..).trans (by simp)

end Sys2Proof.Machine
end

