-- ==== Sys2Proof/Proofs/HolderRequests.lean ====
section
/-! PROOFS. CLAIM, WITHDRAW and RELEASE; the stick's requests with READ_AUTHORITY, and the shaping of a sample (R112 to R117, R122,
R123, R127 to R130). -/

namespace Sys2Proof.Machine

/-! ## Claiming and letting go (R113 to R117) -/

section

variable {s : State} {st : Nat}

theorem claim_of_holder (holder : s.auth.holder = some st) :
    claim st s = accept { s with auth := { s.auth with explicit := true } } (byte 0) := if_pos ((holds_iff s st).2 holder)

theorem claim_of_other (other : s.auth.holder ≠ some st) :
    claim st s = if st ∈ s.auth.pending then accept s (byte 1)
      else if 7 ≤ s.auth.pending.length then refuse .noRoom s
      else accept { s with auth := { s.auth with pending := joinPending st s.auth.pending } } (byte 1) := by
  unfold claim
  rw [if_neg (mt (holds_iff s st).1 other)]
  simp only [List.contains_iff_mem]

theorem boolByte_contains (ps : List Nat) (st : Nat) :
    boolByte (ps.contains st) = if st ∈ ps then byte 1 else byte 0 := by
  by_cases h : st ∈ ps <;> simp [boolByte, h, byte, beBytes]

theorem release_of_other (other : s.auth.holder ≠ some st) : release st s = refuse .notHolder s :=
  if_pos (by simpa [holds] using other)

theorem release_of_holder (holder : s.auth.holder = some st) :
    release st s = if s.auth.cue then accept { s with auth := { s.auth with explicit := false } } (byte 1)
      else accept (endAuthority { s with auth := { s.auth with explicit := false } }) (byte 0) :=
  if_neg (by simp [holds, holder])

/-- The end of a holder's authority in one state (R117). -/
theorem endAuthority_eq (holder : s.auth.holder = some st) :
    endAuthority s = { s with
      motion := { s.motion with
        mode := if s.motion.mode = .stick then (if anyOccupied s then .evict else .hold) else s.motion.mode }
      auth := authorityOver st s.auth
      station := { s.station with events := s.station.events ||| 0x2#14 } } := by
  unfold endAuthority
  dsimp only
  rw [vacate_of_holder holder]
  split <;> rfl

end

/-- Settles O44: by who the sender is, and RELEASE by the CUE basis. -/
theorem claimWithdrawRelease : Obligations.ClaimWithdrawRelease := by
  refine ⟨fun s st may => ?_, fun s st may => ?_, fun s st may => ?_⟩
  · have taken : ∀ {payload f}, claim st (takeFrame s) = accept (f (takeFrame s)) payload →
        exec (.claim st) s = taken st .claim payload f s := request_accepted (own := fun _ t => claim st t) may
    refine ⟨fun holder => taken (claim_of_holder (s := takeFrame s) holder), fun other waits => taken ?_,
      fun other new full => request_refused (own := fun _ t => claim st t) may ?_, fun other new room => taken ?_⟩
    all_goals rw [claim_of_other (s := takeFrame s) other]
    · exact if_pos waits
    · exact (if_neg new).trans (if_pos full)
    · exact (if_neg new).trans (if_neg (not_le.2 room))
  · rw [← boolByte_contains]
    exact request_accepted (own := fun _ t => withdraw st t) may rfl
  · refine ⟨fun other => request_refused (own := fun _ t => release st t) may (release_of_other (s := takeFrame s) other),
      fun holder cue => ?_, fun holder alone => ?_⟩
    all_goals
      refine request_accepted (own := fun _ t => release st t) may ((release_of_holder (s := takeFrame s) holder).trans ?_)
    · exact if_pos cue
    · refine (if_neg (Bool.eq_false_iff.1 alone)).trans ?_
      exact congrArg (accept · (byte 0))
        (endAuthority_eq (s := { takeFrame s with auth := { s.auth with explicit := false } }) holder)

/-! ## The stick's requests (R112, R122, R123, R127, R129, R130) -/

section

variable {s : State} {st : Nat}

theorem sampleOf_eq (d : Vec3) (scale flags : Nat) :
    sampleOf d scale flags =
      let c := fun (x : Int) => max (-1000) (min 1000 x)
      { deflection := ⟨c d.x, c d.y, c d.z⟩, scale := min 100 scale, deadman := decide (flags = 1) } := by
  simp only [sampleOf, clamp_eq _ (-1000) 1000 (by omega), Nat.min_comm scale]
  rfl

section

variable (holder : s.auth.holder = some st) (d : Vec3) (scale : Nat) {flags : Nat}
include holder

theorem stick_of_other_mode (mode : s.motion.mode ≠ .stick) : stick d scale flags st s = refuse .wrongState s :=
  (if_neg (by simp [holds, holder])).trans (if_pos mode)

theorem stick_of_bad_flags (mode : s.motion.mode = .stick) (bad : 1 < flags) :
    stick d scale flags st s = refuse .badParam s :=
  (if_neg (by simp [holds, holder])).trans ((if_neg (not_not.2 mode)).trans (if_pos bad))

theorem stick_taken (mode : s.motion.mode = .stick) (known : flags ≤ 1) :
    let a := buffered (sampleOf d scale flags) s.auth
    stick d scale flags st s
      = accept { s with auth := a }
          (byte a.buffer.length ++ boolByte (decide (4 ≤ s.auth.buffer.length)) ++ byte a.overrun) :=
  (if_neg (by simp [holds, holder])).trans ((if_neg (not_not.2 mode)).trans (if_neg (not_lt.2 known)))

/-- A sample joins a buffer with room (R123). -/
theorem stick_of_room (mode : s.motion.mode = .stick) (known : flags ≤ 1) (room : s.auth.buffer.length < 4) :
    stick d scale flags st s
      = accept { s with auth := { s.auth with buffer := s.auth.buffer ++ [sampleOf d scale flags] } }
          (byte (s.auth.buffer.length + 1) ++ byte 0 ++ byte s.auth.overrun) := by
  rw [stick_taken holder d scale mode known, decide_eq_false (not_le.2 room)]
  simp only [buffered, if_pos room, List.length_append, List.length_singleton]
  rfl

/-- A full buffer drops its oldest sample, and the overrun count advances (R123). -/
theorem stick_of_full (mode : s.motion.mode = .stick) (known : flags ≤ 1) (full : s.auth.buffer.length = 4) :
    stick d scale flags st s
      = accept
          { s with auth := { s.auth with
            buffer := s.auth.buffer.tail ++ [sampleOf d scale flags], overrun := saturate s.auth.overrun 255 } }
          (byte 4 ++ byte 1 ++ byte (saturate s.auth.overrun 255)) := by
  rw [stick_taken holder d scale mode known]
  simp only [buffered, full, Nat.lt_irrefl, if_false, List.length_append, List.length_tail, List.length_singleton]
  rfl

end

theorem maySet_iff (c : StationClass) : maySet c st s = true ↔ s.auth.holder = some st ∨ c = .supervisor := by
  simp [maySet, holds]

/-- The three flags of a byte (R127). -/
theorem setOrientation_taken {c : StationClass} (may : s.auth.holder = some st ∨ c = .supervisor) {flags : Nat}
    (three : flags < 8) :
    setOrientation flags st c s
      = accept
          { s with auth := { s.auth with
            swap := decide (flags % 2 = 1), mirrorX := decide (flags / 2 % 2 = 1), mirrorY := decide (flags / 4 % 2 = 1) } }
          (byte flags) := by
  have bytes : ∀ a : Authority,
      orientationByte { a with swap := flags.testBit 0, mirrorX := flags.testBit 1, mirrorY := flags.testBit 2 }
        = byte flags := by
    intro a
    interval_cases flags <;> rfl
  unfold setOrientation
  rw [if_neg (by simp [(maySet_iff c).2 may]), if_neg (not_le.2 three)]
  dsimp only
  rw [bytes, Nat.testBit_zero, Nat.testBit_eq_decide_div_mod_eq, Nat.testBit_eq_decide_div_mod_eq]

/-- The settings clamped (R129). -/
theorem setStick_taken {c : StationClass} (may : s.auth.holder = some st ∨ c = .supervisor) (start hold deadband : Nat) :
    setStick start hold deadband st c s
      = accept
          { s with auth := { s.auth with
            start := max 1 (min 3 start), hold := max 1 (min 250 hold), deadband := min 200 deadband } }
          (byte (max 1 (min 3 start)) ++ byte (max 1 (min 250 hold)) ++ byte (min 200 deadband)) := by
  unfold setStick
  rw [if_neg (by simp [(maySet_iff c).2 may])]
  simp only [clampNat_eq _ 1 _ (show 1 ≤ 3 by omega), clampNat_eq _ 1 _ (show 1 ≤ 250 by omega), clampNat_zero]

/-- The clear option acts for the holder and for SUPERVISOR (R130). -/
theorem readAuthority_cleared {c : StationClass} (may : s.auth.holder = some st ∨ c = .supervisor) :
    readAuthority 1 st c s
      = accept { s with auth := { s.auth with overrun := 0 } } (authorityBytes s.auth true) := by
  simp [readAuthority, yesNo, (maySet_iff c).2 may]

theorem readAuthority_kept {c : StationClass} (other : ¬(s.auth.holder = some st ∨ c = .supervisor)) :
    readAuthority 1 st c s = accept s (authorityBytes s.auth false) := by
  simp [readAuthority, yesNo, Bool.eq_false_iff.2 (mt (maySet_iff c).1 other)]

end

/-! ## Shaping (R127, R128) -/

theorem orient_eq (a : Authority) (d : Vec3) :
    orient a d = ⟨(if a.swap then d.y else d.x) * (if a.mirrorX then -1 else 1),
      (if a.swap then d.x else d.y) * (if a.mirrorY then -1 else 1), d.z⟩ := by
  rcases hx : a.mirrorX <;> rcases hy : a.mirrorY <;> simp [orient, hx, hy]

/-- A full deflection at a scale of 100 gives vmax, and no deflection more (R128). -/
theorem shaped_le {deadband vmax scale e : Nat} (band : deadband ≤ 200) (most : e ≤ 1000) (percent : scale ≤ 100) :
    (e - deadband) * vmax * scale / ((1000 - deadband) * 100) ≤ vmax := by
  refine Nat.div_le_of_le_mul ?_
  calc (e - deadband) * vmax * scale ≤ (1000 - deadband) * vmax * 100 :=
        Nat.mul_le_mul (Nat.mul_le_mul_right _ (by omega)) percent
    _ = (1000 - deadband) * 100 * vmax := by ring

/-- One deflection shaped: zero within the deadband, and else the quotient with the sign of the deflection (R128). -/
theorem shape_spec (deadband vmax scale : Nat) (e : Int) :
    (e.natAbs ≤ deadband → shape deadband vmax scale e = 0)
    ∧ (deadband < e.natAbs →
        (shape deadband vmax scale e).natAbs = (e.natAbs - deadband) * vmax * scale / ((1000 - deadband) * 100)
        ∧ (0 < e → 0 ≤ shape deadband vmax scale e) ∧ (e < 0 → shape deadband vmax scale e ≤ 0))
    ∧ (deadband ≤ 200 → e.natAbs ≤ 1000 → scale ≤ 100 → (shape deadband vmax scale e).natAbs ≤ vmax) := by
  have bound := fun band most percent => shaped_le (deadband := deadband) (vmax := vmax) (scale := scale) (e := e.natAbs)
    band most percent
  unfold shape
  generalize (e.natAbs - deadband) * vmax * scale / ((1000 - deadband) * 100) = m at bound ⊢
  dsimp only
  split
  · exact ⟨fun _ => rfl, fun _ => by omega, fun _ _ _ => Nat.zero_le _⟩
  · refine ⟨fun _ => by omega, fun _ => ?_, fun band most percent => ?_⟩
    · split <;> omega
    · have := bound band most percent
      split <;> omega

theorem shapeSample_of_clear {q : Sample} (clear : q.deadman = false) (a : Authority) (lim : Limits) :
    shapeSample a lim q = zero3 := by simp [shapeSample, clear]

theorem shapeSample_of_held {q : Sample} (held : q.deadman = true) (a : Authority) (lim : Limits) :
    shapeSample a lim q =
      let d := orient a q.deflection
      ⟨shape a.deadband lim.vh q.scale d.x, shape a.deadband lim.vh q.scale d.y, shape a.deadband lim.vz q.scale d.z⟩ := by
  simp [shapeSample, held]

/-- Settles O46: each request by its owner's checks, and a sample axis by axis. -/
theorem stickRequestsAndShaping : Obligations.StickRequestsAndShaping := by
  have barred : ∀ {s : State} {st : Nat} {c : StationClass}, ¬(s.auth.holder = some st ∨ c = .supervisor) →
      (!maySet c st s) = true := fun other => by simp [Bool.eq_false_iff.2 (mt (maySet_iff _).1 other)]
  have admitted : ∀ {s : State} {st : Nat} {c : StationClass}, s.auth.holder = some st ∨ c = .supervisor →
      ¬(!maySet c st s) = true := fun may => by simp [(maySet_iff _).2 may]
  refine ⟨⟨fun s st d scale flags may => ?_, fun s st flags may => ⟨fun other => ?_, fun holder wide => ?_, fun holder fits => ?_⟩,
    fun s st may => ⟨fun other => ?_, fun holder => ?_⟩, fun s st start hold deadband may => ⟨fun other => ?_, fun holder => ?_⟩,
    fun s st n may => ⟨fun wide => ?_, ?_, ?_⟩⟩, fun a lim q => ⟨fun clear => shapeSample_of_clear clear a lim, fun held => ?_⟩⟩
  · intro run c q n
    have refused := fun why => request_refused (own := fun _ t => stick d scale flags st t) (why := why) may
    have accepted := fun payload f => request_accepted (own := fun _ t => stick d scale flags st t) (payload := payload) (f := f) may
    have sample : sampleOf d scale flags = q := sampleOf_eq d scale flags
    rw [← sample]
    exact ⟨fun other => refused _ (if_pos (by simpa [holds] using other)),
      fun holder mode => refused _ (stick_of_other_mode (s := takeFrame s) holder d scale mode),
      fun holder mode bad => refused _ (stick_of_bad_flags (s := takeFrame s) holder d scale mode bad),
      fun holder mode known room => accepted _ _ (stick_of_room (s := takeFrame s) holder d scale mode known room),
      fun holder mode known full => accepted _ _ (stick_of_full (s := takeFrame s) holder d scale mode known full)⟩
  · exact request_refused may (if_pos (barred other))
  · exact request_refused may ((if_neg (admitted holder)).trans (if_pos wide))
  · exact request_accepted may (setOrientation_taken (s := takeFrame s) holder fits)
  · exact request_refused (own := fun _ t => endSwap st t) may (if_pos (by simpa [holds] using other))
  · exact request_accepted (own := fun _ t => endSwap st t) may (if_neg (by simp [holds, holder]))
  · exact request_refused may (if_pos (barred other))
  · exact request_accepted may (setStick_taken (s := takeFrame s) holder start hold deadband)
  · refine request_refused may ?_
    rw [readAuthority, (yesNo_eq_none n).2 wide]
  · rintro rfl holder
    exact request_accepted may (readAuthority_cleared (s := takeFrame s) holder)
  · rintro rfl other
    exact request_accepted may (readAuthority_kept (s := takeFrame s) other)
  · rw [shapeSample_of_held held, orient_eq]
    exact ⟨shape_spec .., shape_spec .., shape_spec ..⟩

end Sys2Proof.Machine
end


-- ==== Sys2Proof/Proofs/CausesTaken.lean ====
section
/-! PROOFS. A cause raised by STOP, by the ESTOP line or by the watchdog: the Stop Unit, the mode, the running cue and the authority
that follow (R63, R65, R117, R164 to R168, R172, R173, R206). -/

namespace Sys2Proof.Machine

/-! ## The kind in force (R164, R167) -/

/-- The kind in force after a cause of kind `k`, by the mode. -/
def kindTaken (s : State) (k : StopKind) : StopKind :=
  if s.motion.mode = .safe ∨ s.motion.mode = .stopped .braked then s.stop.kind
  else if s.stop.kind.severity < k.severity then k else s.stop.kind

theorem kindAfter_eq (s : State) (k : StopKind) : kindAfter s.motion.mode s.stop.kind k = kindTaken s k := by
  unfold kindTaken
  rcases s.motion.mode with _ | _ | _ | _ | _ | _ | (_ | _) <;> simp [kindAfter, StopKind.harsher]

/-! ## A steered mode is left for a stop (R63) -/

/-- The Motion Generator's own part of it: the eviction is broken off, and the mode is STOPPING or STOPPED/BRAKED. -/
def stopBegun (kind : StopKind) (s : State) : State :=
  let s1 := { s with motion := { s.motion with exit := none, trapped := false } }
  if kind = .brake then freeze s1 else setMode .stopping s1

theorem leaveSteered_of_idle {kind : StopKind} {s : State} (idle : s.motion.mode ≠ .cue) :
    leaveSteered kind s = flushStick (stopBegun kind s) := congrArg flushStick (if_neg idle)

theorem stopBegun_mode (kind : StopKind) (s : State) :
    (stopBegun kind s).motion.mode = if kind = .brake then .stopped .braked else .stopping := by
  unfold stopBegun
  split <;> rfl

theorem stopBegun_eq (kind : StopKind) (s : State) : stopBegun kind s = { s with motion := (stopBegun kind s).motion } := by
  unfold stopBegun
  split <;> rfl

theorem leaveSteered_of_cue {kind : StopKind} {s : State} {h : Nat} (running : s.motion.mode = .cue)
    (holder : s.auth.holder = some h) :
    leaveSteered kind s
      = flushStick (raiseIf (!s.auth.explicit) .authority { dropCopy (stopBegun kind s) with auth := basisOver h s.auth }) := by
  have auth : (stopBegun kind s).auth = s.auth := by rw [stopBegun_eq]
  have stick : (stopBegun kind s).motion.mode ≠ .stick := by rw [stopBegun_mode]; split <;> simp
  rw [← auth] at holder ⊢
  exact congrArg flushStick ((if_pos running).trans (haltCue_of_holder holder stick))

/-! ## The kind in force is new (R65, R66, R167, R168) -/

section

variable {s : State} {u : StopUnit} {k : StopKind}

/-- Nothing but the Stop Unit is touched where the kind in force stands. -/
theorem stopTaken_of_same (kind : u.kind = kindTaken s k) (same : u.kind = s.stop.kind) :
    StopTaken s { s with stop := u } k := by
  unfold StopTaken
  dsimp only
  rw [← kindTaken, ← kind]
  exact ⟨rfl, fun _ => ⟨rfl, rfl, rfl⟩, fun changed => absurd same changed, fun _ => rfl⟩

/-- STOPPING and STOPPED/HELD. -/
theorem stopTaken_of_stopping (kind : u.kind = kindTaken s k) (changed : u.kind ≠ s.stop.kind)
    (stops : s.motion.mode = .stopping ∨ s.motion.mode = .stopped .held) :
    StopTaken s (if u.kind = .brake then freeze { s with stop := u } else { s with stop := u }) k := by
  have steered : s.motion.mode.steered = false := by rcases stops with e | e <;> rw [e] <;> rfl
  have notCue : s.motion.mode ≠ .cue := by rcases stops with e | e <;> rw [e] <;> simp
  unfold StopTaken
  dsimp only
  rw [← kindTaken, ← kind]
  refine ⟨?_, fun same => absurd same changed, fun _ => ?_, ?_⟩ <;> by_cases brake : u.kind = .brake <;>
    simp [brake, steered, notCue, zero3, eventSet]

/-- HOLD, STICK and EVICT. -/
theorem stopTaken_of_idle (kind : u.kind = kindTaken s k) (changed : u.kind ≠ s.stop.kind)
    (steered : s.motion.mode.steered = true) (notCue : s.motion.mode ≠ .cue) :
    StopTaken s (leaveSteered u.kind { s with stop := u }) k := by
  rw [leaveSteered_of_idle (s := { s with stop := u }) notCue]
  unfold StopTaken stopBegun
  dsimp only
  rw [← kindTaken, ← kind]
  refine ⟨?_, fun same => absurd same changed, fun _ => ?_, ?_⟩ <;> by_cases brake : u.kind = .brake <;>
    simp [brake, steered, notCue, zero3, eventSet, flush]

/-- CUE: the running cue halts and its basis clears. -/
theorem stopTaken_of_cue {h : Nat} (kind : u.kind = kindTaken s k) (changed : u.kind ≠ s.stop.kind)
    (running : s.motion.mode = .cue) (holder : s.auth.holder = some h) :
    StopTaken s (leaveSteered u.kind { s with stop := u }) k := by
  rw [leaveSteered_of_cue (s := { s with stop := u }) running holder]
  generalize hb : stopBegun u.kind { s with stop := u } = b
  have stands : b = { s with stop := u, motion := b.motion } := by rw [← hb, stopBegun_eq]
  have authority : eventSet (raiseIf (!s.auth.explicit) .authority { dropCopy b with auth := basisOver h s.auth }) .authority
      = (eventSet s .authority || !s.auth.explicit) := by
    rw [eventSet_raiseIf, stands]
    simp [eventSet]
  have flushed : (s.auth.explicit = true → flush (basisOver h s.auth) = flush { s.auth with cue := false })
      ∧ (s.auth.explicit = false → flush (basisOver h s.auth) = authorityOver h s.auth) :=
    ⟨fun explicit => by rw [basisOver, if_pos explicit], fun alone => by simp [basisOver, alone, flush, authorityOver]⟩
  generalize hw : raiseIf (!s.auth.explicit) .authority { dropCopy b with auth := basisOver h s.auth } = w at authority
  have motion : w.motion = (dropCopy b).motion := by rw [← hw, raiseIf_eq]
  have others : w.stop = u ∧ w.auth = basisOver h s.auth ∧ w.cue = { s.cue with running := false } := by
    rw [← hw, raiseIf_eq, stands]
    exact ⟨rfl, rfl, rfl⟩
  obtain ⟨stop, auth, cue⟩ := others
  unfold StopTaken
  dsimp only
  rw [← kindTaken, ← kind]
  refine ⟨congrArg StopUnit.kind stop, fun same => absurd same changed, fun _ => ?_, ?_⟩
  · have motionB : b.motion = (stopBegun u.kind { s with stop := u }).motion := by rw [hb]
    have last : ∀ k, s.auth.holder = some k →
        (s.auth.explicit = true → flush w.auth = flush { s.auth with cue := false })
        ∧ (s.auth.explicit = false → flush w.auth = authorityOver k s.auth ∧ eventSet w .authority = true) := by
      intro k hk
      cases holder.symm.trans hk
      rw [auth, authority]
      exact ⟨flushed.1, fun alone => ⟨flushed.2 alone, by simp [alone]⟩⟩
    by_cases brake : u.kind = .brake <;>
      simp [motion, motionB, stopBegun, brake, running, zero3, Mode.steered, cue]
    all_goals exact last
  · rintro (same | other | explicit)
    · exact absurd same changed
    · exact absurd running other
    · exact authority.trans (by simp [explicit])

/-- The stop unit with its new kind in force, reported when it is new, in a state that meets the law of the modes. -/
theorem stopTaken_reported (law : ModeOk s) (kind : u.kind = kindTaken s k) : StopTaken s (reported s u) k := by
  unfold reported
  split
  · next same => exact stopTaken_of_same kind same
  · next changed =>
    rcases reportKind_cases u.kind { s with stop := u } with ⟨steered, e⟩ | ⟨stops, brake, e⟩ | ⟨stops, milder, e⟩ | ⟨safe, -⟩
    · rw [e]
      by_cases running : s.motion.mode = .cue
      · obtain ⟨h, holder⟩ := Option.isSome_iff_exists.1 (((modeOk_iff s).1 law).2.cue running).2
        exact stopTaken_of_cue kind changed running holder
      · exact stopTaken_of_idle kind changed steered running
    · rw [e]
      exact (if_pos brake : _ = freeze { s with stop := u }) ▸ stopTaken_of_stopping kind changed stops
    · rw [e]
      exact (if_neg milder : _ = { s with stop := u }) ▸ stopTaken_of_stopping kind changed stops
    · exact absurd (kind.trans (if_pos safe)) changed

end

/-- The Stop Unit as the raising of a cause leaves it (R166). -/
def stopJoined (c : Cause) (port : Option Nat) (asked : StopKind) (s : State) : StopUnit :=
  { s.stop.join c port asked with
    kind := kindAfter s.motion.mode s.stop.kind (c.kind (s.stop.join c port asked).requested) }

theorem raiseCause_eq_reported (c : Cause) (port : Option Nat) (asked : StopKind) (s : State) :
    raiseCause c port asked s
      = raiseIf (!s.stop.has c || (stopJoined c port asked s).kind != s.stop.kind) .stop
          (reported s (stopJoined c port asked s)) := rfl

/-- STOP raised on top of it is no part of it. -/
theorem StopTaken.raiseStop {s t : State} {k : StopKind} (taken : StopTaken s t k) (b : Bool) :
    StopTaken s (raiseIf b .stop t) k := by
  have authority : eventSet (raiseIf b .stop t) .authority = eventSet t .authority := eventSet_raiseIf_of_ne (by decide) b t
  unfold StopTaken at taken ⊢
  rw [authority, raiseIf_eq]
  exact taken

theorem stopTaken_raiseCause {s : State} (law : ModeOk s) (c : Cause) (port : Option Nat) (asked : StopKind) :
    StopTaken s (raiseCause c port asked s) (c.kind (s.stop.join c port asked).requested) :=
  StopTaken.raiseStop (stopTaken_reported (u := stopJoined c port asked s) law (kindAfter_eq ..)) _

/-! ## A cause raised (R166) -/

/-- A report moves neither the Stop Unit nor a flag but AUTHORITY, and takes no entry off the cue list. -/
structure ReportStands (s t : State) : Prop where
  stop : t.stop = s.stop
  entries : t.cue.entries = s.cue.entries
  event : ∀ e, e ≠ .authority → eventSet t e = eventSet s e

theorem reportStands_leaveSteered (kind : StopKind) (s : State) : ReportStands s (leaveSteered kind s) := by
  show ReportStands s (flushStick (if s.motion.mode = .cue then haltCue (stopBegun kind s) else stopBegun kind s))
  rw [stopBegun_eq]
  split
  · refine ⟨(CueWay.clearCueBasis _).stop, ?_, fun e he => eventSet_clearCueBasis he _⟩
    rw [flushStick_cue, haltCue, clearCueBasis_cue]
    rfl
  · exact ⟨rfl, rfl, fun _ _ => rfl⟩

theorem reportStands_reported (s : State) (u : StopUnit) : ReportStands { s with stop := u } (reported s u) := by
  unfold reported
  split
  · exact ⟨rfl, rfl, fun _ _ => rfl⟩
  · rcases reportKind_cases u.kind { s with stop := u } with ⟨-, e⟩ | ⟨-, -, e⟩ | ⟨-, -, e⟩ | ⟨-, e⟩ <;> rw [e]
    · exact reportStands_leaveSteered _ _
    all_goals exact ⟨rfl, rfl, fun _ _ => rfl⟩

theorem raiseCause_stop (c : Cause) (port : Option Nat) (asked : StopKind) (s : State) :
    (raiseCause c port asked s).stop = stopJoined c port asked s := by
  rw [raiseCause_eq_reported, raiseIf_eq]
  exact (reportStands_reported s _).stop

/-- A cause of kind `k` that no port raises has been raised between `s` and `t`: the set and the first cause, the kind in force,
STOP, and what follows (R165 to R168). -/
def CauseRaised (s : State) (c : Cause) (k : StopKind) (t : State) : Prop :=
  t.stop.causes = s.stop.causes ||| BitVec.twoPow 8 c.bit
    ∧ t.stop.first = (if s.stop.causes = 0#8 then some { cause := c, port := none } else s.stop.first)
    ∧ t.stop.attribution = s.stop.attribution ∧ t.stop.kind = kindTaken s k
    ∧ (eventSet t .stop = true ↔ eventSet s .stop = true ∨ s.stop.has c = false ∨ kindTaken s k ≠ s.stop.kind)
    ∧ StopTaken s t k
    ∧ (kindTaken s k ≠ s.stop.kind → s.motion.mode.steered = true →
        t.cue.running = false ∧ t.motion.copy = none ∧ t.motion.exit = none ∧ t.motion.trapped = false ∧ t.auth.buffer = []
          ∧ t.auth.cue = false ∧ t.cue.entries = s.cue.entries ∧ (s.auth.explicit = true → t.auth.holder = s.auth.holder))
    ∧ t.motion.p = s.motion.p ∧ t.motion.lim = s.motion.lim ∧ t.motion.lengths = s.motion.lengths ∧ t.air = s.air
    ∧ t.span = s.span ∧ t.marks = s.marks ∧ t.ports = s.ports ∧ t.period = s.period

/-- With a new kind in force in a steered mode, nothing of a cue, of the stick or of an eviction goes on (R63, R117, R168). -/
theorem steeredOver_of_stopTaken {s t : State} {k : StopKind} (law : ModeOk s) (taken : StopTaken s t k)
    (entries : t.cue.entries = s.cue.entries) (changed : kindTaken s k ≠ s.stop.kind) (steered : s.motion.mode.steered = true) :
    t.cue.running = false ∧ t.motion.copy = none ∧ t.motion.exit = none ∧ t.motion.trapped = false ∧ t.auth.buffer = []
      ∧ t.auth.cue = false ∧ t.cue.entries = s.cue.entries ∧ (s.auth.explicit = true → t.auth.holder = s.auth.holder) := by
  have fits := ((modeOk_iff s).1 law).2
  obtain ⟨-, -, acts, -⟩ := taken
  obtain ⟨-, -, -, -, -, -, -, -, -, evict, -, idle, flushed, cue⟩ := acts changed
  obtain ⟨exit, trapped⟩ := evict steered
  by_cases running : s.motion.mode = .cue
  · obtain ⟨cueT, copy, auth⟩ := cue running
    obtain ⟨h, holder⟩ := Option.isSome_iff_exists.1 (fits.cue running).2
    obtain ⟨kept, ends⟩ := auth h holder
    refine ⟨by rw [cueT], copy, exit, trapped, ?_, ?_, entries, fun explicit => by rw [kept explicit]⟩ <;>
      rcases explicit : s.auth.explicit with _ | _
    · rw [(ends explicit).1]; rfl
    · rw [kept explicit]
    · rw [(ends explicit).1]; rfl
    · rw [kept explicit]
  · obtain ⟨cueT, copy⟩ := idle running
    have auth := flushed steered running
    refine ⟨?_, ?_, exit, trapped, by rw [auth], ?_, entries, fun _ => by rw [auth]⟩
    · rw [cueT]; exact Bool.eq_false_iff.2 (mt fits.running.1 running)
    · rw [copy]; exact Option.not_isSome_iff_eq_none.1 (mt fits.copy.1 running)
    · rw [auth]; exact Bool.eq_false_iff.2 (mt fits.basis.1 running)

theorem causeRaised_raiseCause {s : State} (law : ModeOk s) (c : Cause) (asked : StopKind) :
    CauseRaised s c (c.kind (s.stop.join c none asked).requested) (raiseCause c none asked s)
      ∧ (raiseCause c none asked s).stop.requested = (s.stop.join c none asked).requested
      ∧ (raiseCause c none asked s).stop.estopOpen = s.stop.estopOpen := by
  have taken := stopTaken_raiseCause law c none asked
  have frame := frame_raiseCause c none asked s
  generalize hk : c.kind (s.stop.join c none asked).requested = k at taken ⊢
  have kind : (stopJoined c none asked s).kind = kindTaken s k := by rw [← hk]; exact kindAfter_eq ..
  have stop := raiseCause_stop c none asked s
  obtain ⟨-, entriesR, eventR⟩ := reportStands_reported s (stopJoined c none asked s)
  have entries : (raiseCause c none asked s).cue.entries = s.cue.entries := by
    rw [raiseCause_eq_reported, raiseIf_eq]
    exact entriesR
  have event : eventSet (raiseCause c none asked s) .stop
      = (eventSet s .stop || (!s.stop.has c || kindTaken s k != s.stop.kind)) := by
    rw [raiseCause_eq_reported, eventSet_raiseIf, eventR _ (by decide), kind]
    simp [eventSet]
  refine ⟨⟨?_, ?_, ?_, ?_, ?_, taken, steeredOver_of_stopTaken law taken entries, frame.p, frame.lim, frame.lengths, frame.air,
    frame.span, frame.marks, frame.ports, frame.period⟩, ?_, ?_⟩
  case refine_4 => rw [stop, kind]
  case refine_5 => rw [event]; simp
  all_goals
    rw [stop]
    rfl

/-! ## STOP, the ESTOP line and the watchdog (R172, R173, R206) -/

section

variable {s : State} {st n : Nat}

theorem stop_of_other {c : StationClass} (may : ¬(c = .safety ∨ c = .supervisor ∨ s.auth.holder = some st)) :
    stop n st c s = refuse .notHolder s := by
  simp only [not_or] at may
  exact if_pos ⟨may.1, may.2.1, Bool.eq_false_iff.2 (mt (holds_iff s st).1 may.2.2)⟩

theorem may_stop {c : StationClass} (may : c = .safety ∨ c = .supervisor ∨ s.auth.holder = some st) :
    ¬(c ≠ .safety ∧ c ≠ .supervisor ∧ holds s st = false) := by
  rintro ⟨notSafety, notSupervisor, other⟩
  rcases may with e | e | holder
  · exact notSafety e
  · exact notSupervisor e
  · rw [(holds_iff s st).2 holder] at other
    cases other

theorem stop_of_bad_kind {c : StationClass} (may : c = .safety ∨ c = .supervisor ∨ s.auth.holder = some st)
    (bad : stopKindOf n = none) : stop n st c s = refuse .badParam s := by
  rw [stop, if_neg (may_stop may), bad]

theorem stop_of_kind {c : StationClass} (may : c = .safety ∨ c = .supervisor ∨ s.auth.holder = some st) {k : StopKind}
    (named : stopKindOf n = some k) :
    stop n st c s = accept (raiseCause .operator none k s)
      (byte (raiseCause .operator none k s).stop.kind.severity ++ byte (raiseCause .operator none k s).motion.mode.code) := by
  rw [stop, if_neg (may_stop may), named]

theorem stopKindOf_eq_none (h : n = 0 ∨ 3 < n) : stopKindOf n = none := by
  match n with
  | 0 => rfl
  | 1 | 2 | 3 => omega
  | _ + 4 => rfl

theorem stopKindOf_eq_some {k : StopKind} (h : n = 1 ∧ k = .controlled ∨ n = 2 ∧ k = .quick ∨ n = 3 ∧ k = .brake) :
    stopKindOf n = some k := by
  rcases h with ⟨rfl, rfl⟩ | ⟨rfl, rfl⟩ | ⟨rfl, rfl⟩ <;> rfl

/-- The kind an OPERATOR cause asks for, with one in the set already or not (R172). -/
theorem requested_operator {u : StopUnit} (fits : u.has .operator = true ↔ u.requested ≠ .none) {k : StopKind} :
    (u.join .operator none k).requested = if u.requested.severity < k.severity then k else u.requested := by
  show (if u.has .operator then u.requested.harsher k else k) = _
  split
  · rfl
  · next absent =>
    have none : u.requested = .none := not_not.1 (mt fits.2 absent)
    rw [none]
    cases k <;> rfl

end

/-- The silence counter one further (R206). -/
def countSilence (s : State) : State :=
  { s with station := { s.station with silence := saturate s.station.silence 1000 } }

/-- What the watchdog does where it is reached (R206). -/
theorem silenceStep_reached {s : State} (steers : s.motion.mode = .stick ∨ s.motion.mode = .cue ∨ s.motion.mode = .evict)
    (reached : s.station.watchdog ≤ saturate s.station.silence 1000) :
    silenceStep s = raiseCause .stationSilent none .none (countSilence s) := by
  unfold silenceStep
  rcases steers with e | e | e <;> simp only [e] <;> exact if_pos reached

end Sys2Proof.Machine
end


-- ==== Sys2Proof/Proofs/SilenceAtExpiry.lean ====
section
/-! PROOFS. The watchdog at a period expiry: the silence counter goes by the mode of the computation that begins, and STATION_SILENT
is raised where it reaches the setting (R38, R117, R165, R206). -/

namespace Sys2Proof.Machine

/-! ## A cue that goes on (R59, R100) -/

/-- Where the mode is CUE after a transition, the authority record is as it was before. -/
def CueGoesOn (s t : State) : Prop := t.motion.mode = .cue → t.auth = s.auth

namespace CueGoesOn

theorem enterHold (s t : State) : CueGoesOn s (enterHold t) := by
  intro mode
  rw [enterHold_motion] at mode
  dsimp only at mode
  split at mode <;> cases mode

theorem failHead (why : FailReason) (s t : State) : CueGoesOn s (failHead why t) := enterHold _ _

theorem startHead (s : State) : CueGoesOn s (startHead s) := by
  unfold Machine.startHead
  split
  · exact fun _ => rfl
  · split
    · exact failHead _ _ _
    · exact fun _ => rfl

theorem completeCue (s : State) : CueGoesOn s (completeCue s) := by
  rcases entries : s.cue.entries with _ | ⟨e, rest⟩
  · unfold Machine.completeCue
    rw [entries]
    exact enterHold _ _
  · unfold Machine.completeCue
    rw [entries]
    dsimp only
    split
    · exact enterHold _ _
    · intro mode
      rw [startHead _ mode]
      simp [removeTo, raiseIf_eq]

theorem cueChecks (s : State) : CueGoesOn s (cueChecks s) := by
  unfold Machine.cueChecks
  split
  · exact fun _ => rfl
  · split
    · unfold dwellStep
      split
      · exact completeCue s
      · exact fun _ => rfl
    · split
      · unfold arrive
        split
        · exact completeCue s
        · exact fun _ => rfl
      · unfold progressTest
        dsimp only
        generalize (if (Vec3.minus _ (heldP s)).norm < _ then 0 else _ + 1) = n
        split
        · exact failHead _ _ _
        · exact fun _ => rfl

theorem checked (c : Computation) (s : State) : CueGoesOn s (checked c s) := by
  unfold Machine.checked cueCommit
  split
  · exact fun mode => (cueChecks _ mode).trans cueStands_committedTable.auth
  · exact fun _ => cueStands_committedTable.auth

theorem commitFlight (s : State) : CueGoesOn s (commitFlight s) := by
  unfold Machine.commitFlight
  split
  · next c _ =>
    obtain ⟨m, e, hm⟩ := commit_eq_with c s
    rw [e]
    intro mode
    refine checked c s ?_
    rw [show m = .cue from mode] at hm
    split at hm
    · cases hm
    · exact hm.symm
  · exact fun _ => rfl

end CueGoesOn

/-! ## The state before the watchdog is looked at -/

theorem commitFlight_stands (s : State) :
    (commitFlight s).stop = s.stop
      ∧ (commitFlight s).station = { s.station with events := (commitFlight s).station.events } := by
  unfold commitFlight
  split
  · next c _ =>
    obtain ⟨-, -, -, -, stop, -, station, -⟩ := checked_stands c s
    obtain ⟨m, e, -⟩ := commit_eq_with c s
    rw [e]
    exact ⟨stop, station⟩
  · exact ⟨rfl, rfl⟩

theorem LawsKept.opened (s : State) : LawsKept s (opened s) := by
  have counted : ∀ t, LawsKept t (countLifetimes t) := fun t => .trans (.others rfl) (.raiseIf _ _ _)
  have promoted : ∀ t, LawsKept t (promoteAtRest t) := by
    intro t
    unfold promoteAtRest
    exact .trans (.ite (.trans (.others rfl) (.raiseIf _ _ _))) (.others rfl)
  exact (((servedEdits.clockToWrap s).trans (counted _)).trans (promoted _)).trans (.arbiterExpiry _)

/-- An expiry of `s` stands at `w` with its computation begun and the ports' work done; the watchdog comes last (log 4). -/
structure AwaitsWatchdog (s w : State) : Prop where
  law : ModeOk w
  stop : w.stop = s.stop
  station : w.station = { s.station with events := w.station.events }
  rest : s.motion.mode = .safe ∨ s.motion.mode.isStopped = true → w.motion.mode = s.motion.mode
  flight : ∀ c, w.motion.flight = some c → c.mode = w.motion.mode
  goesOn : w.motion.mode = .cue → ∀ h, s.auth.holder = some h →
    w.auth = { s.auth with backoff := s.auth.backoff.map (fun n => n - 1) }

theorem Mode.rest_not_moving {m : Mode} (rest : m = .safe ∨ m.isStopped = true) : ¬(m.steered = true ∨ m = .stopping) :=
  fun moving => Mode.moving_not_rest moving rest

theorem landed_of_rest {s : State} (law : ModeOk s) (rest : s.motion.mode = .safe ∨ s.motion.mode.isStopped = true) :
    s.motion.flight = none := by
  rcases flight : s.motion.flight with _ | c
  · rfl
  · exact absurd (((modeOk_iff s).1 law).1.flight c flight).moving (Mode.rest_not_moving rest)

theorem expiry_awaitsWatchdog {s : State} (held : s.resetHeld = false) (law : ModeOk s) (quiet : NoFrameWaits s)
    (good : ∀ q ∈ s.ports.list, q.state = .up → q.good = true ∨ q.lastSent = none) :
    ∃ w, AwaitsWatchdog s w ∧ exec .periodExpiry s = .next (silenceStep w) := by
  refine ⟨portsExpiry (beginComputation (opened (commitFlight s))), ?_,
    (exec_periodExpiry held).trans (congrArg _ (expiryWork_eq _))⟩
  have still : s.motion.mode = .safe ∨ s.motion.mode.isStopped = true → commitFlight s = s := fun rest => by
    rw [commitFlight, landed_of_rest law rest]
  obtain ⟨stopU, stationU⟩ := commitFlight_stands s
  have goesOnU := CueGoesOn.commitFlight s
  have lawU := (LawsKept.commitFlight s).mode law
  have portsU := commitFlight_ports s
  have quietU := noFrameWaits_commitFlight quiet
  generalize commitFlight s = u at *
  have o := opened_stands quietU
  have station := congrArg State.station (opening_opened quietU).others
  have lawX := (LawsKept.opened u).mode lawU
  generalize opened u = x at *
  have begun := beginStands x
  have closing := Closing.portsExpiry (s := beginComputation x)
    (by rw [begun.ports, o.ports, portsU]; exact answered_of_good good)
  have lawW := (LawsKept.deviceEdits.portsExpiry _).mode ((LawsKept.beginComputation x).mode lawX)
  generalize portsExpiry (beginComputation x) = w at *
  have others := closing.others
  refine ⟨lawW, ?_, ?_, fun rest => ?_, fun c hc => ?_, fun mode h holder => ?_⟩
  · rw [others]
    exact begun.stop.trans (o.stop.trans stopU)
  · rw [others, begun.station, station, stationU]
  · have modeX : x.motion.mode = s.motion.mode := by rw [o.motion, still rest]
    rw [others, beginComputation_rest (by rw [modeX]; exact rest)]
    exact modeX
  · rcases Mode.moving_or_rest x.motion.mode with moving | rest
    · have b := begun_of_closing moving closing
      rw [b.motion] at hc ⊢
      cases hc
      rfl
    · rw [others, beginComputation_rest rest] at hc
      exact absurd ((landed_of_rest lawX rest).symm.trans hc) (by simp)
  · rcases Mode.moving_or_rest x.motion.mode with moving | rest
    · have b := begun_of_closing moving closing
      have settled : settle x = x := settle_stays (.inl (b.mode.symm.trans mode))
      have modeU : u.motion.mode = .cue := by rw [← o.motion, ← settled, ← b.mode, mode]
      have authU := goesOnU modeU
      rw [b.auth, settled, o.counted (by rw [authU, holder]; rfl) (by simp [modeU]), authU]
    · rw [others, beginComputation_rest rest] at mode
      rcases rest with e | e <;> rw [show x.motion.mode = .cue from mode] at e <;> cases e

/-! ## A controlled stop out of a steered mode (R63, R167) -/

theorem kindTaken_of_steered {s : State} (law : ModeOk s) (steered : s.motion.mode.steered = true) (k : StopKind) :
    kindTaken s k = k ∧ s.stop.kind = .none := by
  have none : s.stop.kind = .none := (kindFits_of_steered steered _).1 ((modeOk_iff s).1 law).1.kind
  have awake : ¬(s.motion.mode = .safe ∨ s.motion.mode = .stopped .braked) := by
    rintro (e | e) <;> rw [e] at steered <;> cases steered
  refine ⟨?_, none⟩
  rw [kindTaken, if_neg awake, none]
  cases k <;> rfl

/-- The mode is STOPPING, and the computation in flight goes on with its cue checks dropped. -/
theorem StopTaken.controlled {s t : State} (law : ModeOk s) (steered : s.motion.mode.steered = true)
    (taken : StopTaken s t .controlled) :
    t.motion.mode = .stopping
      ∧ (∀ c, t.motion.flight = some c → ∃ b, s.motion.flight = some b ∧ c.mode = b.mode)
      ∧ (s.motion.mode = .cue → ∀ h, s.auth.holder = some h →
          (s.auth.explicit = true → t.auth = flush { s.auth with cue := false })
          ∧ (s.auth.explicit = false → t.auth = authorityOver h s.auth ∧ eventSet t .authority = true)) := by
  obtain ⟨kind, none⟩ := kindTaken_of_steered law steered .controlled
  obtain ⟨-, -, acts, -⟩ := taken
  dsimp only at acts
  rw [← kindTaken, kind, none] at acts
  obtain ⟨mode, -, -, -, -, -, -, other, halted, -, -, -, -, cue⟩ := acts (by simp)
  refine ⟨by simpa [steered] using mode, fun c hc => ?_, fun running => (cue running).2.2⟩
  by_cases running : s.motion.mode = .cue
  · rw [halted (by simp) running] at hc
    obtain ⟨b, hb, rfl⟩ := Option.map_eq_some_iff.1 hc
    exact ⟨b, hb, rfl⟩
  · rw [other (by simp) running] at hc
    exact ⟨c, hc, rfl⟩

/-! ## The watchdog (R165, R206) -/

section

variable {w : State}

theorem silenceStep_of_other (other : ¬(w.motion.mode = .stick ∨ w.motion.mode = .cue ∨ w.motion.mode = .evict)) :
    silenceStep w = w := by
  unfold silenceStep
  split <;> simp_all

theorem silenceStep_below (steers : w.motion.mode = .stick ∨ w.motion.mode = .cue ∨ w.motion.mode = .evict)
    (below : saturate w.station.silence 1000 < w.station.watchdog) :
    silenceStep w = countSilence w := by
  unfold silenceStep
  rcases steers with e | e | e <;> simp only [e] <;> exact if_neg (not_le.2 below)

/-- What STATION_SILENT leaves in a mode that steers, with no cause in the set before it. -/
structure Silenced (w t : State) : Prop where
  causes : t.stop.causes = 2#8
  kind : t.stop.kind = .controlled
  first : t.stop.first = some { cause := .stationSilent, port := none }
  event : eventSet t .stop = true
  mode : t.motion.mode = .stopping
  running : t.cue.running = false
  buffer : t.auth.buffer = []
  station : t.station = { w.station with silence := saturate w.station.silence 1000, events := t.station.events }
  flight : (∀ c, w.motion.flight = some c → c.mode = w.motion.mode) → ∀ c, t.motion.flight = some c → c.mode = w.motion.mode
  basis : w.motion.mode = .cue → ∀ h, w.auth.holder = some h →
    (w.auth.explicit = true → t.auth = flush { w.auth with cue := false })
    ∧ (w.auth.explicit = false → t.auth = authorityOver h w.auth ∧ eventSet t .authority = true)

theorem silenced_silenceStep (law : ModeOk w)
    (steers : w.motion.mode = .stick ∨ w.motion.mode = .cue ∨ w.motion.mode = .evict)
    (reached : w.station.watchdog ≤ saturate w.station.silence 1000) : Silenced w (silenceStep w) := by
  rw [silenceStep_reached steers reached]
  have steered : w.motion.mode.steered = true := by rcases steers with e | e | e <;> rw [e] <;> rfl
  have empty : (countSilence w).stop.causes = 0#8 := ((modeOk_iff w).1 law).1.causes steered
  obtain ⟨inForce, none⟩ := kindTaken_of_steered (s := countSilence w) law steered .controlled
  obtain ⟨⟨causes, first, -, kind, event, taken, ended, -⟩, -⟩ :=
    causeRaised_raiseCause (s := countSilence w) law .stationSilent .none
  obtain ⟨mode, flight, basis⟩ := taken.controlled (s := countSilence w) law steered
  have station := (frame_raiseCause .stationSilent Option.none .none (countSilence w)).station
  generalize raiseCause .stationSilent Option.none .none (countSilence w) = t at *
  rw [Cause.kind, inForce] at kind event ended
  have changed : StopKind.controlled ≠ (countSilence w).stop.kind := by rw [none]; simp
  obtain ⟨running, -, -, -, buffer, -⟩ := ended changed steered
  refine ⟨by rw [causes, empty]; rfl, kind, by rw [first, if_pos empty], event.2 (.inr (.inr changed)), mode, running, buffer,
    station, fun begun c hc => ?_, basis⟩
  obtain ⟨b, hb, same⟩ := flight c hc
  exact same.trans (begun b hb)

end

section

variable {s w : State}

namespace AwaitsWatchdog

/-- What the watchdog reads (R206). -/
theorem reads (awaits : AwaitsWatchdog s w) :
    w.station.silence = s.station.silence ∧ w.station.watchdog = s.station.watchdog
      ∧ saturate w.station.silence 1000 = saturate s.station.silence 1000 := by
  rw [awaits.station]
  exact ⟨rfl, rfl, rfl⟩

/-- The computation in flight at the end ran in the mode that the watchdog read. -/
theorem mode_eq (awaits : AwaitsWatchdog s w) {c : Computation} (hc : (silenceStep w).motion.flight = some c) :
    c.mode = w.motion.mode := by
  by_cases steers : w.motion.mode = .stick ∨ w.motion.mode = .cue ∨ w.motion.mode = .evict
  · by_cases reached : w.station.watchdog ≤ saturate w.station.silence 1000
    · exact (silenced_silenceStep awaits.law steers reached).flight awaits.flight c hc
    · rw [silenceStep_below steers (not_le.1 reached)] at hc
      exact awaits.flight c hc
  · rw [silenceStep_of_other steers] at hc
    exact awaits.flight c hc

theorem stands (awaits : AwaitsWatchdog s w)
    (other : ¬(w.motion.mode = .stick ∨ w.motion.mode = .cue ∨ w.motion.mode = .evict)) :
    (silenceStep w).station.silence = s.station.silence ∧ (silenceStep w).stop = s.stop := by
  rw [silenceStep_of_other other]
  exact ⟨awaits.reads.1, awaits.stop⟩

theorem below (awaits : AwaitsWatchdog s w) (steers : w.motion.mode = .stick ∨ w.motion.mode = .cue ∨ w.motion.mode = .evict)
    (short : saturate s.station.silence 1000 < s.station.watchdog) :
    (silenceStep w).station.silence = saturate s.station.silence 1000 ∧ (silenceStep w).stop = s.stop
      ∧ (silenceStep w).motion.mode = w.motion.mode := by
  obtain ⟨-, setting, counted⟩ := awaits.reads
  rw [silenceStep_below steers (by rw [counted, setting]; exact short)]
  exact ⟨counted, awaits.stop, rfl⟩

theorem reached (awaits : AwaitsWatchdog s w)
    (steers : w.motion.mode = .stick ∨ w.motion.mode = .cue ∨ w.motion.mode = .evict)
    (due : s.station.watchdog ≤ saturate s.station.silence 1000) :
    Silenced w (silenceStep w) ∧ (silenceStep w).station.silence = saturate s.station.silence 1000 := by
  obtain ⟨-, setting, counted⟩ := awaits.reads
  have silenced := silenced_silenceStep awaits.law steers (by rw [counted, setting]; exact due)
  exact ⟨silenced, by rw [silenced.station, counted]⟩

end AwaitsWatchdog

end

/-- Settles O56: STOP, the line and the watchdog each raise one cause, and at an expiry the watchdog looks at the mode last. -/
theorem causesRaised : Obligations.CausesRaised := by
  intro s held law m harsher after raised
  have operator := ((modeOk_iff s).1 law).1.operator
  refine ⟨fun st n allowed => ?_, ?_, ?_, fun steers due low => ?_, fun short => ?_, fun quiet good => ?_⟩
  · intro may
    refine ⟨fun other => ?_, fun holder bad => ?_, fun holder k named => ?_⟩
    · exact request_refused allowed (stop_of_other (s := takeFrame s) other)
    · exact request_refused allowed (stop_of_bad_kind (s := takeFrame s) holder (stopKindOf_eq_none bad))
    · intro asked
      obtain ⟨taken, requested, line⟩ := causeRaised_raiseCause (s := takeFrame s) law .operator k
      rw [show (takeFrame s).stop = s.stop from rfl, requested_operator operator] at requested
      rw [Cause.kind, show (takeFrame s).stop = s.stop from rfl, requested_operator operator] at taken
      refine ⟨_, _, request_accepted (f := raiseCause .operator none k) allowed
        (stop_of_kind (s := takeFrame s) holder (stopKindOf_eq_some named)), taken, requested, line, rfl, rfl, rfl⟩
  · have run : exec (.estopLineChange true) s
        = .next (raiseCause .estop none .none { s with estopLineOpen := true, stop := { s.stop with estopOpen := true } }) :=
      congrArg Host.Outcome.next (if_neg (by rw [held]; simp))
    obtain ⟨taken, requested, line⟩ := causeRaised_raiseCause
      (s := { s with estopLineOpen := true, stop := { s.stop with estopOpen := true } }) law .estop .none
    exact ⟨_, run, taken, requested, line⟩
  · exact congrArg Host.Outcome.next (if_neg (by rw [held]; simp))
  · have counted : saturate s.station.silence 1000 = s.station.silence + 1 := if_pos low
    have reached : s.station.watchdog ≤ saturate s.station.silence 1000 := by rw [counted, due]
    have run : exec .watchdogExpiry s = .next (raiseCause .stationSilent none .none (countSilence s)) :=
      congrArg Host.Outcome.next
        ((unlessHeld_free s _ held).trans ((if_pos reached).trans (silenceStep_reached steers reached)))
    obtain ⟨taken, requested, -⟩ := causeRaised_raiseCause (s := countSilence s) law .stationSilent .none
    refine ⟨_, run, taken, requested, ?_⟩
    rw [(frame_raiseCause ..).station]
    exact counted
  · refine congrArg Host.Outcome.next ((unlessHeld_free s _ held).trans (if_neg ?_))
    unfold saturate
    split <;> omega
  · intro n
    obtain ⟨w, awaits, run⟩ := expiry_awaitsWatchdog held law quiet good
    refine ⟨_, run, fun rest => awaits.stands ?_, fun c hc => ?_⟩
    · rw [awaits.rest rest]
      rintro (e | e | e) <;> rcases rest with r | r <;> rw [show m = _ from e] at r <;> cases r
    · have mode := awaits.mode_eq hc
      refine ⟨fun idle => awaits.stands ?_, fun steers => ?_⟩
      · rw [← mode]
        rcases idle with e | e <;> simp [e]
      · rw [mode] at steers ⊢
        refine ⟨?_, fun short => (awaits.below steers short).2, fun due => ?_⟩
        · rcases lt_or_ge n s.station.watchdog with short | due
          · exact (awaits.below steers short).1
          · exact (awaits.reached steers due).2
        · obtain ⟨silent, -⟩ := awaits.reached steers due
          refine ⟨silent.causes, silent.kind, silent.first, silent.event, silent.mode, silent.running, silent.buffer, ?_⟩
          intro record running h holder
          have auth := awaits.goesOn running h holder
          have basis := silent.basis running h (by rw [auth]; exact holder)
          rw [auth] at basis
          exact basis

end Sys2Proof.Machine
end


-- ==== Sys2Proof/Proofs/ClaimDecision.lean ====
section
/-! PROOFS. The Arbiter by itself: the choice of a holder, the count of a backoff, and a miss or a sample of the stick (R115, R124,
R125). -/

namespace Sys2Proof.Machine

/-! ## The eligible station (R115) -/

/-- In a rising list the first element that passes is the least that does. -/
theorem find?_eq_some_iff_least {ps : List Nat} (rising : ps.Pairwise (· < ·)) (p : Nat → Bool) (st : Nat) :
    ps.find? p = some st ↔ st ∈ ps ∧ p st = true ∧ ∀ n ∈ ps, p n = true → st ≤ n := by
  induction ps with
  | nil => simp
  | cons x xs ih =>
    obtain ⟨first, later⟩ := List.pairwise_cons.1 rising
    rcases hx : p x with _ | _
    · rw [List.find?_cons_of_neg (by simp [hx]), ih later]
      constructor
      · rintro ⟨mem, passes, least⟩
        refine ⟨.tail _ mem, passes, fun n hn pn => ?_⟩
        rcases List.mem_cons.1 hn with rfl | hn
        · rw [hx] at pn; cases pn
        · exact least n hn pn
      · rintro ⟨mem, passes, least⟩
        refine ⟨(List.mem_cons.1 mem).resolve_left ?_, passes, fun n hn => least n (.tail _ hn)⟩
        rintro rfl
        rw [hx] at passes; cases passes
    · rw [List.find?_cons_of_pos hx]
      constructor
      · rintro ⟨rfl⟩
        exact ⟨.head _, hx, fun n hn _ => (List.mem_cons.1 hn).elim (fun e => e.ge) fun hn => (first n hn).le⟩
      · rintro ⟨mem, -, least⟩
        rcases List.mem_cons.1 mem with rfl | mem
        · rfl
        · exact absurd (least x (.head _) hx) (not_le.2 (first st mem))

theorem eligible_eq_some_iff {a : Authority} (rising : a.pending.Pairwise (· < ·)) (st : Nat) :
    eligible a = some st
      ↔ st ∈ a.pending ∧ a.backoff.getD st 0 = 0 ∧ ∀ n ∈ a.pending, a.backoff.getD n 0 = 0 → st ≤ n := by
  have least := find?_eq_some_iff_least rising (fun n => a.backoff.getD n 0 == 0) st
  simp only [beq_iff_eq] at least
  exact least

/-- The one station that waits with no backoff is eligible, in whatever order they stand. -/
theorem eligible_of_only {a : Authority} {st : Nat} (waits : st ∈ a.pending) (ready : a.backoff.getD st 0 = 0)
    (others : ∀ n ∈ a.pending, n ≠ st → a.backoff.getD n 0 ≠ 0) : eligible a = some st := by
  have found : (eligible a).isSome = true := List.find?_isSome.2 ⟨st, waits, beq_iff_eq.2 ready⟩
  obtain ⟨n, hn⟩ := Option.isSome_iff_exists.1 found
  have passes : a.backoff.getD n 0 = 0 := by simpa using List.find?_some hn
  have same : n = st := by_contra fun other => others n (List.mem_of_find?_eq_some hn) other passes
  rw [hn, same]

theorem eligible_eq_none {a : Authority} (waiting : ∀ n ∈ a.pending, a.backoff.getD n 0 ≠ 0) : eligible a = none :=
  List.find?_eq_none.2 fun n hn => by simpa using waiting n hn

/-! ## The claim decision (R115) -/

section

variable {s : State}

theorem claimDecision_of_holder (holder : s.auth.holder.isSome = true) : claimDecision s = s := by
  obtain ⟨h, hh⟩ := Option.isSome_iff_exists.1 holder
  simp [claimDecision, hh]

theorem claimDecision_of_none (none : eligible s.auth = none) : claimDecision s = s := by
  simp [claimDecision, none]

theorem claimDecision_of_free (free : s.auth.holder = none) {st : Nat} (found : eligible s.auth = some st) :
    claimDecision s = raiseEvent .authority { s with auth := s.auth.become st } := by
  simp only [claimDecision, free, found]

end

/-! ## BACKOFF_EXPIRY (log 5) -/

section

variable {s : State} {st : Nat}

/-- A backoff counted down to 0. -/
def backoffRun (st : Nat) (s : State) : State := { s with auth := { s.auth with backoff := s.auth.backoff.set st 0 } }

theorem exec_backoffExpiry (held : s.resetHeld = false) (due : s.auth.backoff.getD st 0 = 1) :
    exec (.backoffExpiry st) s = .next (claimDecision (backoffRun st s)) :=
  congrArg Host.Outcome.next ((unlessHeld_free s _ held).trans (if_pos due))

theorem exec_backoffExpiry_stands (held : s.resetHeld = false) (other : s.auth.backoff.getD st 0 ≠ 1) :
    exec (.backoffExpiry st) s = .next s :=
  congrArg Host.Outcome.next ((unlessHeld_free s _ held).trans (if_neg other))

theorem backoffRun_ready (st : Nat) (bs : List Nat) : (bs.set st 0).getD st 0 = 0 := by
  by_cases known : st < bs.length <;> simp [known]

/-- The backoff run down, `h` becomes holder (R111, R115). -/
theorem granted_backoffRun (h : Nat) :
    raiseEvent .authority { backoffRun st s with auth := (backoffRun st s).auth.become h }
      = { s with
          auth := { s.auth with
            holder := some h, explicit := true, cue := false
            pending := s.auth.pending.filter (fun n => n != h), backoff := (s.auth.backoff.set st 0).set h 0 }
          station := { s.station with events := s.station.events ||| 0x2#14 } } := rfl

theorem backoffRun_others {n : Nat} (other : n ≠ st) (bs : List Nat) : (bs.set st 0).getD n 0 = bs.getD n 0 := by
  simp [List.getD, List.getElem?_set_ne (Ne.symm other)]

end

/-! ## A sample or a miss (R124, R125) -/

theorem consumes_eq_none {a : Authority} (h : a.buffer = [] ∨ a.filling = true ∧ a.buffer.length < a.start) :
    consumes a = none := by
  rcases h with empty | ⟨filling, few⟩
  · simp [consumes, empty]
  · simp [consumes, filling, few]

theorem consumes_eq_some {a : Authority} {q : Sample} {rest : List Sample} (buffer : a.buffer = q :: rest)
    (started : a.filling = false ∨ a.start ≤ a.buffer.length) : consumes a = some q := by
  have goes : (a.filling && decide (a.buffer.length < a.start)) = false := by
    rcases started with e | e
    · simp [e]
    · simp [not_lt.2 e]
  rw [consumes, goes, buffer]
  rfl

theorem nextMiss_eq_of_le {a : Authority} (h : a.miss ≤ a.hold) : nextMiss a = a.miss + 1 := if_pos h

section

variable {s : State}

theorem stickStep_of_other (mode : s.motion.mode ≠ .stick) : stickStep s = s := if_neg mode

theorem stickStep_of_sample (mode : s.motion.mode = .stick) {q : Sample} (sample : consumes s.auth = some q) :
    stickStep s = { s with auth := consumeStep s.motion.lim q s.auth } := by
  simp only [stickStep, if_pos mode, sample]

theorem stickStep_of_miss (mode : s.motion.mode = .stick) (miss : consumes s.auth = none) :
    stickStep s = raiseIf (!s.auth.stale && decide (s.auth.hold < nextMiss s.auth)) .stickStale
      { s with auth := missStep s.auth } := by
  simp only [stickStep, if_pos mode, miss]

/-- The work on the stick leaves the holder, the claims and AUTHORITY alone. -/
structure StickStands (s t : State) : Prop where
  holder : t.auth.holder = s.auth.holder
  explicit : t.auth.explicit = s.auth.explicit
  cue : t.auth.cue = s.auth.cue
  pending : t.auth.pending = s.auth.pending
  backoff : t.auth.backoff = s.auth.backoff
  event : eventSet t .authority = eventSet s .authority

theorem stickStands_stickStep (s : State) : StickStands s (stickStep s) := by
  by_cases mode : s.motion.mode = .stick
  · rcases sample : consumes s.auth with _ | q
    · rw [stickStep_of_miss mode sample]
      refine ⟨?_, ?_, ?_, ?_, ?_, eventSet_raiseIf_of_ne (by decide) _ _⟩ <;> rw [raiseIf_eq] <;> rfl
    · rw [stickStep_of_sample mode sample]
      exact ⟨rfl, rfl, rfl, rfl, rfl, rfl⟩
  · rw [stickStep_of_other mode]
    exact ⟨rfl, rfl, rfl, rfl, rfl, rfl⟩

/-! ## STICK_HOLD_EXPIRY (log 5) -/

theorem exec_stickHoldExpiry (held : s.resetHeld = false) (fresh : s.auth.stale = false)
    (last : s.auth.hold < nextMiss s.auth) (miss : consumes s.auth = none) :
    exec .stickHoldExpiry s = .next (stickStep s) :=
  congrArg Host.Outcome.next ((unlessHeld_free s _ held).trans (if_pos (by simp [fresh, last, miss])))

theorem exec_stickHoldExpiry_stands (held : s.resetHeld = false) (h : s.auth.miss < s.auth.hold ∨ s.auth.stale = true) :
    exec .stickHoldExpiry s = .next s := by
  refine congrArg Host.Outcome.next ((unlessHeld_free s _ held).trans (if_neg ?_))
  rcases h with short | stale
  · simp [nextMiss_eq_of_le short.le, Nat.not_lt.2 (show s.auth.miss + 1 ≤ s.auth.hold from short)]
  · simp [stale]

end

end Sys2Proof.Machine
end


-- ==== Sys2Proof/Proofs/HolderAtExpiry.lean ====
section
/-! PROOFS. From the choice of a holder to the end of a period expiry: what the settling of the mode, the ports and the watchdog can
do to the holder and to a stick that goes on (R37, R61, R115, R117, R126, R147, R206). -/

namespace Sys2Proof.Machine

/-! ## What follows the computation's beginning: the ports and the watchdog -/

/-- The relation chains, and holds across every edit of the ports and of the watchdog at an expiry. -/
structure ClosingEdits (R : State → State → Prop) : Prop where
  trans : ∀ {s t u}, R s t → R t u → R s u
  ports : ∀ q s, R s { s with ports := q }
  flag : ∀ b s, R s (raiseIf b .port s)
  silence : ∀ s, R s (countSilence s)
  cause : ∀ c port s, R s (raiseCause c port .none s)

namespace ClosingEdits

variable {R : State → State → Prop}

theorem movePort (h : ClosingEdits R) (i : Nat) (q : Port) (s : State) : R s (movePort i q s) :=
  h.trans (h.ports _ s) (h.flag _ _)

theorem portCheck (h : ClosingEdits R) (i : Nat) (s : State) : R s (portCheck i s) := by
  unfold Machine.portCheck
  dsimp only
  split
  case h_1 | h_2 => exact h.movePort _ _ s
  case h_3 =>
    unfold missCheck
    dsimp only
    split
    · split
      · exact h.trans (h.movePort _ _ s) (h.cause _ _ _)
      · exact h.ports _ s
    · exact h.ports _ s
  all_goals exact h.ports _ s

theorem portsExpiry (h : ClosingEdits R) (s : State) : R s (portsExpiry s) := by
  have checks : R s (portsChecked s) :=
    h.trans (h.trans (h.trans (h.portCheck 0 s) (h.portCheck 1 _)) (h.portCheck 2 _)) (h.portCheck 3 _)
  rw [(sending_portsExpiry s).others]
  exact h.trans checks (h.ports _ _)

theorem silenceStep (h : ClosingEdits R) (s : State) : R s (silenceStep s) := by
  by_cases steers : s.motion.mode = .stick ∨ s.motion.mode = .cue ∨ s.motion.mode = .evict
  · by_cases reached : s.station.watchdog ≤ saturate s.station.silence 1000
    · rw [silenceStep_reached steers reached]
      exact h.trans (h.silence s) (h.cause _ _ _)
    · rw [silenceStep_below steers (not_le.1 reached)]
      exact h.silence s
  · rw [silenceStep_of_other steers]
    exact h.ports s.ports s

theorem closes (h : ClosingEdits R) (s : State) : R s (Machine.silenceStep (Machine.portsExpiry s)) :=
  h.trans (h.portsExpiry s) (h.silenceStep _)

end ClosingEdits

/-! ## The holder (R117) -/

/-- From `a` to `b` the holder stays with its backoff, or one without EXPLICIT has lost authority. -/
structure HolderMoves (a b : Authority) : Prop where
  pending : b.pending = a.pending
  way : (b.holder = a.holder ∧ b.explicit = a.explicit ∧ (a.cue = false → b.cue = false) ∧ b.backoff = a.backoff)
    ∨ ∃ h, a.holder = some h ∧ a.explicit = false ∧ b.holder = none ∧ b.backoff = a.backoff.set h 2

namespace HolderMoves

theorem refl (a : Authority) : HolderMoves a a := ⟨rfl, .inl ⟨rfl, rfl, id, rfl⟩⟩

theorem trans {a b c : Authority} (h : HolderMoves a b) (k : HolderMoves b c) : HolderMoves a c := by
  refine ⟨k.pending.trans h.pending, ?_⟩
  rcases h.way with ⟨holder, explicit, cue, backoff⟩ | ⟨n, held, alone, gone, backoff⟩
  · rw [← holder, ← explicit, ← backoff]
    rcases k.way with ⟨holder', explicit', cue', backoff'⟩ | lost
    · exact .inl ⟨holder', explicit', fun h => cue' (cue h), backoff'⟩
    · exact .inr lost
  · rcases k.way with ⟨holder', -, -, backoff'⟩ | ⟨m, held', -⟩
    · exact .inr ⟨n, held, alone, holder'.trans gone, backoff'.trans backoff⟩
    · rw [gone] at held'
      cases held'

theorem flush (a : Authority) : HolderMoves a (flush a) := ⟨rfl, .inl ⟨rfl, rfl, id, rfl⟩⟩

theorem basisCleared (a : Authority) : HolderMoves a (basisCleared a) := by
  unfold Machine.basisCleared
  rcases holder : a.holder with _ | h
  · exact refl a
  · rcases explicit : a.explicit with _ | _
    · refine ⟨rfl, .inr ⟨h, holder, explicit, rfl, ?_⟩⟩
      simp [Authority.vacate, Machine.flush, holder]
    · exact ⟨rfl, .inl ⟨holder.symm, explicit.symm, fun _ => rfl, rfl⟩⟩

/-- A holder with EXPLICIT stays. -/
theorem stays {a b : Authority} (m : HolderMoves a b) (h : a.holder = none ∨ a.explicit = true) :
    b.holder = a.holder ∧ b.explicit = a.explicit ∧ (a.cue = false → b.cue = false) ∧ b.backoff = a.backoff := by
  rcases m.way with stays | ⟨n, held, alone, -⟩
  · exact stays
  · rcases h with none | explicit
    · rw [held] at none; cases none
    · rw [alone] at explicit; cases explicit

end HolderMoves

/-- The same between two states, with AUTHORITY never cleared. -/
structure HolderKept (s t : State) : Prop where
  record : HolderMoves s.auth t.auth
  flag : eventSet s .authority = true → eventSet t .authority = true

theorem ControlFrame.eventSet_mono {s t : State} (frame : ControlFrame s t) (e : Event) (h : eventSet s e = true) :
    eventSet t e = true := by
  have bits := congrArg (fun b : BitVec 14 => b.getLsbD e.bit) frame.events
  simp only [BitVec.getLsbD_and] at bits
  unfold eventSet at h ⊢
  rw [h] at bits
  simpa using bits

theorem leaveSteered_auth (kind : StopKind) (s : State) :
    (leaveSteered kind s).auth = flush (if s.motion.mode = .cue then basisCleared s.auth else s.auth) := by
  have auth : (stopBegun kind s).auth = s.auth := by rw [stopBegun_eq]
  show (flushStick (if s.motion.mode = .cue then haltCue (stopBegun kind s) else stopBegun kind s)).auth = _
  split
  · rw [flushStick_auth, haltCue, clearCueBasis_auth_eq, dropCopy_auth, auth]
  · rw [flushStick_auth, auth]

theorem HolderMoves.settle (s : State) : HolderMoves s.auth (settle s).auth := by
  have evicts : HolderMoves s.auth (beginEviction s).auth := by
    unfold beginEviction
    dsimp only
    split
    · rw [haltCue, clearCueBasis_auth_eq]
      exact basisCleared _
    · split
      · exact flush _
      · exact refl _
  rcases settle_cases s with e | ⟨-, -, e⟩ | ⟨-, -, -, e⟩ | ⟨-, -, e⟩ <;> rw [e]
  · exact refl _
  · exact evicts
  · rw [failHead_auth]
    exact basisCleared _
  · exact refl _

theorem HolderMoves.reported (s : State) (u : StopUnit) : HolderMoves s.auth (reported s u).auth := by
  unfold Machine.reported
  split
  · exact refl _
  · rcases reportKind_cases u.kind { s with stop := u } with ⟨-, e⟩ | ⟨-, -, e⟩ | ⟨-, -, e⟩ | ⟨-, e⟩ <;> rw [e]
    · rw [leaveSteered_auth]
      split
      · exact (basisCleared _).trans (flush _)
      · exact flush _
    all_goals exact refl _

namespace HolderKept

theorem of_frame {s t : State} (frame : ControlFrame s t) (record : HolderMoves s.auth t.auth) : HolderKept s t :=
  ⟨record, frame.eventSet_mono .authority⟩

theorem trans {s t u : State} (h : HolderKept s t) (k : HolderKept t u) : HolderKept s u :=
  ⟨h.record.trans k.record, fun e => k.flag (h.flag e)⟩

theorem raiseCause (c : Cause) (port : Option Nat) (s : State) : HolderKept s (raiseCause c port .none s) := by
  refine of_frame (frame_raiseCause c port .none s) ?_
  rw [raiseCause_eq_reported, raiseIf_eq]
  exact .reported s _

theorem beginComputation (s : State) : HolderKept s (beginComputation s) := by
  rcases Mode.moving_or_rest s.motion.mode with moving | rest
  · rw [beginComputation_moving moving]
    refine of_frame ((BeginFrame.readied s).frame.trans (frame_flight _ _)) ?_
    show HolderMoves s.auth (readied s).auth
    rw [(readied_settled s).2.1]
    exact .settle s
  · rw [beginComputation_rest rest]
    exact ⟨.refl _, id⟩

theorem closingEdits : ClosingEdits HolderKept where
  trans := trans
  ports := fun _ s => ⟨.refl s.auth, id⟩
  flag := fun b s => of_frame (frame_raiseIf b .port s) (by rw [raiseIf_eq]; exact .refl s.auth)
  silence := fun s => ⟨.refl s.auth, id⟩
  cause := raiseCause

end HolderKept

/-! ## A stick that goes on -/

/-- With no cause in the set in the end none has been raised, so the Motion Generator and the holder stand. -/
def Uncaused (s t : State) : Prop :=
  t.stop.causes = 0#8 → s.stop.causes = 0#8 ∧ t.auth = s.auth ∧ t.motion = s.motion

theorem raiseCause_causes (c : Cause) (port : Option Nat) (asked : StopKind) (s : State) :
    (raiseCause c port asked s).stop.causes ≠ 0#8 := by
  have causes : (raiseCause c port asked s).stop.causes = (s.stop.join c port asked).causes := by
    rw [raiseCause_stop]
    rfl
  intro empty
  have member : (s.stop.join c port asked).has c = true := by simp [has_join]
  rw [StopUnit.has, ← causes, empty] at member
  simp at member

theorem Uncaused.closingEdits : ClosingEdits Uncaused where
  trans := fun h k empty => by
    obtain ⟨before, auth, motion⟩ := k empty
    obtain ⟨first, authS, motionS⟩ := h before
    exact ⟨first, auth.trans authS, motion.trans motionS⟩
  ports := fun _ _ empty => ⟨empty, rfl, rfl⟩
  flag := fun b s empty => by
    rw [raiseIf_eq] at empty ⊢
    exact ⟨empty, rfl, rfl⟩
  silence := fun _ empty => ⟨empty, rfl, rfl⟩
  cause := fun c port s empty => absurd empty (raiseCause_causes c port .none s)

/-! ## What comes before the Arbiter at an expiry -/

/-- An expiry up to the Arbiter's work. -/
def tableOpened (s : State) : State := promoteAtRest (countLifetimes (clockToWrap s))

theorem opened_eq (s : State) : opened s = arbiterExpiry (tableOpened s) := rfl

/-- The events that the clock and the table may raise. -/
def tableEvents : List Event := [.reference, .zoneExpired, .zoneActive]

theorem eventSet_runTimers {e : Event} (other : e ≠ .reference) (k : Nat) {s : State} (quiet : NoFrameWaits s) :
    eventSet (runTimers k s) e = eventSet s e := by
  rw [runTimers_of_noFrame k s quiet]
  exact eventSet_raiseIf_of_ne other _ _

theorem eventSet_runToWrap {e : Event} (other : e ≠ .reference) (fuel : Nat) {s : State} (quiet : NoFrameWaits s) :
    eventSet (runToWrap fuel s) e = eventSet s e := by
  induction fuel generalizing s with
  | zero => exact eventSet_runTimers other _ quiet
  | succ fuel ih =>
    unfold runToWrap
    split
    · exact (ih (ticked_runTimers _ quiet).quiet).trans (eventSet_runTimers other _ quiet)
    · exact eventSet_runTimers other _ quiet

theorem eventSet_tableOpened {e : Event} (other : e ∉ tableEvents) {s : State} (quiet : NoFrameWaits s) :
    eventSet (tableOpened s) e = eventSet s e := by
  simp only [tableEvents, List.mem_cons, List.not_mem_nil, or_false, not_or] at other
  obtain ⟨reference, expired, active⟩ := other
  have counted : eventSet (countLifetimes (clockToWrap s)) e = eventSet (clockToWrap s) e := eventSet_raiseIf_of_ne expired _ _
  have clock : eventSet (clockToWrap s) e = eventSet s e := eventSet_runToWrap reference (s.station.buffer.length + 2) quiet
  refine Eq.trans ?_ (counted.trans clock)
  unfold tableOpened promoteAtRest
  dsimp only
  split
  · exact eventSet_raiseIf_of_ne active _ _
  · rfl

theorem tableOpened_stands {s : State} (quiet : NoFrameWaits s) :
    (tableOpened s).motion = s.motion ∧ (tableOpened s).auth = s.auth := by
  obtain ⟨motion, auth, -⟩ := promoteAtRest_countLifetimes (clockToWrap s)
  exact ⟨motion.trans (ticked_clockToWrap quiet).motion, auth.trans (clockRun_runToWrap _ quiet).auth⟩

end Sys2Proof.Machine
end


-- ==== Sys2Proof/Proofs/ArbiterAtExpiry.lean ====
section
/-! PROOFS. The Arbiter at a period expiry: the backoffs, the choice of a holder, the sample consumed and the miss, and the holder at
the end of the expiry (R115, R117, R124, R125, R128). -/

namespace Sys2Proof.Machine

/-! ## The Arbiter's work before the computation begins -/

/-- The record with every backoff counted down (R115). -/
def backoffsCounted (a : Authority) : Authority := { a with backoff := a.backoff.map (fun n => n - 1) }

theorem backoffsCounted_ready (a : Authority) (n : Nat) :
    (backoffsCounted a).backoff.getD n 0 = 0 ↔ a.backoff.getD n 0 ≤ 1 := by
  have counted : (backoffsCounted a).backoff.getD n 0 = a.backoff.getD n 0 - 1 := by
    simp only [backoffsCounted, List.getD_eq_getElem?_getD, List.getElem?_map]
    rcases a.backoff[n]? with _ | k <;> rfl
  rw [counted]
  omega

section

variable {s : State}

/-- The state in which the claim decision is made. -/
def claimsCounted (s : State) : State := countBackoffs (tableOpened s)

theorem claimsCounted_stands (quiet : NoFrameWaits s) :
    (claimsCounted s).auth = backoffsCounted s.auth ∧ (claimsCounted s).motion = s.motion
      ∧ ∀ e, e ∉ tableEvents → eventSet (claimsCounted s) e = eventSet s e := by
  obtain ⟨motion, auth⟩ := tableOpened_stands quiet
  refine ⟨?_, motion, fun e other => eventSet_tableOpened other quiet⟩
  rw [backoffsCounted, ← auth]
  rfl

theorem opened_eq_decided (s : State) : opened s = stickStep (claimDecision (claimsCounted s)) := rfl

/-- No station is eligible: the backoffs alone are counted. -/
theorem opened_of_none (quiet : NoFrameWaits s) (free : s.auth.holder = none) (nobody : eligible (backoffsCounted s.auth) = none) :
    (opened s).auth.holder = none ∧ (opened s).auth.pending = s.auth.pending
      ∧ (opened s).auth.backoff = (backoffsCounted s.auth).backoff := by
  obtain ⟨auth, -⟩ := claimsCounted_stands quiet
  have work := stickStands_stickStep (claimDecision (claimsCounted s))
  rw [← opened_eq_decided, claimDecision_of_none (by rw [auth]; exact nobody)] at work
  rw [work.holder, work.pending, work.backoff, auth]
  exact ⟨free, rfl, rfl⟩

/-- The eligible station becomes holder (R111, R115). -/
theorem opened_of_eligible (quiet : NoFrameWaits s) (free : s.auth.holder = none) {st : Nat}
    (found : eligible (backoffsCounted s.auth) = some st) :
    (opened s).auth.holder = some st ∧ (opened s).auth.explicit = true ∧ (opened s).auth.cue = false
      ∧ (opened s).auth.pending = s.auth.pending.filter (fun n => n != st)
      ∧ (opened s).auth.backoff = (backoffsCounted s.auth).backoff.set st 0 ∧ eventSet (opened s) .authority = true := by
  obtain ⟨auth, -⟩ := claimsCounted_stands quiet
  have work := stickStands_stickStep (claimDecision (claimsCounted s))
  rw [← opened_eq_decided, claimDecision_of_free (by rw [auth]; exact free) (by rw [auth]; exact found)] at work
  rw [work.holder, work.explicit, work.cue, work.pending, work.backoff, work.event, raiseEvent_auth, auth]
  exact ⟨rfl, rfl, rfl, rfl, rfl, (eventSet_raiseEvent ..).trans (by simp)⟩

theorem opened_of_holder (quiet : NoFrameWaits s) (holder : s.auth.holder.isSome = true) :
    (opened s).auth.holder = s.auth.holder ∧ (opened s).auth.explicit = s.auth.explicit
      ∧ (opened s).auth.pending = s.auth.pending ∧ (opened s).auth.backoff = (backoffsCounted s.auth).backoff := by
  obtain ⟨auth, -⟩ := claimsCounted_stands quiet
  have work := stickStands_stickStep (claimDecision (claimsCounted s))
  rw [← opened_eq_decided, claimDecision_of_holder (by rw [auth]; exact holder)] at work
  rw [work.holder, work.explicit, work.pending, work.backoff, auth]
  exact ⟨rfl, rfl, rfl, rfl⟩

/-! ## The holder at the end of the expiry -/

theorem holderKept_expiryWork (s : State) : HolderKept (opened s) (expiryWork (clockToWrap s)) :=
  (HolderKept.beginComputation _).trans (HolderKept.closingEdits.closes _)

/-- What an expiry with no holder leaves (R115). -/
theorem expiryWork_of_free (quiet : NoFrameWaits s) (free : s.auth.holder = none) {t : State}
    (kept : HolderKept (opened s) t) :
    t.auth.holder = eligible (backoffsCounted s.auth)
      ∧ t.auth.backoff = (backoffsCounted s.auth).backoff.set (t.auth.holder.getD s.auth.backoff.length) 0
      ∧ (∀ st, t.auth.holder = some st → t.auth.explicit = true ∧ t.auth.cue = false
          ∧ t.auth.pending = s.auth.pending.filter (fun n => n != st) ∧ eventSet t .authority = true)
      ∧ (t.auth.holder = none → t.auth.pending = s.auth.pending) := by
  rcases found : eligible (backoffsCounted s.auth) with _ | st
  · obtain ⟨holder, pending, backoff⟩ := opened_of_none quiet free found
    obtain ⟨holderT, -, -, backoffT⟩ := kept.record.stays (.inl holder)
    rw [holder] at holderT
    rw [backoff] at backoffT
    refine ⟨holderT, ?_, fun st h => ?_, fun _ => kept.record.pending.trans pending⟩
    · rw [backoffT, holderT, List.set_eq_of_length_le (by simp [backoffsCounted])]
    · rw [holderT] at h; cases h
  · obtain ⟨holder, explicit, cue, pending, backoff, event⟩ := opened_of_eligible quiet free found
    obtain ⟨holderT, explicitT, cueT, backoffT⟩ := kept.record.stays (.inr explicit)
    rw [holder] at holderT
    rw [explicit] at explicitT
    rw [backoff] at backoffT
    refine ⟨holderT, ?_, fun n h => ?_, fun h => ?_⟩
    · rw [backoffT, holderT]
      rfl
    · cases holderT.symm.trans h
      exact ⟨explicitT, cueT cue, kept.record.pending.trans pending, kept.flag event⟩
    · rw [holderT] at h; cases h

/-- What an expiry with a holder leaves (R115, R117). -/
theorem expiryWork_of_holder (quiet : NoFrameWaits s) {h : Nat} (holder : s.auth.holder = some h) {t : State}
    (kept : HolderKept (opened s) t) :
    t.auth.pending = s.auth.pending
      ∧ (t.auth.holder = some h → t.auth.backoff = (backoffsCounted s.auth).backoff)
      ∧ (t.auth.holder ≠ some h → t.auth.holder = none ∧ t.auth.backoff = (backoffsCounted s.auth).backoff.set h 2)
      ∧ (s.auth.explicit = true → t.auth.holder = some h) := by
  obtain ⟨holderX, explicitX, pendingX, backoffX⟩ := opened_of_holder quiet (by rw [holder]; rfl)
  rw [holder] at holderX
  refine ⟨kept.record.pending.trans pendingX, ?_⟩
  rcases kept.record.way with ⟨holderT, -, -, backoffT⟩ | ⟨n, held, alone, gone, backoffT⟩
  · rw [holderX] at holderT
    rw [holderT, backoffT, backoffX]
    simp
  · cases holderX.symm.trans held
    rw [gone, backoffT, backoffX, ← explicitX, alone]
    simp

/-! ## The stick (R124, R125, R128) -/

/-- The claim decision writes the holder, its flags, the claims and a backoff, and nothing of the stick. -/
theorem claimDecision_stick (s : State) :
    (claimDecision s).motion = s.motion
      ∧ ∃ holder explicit cue pending backoff, (claimDecision s).auth = { s.auth with
          holder := holder, explicit := explicit, cue := cue, pending := pending, backoff := backoff } := by
  unfold claimDecision
  split
  · exact ⟨rfl, _, _, _, _, _, rfl⟩
  · exact ⟨rfl, _, _, _, _, _, rfl⟩

/-- In STICK with O empty the computation begins in the state that the Arbiter leaves. -/
theorem beginComputation_of_stick {u : State} (mode : u.motion.mode = .stick) (free : anyOccupied u = false) :
    beginComputation u = { u with motion := { u.motion with flight := some (snapshot u) } } := by
  have settled : settle u = u := by simp [settle, mode, free]
  rw [beginComputation_moving (.inl (by rw [mode]; rfl)), readied_steady (.inr (by rw [settled]; exact mode))]

theorem anyOccupied_opened_of_free (quiet : NoFrameWaits s) (mode : s.motion.mode = .stick) (free : anyOccupied s = false) :
    anyOccupied (opened s) = false := by
  rw [Bool.eq_false_iff]
  intro occupied
  obtain ⟨z, live, inside, -⟩ := (anyOccupied_opened quiet (by simp [mode, Mode.isStopped])).1 occupied
  have := (anyOccupied_iff s).2 ⟨z, live, inside⟩
  rw [free] at this
  cases this

theorem beginComputation_opened (quiet : NoFrameWaits s) (mode : s.motion.mode = .stick) (free : anyOccupied s = false) :
    beginComputation (opened s)
      = { opened s with motion := { (opened s).motion with flight := some (snapshot (opened s)) } } :=
  beginComputation_of_stick ((congrArg Motion.mode (opened_motion quiet)).trans mode) (anyOccupied_opened_of_free quiet mode free)

/-- In STICK with O empty, what the Arbiter leaves goes on to the end of the expiry, and its demand into the computation. -/
theorem stick_goesOn (quiet : NoFrameWaits s) (mode : s.motion.mode = .stick) (free : anyOccupied s = false) {t : State}
    (auth : t.auth = (beginComputation (opened s)).auth) (motion : t.motion = (beginComputation (opened s)).motion) :
    t.auth = (opened s).auth ∧ t.motion.mode = .stick
      ∧ ∃ c, t.motion.flight = some c ∧ c.mode = .stick ∧ c.demand = stickDemand (opened s).auth := by
  have steered : (opened s).motion.mode = .stick := (congrArg Motion.mode (opened_motion quiet)).trans mode
  rw [beginComputation_opened quiet mode free] at auth motion
  rw [motion]
  exact ⟨auth, steered, _, rfl, steered, demandOf_stick steered⟩

/-- A sample consumed: what the Arbiter hands to the computation (R124, R128). -/
theorem opened_of_sample (quiet : NoFrameWaits s) (mode : s.motion.mode = .stick) {q : Sample} {rest : List Sample}
    (buffer : s.auth.buffer = q :: rest) (started : s.auth.filling = false ∨ s.auth.start ≤ s.auth.buffer.length) :
    (opened s).auth.buffer = rest ∧ (opened s).auth.filling = false ∧ (opened s).auth.miss = 0
      ∧ (opened s).auth.stale = false ∧ (opened s).auth.lastDemand = some (shapeSample s.auth s.motion.lim q) := by
  obtain ⟨auth, motion, -⟩ := claimsCounted_stands quiet
  obtain ⟨motionD, holder, explicit, cue, pending, backoff, authD⟩ := claimDecision_stick (claimsCounted s)
  rw [motion] at motionD
  rw [auth] at authD
  have sample : consumes (claimDecision (claimsCounted s)).auth = some q := by
    rw [authD]
    exact consumes_eq_some (rest := rest) buffer started
  rw [opened_eq_decided, stickStep_of_sample (by rw [motionD]; exact mode) sample, motionD, authD]
  exact ⟨congrArg List.tail buffer, rfl, rfl, rfl, rfl⟩

/-- A miss with a holder: the Arbiter hands the last demand up to the hold (R124, R125). -/
theorem opened_of_miss (quiet : NoFrameWaits s) (mode : s.motion.mode = .stick) (holder : s.auth.holder.isSome = true)
    (miss : consumes s.auth = none) :
    (opened s).auth = missStep (backoffsCounted s.auth)
      ∧ eventSet (opened s) .stickStale
          = (eventSet s .stickStale || (!s.auth.stale && decide (s.auth.hold < nextMiss s.auth))) := by
  obtain ⟨auth, motion, event⟩ := claimsCounted_stands quiet
  rw [opened_eq_decided, claimDecision_of_holder (by rw [auth]; exact holder),
    stickStep_of_miss (by rw [motion]; exact mode) (by rw [auth]; exact miss), auth]
  refine ⟨by rw [raiseIf_eq], ?_⟩
  rw [eventSet_raiseIf, decide_eq_true rfl, Bool.and_true, ← event _ (by simp [tableEvents])]
  rfl

end

/-- Settles O47: the Arbiter's work leaves a record, and what follows it can take the holder away but gives nobody authority. -/
theorem arbiterAtExpiry : Obligations.ArbiterAtExpiry := by
  refine ⟨⟨fun s held landed quiet free rising => ?_, fun s st held => ⟨fun due free waits others => ?_, fun due free => ?_,
    fun due holder => ?_, exec_backoffExpiry_stands held⟩, fun s held => ⟨fun mode fresh last short => ?_,
    exec_stickHoldExpiry_stands held⟩⟩, fun s t q rest held landed quiet mode buffer started free calm run after => ?_,
    fun s h held landed quiet holder => ?_⟩
  · obtain ⟨chosen, backoff, taken, vacant⟩ := expiryWork_of_free quiet free (holderKept_expiryWork s)
    refine ⟨_, exec_periodExpiry_landed held landed, backoff, fun st => ?_, taken, vacant⟩
    rw [chosen, eligible_eq_some_iff (a := backoffsCounted s.auth) rising]
    simp only [backoffsCounted_ready]
    rfl
  · have found : eligible (backoffRun st s).auth = some st := eligible_of_only waits (backoffRun_ready st _) fun n hn other => by
      show (s.auth.backoff.set st 0).getD n 0 ≠ 0
      rw [backoffRun_others other]
      exact others n hn other
    rw [exec_backoffExpiry held due, claimDecision_of_free (s := backoffRun st s) free found, granted_backoffRun, List.set_set]
  · refine ⟨fun waiting => ?_, fun h waits rising ready least => ?_⟩
    · rw [exec_backoffExpiry held due, claimDecision_of_none (s := backoffRun st s) (eligible_eq_none waiting)]
      rfl
    · have found : eligible (backoffRun st s).auth = some h :=
        (eligible_eq_some_iff (a := (backoffRun st s).auth) rising h).2 ⟨waits, ready, least⟩
      rw [exec_backoffExpiry held due, claimDecision_of_free (s := backoffRun st s) free found, granted_backoffRun]
  · rw [exec_backoffExpiry held due, claimDecision_of_holder (s := backoffRun st s) holder]
    rfl
  · have miss := consumes_eq_none short
    have next : nextMiss s.auth = s.auth.hold + 1 := by rw [nextMiss_eq_of_le last.le, last]
    have past : s.auth.hold < nextMiss s.auth := by omega
    rw [exec_stickHoldExpiry held fresh past miss, stickStep_of_miss mode miss, missStep, fresh, decide_eq_true past, next]
    rfl
  · rw [exec_periodExpiry_landed held landed, expiryWork_eq] at run
    obtain rfl := Host.Outcome.next.inj run
    obtain ⟨buffered, filling, miss, stale, demand⟩ := opened_of_sample quiet mode buffer started
    obtain ⟨-, auth, motion⟩ := Uncaused.closingEdits.closes (beginComputation (opened s)) after
    obtain ⟨kept, -, c, flight, ran, handed⟩ := stick_goesOn quiet mode free auth motion
    rw [stickDemand, miss, demand] at handed
    rw [kept]
    exact ⟨buffered, filling, miss, stale, demand, c, flight, ran, handed⟩
  · refine ⟨⟨_, exec_periodExpiry_landed held landed, expiryWork_of_holder quiet holder (holderKept_expiryWork s)⟩,
      fun short mode valid free good silent => ?_⟩
    intro n
    obtain ⟨authX, event⟩ := opened_of_miss quiet mode (by rw [holder]; rfl) (consumes_eq_none short)
    obtain ⟨w, k, closing, ends⟩ := closing_expiryWork quiet good silent
    obtain ⟨kept, stick, c, flight, ran, handed⟩ :=
      stick_goesOn (t := w) quiet mode free (by rw [closing.others]) (by rw [closing.others])
    have begins : eventSet (beginComputation (opened s)) .stickStale = eventSet (opened s) .stickStale := by
      rw [beginComputation_opened quiet mode free]
      rfl
    have flag : eventSet w .stickStale = (eventSet s .stickStale || (!s.auth.stale && decide (s.auth.hold < n))) :=
      (closing.event _ (by decide)).trans (begins.trans event)
    refine ⟨_, c, (exec_periodExpiry_landed held landed).trans (congrArg _ ends), kept.trans authX, ?_, stick, flight, ran,
      handed.trans (by rw [authX]; rfl)⟩
    show eventSet w .stickStale = true ↔ _
    rw [flag]
    simp

end Sys2Proof.Machine
end


-- ==== Sys2Proof/Proofs/PortLaw.lean ====
section
/-! PROOFS. The law of one winch port under each thing that can happen to it: training, a departure from UP, the setpoints and
the feedback, the misses and the pattern test (R131, R134, R136 to R147, R157, R214). -/

namespace Sys2Proof.Machine

/-! ## The law of one port, by its parts -/

/-- Nothing of a link that is up is held (R134). -/
def Unlinked (q : Port) : Prop :=
  q.measured = none ∧ q.tension = none ∧ q.lastSent = none ∧ q.status = statusClear ∧ q.candidate = none ∧ q.misses = 0
    ∧ q.followRun = 0 ∧ q.highRun = 0 ∧ q.slackRun = 0 ∧ q.good = false

/-- The counts of the test record are in their ranges (R157). -/
structure TestCounted (r : TestRecord) : Prop where
  compared : r.compared ≤ 65535
  errors : r.errors ≤ 65535

/-- One port is as R131, R134 and R141 say. -/
structure PortLaw (q : Port) : Prop where
  resolved : q.resolved.isSome = true ↔ q.state = .up
  unlinked : q.state ≠ .up → Unlinked q
  highest : ∀ k, q.resolved = some k → ∃ a, q.abilities = some a ∧ highestClass (q.allowed &&& a.classes) = some k
  allowed : q.allowed ≠ 0#4
  misses : q.misses ≤ 2
  followRun : q.followRun ≤ 3
  highRun : q.highRun ≤ 2
  slackRun : q.slackRun ≤ 5
  abilityRun : q.abilityRun ≤ 3
  feedbackRun : q.feedbackRun ≤ 16
  silence : q.silence ≤ 200
  breakLeft : q.breakLeft ≤ 300
  sequence : q.sequence < 256
  badFrames : q.badFrames ≤ 65535
  missTotal : q.missTotal ≤ 65535
  rxSince : q.rxSince < 10000
  tested : q.state = .test → q.test.result ≠ .none
  counted : TestCounted q.test

theorem portOk_iff (q : Port) : PortOk q ↔ PortLaw q := by
  constructor
  · rintro ⟨resolved, unlinked, highest, allowed, misses, followRun, highRun, slackRun, abilityRun, feedbackRun, silence,
      breakLeft, sequence, badFrames, missTotal, rxSince, tested, compared, errors⟩
    exact ⟨resolved, unlinked, highest, allowed, misses, followRun, highRun, slackRun, abilityRun, feedbackRun, silence,
      breakLeft, sequence, badFrames, missTotal, rxSince, tested, compared, errors⟩
  · intro law
    exact ⟨law.resolved, law.unlinked, law.highest, law.allowed, law.misses, law.followRun, law.highRun, law.slackRun,
      law.abilityRun, law.feedbackRun, law.silence, law.breakLeft, law.sequence, law.badFrames, law.missTotal, law.rxSince,
      law.tested, law.counted.compared, law.counted.errors⟩

/-! ## The pattern test (R157) -/

theorem testCounted_start (p : Pattern) (l : Loop) : TestCounted (testStart p l) := ⟨Nat.zero_le _, Nat.zero_le _⟩

theorem judgedResult_eq_none {ok : Bool} {compared errors : Nat} {r : TestResult} :
    judgedResult ok compared errors r = .none ↔ r = .none := by
  cases r <;> simp only [judgedResult]
  case running => split <;> (try split) <;> simp
  case pass => split <;> simp

theorem TestCounted.judge {r : TestRecord} (h : TestCounted r) (ok : Bool) : TestCounted (r.judge ok) := by
  refine ⟨saturate_le _ _ h.compared, ?_⟩
  show (if ok = true then r.errors else saturate r.errors 65535) ≤ 65535
  split
  · exact h.errors
  · exact saturate_le _ _ h.errors

theorem TestCounted.judgeErrors {r : TestRecord} (h : TestCounted r) (n : Nat) : TestCounted (r.judgeErrors n) := by
  rw [TestRecord.judgeErrors_eq n r h.compared h.errors]
  exact ⟨min_le_left _ _, min_le_left _ _⟩

theorem TestCounted.judgeLast {r : TestRecord} (h : TestCounted r) : TestCounted r.judgeLast := by
  unfold TestRecord.judgeLast
  split
  · exact h
  · exact (h.judge _).judgeErrors _

/-- A record with a result keeps one, whatever is judged. -/
theorem judgeLast_result {r : TestRecord} (h : TestCounted r) (running : r.result ≠ .none) : r.judgeLast.result ≠ .none := by
  unfold TestRecord.judgeLast
  split
  · exact running
  · next back further _ =>
    have judged : (r.judge (back.getD false)).result ≠ .none := mt judgedResult_eq_none.1 running
    obtain ⟨compared, errors⟩ := h.judge (back.getD false)
    rw [TestRecord.judgeErrors_eq _ _ compared errors]
    dsimp only
    split
    · exact judged
    · simp

/-! ## A port with no link -/

theorem PortLaw.resolved_none {q : Port} (law : PortLaw q) (down : q.state ≠ .up) : q.resolved = none := by
  rcases h : q.resolved with _ | k
  · rfl
  · exact absurd (law.resolved.1 (by rw [h]; rfl)) down

theorem unlinked_dropLink {q : Port} (law : PortLaw q) : Unlinked q.dropLink ∧ q.dropLink.resolved = none := by
  unfold Port.dropLink
  split
  · exact ⟨⟨rfl, rfl, rfl, rfl, rfl, rfl, rfl, rfl, rfl, rfl⟩, rfl⟩
  · next down => exact ⟨law.unlinked down, law.resolved_none down⟩

/-- What the drop of a link leaves (R134). -/
theorem dropLink_keeps (q : Port) :
    q.dropLink = { q with
      measured := q.dropLink.measured, tension := q.dropLink.tension, lastSent := q.dropLink.lastSent
      status := q.dropLink.status, candidate := q.dropLink.candidate, misses := q.dropLink.misses
      followRun := q.dropLink.followRun, highRun := q.dropLink.highRun, slackRun := q.dropLink.slackRun
      good := q.dropLink.good, resolved := q.dropLink.resolved } := by
  unfold Port.dropLink
  split <;> rfl

theorem dropLink_test (q : Port) : q.dropLink.test = q.test := by rw [dropLink_keeps]

namespace PortLaw

variable {q : Port}

/-- A departure to a state other than UP, with a test record that suits it (R134). -/
theorem away (law : PortLaw q) {st : PortState} {r : TestRecord} (down : st ≠ .up) (tested : st = .test → r.result ≠ .none)
    (counted : TestCounted r) : PortLaw { q.dropLink with state := st, test := r } := by
  obtain ⟨unlinked, resolved⟩ := unlinked_dropLink law
  have zero := unlinked
  obtain ⟨-, -, -, -, -, misses, followRun, highRun, slackRun, -⟩ := zero
  have keeps := dropLink_keeps q
  constructor
  case resolved => simp [resolved, down]
  case unlinked => exact fun _ => unlinked
  case highest => simp [resolved]
  case misses => exact misses.le.trans (Nat.zero_le _)
  case followRun => exact followRun.le.trans (Nat.zero_le _)
  case highRun => exact highRun.le.trans (Nat.zero_le _)
  case slackRun => exact slackRun.le.trans (Nat.zero_le _)
  case tested => exact tested
  case counted => exact counted
  case allowed => rw [keeps]; exact law.allowed
  case abilityRun => rw [keeps]; exact law.abilityRun
  case feedbackRun => rw [keeps]; exact law.feedbackRun
  case silence => rw [keeps]; exact law.silence
  case breakLeft => rw [keeps]; exact law.breakLeft
  case sequence => rw [keeps]; exact law.sequence
  case badFrames => rw [keeps]; exact law.badFrames
  case missTotal => rw [keeps]; exact law.missTotal
  case rxSince => rw [keeps]; exact law.rxSince

/-- A departure to a state other than UP and TEST. -/
theorem leave (law : PortLaw q) {st : PortState} (down : st ≠ .up) (other : st ≠ .test) :
    PortLaw { q.dropLink with state := st } := by
  have gone := law.away down (fun same => absurd same other) law.counted
  rw [← dropLink_test q] at gone
  exact gone

theorem enterBreak (law : PortLaw q) (why : BreakCause) : PortLaw (q.enterBreak why) :=
  { law.leave (st := .break_) (by decide) (by decide) with breakLeft := le_refl 300 }

theorem enterOff (law : PortLaw q) : PortLaw q.enterOff := law.leave (by decide) (by decide)

theorem enterSleep (law : PortLaw q) : PortLaw q.enterSleep := law.leave (by decide) (by decide)

theorem enterTraining (law : PortLaw q) : PortLaw q.enterTraining :=
  { law.leave (st := .training) (by decide) (by decide) with
    resolved := by simp [Port.enterTraining]
    highest := fun k none => nomatch none
    abilityRun := Nat.zero_le _
    feedbackRun := Nat.zero_le _
    silence := Nat.zero_le _ }

theorem enterTest (law : PortLaw q) (p : Pattern) (l : Loop) :
    PortLaw { q.dropLink with state := .test, test := testStart p l } :=
  law.away (by decide) (fun _ => by simp [testStart]) (testCounted_start p l)

/-! ## Training (R135 to R140) -/

/-- An entry to UP on the highest class of an intersection (R136, R137, R140). -/
theorem enterUp (law : PortLaw q) {k : SpeedClass} {a : Ability} (highest : highestClass (q.allowed &&& a.classes) = some k)
    (legacy : Bool) (measured tension : Option Nat) :
    PortLaw ({ q with abilities := some a, legacy := legacy, measured := measured, tension := tension }.enterUp k) :=
  { law with
    resolved := by simp [Port.enterUp]
    unlinked := fun down => absurd rfl down
    highest := fun _ taken => ⟨a, rfl, highest.trans taken⟩
    misses := Nat.zero_le _
    followRun := Nat.zero_le _
    highRun := Nat.zero_le _
    slackRun := Nat.zero_le _
    tested := nofun }

theorem resolve (law : PortLaw q) (a : Ability) : PortLaw (q.resolve a) := by
  unfold Port.resolve
  split
  · next highest => exact law.enterUp highest _ _ _
  · exact law.enterBreak _

theorem highestClass_legacy {s : BitVec 4} (h : s.getLsbD 0 = true) : highestClass (s &&& 1#4) = some .a := by
  simp [highestClass, h]

theorem resolveLegacy (law : PortLaw q) (measured tension : Nat) : PortLaw (q.resolveLegacy measured tension) := by
  unfold Port.resolveLegacy
  split
  · next allowed =>
    exact law.enterUp (a := { classes := 1#4, tension := true, test := false }) (highestClass_legacy allowed) _ _ _
  · exact law.enterBreak _

theorem trainAbility (law : PortLaw q) (a : Ability) : PortLaw (q.trainAbility a) := by
  unfold Port.trainAbility
  dsimp only
  generalize counted : (if 0 < q.abilityRun ∧ q.runAbility = some a then saturate q.abilityRun 3 else 1) = n
  have heard : PortLaw { q with silence := 0, feedbackRun := 0, abilityRun := n, runAbility := some a } :=
    { law with
      silence := Nat.zero_le _
      feedbackRun := Nat.zero_le _
      abilityRun := by
        subst counted
        dsimp only
        split
        · exact saturate_le _ _ law.abilityRun
        · decide }
  split
  · exact heard.resolve a
  · exact heard

theorem trainFeedback (law : PortLaw q) (measured tension : Nat) : PortLaw (q.trainFeedback measured tension) := by
  have heard : PortLaw { q with
      silence := 0, abilityRun := 0, runAbility := none, feedbackRun := saturate q.feedbackRun 16 } :=
    { law with
      silence := Nat.zero_le _
      abilityRun := Nat.zero_le _
      feedbackRun := saturate_le _ _ law.feedbackRun }
  unfold Port.trainFeedback
  dsimp only
  split
  · exact heard.resolveLegacy _ _
  · exact heard

/-- The class taken again in UP (R142, R143). -/
theorem reclassed (law : PortLaw q) (up : q.state = .up) {k : SpeedClass} {a : Ability} {allowed : BitVec 4} (legacy : Bool)
    (nonempty : allowed ≠ 0#4) (highest : highestClass (allowed &&& a.classes) = some k) :
    PortLaw { q with allowed := allowed, abilities := some a, legacy := legacy, resolved := some k } :=
  { law with
    resolved := by simp [up]
    highest := fun _ taken => ⟨a, rfl, highest.trans taken⟩
    allowed := nonempty }

/-- Without a link the allowed set and the drive's offer are free (R136, R143). -/
theorem offered (law : PortLaw q) (down : q.state ≠ .up) {allowed : BitVec 4} (nonempty : allowed ≠ 0#4)
    (abilities : Option Ability) (legacy : Bool) :
    PortLaw { q with allowed := allowed, abilities := abilities, legacy := legacy } :=
  { law with
    highest := by simp [law.resolved_none down]
    allowed := nonempty }

theorem enterBreak_offered (law : PortLaw q) {allowed : BitVec 4} (nonempty : allowed ≠ 0#4) (abilities : Option Ability)
    (legacy : Bool) (why : BreakCause) :
    PortLaw (Port.enterBreak why { q with allowed := allowed, abilities := abilities, legacy := legacy }) := by
  have apart : Port.enterBreak why { q with allowed := allowed, abilities := abilities, legacy := legacy }
      = { q.enterBreak why with allowed := allowed, abilities := abilities, legacy := legacy } := by
    unfold Port.enterBreak Port.dropLink
    split <;> rfl
  rw [apart]
  exact (law.enterBreak why).offered (by simp [Port.enterBreak]) nonempty abilities legacy

/-! ## A period expiry (R135 to R147, R157) -/

theorem quiet (law : PortLaw q) : PortLaw q.quiet := { law with }

theorem trainStep (law : PortLaw q) : PortLaw q.trainStep := by
  have counted : PortLaw { q with silence := saturate q.silence 200, lineOut := abilityFrame q } :=
    { law with silence := saturate_le _ _ law.silence }
  unfold Port.trainStep
  dsimp only
  split
  · exact counted.enterBreak _
  · exact counted

theorem breakStep (law : PortLaw q) : PortLaw q.breakStep := by
  have passed : ∀ n, n ≤ 300 → PortLaw { q.quiet with breakLeft := n } := fun _ most => { law with breakLeft := most }
  unfold Port.breakStep
  split
  · exact (passed 0 (Nat.zero_le _)).enterTraining
  · exact passed _ (by have := law.breakLeft; omega)

theorem testStep (law : PortLaw q) : PortLaw q.testStep :=
  { law with
    tested := fun test => judgeLast_result law.counted (law.tested test)
    counted := ⟨law.counted.judgeLast.compared, law.counted.judgeLast.errors⟩ }

/-- A miss short of the third (R147). -/
theorem countMiss (law : PortLaw q) (up : q.state = .up) (short : q.misses < 2) : PortLaw q.countMiss :=
  { law with
    unlinked := fun down => absurd up down
    misses := by
      show saturate q.misses 3 ≤ 2
      unfold saturate
      split <;> omega
    missTotal := saturate_le _ _ law.missTotal }

/-- The third miss breaks the link (R139, R147). -/
theorem missed (law : PortLaw q) (up : q.state = .up) : PortLaw (q.countMiss.enterBreak .missed) := by
  have apart : q.countMiss.enterBreak .missed
      = { q.enterBreak .missed with missTotal := saturate q.missTotal 65535, lineOut := [] } := by
    simp [Port.enterBreak, Port.dropLink, Port.countMiss, Port.quiet, up]
  rw [apart]
  exact { law.enterBreak .missed with missTotal := saturate_le _ _ law.missTotal }

theorem setpointSent (law : PortLaw q) (follow : Bool) (m : Motion) (k : Option SpeedClass) (i : Nat) :
    PortLaw (setpointSent follow m k i q) := by
  unfold Machine.setpointSent
  split
  · next up =>
    exact { law with
      unlinked := fun down => absurd up down
      sequence := Nat.mod_lt _ (by decide) }
  · exact law

theorem checkedPort (law : PortLaw q) : PortLaw (checkedPort q) := by
  unfold Machine.checkedPort
  split
  · exact law.trainStep
  · exact law.breakStep
  · next up =>
    split
    · split
      · exact law.missed up
      · exact law.countMiss up (by omega)
    · exact law.quiet
  · exact law.testStep
  all_goals exact law.quiet

/-! ## Frames from the drive, and the receiver (R146 to R157, R214) -/

/-- A good FEEDBACK frame (R145 to R154). -/
theorem goodFrame (law : PortLaw q) (up : q.state = .up) (lim : PortLimits) (measured tension : Nat) (w : DriveStatus) :
    PortLaw (goodFrame lim measured tension w q) :=
  { law with
    unlinked := fun down => absurd up down
    misses := Nat.zero_le _
    followRun := by
      show followRunAfter lim q measured ≤ 3
      unfold followRunAfter
      split
      · split
        · exact saturate_le _ _ law.followRun
        · exact Nat.zero_le _
      · exact Nat.zero_le _
    highRun := by
      show highRunAfter lim q _ ≤ 2
      unfold highRunAfter
      split
      · split
        · exact saturate_le _ _ law.highRun
        · exact Nat.zero_le _
      · exact Nat.zero_le _
    slackRun := by
      show slackRunAfter lim q _ ≤ 5
      unfold slackRunAfter
      split
      · split
        · exact saturate_le _ _ law.slackRun
        · exact Nat.zero_le _
      · exact Nat.zero_le _ }

theorem takeBack (law : PortLaw q) (payload : Option (List Byte)) : PortLaw { q with test := q.test.takeBack payload } := by
  rw [TestRecord.takeBack_records]
  exact { law with counted := ⟨law.counted.compared, law.counted.errors⟩ }

/-- A bad check sequence is counted, and in TRAINING it ends both runs (R135, R214). -/
theorem badFrame (law : PortLaw q) : PortLaw { q with badFrames := saturate q.badFrames 65535 } :=
  { law with badFrames := saturate_le _ _ law.badFrames }

theorem runsEnded (law : PortLaw q) : PortLaw { q with abilityRun := 0, feedbackRun := 0, runAbility := none } :=
  { law with
    abilityRun := Nat.zero_le _
    feedbackRun := Nat.zero_le _ }

theorem received (law : PortLaw q) (rx : List Byte) : PortLaw { q with rx := rx } := { law with }

theorem waited (law : PortLaw q) {since : Nat} (short : since < 10000) : PortLaw { q with rxSince := since } :=
  { law with rxSince := short }

/-! ## PORT_CLEAR and PORT_READ (R160, R161) -/

theorem windowCleared (law : PortLaw q) : PortLaw { q with tensionWindow := none } := { law with }

theorem cleared (law : PortLaw q) : PortLaw q.cleared := by
  have zeroed : PortLaw { q with badFrames := 0, missTotal := 0, tensionWindow := none } :=
    { law with
      badFrames := Nat.zero_le _
      missTotal := Nat.zero_le _ }
  have fresh := testCounted_start q.test.pattern q.test.loop
  unfold Port.cleared Port.clearTest
  split
  · exact { zeroed with
      tested := fun _ => by simp [testStart]
      counted := fresh }
  · next other =>
    exact { zeroed with
      tested := fun test => absurd test other
      counted := ⟨fresh.compared, fresh.errors⟩ }

end PortLaw

end Sys2Proof.Machine
end

