-- ==== Sys2Proof/Proofs/LinkKept.lean ====
section
/-! PROOFS. The laws of the ports and of the Station Port's registers across the shared transitions, a period computation, the
work of the ports and the receiver of a link (R131, R134, R141, R159, R194, R207, R214). -/

namespace Sys2Proof.Machine

/-! ## The Station Port, by its parts -/

/-- The Station Port's registers are in their ranges (R194, R198, R206, R207). -/
def RegistersOk (s : State) : Prop :=
  s.station.rate ≤ 3 ∧ s.station.buffer.length ≤ 512 ∧ s.station.frameErrors ≤ 65535 ∧ s.station.silence ≤ 1000
    ∧ 10 ≤ s.station.watchdog ∧ s.station.watchdog ≤ 1000

/-- The receiver is IN_FRAME exactly while a sync stands at the front of the buffer, which is empty in HUNTING (R197). -/
def ReceiverOk (s : State) : Prop :=
  (s.station.receiver = .hunting → s.station.buffer = [])
    ∧ (s.station.receiver ≠ .hunting → s.station.buffer.head? = some 0x5C#8)

theorem stationOk_iff (s : State) : StationOk s ↔ RegistersOk s ∧ ReceiverOk s := by
  constructor
  · rintro ⟨rate, buffer, frameErrors, silence, watchdogLow, watchdogHigh, receiver⟩
    exact ⟨⟨rate, buffer, frameErrors, silence, watchdogLow, watchdogHigh⟩, receiver⟩
  · rintro ⟨⟨rate, buffer, frameErrors, silence, watchdogLow, watchdogHigh⟩, receiver⟩
    exact ⟨rate, buffer, frameErrors, silence, watchdogLow, watchdogHigh, receiver⟩

/-- What the laws read of the Station Port. -/
def lineOf (g : StationPort) : Nat × List Byte × Receiver × Nat × Nat × Nat :=
  (g.rate, g.buffer, g.receiver, g.frameErrors, g.silence, g.watchdog)

/-! ## The four ports -/

theorem Quad.get_mem_list {α : Type} (q : Quad α) (i : Nat) : q.get i ∈ q.list := by
  unfold Quad.get
  split <;> simp [Quad.list]

theorem Quad.mem_list_put {α : Type} {q : Quad α} {i : Nat} {x y : α} (h : y ∈ (q.put i x).list) : y = x ∨ y ∈ q.list := by
  unfold Quad.put at h
  split at h <;> simp only [Quad.list, List.mem_cons, List.not_mem_nil, or_false] at h ⊢ <;> tauto

/-- The limits that the ports share are in their ranges (R159). -/
def LimitsOk (l : PortLimits) : Prop :=
  1 ≤ l.following ∧ l.following ≤ 1000 ∧ l.tMin ≤ 65534 ∧ l.tMax ≤ 65534 ∧ 1 ≤ l.tolerance ∧ l.tolerance ≤ 1000

theorem portsOk_iff (s : State) : PortsOk s ↔ (∀ q ∈ s.ports.list, PortLaw q) ∧ LimitsOk s.portLimits := by
  simp only [PortsOk, LimitsOk, portOk_iff]

theorem portLaw_get {s : State} (ok : PortsOk s) (i : Nat) : PortLaw (s.ports.get i) :=
  ((portsOk_iff s).1 ok).1 _ (Quad.get_mem_list _ i)

/-- The move keeps the laws of the ports and of the registers, and neither the receive buffer nor the receiver moves. -/
structure LinkKept (s t : State) : Prop where
  ports : PortsOk s → PortsOk t
  registers : RegistersOk s → RegistersOk t
  buffer : t.station.buffer = s.station.buffer
  receiver : t.station.receiver = s.station.receiver

namespace LinkKept

theorem refl (s : State) : LinkKept s s := ⟨id, id, rfl, rfl⟩

theorem trans {s t u : State} (h : LinkKept s t) (k : LinkKept t u) : LinkKept s u :=
  ⟨fun ok => k.ports (h.ports ok), fun ok => k.registers (h.registers ok), k.buffer.trans h.buffer,
    k.receiver.trans h.receiver⟩

theorem ite {c : Prop} [Decidable c] {s t : State} (h : LinkKept s t) : LinkKept s (if c then t else s) := by
  split
  · exact h
  · exact refl s

/-- A move that leaves the ports, their limits and the registers. -/
theorem still {s t : State} (ports : t.ports = s.ports) (limits : t.portLimits = s.portLimits)
    (line : lineOf t.station = lineOf s.station) : LinkKept s t := by
  simp only [lineOf, Prod.mk.injEq] at line
  obtain ⟨rate, buffer, receiver, frameErrors, silence, watchdog⟩ := line
  refine ⟨fun ok => ?_, fun ok => ?_, buffer, receiver⟩
  · unfold PortsOk
    rw [ports, limits]
    exact ok
  · unfold RegistersOk
    rw [rate, buffer, frameErrors, silence, watchdog]
    exact ok

/-- A move that leaves the Station Port's registers. -/
theorem written {s t : State} (station : t.station = s.station) (ports : PortsOk s → PortsOk t) : LinkKept s t := by
  refine ⟨ports, fun ok => ?_, by rw [station], by rw [station]⟩
  unfold RegistersOk
  rw [station]
  exact ok

theorem of_frame {s t : State} (frame : ControlFrame s t) : LinkKept s t :=
  still frame.ports frame.portLimits (by rw [frame.station]; rfl)

theorem raiseIf (b : Bool) (e : Event) (s : State) : LinkKept s (raiseIf b e s) := of_frame (frame_raiseIf b e s)

theorem controlEdits : ControlEdits LinkKept where
  refl := refl
  trans := trans
  raise := fun e s _ => of_frame (frame_raiseEvent e s)
  mode := fun _ _ _ => still rfl rfl rfl
  auth := fun _ _ => still rfl rfl rfl
  cue := fun _ _ => still rfl rfl rfl
  stop := fun _ _ => still rfl rfl rfl
  copy := fun _ _ => still rfl rfl rfl
  exit := fun _ _ _ => still rfl rfl rfl
  lengths := fun _ _ _ => still rfl rfl rfl
  dropCopy := fun _ => still rfl rfl rfl
  freeze := fun _ => still rfl rfl rfl

/-! ## A period computation and its commit (R37, R42, R51, R52) -/

theorem commitFlight (s : State) : LinkKept s (commitFlight s) := by
  unfold Machine.commitFlight
  split
  · next c _ =>
    have table : LinkKept s (committedTable c s) := by
      rw [committedTable, tableCommit_eq]
      exact still rfl rfl rfl
    exact table.trans (controlEdits.commit c s)
  · exact refl s

theorem of_opening {s t : State} (h : Opening s t) : LinkKept s t := by
  rw [h.others]
  exact still rfl rfl rfl

theorem beginComputation (s : State) : LinkKept s (beginComputation s) := by
  rcases Mode.moving_or_rest s.motion.mode with moving | rest
  · rw [beginComputation_moving moving]
    exact (of_frame (BeginFrame.readied s).frame).trans (still rfl rfl rfl)
  · rw [beginComputation_rest rest]
    exact still rfl rfl rfl

/-! ## The moves of a port -/

/-- Port `i` becomes one that meets its law. -/
theorem withPort {i : Nat} {q : Port} {s : State} (h : PortLaw (s.ports.get i) → PortLaw q) :
    LinkKept s (withPort i q s) := by
  refine written rfl fun ok => (portsOk_iff _).2 ⟨fun p hp => ?_, ((portsOk_iff s).1 ok).2⟩
  rcases Quad.mem_list_put hp with rfl | old
  · exact h (portLaw_get ok i)
  · exact ((portsOk_iff s).1 ok).1 p old

theorem movePort {i : Nat} {q : Port} {s : State} (h : PortLaw (s.ports.get i) → PortLaw q) :
    LinkKept s (movePort i q s) := (withPort h).trans (raiseIf _ _ _)

theorem raiseCause (c : Cause) (port : Option Nat) (asked : StopKind) (s : State) :
    LinkKept s (raiseCause c port asked s) := of_frame (frame_raiseCause c port asked s)

theorem raiseWhen (b : Bool) (c : Cause) (i : Nat) (s : State) : LinkKept s (raiseWhen b c i s) := ite (raiseCause _ _ _ s)

/-! ## A period expiry (R135 to R147, R157, R206) -/

theorem missCheck {i : Nat} {s : State} (up : (s.ports.get i).state = .up) : LinkKept s (missCheck i s) := by
  unfold Machine.missCheck
  dsimp only
  split
  · split
    · exact (movePort fun law => law.missed up).trans (raiseCause _ _ _ _)
    · next short => exact withPort fun law => law.countMiss up (by omega)
  · exact withPort fun law => law.quiet

theorem portCheck (i : Nat) (s : State) : LinkKept s (portCheck i s) := by
  unfold Machine.portCheck
  dsimp only
  split
  · exact movePort fun law => law.trainStep
  · exact movePort fun law => law.breakStep
  · next up => exact missCheck up
  · exact withPort fun law => law.testStep
  all_goals exact withPort fun law => law.quiet

theorem sendSetpoint (i : Nat) (s : State) : LinkKept s (sendSetpoint i s) := by
  rw [sendSetpoint_eq]
  exact withPort fun law => law.setpointSent _ _ _ _

theorem portsExpiry (s : State) : LinkKept s (portsExpiry s) := by
  have checks := (portCheck 0 s).trans ((portCheck 1 _).trans ((portCheck 2 _).trans (portCheck 3 _)))
  exact checks.trans ((sendSetpoint 0 _).trans ((sendSetpoint 1 _).trans ((sendSetpoint 2 _).trans (sendSetpoint 3 _))))

theorem countSilence (s : State) :
    LinkKept s { s with station := { s.station with silence := saturate s.station.silence 1000 } } := by
  refine ⟨id, ?_, rfl, rfl⟩
  rintro ⟨rate, buffer, frameErrors, silence, watchdog⟩
  exact ⟨rate, buffer, frameErrors, saturate_le _ _ silence, watchdog⟩

theorem silenceStep (s : State) : LinkKept s (silenceStep s) := by
  unfold Machine.silenceStep
  dsimp only
  split
  any_goals exact refl s
  all_goals
    split
    · exact (countSilence s).trans (raiseCause _ _ _ _)
    · exact countSilence s

/-- The work of an expiry: the table's, the Arbiter's, the beginning of a computation, the ports' and the watchdog's. -/
theorem expiryWork (s : State) : LinkKept s (expiryWork s) :=
  have table := of_opening ((opening_countLifetimes s).trans (opening_promoteAtRest _))
  (((table.trans (controlEdits.arbiterExpiry _)).trans (beginComputation _)).trans (portsExpiry _)).trans (silenceStep _)

/-! ## Frames from the drive (R136 to R157) -/

theorem reclass {i : Nat} {q : Port} {classes : BitVec 4} {s : State}
    (broken : PortLaw (s.ports.get i) → PortLaw (q.enterBreak .lostClass))
    (taken : ∀ k, highestClass (q.allowed &&& classes) = some k → PortLaw (s.ports.get i) →
      PortLaw { q with resolved := some k }) : LinkKept s (reclass i q classes s) := by
  unfold Machine.reclass
  split
  · exact (movePort broken).trans (raiseCause _ _ _ _)
  · next k highest => exact (withPort (taken k highest)).trans (raiseIf _ _ _)

theorem driveAbility (i : Nat) (a : Ability) (s : State) : LinkKept s (driveAbility i a s) := by
  unfold Machine.driveAbility
  dsimp only
  split
  · exact movePort fun law => law.trainAbility a
  · next up =>
    exact reclass (fun law => law.enterBreak_offered law.allowed _ _ _)
      fun k highest law => law.reclassed up false law.allowed highest
  all_goals exact refl s

theorem takeGood {i : Nat} {s : State} (up : (s.ports.get i).state = .up) (measured tension : Nat) (w : DriveStatus) :
    LinkKept s (takeGood i measured tension w s) := by
  have taken : LinkKept s
      (Machine.withPort i (goodFrame s.portLimits measured tension w (s.ports.get i)) s) :=
    withPort fun law => law.goodFrame up _ _ _ _
  exact ((((taken.trans (raiseIf _ _ _)).trans (raiseWhen _ _ _ _)).trans (raiseWhen _ _ _ _)).trans
    (raiseWhen _ _ _ _)).trans (raiseWhen _ _ _ _)

theorem driveFeedback (i echo measured tension status : Nat) (s : State) :
    LinkKept s (driveFeedback i echo measured tension status s) := by
  unfold Machine.driveFeedback
  dsimp only
  split
  · exact movePort fun law => law.trainFeedback _ _
  · next up => exact ite (takeGood up _ _ _)
  all_goals exact refl s

theorem driveWake (i : Nat) (s : State) : LinkKept s (driveWake i s) := by
  unfold Machine.driveWake
  dsimp only
  split
  · exact (movePort fun law => law.enterTraining).trans (raiseIf true _ _)
  all_goals exact refl s

theorem driveTest (i : Nat) (payload : List Byte) (s : State) : LinkKept s (driveTest i payload s) :=
  ite (withPort fun law => law.takeBack _)

theorem badCheck (i : Nat) (s : State) : LinkKept s (badCheck i s) := by
  unfold Machine.badCheck
  dsimp only
  split
  · exact withPort fun law => law.badFrame.runsEnded
  · exact withPort fun law => law.badFrame
  · exact withPort fun law => law.badFrame
  · exact ite (withPort fun law => law.takeBack none)
  all_goals exact refl s

theorem deliver (i type : Nat) (payload : List Byte) (s : State) : LinkKept s (deliver i type payload s) := by
  unfold Machine.deliver
  split
  · exact driveAbility _ _ s
  · exact driveFeedback _ _ _ _ _ s
  · exact driveTest _ _ s
  · exact driveWake _ s
  · exact refl s

/-! ## The receiver of a link (R214) -/

theorem scanWinch (fuel i : Nat) (buf : List Byte) (s : State) : LinkKept s (scanWinch fuel i buf s) := by
  have waits : ∀ rx u, LinkKept u (Machine.withPort i { u.ports.get i with rx := rx } u) := fun rx _ =>
    withPort fun law => law.received rx
  induction fuel generalizing buf s with
  | zero => exact waits _ s
  | succ fuel ih =>
    unfold Machine.scanWinch
    split
    · exact waits _ s
    · split
      · exact ih _ s
      · split
        · exact waits _ s
        · split
          · exact ih _ s
          · split
            · exact waits _ s
            · split
              · exact (deliver _ _ _ s).trans (ih _ _)
              · exact (badCheck _ s).trans (ih _ _)

theorem receive (i : Nat) (buf : List Byte) (s : State) : LinkKept s (receive i buf s) := by
  have scanned := scanWinch (buf.length + 1) i buf s
  unfold Machine.receive
  dsimp only
  split
  · exact scanned
  · exact scanned.trans (withPort fun law => law.waited (by decide))

theorem timeOutWinch (i : Nat) (s : State) : LinkKept s (timeOutWinch i s) := by
  unfold Machine.timeOutWinch
  split
  · exact refl s
  · exact ((badCheck i s).trans (withPort fun law => law.waited (by decide))).trans (receive _ _ _)

theorem runReceiver (fuel i k : Nat) (s : State) : LinkKept s (runReceiver fuel i k s) := by
  induction fuel generalizing k s with
  | zero => exact refl s
  | succ fuel ih =>
    unfold Machine.runReceiver
    dsimp only
    split
    · exact refl s
    · split
      · next short => exact withPort fun law => law.waited short
      · exact (timeOutWinch i s).trans (ih _ _)

theorem withPeriod (g : PeriodGen) (s : State) : LinkKept s (withPeriod g s) :=
  have clocked : LinkKept s { s with period := g } := still rfl rfl rfl
  clocked.trans (raiseIf _ _ _)

end LinkKept

end Sys2Proof.Machine
end

