-- ==== Sys2Proof/Proofs/LinkRequests.lean ====
section
/-! PROOFS. Every request keeps the laws of the ports and of the Station Port's registers: its owner checks, and then writes
elsewhere, moves the mode by a shared transition, or is one of the winch ports or the Station Port itself (R133 to R161,
R200 to R209). -/

namespace Sys2Proof.Machine

namespace LinkKept

/-- A check of an owner: what is refused leaves the state. -/
theorem check {c : Prop} [Decidable c] {why : Status} {s : State} {p : State × Reply} (h : ¬c → LinkKept s p.1) :
    LinkKept s (if c then refuse why s else p).1 := by
  split
  · exact refl s
  · next pass => exact h pass

theorem branch {c : Prop} [Decidable c] {s : State} {p q : State × Reply} (h : LinkKept s p.1) (k : LinkKept s q.1) :
    LinkKept s (if c then p else q).1 := by
  split
  · exact h
  · exact k

theorem inSafe {s : State} {ok : Bool} {own : State → State × Reply} (h : LinkKept s (own s).1) :
    LinkKept s (inSafe s ok own).1 := by
  rcases inSafe_cases s ok own with e | ⟨-, -, e⟩ <;> rw [e]
  · exact refl s
  · exact h

theorem onZone {c : StationClass} {st handle : Nat} {s : State} {own : Zone → State × Reply}
    (h : ∀ z, LinkKept s (own z).1) : LinkKept s (onZone c st handle s own).1 := by
  rcases onZone_cases c st handle s own with ⟨-, e⟩ | ⟨sl, z, -, ⟨-, -, e⟩ | ⟨-, -, -, e⟩ | ⟨-, e⟩⟩ <;> rw [e]
  · exact refl s
  · exact refl s
  · exact refl s
  · exact h z

end LinkKept

/-! ## The requests of the winch ports (R133 to R161) -/

theorem linkKept_controlPort {i : Nat} {s : State} {act : Port → Option Port}
    (h : ∀ q r, PortLaw q → act q = some r → PortLaw r) : LinkKept s (controlPort i s act).1 := by
  refine .check fun _ => .check fun _ => ?_
  split
  · exact .refl s
  · next r acted => exact .movePort fun law => h _ r law acted

theorem portLaw_actEnable {q r : Port} (law : PortLaw q) (h : actEnable q = some r) : PortLaw r := by
  unfold actEnable at h
  split at h <;> cases h
  exact law.enterTraining

theorem portLaw_actDisable {q r : Port} (law : PortLaw q) (h : actDisable q = some r) : PortLaw r := by
  cases h
  split
  · exact law
  · exact law.enterOff

theorem portLaw_actRetrain {q r : Port} (law : PortLaw q) (h : actRetrain q = some r) : PortLaw r := by
  unfold actRetrain at h
  split at h <;> cases h
  exact law.enterBreak _

theorem portLaw_actSleep {q r : Port} (law : PortLaw q) (h : actSleep q = some r) : PortLaw r := by
  unfold actSleep at h
  split at h <;> cases h
  exact law.enterSleep

theorem portLaw_actWake {q r : Port} (law : PortLaw q) (h : actWake q = some r) : PortLaw r := by
  unfold actWake at h
  split at h <;> cases h
  exact law.enterTraining

/-- A class set byte that is taken is not empty (R143, R211). -/
theorem classSetOf_nonempty {n : Nat} {set : BitVec 4} (h : classSetOf n = some set) : set ≠ 0#4 := by
  unfold classSetOf at h
  split at h <;> cases h
  intro zero
  have := congrArg BitVec.toNat zero
  simp at this
  omega

/-- In UP the abilities are present (R141), so the class is worked out again; elsewhere the set alone is written (R143). -/
theorem linkKept_setAbility (i classes : Nat) (s : State) : LinkKept s (setAbility i classes s).1 := by
  unfold setAbility
  split
  · exact .refl s
  · next set taken =>
    have nonempty := classSetOf_nonempty taken
    refine .check fun _ => ?_
    dsimp only [accept]
    split
    · next a up abilities =>
      refine .reclass (fun law => law.enterBreak_offered nonempty _ _ _) fun k highest law => ?_
      have kept := law.reclassed up (s.ports.get i).legacy nonempty highest
      rw [← abilities] at kept
      exact kept
    · next other =>
      refine .withPort fun law => law.offered (fun up => ?_) nonempty _ _
      obtain ⟨k, resolved⟩ := Option.isSome_iff_exists.1 (law.resolved.2 up)
      obtain ⟨a, abilities, -⟩ := law.highest k resolved
      exact other a up abilities

theorem linkKept_portTestStart (i pattern loop : Nat) (s : State) : LinkKept s (portTestStart i pattern loop s).1 := by
  unfold portTestStart
  split
  · exact .check fun _ => .check fun _ => .check fun _ => .check fun _ => .movePort fun law => law.enterTest _ _
  · exact .refl s

theorem linkKept_portTestStop (i : Nat) (s : State) : LinkKept s (portTestStop i s).1 :=
  .check fun _ => .ite (.movePort fun law => law.enterTraining)

theorem linkKept_allCleared (s t : State) (ports : t.ports = s.ports.map Port.cleared) (limits : t.portLimits = s.portLimits)
    (ok : PortsOk s) : PortsOk t := by
  obtain ⟨laws, bounds⟩ := (portsOk_iff s).1 ok
  refine (portsOk_iff t).2 ⟨?_, by rw [limits]; exact bounds⟩
  have list : t.ports.list = s.ports.list.map Port.cleared := by rw [ports]; rfl
  rw [list]
  exact List.forall_mem_map.2 fun q hq => (laws q hq).cleared

theorem linkKept_portClear (i : Nat) (s : State) : LinkKept s (portClear i s).1 :=
  .branch (.written rfl (linkKept_allCleared s _ rfl rfl)) (.check fun _ => .withPort fun law => law.cleared)

theorem linkKept_setPortLimits (following tMin tMax tolerance : Nat) (s : State) :
    LinkKept s (setPortLimits following tMin tMax tolerance s).1 := by
  refine .inSafe (.written rfl fun ok => (portsOk_iff _).2 ⟨((portsOk_iff s).1 ok).1, ?_⟩)
  simp only [accept, LimitsOk, clampNat_zero, clampNat_eq _ 1 1000 (by omega)]
  omega

theorem linkKept_portRead (i clear : Nat) (c : StationClass) (s : State) : LinkKept s (portRead i clear c s).1 := by
  unfold portRead
  split
  · exact .refl s
  · exact .check fun _ => .ite (.withPort fun law => law.windowCleared)

/-! ## The requests of the Station Port (R200, R205 to R209) -/

/-- A write of the register of R207 and of the silence counter, each in its range. -/
theorem LinkKept.registered {s t : State} (ports : PortsOk s → PortsOk t) {silence watchdog : Nat}
    (line : lineOf t.station = lineOf { s.station with silence := silence, watchdog := watchdog })
    (quiet : s.station.silence ≤ 1000 → silence ≤ 1000)
    (setting : 10 ≤ s.station.watchdog → s.station.watchdog ≤ 1000 → 10 ≤ watchdog ∧ watchdog ≤ 1000) : LinkKept s t := by
  simp only [lineOf, Prod.mk.injEq] at line
  obtain ⟨rate, buffer, receiver, frameErrors, silenceT, watchdogT⟩ := line
  refine ⟨ports, ?_, buffer, receiver⟩
  rintro ⟨most, length, errors, heard, low, high⟩
  unfold RegistersOk
  rw [rate, buffer, frameErrors, silenceT, watchdogT]
  exact ⟨most, length, errors, quiet heard, setting low high⟩

theorem linkKept_takeFrame (s : State) : LinkKept s (takeFrame s) :=
  .registered id (silence := 0) (watchdog := s.station.watchdog) rfl (fun _ => Nat.zero_le _) fun low high => ⟨low, high⟩

theorem linkKept_answer (st code : Nat) (r : Reply) (s : State) : LinkKept s (answer st code r s) := .still rfl rfl rfl

theorem linkKept_refuseFrame (st code : Nat) (why : Status) (s : State) : LinkKept s (refuseFrame st code why s) :=
  (linkKept_takeFrame s).trans (linkKept_answer _ _ _ _)

theorem linkKept_setWatchdog (periods : Nat) (s : State) : LinkKept s (setWatchdog periods s).1 := by
  refine .registered id (silence := s.station.silence) (watchdog := clampNat periods 10 1000) rfl id fun _ _ => ?_
  rw [clampNat_eq _ _ _ (by omega)]
  omega

theorem linkKept_restart (s : State) : LinkKept s (restart s).1 := by
  refine .branch (.registered (linkKept_allCleared s _ rfl rfl) (silence := 0) (watchdog := s.station.watchdog) rfl
    (fun _ => Nat.zero_le _) fun low high => ⟨low, high⟩) (.refl s)

theorem linkKept_setStationClass (station cls : Nat) (s : State) : LinkKept s (setStationClass station cls s).1 := by
  have given : ∀ classes, LinkKept s { s with station := { s.station with classes := classes } } := fun _ =>
    .still rfl rfl rfl
  unfold setStationClass
  split
  · exact .refl s
  · refine .check fun _ => ?_
    dsimp only [accept]
    split
    · exact (given _).trans (LinkKept.controlEdits.classLoss station _)
    · exact given _

/-! ## The requests of the Arbiter, of the cue list, of the Motion Generator and of the Stop Unit -/

theorem linkKept_claim (st : Nat) (s : State) : LinkKept s (claim st s).1 :=
  .branch (.still rfl rfl rfl) (.branch (.refl s) (.check fun _ => .still rfl rfl rfl))

theorem linkKept_release (st : Nat) (s : State) : LinkKept s (release st s).1 := by
  have dropped : LinkKept s { s with auth := { s.auth with explicit := false } } := .still rfl rfl rfl
  exact .check fun _ => .branch dropped (dropped.trans (LinkKept.controlEdits.endAuthority _))

theorem linkKept_selectMode (mode st : Nat) (s : State) : LinkKept s (selectMode mode st s).1 := by
  unfold selectMode
  refine .check fun _ => .check fun _ => ?_
  split
  · exact .refl s
  · exact LinkKept.controlEdits.selected _ st s

theorem linkKept_readAuthority (clear st : Nat) (c : StationClass) (s : State) :
    LinkKept s (readAuthority clear st c s).1 := by
  unfold readAuthority
  split
  · exact .refl s
  · exact .ite (.still rfl rfl rfl)

theorem linkKept_markSet (n : Nat) (pos : Vec3) (label : List Byte) (st : Nat) (c : StationClass) (s : State) :
    LinkKept s (markSet n pos label st c s).1 := by
  refine .check fun _ => ?_
  split
  · exact .check fun _ => .still rfl rfl rfl
  · exact .check fun _ => .check fun _ => .still rfl rfl rfl

theorem linkKept_markRetire (n st : Nat) (c : StationClass) (s : State) : LinkKept s (markRetire n st c s).1 := by
  refine .check fun _ => ?_
  split
  · exact .refl s
  · exact .check fun _ => .check fun _ => .still rfl rfl rfl

theorem linkKept_cueGo (st : Nat) (s : State) : LinkKept s (cueGo st s).1 :=
  .check fun _ => .check fun _ => .check fun _ => (LinkKept.controlEdits.goHead s : LinkKept s (accept (goHead s) _).1)

theorem linkKept_cueFlush (st : Nat) (c : StationClass) (s : State) : LinkKept s (cueFlush st c s).1 :=
  .check fun _ => ((LinkKept.controlEdits.haltIfRunning s).trans (LinkKept.controlEdits.removeTo [] _)).trans
    (.still rfl rfl rfl)

theorem linkKept_enable (p0 : Vec3) (s : State) : LinkKept s (enable p0 s).1 := by
  unfold enable
  exact .check fun _ => .check fun _ => .check fun _ => .check fun _ => .check fun _ => .check fun _ =>
    .branch (.refl s) (.still rfl rfl rfl)

theorem linkKept_stop (kind st : Nat) (c : StationClass) (s : State) : LinkKept s (stop kind st c s).1 := by
  unfold stop
  refine .check fun _ => ?_
  split
  · exact .refl s
  · exact .raiseCause _ _ _ s

theorem linkKept_clearStop (s : State) : LinkKept s (clearStop s).1 := by
  have moved : ∀ t : State, LinkKept t (clearMotion t) := by
    intro t
    unfold clearMotion
    split <;> exact .still rfl rfl rfl
  have emptied : LinkKept s { s with stop := stopEmpty s.stop.estopOpen } := .still rfl rfl rfl
  unfold clearStop
  refine .check fun _ => .branch (.refl s) ?_
  split
  · exact .refl s
  · exact emptied.trans (moved _)

/-! ## The requests of the Airspace Table, of the Span Solver and of the clock -/

theorem linkKept_createZone (kind : Nat) (box : Box) (initial policy standing cap lifetime : Nat) (label : List Byte)
    (st : Nat) (c : StationClass) (s : State) :
    LinkKept s (createZone kind box initial policy standing cap lifetime label st c s).1 := by
  refine .check fun _ => ?_
  split
  · refine .check fun _ => ?_
    split
    · exact .refl s
    · exact .still rfl rfl rfl
  · exact .refl s

theorem linkKept_resumeZone (handle policy st : Nat) (c : StationClass) (s : State) :
    LinkKept s (resumeZone handle policy st c s).1 := by
  refine .onZone fun z => ?_
  split
  · exact .refl s
  · exact .check fun _ => .still rfl rfl rfl

theorem linkKept_lookupZone (handle : Nat) (s : State) : LinkKept s (lookupZone handle s).1 := by
  unfold lookupZone
  split <;> exact .refl s

theorem linkKept_corrWindow (w0 w1 j0 j1 order : Nat) (s : State) : LinkKept s (corrWindow w0 w1 j0 j1 order s).1 := by
  unfold corrWindow
  split
  · exact .refl s
  · exact .check fun _ => .still rfl rfl rfl

theorem linkKept_setStandard (standard : Nat) (s : State) : LinkKept s (setStandard standard s).1 := by
  unfold setStandard
  split
  · exact .refl s
  · refine .inSafe ?_
    simp only [accept, convertAll, raiseIf_eq]
    exact .still rfl rfl rfl

/-! ## Every request -/

theorem linkKept_request {r : Req} {st : Nat} {s t : State} {own : StationClass → State → State × Reply}
    (h : request r st s own = .next t) (keeps : ∀ c u, LinkKept u (own c u).1) : LinkKept s t := by
  rcases request_cases r st s t own h with ⟨-, e⟩ | ⟨-, -, e⟩ | ⟨-, u, p, e, rfl⟩
  · rw [e]; exact .refl s
  · rw [e]; exact linkKept_refuseFrame _ _ _ s
  · have owner := keeps (classOf s st) (takeFrame s)
    rw [e] at owner
    exact (linkKept_takeFrame s).trans (owner.trans (linkKept_answer _ _ _ _))

theorem LinkKept.unlessHeld {s : State} {f : State → State} (h : LinkKept s (f s)) : LinkKept s (unlessHeld s f) := by
  unfold Machine.unlessHeld
  split
  · exact .refl s
  · exact h

theorem linkKept_execCorrWrite {st : Nat} {values : List Int} {s t : State} (h : execCorrWrite st values s = .next t) :
    LinkKept s t := by
  unfold execCorrWrite at h
  split at h
  · cases h
    exact .unlessHeld (linkKept_refuseFrame _ _ _ s)
  · exact linkKept_request h fun _ u => .inSafe (.still rfl rfl rfl)

theorem linkKept_serve (i : Instr) (s t : State) (h : serve i s = .next t) : LinkKept s t := by
  have control := LinkKept.controlEdits
  cases i
  all_goals simp only [serve] at h
  case setAttentionMask => exact linkKept_request h fun _ u => .check fun _ => .still rfl rfl rfl
  case setWatchdog => exact linkKept_request h fun _ u => linkKept_setWatchdog _ u
  case setStationClass => exact linkKept_request h fun _ u => linkKept_setStationClass _ _ u
  case restart => exact linkKept_request h fun _ u => linkKept_restart u
  case zoneCreate => exact linkKept_request h fun c u => linkKept_createZone _ _ _ _ _ _ _ _ _ c u
  case zoneAmend | zoneSuspend =>
    exact linkKept_request h fun _ _ => .onZone fun _ => .check fun _ => .still rfl rfl rfl
  case zoneResume => exact linkKept_request h fun c u => linkKept_resumeZone _ _ _ c u
  case zoneRetire => exact linkKept_request h fun _ _ => .onZone fun _ => .still rfl rfl rfl
  case zoneLookup => exact linkKept_request h fun _ u => linkKept_lookupZone _ u
  case zoneFind | zoneList | markRead => exact linkKept_request h fun _ u => .check fun _ => .refl u
  case enable => exact linkKept_request h fun _ u => linkKept_enable _ u
  case disable => exact linkKept_request h fun _ u => .branch (.still rfl rfl rfl) (.refl u)
  case setAnchors | setFlightBox | setPayout | setLimits => exact linkKept_request h fun _ _ => .inSafe (.still rfl rfl rfl)
  case corrWindow => exact linkKept_request h fun _ u => linkKept_corrWindow _ _ _ _ _ u
  case corrWrite => exact linkKept_execCorrWrite h
  case corrRead => exact linkKept_request h fun _ _ => .check fun _ => .inSafe (.still rfl rfl rfl)
  case markSet => exact linkKept_request h fun c u => linkKept_markSet _ _ _ _ c u
  case markRetire => exact linkKept_request h fun c u => linkKept_markRetire _ _ c u
  case cueAppend | stick =>
    exact linkKept_request h fun _ _ => .check fun _ => .check fun _ => .check fun _ => .still rfl rfl rfl
  case cueGo => exact linkKept_request h fun _ u => linkKept_cueGo _ u
  case cueHalt => exact linkKept_request h fun _ u => .check fun _ => control.haltIfRunning u
  case cueFlush => exact linkKept_request h fun c u => linkKept_cueFlush _ c u
  case claim => exact linkKept_request h fun _ u => linkKept_claim _ u
  case release => exact linkKept_request h fun _ u => linkKept_release _ u
  case preempt => exact linkKept_request h fun _ u => control.preempted _ u
  case selectMode => exact linkKept_request h fun _ u => linkKept_selectMode _ _ u
  case setOrientation => exact linkKept_request h fun _ _ => .check fun _ => .check fun _ => .still rfl rfl rfl
  case endSwap | setStick => exact linkKept_request h fun _ _ => .check fun _ => .still rfl rfl rfl
  case readAuthority => exact linkKept_request h fun c u => linkKept_readAuthority _ _ c u
  case portControlEnable => exact linkKept_request h fun _ _ => linkKept_controlPort fun _ _ => portLaw_actEnable
  case portControlDisable => exact linkKept_request h fun _ _ => linkKept_controlPort fun _ _ => portLaw_actDisable
  case portControlRetrain => exact linkKept_request h fun _ _ => linkKept_controlPort fun _ _ => portLaw_actRetrain
  case portControlSleep => exact linkKept_request h fun _ _ => linkKept_controlPort fun _ _ => portLaw_actSleep
  case portControlWake => exact linkKept_request h fun _ _ => linkKept_controlPort fun _ _ => portLaw_actWake
  case setAbility => exact linkKept_request h fun _ u => linkKept_setAbility _ _ u
  case portTestStart => exact linkKept_request h fun _ u => linkKept_portTestStart _ _ _ u
  case portTestStop => exact linkKept_request h fun _ u => linkKept_portTestStop _ u
  case portClear => exact linkKept_request h fun _ u => linkKept_portClear _ u
  case setPortLimits => exact linkKept_request h fun _ u => linkKept_setPortLimits _ _ _ _ u
  case portRead => exact linkKept_request h fun c u => linkKept_portRead _ _ c u
  case stop => exact linkKept_request h fun c u => linkKept_stop _ _ c u
  case clearStop => exact linkKept_request h fun _ u => linkKept_clearStop u
  case setStandard => exact linkKept_request h fun _ u => linkKept_setStandard _ u
  case readStatus | readEvents | zoneClear | readMotion | readGeometry | readLimits | cueRead | setCueWindow | withdraw
      | readStop | readPeriod =>
    exact linkKept_request h fun _ _ => .still rfl rfl rfl
  all_goals cases h; exact .refl s

end Sys2Proof.Machine
end

