-- ==== Sys2Proof/Proofs/LinkStep.lean ====
section
/-! PROOFS. Every command and the idle step keep the four ports and their limits, and the Station Port's registers and receiver, as
R131, R134, R141, R159, R194, R197 and R207 say. -/

namespace Sys2Proof.Machine

/-- The move keeps the laws of the ports and of the Station Port. -/
structure PartsKept (s t : State) : Prop where
  ports : PortsOk s → PortsOk t
  station : StationOk s → StationOk t

namespace PartsKept

theorem refl (s : State) : PartsKept s s := ⟨id, id⟩

theorem trans {s t u : State} (h : PartsKept s t) (k : PartsKept t u) : PartsKept s u :=
  ⟨fun ok => k.ports (h.ports ok), fun ok => k.station (h.station ok)⟩

theorem ite {c : Prop} [Decidable c] {s t : State} (h : PartsKept s t) : PartsKept s (if c then t else s) := by
  split
  · exact h
  · exact refl s

theorem unlessHeld {s : State} {f : State → State} (h : PartsKept s (f s)) : PartsKept s (unlessHeld s f) := by
  unfold Machine.unlessHeld
  split
  · exact refl s
  · exact h

end PartsKept

/-- A move of the ports and the registers alone leaves the receiver and its buffer. -/
theorem LinkKept.parts {s t : State} (h : LinkKept s t) : PartsKept s t := by
  refine ⟨h.ports, fun ok => ?_⟩
  obtain ⟨registers, receiver⟩ := (stationOk_iff s).1 ok
  refine (stationOk_iff t).2 ⟨h.registers registers, ?_⟩
  unfold ReceiverOk
  rw [h.buffer, h.receiver]
  exact receiver

/-- A move that leaves the ports, their limits and what the laws read of the Station Port. -/
theorem PartsKept.still {s t : State} (ports : t.ports = s.ports) (limits : t.portLimits = s.portLimits)
    (line : lineOf t.station = lineOf s.station) : PartsKept s t := (LinkKept.still ports limits line).parts

/-! ## The station line (R197 to R201) -/

theorem linkKept_takeGoodFrame (st code : Nat) (ps : List Byte) (s : State) : LinkKept s (takeGoodFrame st code ps s) := by
  unfold takeGoodFrame
  split
  · exact linkKept_refuseFrame _ _ _ s
  · split
    · exact linkKept_refuseFrame _ _ _ s
    · split
      · exact linkKept_refuseFrame _ _ _ s
      · split
        · exact linkKept_refuseFrame _ _ _ s
        · exact linkKept_refuseFrame _ _ _ s
        · next i _ =>
          rcases outcome : serve i s with t | f | r
          · exact linkKept_serve i s t outcome
          · exact .refl s
          · exact .refl s

/-- Behind a good frame there is less than before it. -/
theorem frameBehind_shorter {bs ps rest : List Byte} {st code : Nat} (h : frameBehind bs = .good st code ps rest) :
    rest.length ≤ bs.length := by
  cases bs with
  | nil => cases h
  | cons l body =>
    simp only [frameBehind] at h
    repeat' split at h
    all_goals cases h
    rw [List.length_drop, List.length_cons]
    omega

/-- A turn of the receiver keeps the ports' law and the registers' law, whatever stands in the buffer meanwhile. -/
structure Scanned (s t : State) : Prop where
  ports : PortsOk s → PortsOk t
  registers : RegistersOk s → RegistersOk t

namespace Scanned

theorem trans {s t u : State} (h : Scanned s t) (k : Scanned t u) : Scanned s u :=
  ⟨fun ok => k.ports (h.ports ok), fun ok => k.registers (h.registers ok)⟩

theorem withBuffer {buf : List Byte} {s : State} (r : Receiver) (short : buf.length ≤ s.station.buffer.length) :
    Scanned s (withBuffer buf r s) := by
  refine ⟨id, ?_⟩
  rintro ⟨rate, length, others⟩
  exact ⟨rate, short.trans length, others⟩

theorem frameError {rest : List Byte} {s : State} (short : rest.length ≤ s.station.buffer.length) :
    Scanned s (frameError rest s) := by
  refine ⟨id, ?_⟩
  rintro ⟨rate, length, errors, others⟩
  exact ⟨rate, short.trans length, saturate_le _ _ errors, others⟩

end Scanned

theorem LinkKept.scanned {s t : State} (h : LinkKept s t) : Scanned s t := ⟨h.ports, h.registers⟩

theorem scanned_scanStation (fuel : Nat) (s : State) : Scanned s (scanStation fuel s) := by
  induction fuel generalizing s with
  | zero => exact (LinkKept.refl s).scanned
  | succ fuel ih =>
    unfold scanStation
    split
    · exact .withBuffer _ (Nat.zero_le _)
    · next b rest held =>
      have behind : rest.length ≤ s.station.buffer.length := by rw [held]; exact Nat.le_succ _
      have whole : (b :: rest).length ≤ s.station.buffer.length := by rw [held]
      split
      · exact (Scanned.withBuffer _ behind).trans (ih _)
      · split
        · exact .withBuffer _ whole
        · exact (Scanned.frameError behind).trans (ih _)
        · next found =>
          split
          · exact .withBuffer _ whole
          · exact ((Scanned.withBuffer _ ((frameBehind_shorter found).trans behind)).trans
              (linkKept_takeGoodFrame _ _ _ _).scanned).trans (ih _)

theorem receiverOk_waiting {rest : List Byte} {b : Byte} (s : State) (sync : b = 0x5C#8) :
    ReceiverOk (withBuffer (b :: rest) (waiting s.station.receiver) s) := by
  have inFrame : waiting s.station.receiver ≠ .hunting := by
    unfold waiting
    split <;> simp
  exact ⟨fun hunting => absurd hunting inFrame, fun _ => congrArg some sync⟩

/-- Each turn of the receiver takes a byte away, so that it comes to rest: on an empty buffer, or on a sync (R197). -/
theorem receiverOk_scanStation (fuel : Nat) (s : State) (enough : s.station.buffer.length < fuel) :
    ReceiverOk (scanStation fuel s) := by
  induction fuel generalizing s with
  | zero => exact absurd enough (Nat.not_lt_zero _)
  | succ fuel ih =>
    unfold scanStation
    split
    · exact ⟨fun _ => rfl, fun inFrame => absurd rfl inFrame⟩
    · next b rest held =>
      rw [held, List.length_cons] at enough
      split
      · exact ih _ (Nat.lt_of_succ_lt_succ enough)
      · next sync =>
        split
        · exact receiverOk_waiting s (not_not.1 sync)
        · exact ih _ (Nat.lt_of_succ_lt_succ enough)
        · next found =>
          split
          · exact receiverOk_waiting s (not_not.1 sync)
          · refine ih _ ?_
            rw [(linkKept_takeGoodFrame _ _ _ _).buffer]
            exact lt_of_le_of_lt (frameBehind_shorter found) (Nat.lt_of_succ_lt_succ enough)

/-- The receiver comes to rest over whatever it is given. -/
theorem PartsKept.scan {s t : State} (ports : PortsOk s → PortsOk t) (registers : RegistersOk s → RegistersOk t) :
    PartsKept s (scan t) := by
  obtain ⟨scannedPorts, scannedRegisters⟩ := scanned_scanStation (t.station.buffer.length + 1) t
  refine ⟨fun ok => scannedPorts (ports ok), fun ok => (stationOk_iff _).2 ⟨?_, ?_⟩⟩
  · exact scannedRegisters (registers ((stationOk_iff s).1 ok).1)
  · exact receiverOk_scanStation _ t (Nat.lt_succ_self _)

theorem partsKept_arriveChar (b : Byte) (s : State) : PartsKept s (arriveChar b s) := by
  unfold arriveChar
  split
  · exact (LinkKept.raiseIf true _ s).parts
  · next room =>
    refine .scan id ?_
    rintro ⟨rate, -, others⟩
    refine ⟨rate, ?_, others⟩
    simp only [List.length_append, List.length_singleton]
    omega

theorem partsKept_timeOutStation (s : State) : PartsKept s (timeOutStation s) := by
  unfold timeOutStation
  split
  · next b rest _ held =>
    obtain ⟨ports, registers⟩ := Scanned.frameError (rest := rest) (s := s) (by rw [held]; exact Nat.le_succ _)
    exact .ite (.scan ports registers)
  · exact .refl s

theorem partsKept_finishAnswer (s : State) : PartsKept s (finishAnswer s) := .ite (.scan id id)

/-! ## The clock (R181, R197, R214) -/

theorem partsKept_runReceivers (k : Nat) (s : State) : PartsKept s (runReceivers k s) := by
  have port : ∀ i t, LinkKept t (runPort i k t) := fun i t => .runReceiver _ i k t
  have timed : ∀ t : State, PartsKept t { t with station := { t.station with receiver := t.station.receiver.run k } } := by
    refine fun t => ⟨id, fun ok => ?_⟩
    obtain ⟨registers, hunting, inFrame⟩ := (stationOk_iff t).1 ok
    refine (stationOk_iff _).2 ⟨registers, fun h => hunting ?_, fun h => inFrame fun same => h ?_⟩
    · dsimp only at h
      unfold Receiver.run at h
      split at h
      · assumption
      · cases h
    · dsimp only
      rw [same]
      rfl
  exact (((port 0 s).trans (port 1 _)).trans ((port 2 _).trans (port 3 _))).parts.trans (timed _)

theorem partsKept_stationTimer (s : State) : PartsKept s (stationTimer s) := by
  unfold stationTimer
  split
  · exact .ite (partsKept_timeOutStation s)
  · exact .refl s

theorem partsKept_period (g : PeriodGen) (s : State) : PartsKept s { s with period := g } :=
  .still rfl rfl rfl

theorem partsKept_runTimers (k : Nat) (s : State) : PartsKept s (runTimers k s) :=
  (((partsKept_runReceivers k s).trans (LinkKept.withPeriod _ _).parts).trans (partsKept_stationTimer _)).trans
    (partsKept_period _ _)

theorem partsKept_runToWrap (fuel : Nat) (s : State) : PartsKept s (runToWrap fuel s) := by
  induction fuel generalizing s with
  | zero => exact partsKept_runTimers _ s
  | succ fuel ih =>
    unfold runToWrap
    split
    · exact (partsKept_runTimers _ s).trans (ih _)
    · exact partsKept_runTimers _ s

theorem partsKept_periodExpiry (s : State) : PartsKept s (periodExpiry s) :=
  (((LinkKept.commitFlight s).parts.trans (partsKept_runToWrap _ _)).trans (partsKept_period _ _)).trans
    (LinkKept.expiryWork _).parts

theorem partsKept_tick (s : State) : PartsKept s (tick s) := by
  have timers := partsKept_runTimers 1 s
  unfold tick
  dsimp only
  split
  · exact ((timers.trans (LinkKept.commitFlight _).parts).trans (partsKept_period _ _)).trans (LinkKept.expiryWork _).parts
  · exact timers

/-! ## The resets (R131, R194, R196) -/

theorem portsOk_powerOn {t : State} (ports : t.ports = quadOf portPowerOn) (limits : t.portLimits = portLimitsPowerOn) :
    PortsOk t := by
  unfold PortsOk
  rw [ports, limits]
  exact portsOk_reset

theorem stationOk_powerOn {t : State} {rate : Nat} (station : t.station = stationPowerOn rate) (most : rate ≤ 3) :
    StationOk t := by
  unfold StationOk
  rw [station]
  exact ⟨most, by simp [stationPowerOn], by simp [stationPowerOn], by simp [stationPowerOn], by simp [stationPowerOn],
    by simp [stationPowerOn], fun _ => rfl, fun inFrame => absurd rfl inFrame⟩

theorem rateOf_le (srate1 srate0 : Bool) : rateOf srate1 srate0 ≤ 3 := by cases srate1 <;> cases srate0 <;> decide

/-! ## Every command, and a step -/

theorem partsKept_exec (i : Instr) (s t : State) (h : exec i s = .next t) : PartsKept s t := by
  have control := LinkKept.controlEdits
  have served := fun h => (linkKept_serve i s t h).parts
  cases i
  case powerOnReset =>
    cases h
    exact ⟨fun _ => portsOk_powerOn rfl rfl, fun _ => stationOk_powerOn rfl (rateOf_le _ _)⟩
  case resetAsserted =>
    cases h
    exact ⟨fun _ => portsOk_powerOn rfl rfl, fun ok => stationOk_powerOn rfl ok.1⟩
  case periodExpiry => cases h; exact .unlessHeld (partsKept_periodExpiry s)
  case periodCommit => cases h; exact .unlessHeld (LinkKept.commitFlight s).parts
  case cueDwellExpiry => cases h; exact .unlessHeld (.ite (control.completeCue s).parts)
  case cueBlocked => cases h; exact .unlessHeld (.ite (control.failHead _ s).parts)
  case zoneLifetimeExpiry => cases h; exact .unlessHeld (.ite (.still rfl rfl rfl))
  case backoffExpiry station =>
    cases h
    exact .unlessHeld (.ite ((control.auth _ s).trans (control.claimDecision _)).parts)
  case stickHoldExpiry => cases h; exact .unlessHeld (.ite (control.stickStep s).parts)
  case watchdogExpiry => cases h; exact .unlessHeld (.ite (LinkKept.silenceStep s).parts)
  case trainingSilenceExpiry => cases h; exact .unlessHeld (.ite (LinkKept.movePort fun law => law.trainStep).parts)
  case breakExpiry => cases h; exact .unlessHeld (.ite (LinkKept.movePort fun law => law.breakStep).parts)
  case consecutiveMissLimit =>
    cases h
    refine .unlessHeld ?_
    dsimp only
    split
    · next due => exact (LinkKept.missCheck due.1).parts
    · exact .refl s
  case refPulse => cases h; exact .unlessHeld (LinkKept.withPeriod _ s).parts
  case referenceLoss => cases h; exact .unlessHeld (.ite (LinkKept.withPeriod _ s).parts)
  case estopLineChange =>
    cases h
    split
    · exact .still rfl rfl rfl
    · exact (control.takeEstop _ s (.still rfl rfl rfl)).parts
  case stationCharacter => cases h; exact .unlessHeld (partsKept_arriveChar _ s)
  case stationFrameTimeout => cases h; exact .unlessHeld (partsKept_timeOutStation s)
  case answerSent => cases h; exact .unlessHeld (partsKept_finishAnswer s)
  case unknownRequestFrame =>
    cases h
    refine .unlessHeld ?_
    split
    · exact .refl s
    · exact (linkKept_refuseFrame _ _ _ s).parts
  case driveAbilityFrame => cases h; exact .unlessHeld (LinkKept.driveAbility _ _ s).parts
  case driveFeedbackFrame => cases h; exact .unlessHeld (LinkKept.driveFeedback _ _ _ _ _ s).parts
  case driveWakeFrame => cases h; exact .unlessHeld (LinkKept.driveWake _ s).parts
  case driveTestFrame => cases h; exact .unlessHeld (LinkKept.driveTest _ _ s).parts
  case winchFrameBadCheck => cases h; exact .unlessHeld (LinkKept.badCheck _ s).parts
  case winchFrameTimeout => cases h; exact .unlessHeld (LinkKept.timeOutWinch _ s).parts
  case winchCharacter =>
    cases h
    refine .unlessHeld ?_
    split
    · exact .refl s
    · exact (LinkKept.receive _ _ s).parts
  all_goals exact served h

theorem partsKept_step (s t : State) (h : step s = .next t) : PartsKept s t := by
  unfold step at h
  split at h
  · next c rest _ =>
    have front : PartsKept s { s with pending := rest } := .still rfl rfl rfl
    exact front.trans (partsKept_exec c _ t h)
  · cases h
    exact .unlessHeld (partsKept_tick s)

/-- Settles O55: a port moves from law to law by the lemmas on one port, and the receiver comes to rest whenever it moves. -/
theorem portsKept : Obligations.PortsKept :=
  ⟨fun s t ok h => (partsKept_step s t h).ports ok, fun s t ok h => (partsKept_step s t h).station ok⟩

end Sys2Proof.Machine
end

