-- ==== Sys2Proof/Proofs/PortCauses.lean ====
section
/-! PROOFS. The causes that a port raises, in any state: what the raising does to the Stop Unit, the mode, the running cue and the
authority, one cause after another, and a link that is lost (R139, R147, R164 to R168). -/

namespace Sys2Proof.Machine

/-! ## What a cause does, in any state (R65, R167, R168) -/

section

variable {s t u : State} {k l : StopKind}

theorem clearCueBasis_of_vacant (vacant : s.auth.holder = none) : clearCueBasis s = s :=
  if_pos (Option.isNone_iff_eq_none.2 vacant)

/-- A running cue with no holder, which no run reaches: it halts, and there is no basis to clear. -/
theorem stopTaken_of_vacant {v : StopUnit} (kind : v.kind = kindTaken s k) (changed : v.kind ≠ s.stop.kind)
    (running : s.motion.mode = .cue) (vacant : s.auth.holder = none) :
    StopTaken s (leaveSteered v.kind { s with stop := v }) k := by
  have left : leaveSteered v.kind { s with stop := v } = flushStick (dropCopy (stopBegun v.kind { s with stop := v })) := by
    refine congrArg flushStick ((if_pos running).trans (clearCueBasis_of_vacant ?_))
    show (stopBegun v.kind { s with stop := v }).auth.holder = none
    rw [stopBegun_eq]
    exact vacant
  rw [left]
  unfold StopTaken stopBegun
  dsimp only
  rw [← kindTaken, ← kind]
  refine ⟨?_, fun same => absurd same changed, fun _ => ?_, ?_⟩ <;> by_cases brake : v.kind = .brake <;>
    simp [brake, running, vacant, zero3, eventSet, Mode.steered]

/-- The Stop Unit with its new kind in force, reported when it is new. -/
theorem stopTaken_of_kind {v : StopUnit} (kind : v.kind = kindTaken s k) : StopTaken s (reported s v) k := by
  unfold reported
  split
  · next same => exact stopTaken_of_same kind same
  · next changed =>
    rcases reportKind_cases v.kind { s with stop := v } with ⟨steered, e⟩ | ⟨stops, brake, e⟩ | ⟨stops, milder, e⟩ | ⟨safe, -⟩
    · rw [e]
      by_cases running : s.motion.mode = .cue
      · rcases holder : s.auth.holder with _ | h
        · exact stopTaken_of_vacant kind changed running holder
        · exact stopTaken_of_cue kind changed running holder
      · exact stopTaken_of_idle kind changed steered running
    · rw [e]
      exact (if_pos brake : _ = freeze { s with stop := v }) ▸ stopTaken_of_stopping kind changed stops
    · rw [e]
      exact (if_neg milder : _ = { s with stop := v }) ▸ stopTaken_of_stopping kind changed stops
    · exact absurd (kind.trans (if_pos safe)) changed

/-- What `StopTaken` reads of the state before the cause. -/
theorem StopTaken.of_stands (taken : StopTaken u t k) (motion : u.motion = s.motion) (cue : u.cue = s.cue)
    (auth : u.auth = s.auth) (kind : u.stop.kind = s.stop.kind) (authority : eventSet u .authority = eventSet s .authority) :
    StopTaken s t k := by
  unfold StopTaken at taken ⊢
  rw [motion, cue, auth, kind, authority] at taken
  exact taken

/-- What `StopTaken` reads of the state after it. -/
theorem StopTaken.to_stands (taken : StopTaken s u k) (motion : t.motion = u.motion) (cue : t.cue = u.cue)
    (auth : t.auth = u.auth) (kind : t.stop.kind = u.stop.kind) (authority : eventSet t .authority = eventSet u .authority) :
    StopTaken s t k := by
  unfold StopTaken at taken ⊢
  rw [motion, cue, auth, kind, authority]
  exact taken

/-- With no cause nothing follows. -/
theorem StopTaken.idle (motion : t.motion = s.motion) (cue : t.cue = s.cue) (auth : t.auth = s.auth)
    (kind : t.stop.kind = s.stop.kind) (authority : eventSet t .authority = eventSet s .authority) :
    StopTaken s t .none := by
  have none : kindTaken s .none = s.stop.kind := by
    unfold kindTaken
    split
    · rfl
    · exact if_neg (Nat.not_lt_zero _)
  unfold StopTaken
  dsimp only
  rw [← kindTaken, none]
  exact ⟨kind, fun _ => ⟨motion, cue, auth⟩, fun changed => absurd rfl changed, fun _ => authority⟩

/-- The kind in force stands at rest, and against a cause that is no harsher (R164, R167). -/
theorem kindTaken_eq_self :
    kindTaken s k = s.stop.kind
      ↔ (s.motion.mode = .safe ∨ s.motion.mode = .stopped .braked) ∨ k.severity ≤ s.stop.kind.severity := by
  unfold kindTaken
  split
  · next rest => exact iff_of_true rfl (.inl rest)
  · next moving =>
    split
    · next harsher =>
      refine iff_of_false (fun same => ?_) (by rintro (rest | milder); exacts [moving rest, absurd harsher (not_lt.2 milder)])
      rw [same] at harsher
      exact lt_irrefl _ harsher
    · next milder => exact iff_of_true rfl (.inr (not_lt.1 milder))

theorem kindTaken_of_ne (changed : kindTaken s k ≠ s.stop.kind) : kindTaken s k = k := by
  unfold kindTaken at changed ⊢
  split
  · next rest => exact absurd (if_pos rest) changed
  · next moving =>
    rw [if_neg moving] at changed
    split
    · rfl
    · next milder => exact absurd (if_neg milder) changed

/-- After a cause one that is no harsher changes no kind in force. -/
theorem StopTaken.kindTaken_milder (taken : StopTaken s u k) (milder : l.severity ≤ k.severity) :
    kindTaken u l = u.stop.kind := by
  obtain ⟨kind, stands, -, -⟩ := taken
  rw [← kindTaken] at kind stands
  refine kindTaken_eq_self.2 ?_
  by_cases same : kindTaken s k = s.stop.kind
  · obtain ⟨motion, -, -⟩ := stands same
    rw [motion, kind, same]
    exact (kindTaken_eq_self.1 same).imp_right milder.trans
  · rw [kind, kindTaken_of_ne same]
    exact .inr milder

/-- A cause that is no harsher than the one before it adds nothing to it. -/
theorem StopTaken.milder (first : StopTaken s u k) (second : StopTaken u t l) (milder : l.severity ≤ k.severity) :
    StopTaken s t k := by
  have kindU := first.kindTaken_milder milder
  obtain ⟨kind, stands, -, authority⟩ := second
  rw [← kindTaken] at kind stands authority
  obtain ⟨motion, cue, auth⟩ := stands kindU
  exact first.to_stands motion cue auth (kind.trans kindU) (authority (.inl kindU))

end

/-! ## A cause that a port raises (R165, R166) -/

/-- The causes that name a port, in the order of log 18 with PORT_LOST first. -/
def Cause.ofPort : Cause → Bool
  | .tensionHigh | .slack | .portLost | .driveFault | .following => true
  | .operator | .stationSilent | .estop => false

theorem Attribution.ports_join (a : Attribution) {c : Cause} (ofPort : c.ofPort = true) (i : Nat) (d : Cause) :
    (a.join c i).ports d = if d = c then a.ports d ||| BitVec.twoPow 4 i else a.ports d := by
  cases c <;> cases ofPort <;> cases d <;> rfl

/-- What the raising of a port's cause does, to all but its effects on the mode. -/
structure PortRaised (c : Cause) (i : Nat) (s t : State) : Prop where
  frame : ControlFrame s t
  stop : t.stop = { s.stop.join c (some i) .none with kind := t.stop.kind }
  taken : StopTaken s t (c.kind s.stop.requested)
  event : eventSet t .stop = true
    ↔ eventSet s .stop = true ∨ s.stop.has c = false ∨ t.stop.kind ≠ s.stop.kind
  others : ∀ e, e ≠ .stop → e ≠ .authority → eventSet t e = eventSet s e

theorem portRaised {c : Cause} (ofPort : c.ofPort = true) (i : Nat) (s : State) :
    PortRaised c i s (raisePortCause c i s) := by
  have operator : c ≠ .operator := by rintro rfl; cases ofPort
  have stop := raiseCause_stop c (some i) .none s
  have requested : (s.stop.join c (some i) .none).requested = s.stop.requested := if_neg operator
  obtain ⟨-, -, events⟩ := reportStands_reported s (stopJoined c (some i) .none s)
  have taken := StopTaken.raiseStop
    (stopTaken_of_kind (v := stopJoined c (some i) .none s) (kindAfter_eq s (c.kind (s.stop.join c (some i) .none).requested)))
    (!s.stop.has c || (stopJoined c (some i) .none s).kind != s.stop.kind)
  rw [← raiseCause_eq_reported, requested] at taken
  refine ⟨frame_raiseCause c (some i) .none s, ?_, taken, ?_, fun e he other => ?_⟩
  · rw [raisePortCause, stop]
    rfl
  · show eventSet (raiseCause c (some i) .none s) .stop = true ↔ _ ∨ _ ∨ (raiseCause c (some i) .none s).stop.kind ≠ _
    rw [stop, raiseCause_eq_reported, eventSet_raiseIf, events _ (by decide)]
    simp [eventSet]
  · show eventSet (raiseCause c (some i) .none s) e = _
    rw [raiseCause_eq_reported, eventSet_raiseIf_of_ne he, events e other]
    rfl

namespace PortRaised

variable {c : Cause} {i : Nat} {s t : State}

theorem has (raised : PortRaised c i s t) (d : Cause) : t.stop.has d = (s.stop.has d || decide (d = c)) := by
  rw [raised.stop, ← has_join s.stop c d (some i) .none]
  rfl

theorem attribution (raised : PortRaised c i s t) : t.stop.attribution = s.stop.attribution.join c i := by rw [raised.stop]; rfl

/-- The raising port joins the attribution of its cause. -/
theorem attributed (raised : PortRaised c i s t) (ofPort : c.ofPort = true) (hi : i ≤ 3) :
    t.stop.has c = true ∧ (t.stop.attribution.ports c).getLsbD i = true := by
  refine ⟨by simp [raised.has], ?_⟩
  rw [raised.attribution, Attribution.ports_join _ ofPort, if_pos rfl]
  simp [show i < 4 by omega]

end PortRaised

/-! ## A link that is lost (R139, R142, R147) -/

/-- Port `i`, which was UP, has become `q` in BREAK, and PORT_LOST is raised. -/
structure LinkLost (i : Nat) (q : Port) (s t : State) : Prop where
  ports : t.ports = s.ports.put i q
  has : t.stop.has .portLost = true
  attributed : t.stop.attribution.portLost.getLsbD i = true
  event : eventSet t .port = true
  taken : StopTaken s t .brake

theorem eventSet_movePort {i : Nat} {q : Port} {s : State} (changed : q.state ≠ (s.ports.get i).state) (e : Event) :
    eventSet (movePort i q s) e = (eventSet s e || decide (e = .port)) := by
  rw [movePort, eventSet_raiseIf, bne_iff_ne.2 changed, Bool.true_and]
  rfl

theorem linkLost {i : Nat} {q : Port} {s : State} (hi : i ≤ 3) (up : (s.ports.get i).state = .up) (down : q.state ≠ .up) :
    LinkLost i q s (raisePortCause .portLost i (movePort i q s)) := by
  have raised := portRaised (c := .portLost) rfl i (movePort i q s)
  obtain ⟨has, attributed⟩ := raised.attributed rfl hi
  have event := eventSet_movePort (i := i) (q := q) (s := s) (by rw [up]; exact down)
  refine ⟨?_, has, attributed, ?_, ?_⟩
  · rw [raised.frame.ports, movePort_eq]
  · rw [raised.others _ (by decide) (by decide), event]
    simp
  · refine raised.taken.of_stands ?_ ?_ ?_ ?_ ((event _).trans (by simp))
    all_goals rw [movePort_eq]

end Sys2Proof.Machine
end

