-- ==== Sys2Proof/Proofs/PortThresholds.lean ====
section
/-! PROOFS. The thresholds of a port, each by its command (R138, R139, R147). -/

namespace Sys2Proof.Machine

section

variable {s : State} {i : Nat} {q : Port}

/-- A port that changes its state raises PORT (R132). -/
theorem movePort_of_changed (changed : q.state ≠ (s.ports.get i).state) :
    movePort i q s = { s with
      ports := s.ports.put i q, station := { s.station with events := s.station.events ||| 0x200#14 } } := by
  rw [movePort_eq, if_neg changed]

/-- A port that keeps its state raises nothing. -/
theorem movePort_of_same (same : q.state = (s.ports.get i).state) : movePort i q s = { s with ports := s.ports.put i q } := by
  rw [movePort_eq, if_pos same]

theorem dropLink_of_down (down : q.state ≠ .up) : q.dropLink = q := if_neg down

theorem enterBreak_of_down (down : q.state ≠ .up) (why : BreakCause) :
    q.enterBreak why = { q with state := .break_, breakCause := why, breakLeft := 300 } := by
  rw [Port.enterBreak, dropLink_of_down down]

/-- The last silent period of TRAINING (R138). -/
theorem trainStep_silent (training : q.state = .training) (last : q.silence = 199) :
    q.trainStep = { q with
      silence := 200, state := .break_, breakCause := .silent, breakLeft := 300, lineOut := abilityFrame q } := by
  have counted : saturate q.silence 200 = 200 := by rw [last]; rfl
  unfold Port.trainStep
  dsimp only
  rw [if_pos counted, counted, enterBreak_of_down (by simp [training])]

/-- The last period of a break (R139). -/
theorem breakStep_last (last : q.breakLeft ≤ 1) : q.breakStep = trainingAfresh { q with breakLeft := 0, lineOut := [] } :=
  if_pos last

theorem Port.missed_iff : q.missed = true ↔ q.good = false ∧ q.lastSent.isSome = true := by
  simp [Port.missed]

/-- A third consecutive miss breaks the link (R147). -/
theorem missCheck_third (missed : (s.ports.get i).missed = true) (third : 2 ≤ (s.ports.get i).misses) :
    missCheck i s
      = raisePortCause .portLost i (movePort i ((s.ports.get i).countMiss.enterBreak .missed) s) := by
  unfold missCheck
  dsimp only
  rw [if_pos missed, if_pos third]

end

/-- Settles O52: each command makes the last step of its count, or finds the count elsewhere. -/
theorem portThresholds : Obligations.PortThresholds := by
  intro s i free hi q moved
  have silence : exec (.trainingSilenceExpiry i) s
      = .next (if q.state = .training ∧ 199 ≤ q.silence then movePort i q.trainStep s else s) :=
    congrArg Host.Outcome.next (unlessHeld_free s _ free)
  have break_ : exec (.breakExpiry i) s = .next (if q.state = .break_ ∧ q.breakLeft ≤ 1 then movePort i q.breakStep s else s) :=
    congrArg Host.Outcome.next (unlessHeld_free s _ free)
  have limit : exec (.consecutiveMissLimit i) s
      = .next (if q.state = .up ∧ q.missed = true ∧ 2 ≤ q.misses then missCheck i s else s) :=
    congrArg Host.Outcome.next (unlessHeld_free s _ free)
  refine ⟨fun training last => ?_, fun short => ?_, fun breaking last => ?_, fun short => ?_, fun short => ?_,
    fun up unanswered sent third => ?_⟩
  · rw [silence, if_pos ⟨training, last.ge⟩, trainStep_silent training last, movePort_of_changed]
    rw [show (s.ports.get i).state = .training from training]
    simp
  · rw [silence, if_neg]
    rintro ⟨training, last⟩
    exact short.elim (fun other => other training) (by omega)
  · rw [break_, if_pos ⟨breaking, last⟩, breakStep_last last, movePort_of_changed]
    rw [show (s.ports.get i).state = .break_ from breaking]
    simp [trainingAfresh]
  · rw [break_, if_neg]
    rintro ⟨breaking, last⟩
    exact short.elim (fun other => other breaking) (by omega)
  · rw [limit, if_neg]
    rintro ⟨up, missed, third⟩
    obtain ⟨unanswered, sent⟩ := Port.missed_iff.1 missed
    rcases short with down | answered | none | few
    · exact down up
    · rw [unanswered] at answered; cases answered
    · rw [none] at sent; cases sent
    · omega
  · have missed : q.missed = true := Port.missed_iff.2 ⟨unanswered, sent⟩
    have lost := linkLost (q := q.countMiss.enterBreak .missed) hi up (by simp [Port.enterBreak])
    have port := congrArg (Quad.get · i) lost.ports
    rw [Quad.put_get_self _ _ _ hi] at port
    refine ⟨_, by rw [limit, if_pos ⟨up, missed, third.ge⟩, missCheck_third missed third.ge], ?_, ?_, ?_, ?_, lost.has,
      lost.attributed, lost.event, lost.taken, fun j hj other => ?_⟩
    · rw [port]; rfl
    · rw [port]; rfl
    · rw [port]; rfl
    · rw [port, Port.enterBreak, dropLink_keeps]; rfl
    · rw [lost.ports, Quad.put_get_of_ne _ _ _ _ hj other]

end Sys2Proof.Machine
end

