-- ==== Sys2Proof/Proofs/Training.lean ====
section
/-! PROOFS. Training of a link, and the class taken again in UP (R135 to R143). -/

namespace Sys2Proof.Machine

/-! ## Class sets (R136, R141, R142) -/

theorem highestClass_eq_none (set : BitVec 4) : highestClass set = none ↔ set = 0#4 := by
  revert set
  decide

theorem abilityOf_eq (b : Nat) :
    abilityOf b
      = { classes := BitVec.ofNat 4 (b % 16), tension := decide (b / 16 % 2 = 1), test := decide (b / 32 % 2 = 1) } := by
  rw [abilityOf, Nat.testBit_eq_decide_div_mod_eq, Nat.testBit_eq_decide_div_mod_eq]

section

variable {s : State} {i : Nat} {q : Port}

/-! ## The class taken again in UP (R142, R143) -/

theorem reclass_of_empty {classes : BitVec 4} (empty : q.allowed &&& classes = 0#4) :
    reclass i q classes s = raisePortCause .portLost i (movePort i (q.enterBreak .lostClass) s) := by
  rw [reclass, (highestClass_eq_none _).2 empty]

/-- A class is taken again, with DERATE when it is lower than the one before (R142). -/
theorem reclass_of_class {classes : BitVec 4} {k old : SpeedClass} (highest : highestClass (q.allowed &&& classes) = some k)
    (resolved : q.resolved = some old) :
    reclass i q classes s = { s with
      ports := s.ports.put i { q with resolved := some k }
      station := { s.station with
        events := if k.rank < old.rank then s.station.events ||| 0x800#14 else s.station.events } } := by
  rw [reclass, highest, resolved]
  dsimp only
  rw [raiseIf_eq]
  simp only [decide_eq_true_eq]
  rfl

theorem linkDropped_resolved (up : q.state = .up) : (linkDropped q).resolved = none := by
  rw [linkDropped, if_pos up]

/-- A link lost with LOST_CLASS (R142, R143). -/
theorem reclass_lost {classes : BitVec 4} (hi : i ≤ 3) (up : (s.ports.get i).state = .up)
    (empty : q.allowed &&& classes = 0#4) :
    LinkLost i (q.enterBreak .lostClass) s (reclass i q classes s) := by
  rw [reclass_of_empty empty]
  exact linkLost hi up (by simp [Port.enterBreak])

theorem LinkLost.get {t : State} (lost : LinkLost i q s t) (hi : i ≤ 3) : t.ports.get i = q := by
  rw [lost.ports, Quad.put_get_self _ _ _ hi]

theorem LinkLost.elsewhere {t : State} (lost : LinkLost i q s t) (j : Nat) (hj : j ≤ 3) (other : j ≠ i) :
    t.ports.get j = s.ports.get j := by
  rw [lost.ports, Quad.put_get_of_ne _ _ _ _ hj other]

/-- A request's frame and answer are no part of it. -/
theorem LinkLost.answered {u : State} (lost : LinkLost i q (takeFrame s) u) (st code : Nat) (r : Reply) :
    LinkLost i q s (answer st code r u) :=
  ⟨lost.ports, lost.has, lost.attributed, lost.event,
    (lost.taken.of_stands rfl rfl rfl rfl rfl).to_stands rfl rfl rfl rfl rfl⟩

/-! ## SET_ABILITY (R143) -/

/-- A request that its owner takes, with the state that the owner leaves. -/
theorem request_taken {r : Req} {st : Nat} {own : StationClass → State → State × Reply} {u : State} {payload : List Byte}
    (may : MaySend s r st) (h : own (classOf s st) (takeFrame s) = accept u payload) :
    request r st s own = .next (answer st r.code ⟨.ok, payload⟩ u) := by
  rw [request_of_maySend r st s own may, h]
  rfl

theorem classSetOf_of_le {n : Nat} (low : 1 ≤ n) (high : n ≤ 15) : classSetOf n = some (BitVec.ofNat 4 n) :=
  if_neg (by omega)

theorem byte_ofNat {n : Nat} (high : n ≤ 15) : byte (BitVec.ofNat 4 n).toNat = byte n := by
  rw [BitVec.toNat_ofNat, Nat.mod_eq_of_lt (by omega)]

/-- In UP the intersection is worked out again. -/
theorem setAbility_of_up {n : Nat} {a : Ability} (low : 1 ≤ n) (high : n ≤ 15) (hi : i ≤ 3)
    (up : (s.ports.get i).state = .up) (abilities : (s.ports.get i).abilities = some a) :
    setAbility i n s
      = accept (reclass i { s.ports.get i with allowed := BitVec.ofNat 4 n } a.classes s)
          (byte n ++ byte (speedClassCode ((reclass i { s.ports.get i with allowed := BitVec.ofNat 4 n } a.classes s).ports.get
            i).resolved)) := by
  simp only [setAbility, classSetOf_of_le low high, if_neg (not_lt.2 hi), byte_ofNat high, up, abilities]

/-! ## Training (R135 to R140) -/

/-- What an entry to UP clears (R140). -/
def upAfresh (q : Port) : Port :=
  { q with
    misses := 0, followRun := 0, highRun := 0, slackRun := 0, good := false
    status := { ready := false, brakeReleased := false, tempWarn := false, fault := 0 }
    candidate := none, lastSent := none }

/-- TRAINING has heard an ABILITY frame (R135). -/
def abilityHeard (a : Ability) (q : Port) : Port := { q with silence := 0, feedbackRun := 0, runAbility := some a }

/-- TRAINING has heard a FEEDBACK frame (R135). -/
def feedbackHeard (q : Port) : Port := { q with silence := 0, abilityRun := 0, runAbility := none }

/-- The run of identical ABILITY frames after one more (R136). -/
def nextAbilityRun (a : Ability) (q : Port) : Nat :=
  if 0 < q.abilityRun ∧ q.runAbility = some a then saturate q.abilityRun 3 else 1

theorem trainAbility_eq (a : Ability) (q : Port) :
    q.trainAbility a
      = if nextAbilityRun a q = 3 then Port.resolve a { abilityHeard a q with abilityRun := nextAbilityRun a q }
        else { abilityHeard a q with abilityRun := nextAbilityRun a q } := rfl

theorem trainAbility_afresh {a : Ability} (other : ¬(0 < q.abilityRun ∧ q.runAbility = some a)) :
    q.trainAbility a = { abilityHeard a q with abilityRun := 1 } := by
  rw [trainAbility_eq, nextAbilityRun, if_neg other]
  rfl

theorem trainAbility_second {a : Ability} (same : 0 < q.abilityRun ∧ q.runAbility = some a) (run : q.abilityRun = 1) :
    q.trainAbility a = { abilityHeard a q with abilityRun := 2 } := by
  rw [trainAbility_eq, nextAbilityRun, if_pos same, run]
  rfl

theorem trainAbility_third {a : Ability} (same : 0 < q.abilityRun ∧ q.runAbility = some a) (run : q.abilityRun = 2) :
    q.trainAbility a = Port.resolve a { abilityHeard a q with abilityRun := 3 } := by
  rw [trainAbility_eq, nextAbilityRun, if_pos same, run]
  rfl

/-- The highest common class resolves the link (R136, R140). -/
theorem resolve_of_class {a : Ability} {k : SpeedClass} (highest : highestClass (q.allowed &&& a.classes) = some k) :
    q.resolve a = upAfresh { q with
      state := .up, abilities := some a, resolved := some k, legacy := false, measured := none, tension := none } := by
  rw [Port.resolve, highest]
  rfl

/-- No common class breaks it (R136, R139). -/
theorem resolve_of_empty {a : Ability} (down : q.state ≠ .up) (empty : q.allowed &&& a.classes = 0#4) :
    q.resolve a = { q with state := .break_, breakCause := .noCommonClass, breakLeft := 300 } := by
  rw [Port.resolve, (highestClass_eq_none _).2 empty]
  exact enterBreak_of_down down _

theorem trainFeedback_counted {measured tension : Nat} (more : q.feedbackRun < 15) :
    q.trainFeedback measured tension = { feedbackHeard q with feedbackRun := q.feedbackRun + 1 } := by
  have counted : saturate q.feedbackRun 16 = q.feedbackRun + 1 := if_pos (by omega)
  simp only [Port.trainFeedback, counted]
  exact if_neg (by omega)

theorem trainFeedback_last {measured tension : Nat} (last : q.feedbackRun = 15) :
    q.trainFeedback measured tension = Port.resolveLegacy measured tension { feedbackHeard q with feedbackRun := 16 } := by
  simp only [Port.trainFeedback, last]
  rfl

/-- A legacy drive is taken as class A (R137). -/
theorem resolveLegacy_of_allowed {measured tension : Nat} (allowed : q.allowed.getLsbD 0 = true) :
    q.resolveLegacy measured tension = upAfresh { q with
      state := .up, legacy := true, resolved := some .a, abilities := some { classes := 1#4, tension := true, test := false }
      measured := some measured, tension := if tension = 65535 then none else some tension } := by
  rw [Port.resolveLegacy, if_pos allowed]
  rfl

theorem resolveLegacy_of_barred {measured tension : Nat} (down : q.state ≠ .up) (barred : q.allowed.getLsbD 0 = false) :
    q.resolveLegacy measured tension = { q with state := .break_, breakCause := .noCommonClass, breakLeft := 300 } := by
  rw [Port.resolveLegacy, if_neg (by rw [barred]; simp)]
  exact enterBreak_of_down down _

/-! ## The frames of a drive (R132) -/

theorem exec_driveAbilityFrame (free : s.resetHeld = false) (b : Nat) :
    exec (.driveAbilityFrame i b) s = .next (driveAbility i (abilityOf b) s) :=
  congrArg Host.Outcome.next (unlessHeld_free s _ free)

theorem exec_driveFeedbackFrame (free : s.resetHeld = false) (echo measured tension status : Nat) :
    exec (.driveFeedbackFrame i echo measured tension status) s
      = .next (driveFeedback i echo measured tension status s) :=
  congrArg Host.Outcome.next (unlessHeld_free s _ free)

theorem exec_winchFrameBadCheck (free : s.resetHeld = false) : exec (.winchFrameBadCheck i) s = .next (badCheck i s) :=
  congrArg Host.Outcome.next (unlessHeld_free s _ free)

theorem driveAbility_of_up (up : (s.ports.get i).state = .up) (a : Ability) :
    driveAbility i a s = reclass i { s.ports.get i with abilities := some a, legacy := false } a.classes s := by
  simp only [driveAbility, up]

theorem driveAbility_of_training (training : (s.ports.get i).state = .training) (a : Ability) :
    driveAbility i a s = movePort i ((s.ports.get i).trainAbility a) s := by
  simp only [driveAbility, training]

theorem driveFeedback_of_training (training : (s.ports.get i).state = .training) (echo measured tension status : Nat) :
    driveFeedback i echo measured tension status s = movePort i ((s.ports.get i).trainFeedback measured tension) s := by
  simp only [driveFeedback, training]

theorem badCheck_of_training (training : (s.ports.get i).state = .training) :
    badCheck i s = withPort i { s.ports.get i with
      badFrames := saturate (s.ports.get i).badFrames 65535, abilityRun := 0, feedbackRun := 0, runAbility := none } s := by
  simp only [badCheck, training]

end

/-- Settles O50: the intersection is worked out again in UP, and the runs of TRAINING are counted frame by frame. -/
theorem trainingAndClasses : Obligations.TrainingAndClasses := by
  refine ⟨fun s i b free hi _ => ?_, fun s st i n a may low high hi up abilities empty => ?_, fun s i free hi => ?_⟩
  · intro q a old up resolved
    have offer : a = abilityOf b := (abilityOf_eq b).symm
    have run : exec (.driveAbilityFrame i b) s
        = .next (reclass i { q with abilities := some a, legacy := false } a.classes s) := by
      rw [exec_driveAbilityFrame free, driveAbility_of_up up, offer]
    refine ⟨fun k highest => ?_, fun empty => ?_⟩
    · rw [run, reclass_of_class (q := { q with abilities := some a, legacy := false }) highest resolved]
    · have lost := reclass_lost (q := { q with abilities := some a, legacy := false }) hi up empty
      refine ⟨_, run, ?_, ?_, ?_, ?_, lost.has, lost.attributed, lost.event, lost.taken, lost.elsewhere⟩
      all_goals rw [lost.get hi]
      · rfl
      · rfl
      · rfl
      · exact linkDropped_resolved up
  · let q : Port := { s.ports.get i with allowed := BitVec.ofNat 4 n }
    have lost := (reclass_lost (s := takeFrame s) (q := q) hi up empty)
    have resolved : ((reclass i q a.classes (takeFrame s)).ports.get i).resolved = none := by
      rw [lost.get hi]
      exact linkDropped_resolved up
    have answered := lost.answered st Req.setAbility.code ⟨.ok, byte n ++ byte 0⟩
    have run : exec (.setAbility st i n) s
        = .next (answer st Req.setAbility.code ⟨.ok, byte n ++ byte 0⟩ (reclass i q a.classes (takeFrame s))) := by
      show request .setAbility st s (fun _ t => setAbility i n t) = _
      refine request_taken may ((setAbility_of_up (s := takeFrame s) low high hi up abilities).trans ?_)
      exact congrArg (fun k => accept _ (byte n ++ byte (speedClassCode k))) resolved
    refine ⟨_, _, run, rfl, rfl, rfl, ?_, answered.has, answered.attributed, answered.event, answered.taken,
      answered.elsewhere⟩
    rw [answered.get hi, Port.enterBreak, dropLink_eq, linkDropped, linkDropped, if_pos up, if_pos up]
  · intro q put moved fresh training
    have changed : ∀ r : Port, r.state ≠ .training → movePort i r s = moved r := fun r other =>
      movePort_of_changed (by rw [training]; exact other)
    have same : ∀ r : Port, r.state = .training → movePort i r s = put r := fun r stays =>
      movePort_of_same (by rw [training]; exact stays)
    refine ⟨fun b _ => ?_, fun echo measured tension status => ?_, ?_⟩
    · intro a repeated heard
      have run : exec (.driveAbilityFrame i b) s = .next (movePort i (q.trainAbility a) s) := by
        rw [exec_driveAbilityFrame free, driveAbility_of_training training]
      refine ⟨fun other => ?_, fun again one => ?_, fun again two => ⟨fun k highest => ?_, fun empty => ?_⟩⟩ <;> rw [run]
      · rw [trainAbility_afresh other, same _ (by exact training)]
        rfl
      · rw [trainAbility_second again one, same _ (by exact training)]
        rfl
      · rw [trainAbility_third again two, resolve_of_class (by exact highest), changed _ (by simp [upAfresh])]
        rfl
      · rw [trainAbility_third again two, resolve_of_empty _ (by exact empty), changed _ (by simp)]
        · rfl
        · simp [abilityHeard, training]
    · intro heard
      have run : exec (.driveFeedbackFrame i echo measured tension status) s
          = .next (movePort i (q.trainFeedback measured tension) s) := by
        rw [exec_driveFeedbackFrame free, driveFeedback_of_training training]
      refine ⟨fun more => ?_, fun last allowed => ?_, fun last barred => ?_⟩ <;> rw [run]
      · rw [trainFeedback_counted more, same _ (by exact training)]
        rfl
      · rw [trainFeedback_last last, resolveLegacy_of_allowed (by exact allowed), changed _ (by simp [upAfresh])]
        rfl
      · rw [trainFeedback_last last, resolveLegacy_of_barred _ (by exact barred), changed _ (by simp)]
        · rfl
        · simp [feedbackHeard, training]
    · rw [exec_winchFrameBadCheck free, badCheck_of_training training]
      rfl

end Sys2Proof.Machine
end

