-- ==== Sys2Proof/Proofs/PortRequests.lean ====
section
/-! PROOFS. The requests of the winch ports, each with its checks in order and its effect (R132 to R134, R139, R142, R143, R155,
R156, R158 to R161). -/

namespace Sys2Proof.Machine

section

variable {s : State} {i : Nat}

/-! ## PORT_CONTROL (R133, R134, R139, R155) -/

section

variable {act : Port → Option Port}

theorem controlPort_of_number (high : 3 < i) : controlPort i s act = refuse .badParam s := if_pos high

theorem controlPort_of_mode (hi : i ≤ 3) (safe : s.motion.mode ≠ .safe) (braked : s.motion.mode ≠ .stopped .braked) :
    controlPort i s act = refuse .wrongState s := by
  rw [controlPort, if_neg (not_lt.2 hi), if_pos ⟨safe, braked⟩]

section

variable (hi : i ≤ 3) (rest : s.motion.mode = .safe ∨ s.motion.mode = .stopped .braked)

include hi rest

theorem controlPort_of_none (none : act (s.ports.get i) = none) : controlPort i s act = refuse .wrongState s := by
  rw [controlPort, if_neg (not_lt.2 hi), if_neg (fun moving => rest.elim moving.1 moving.2), none]

theorem controlPort_of_some {q : Port} (acts : act (s.ports.get i) = some q) :
    controlPort i s act = accept (movePort i q s) (byte q.state.code) := by
  rw [controlPort, if_neg (not_lt.2 hi), if_neg (fun moving => rest.elim moving.1 moving.2), acts]

end

end

/-! ## SET_ABILITY (R143) -/

theorem setAbility_of_bad {n : Nat} (bad : n = 0 ∨ 15 < n ∨ 3 < i) : setAbility i n s = refuse .badParam s := by
  rcases Nat.lt_or_ge 3 i with high | hi
  · unfold setAbility
    split
    · rfl
    · exact if_pos high
  · have none : classSetOf n = none := if_pos (by omega)
    rw [setAbility, none]

/-- Elsewhere the allowed set alone is written. -/
theorem setAbility_of_down {n : Nat} (low : 1 ≤ n) (high : n ≤ 15) (hi : i ≤ 3) (down : (s.ports.get i).state ≠ .up) :
    setAbility i n s
      = accept (withPort i { s.ports.get i with allowed := BitVec.ofNat 4 n } s)
          (byte n ++ byte (speedClassCode (s.ports.get i).resolved)) := by
  unfold setAbility
  rw [classSetOf_of_le low high]
  dsimp only
  rw [if_neg (not_lt.2 hi), byte_ofNat high]
  split
  · next up _ => exact absurd up down
  · rw [withPort_ports, Quad.put_get_self _ _ _ hi]

/-! ## PORT_TEST (R156, R158) -/

theorem movePort_get (hi : i ≤ 3) (q : Port) : (movePort i q s).ports.get i = q := by
  rw [movePort_eq]
  exact Quad.put_get_self _ _ _ hi

theorem portTestStart_of_bad {pattern loop : Nat} (bad : 1 < pattern ∨ 1 < loop ∨ 3 < i) :
    portTestStart i pattern loop s = refuse .badParam s := by
  unfold portTestStart
  split
  · next p l named looped =>
    refine if_pos (bad.elim (fun high => ?_) (Or.elim · (fun high => ?_) id))
    · match pattern, high with
      | _ + 2, _ => cases named
    · match loop, high with
      | _ + 2, _ => cases looped
  · rfl

section

variable {pattern loop : Nat} {p : Pattern} {l : Loop} (named : patternOf pattern = some p) (looped : loopOf loop = some l)
  (hi : i ≤ 3)

include named looped hi

theorem portTestStart_of_state
    (wrong : s.motion.mode ≠ .safe ∨ (s.ports.get i).state = .off ∨ (s.ports.get i).state = .sleep) :
    portTestStart i pattern loop s = refuse .wrongState s := by
  rw [portTestStart, named, looped]
  dsimp only
  rw [if_neg (not_lt.2 hi)]
  split
  · rfl
  · next safe => exact if_pos (wrong.resolve_left safe)

variable (safe : s.motion.mode = .safe) (ready : ¬((s.ports.get i).state = .off ∨ (s.ports.get i).state = .sleep))

include safe ready

theorem portTestStart_of_unsupported (external : l = .external) (unsupported : (s.ports.get i).testSupport = false) :
    portTestStart i pattern loop s = refuse .notPermitted s := by
  rw [portTestStart, named, looped]
  dsimp only
  rw [if_neg (not_lt.2 hi), if_neg (not_not.2 safe), if_neg ready, if_pos ⟨external, unsupported⟩]

theorem portTestStart_of_supported (supported : l = .internal ∨ (s.ports.get i).testSupport = true) :
    portTestStart i pattern loop s
      = accept (movePort i { linkDropped (s.ports.get i) with state := .test, test := testStart p l } s)
          (byte PortState.test.code ++ testBytes (testStart p l)) := by
  rw [portTestStart, named, looped]
  dsimp only
  rw [if_neg (not_lt.2 hi), if_neg (not_not.2 safe), if_neg ready, if_neg, testAnswer, movePort_get hi]
  · rfl
  · rintro ⟨rfl, unsupported⟩
    rw [unsupported] at supported
    rcases supported with e | e <;> cases e

end

theorem testSupport_iff (q : Port) : q.testSupport = true ↔ ∃ a, q.abilities = some a ∧ a.test = true := by
  unfold Port.testSupport
  split <;> simp [*]

theorem portTestStop_of_test (hi : i ≤ 3) (test : (s.ports.get i).state = .test) :
    portTestStop i s
      = accept (movePort i (trainingAfresh (s.ports.get i)) s) (byte 1 ++ testBytes (s.ports.get i).test) := by
  rw [portTestStop, if_neg (not_lt.2 hi)]
  dsimp only
  rw [if_pos test, testAnswer, movePort_get hi, enterTraining_eq]
  exact congrArg (fun r => accept _ (byte 1 ++ testBytes r)) (dropLink_test _)

theorem portTestStop_of_other (hi : i ≤ 3) (other : (s.ports.get i).state ≠ .test) :
    portTestStop i s = accept s (byte (s.ports.get i).state.code ++ testBytes (s.ports.get i).test) := by
  rw [portTestStop, if_neg (not_lt.2 hi)]
  dsimp only
  rw [if_neg other]
  rfl

/-- A test record at its start, by the codes of the request (R156). -/
theorem testStart_of_code (pattern loop : Nat) :
    testStart (if pattern = 0 then .prbs9 else .prbs15) (if loop = 0 then .internal else .external)
      = { pattern := if pattern = 0 then .prbs9 else .prbs15
          loop := if loop = 0 then .internal else .external
          result := .running, compared := 0, errors := 0, sendGen := if pattern = 0 then 511 else 32767
          checkGen := if pattern = 0 then 511 else 32767, outstanding := .none } := by
  by_cases zero : pattern = 0 <;> simp only [zero, if_true, if_false] <;> rfl

theorem testBytes_started {pattern loop : Nat} (lowP : pattern ≤ 1) (lowL : loop ≤ 1) (send check : Nat) :
    byte PortState.test.code ++ testBytes
        { pattern := if pattern = 0 then .prbs9 else .prbs15
          loop := if loop = 0 then .internal else .external
          result := .running, compared := 0, errors := 0, sendGen := send, checkGen := check, outstanding := .none }
      = byte 5 ++ byte pattern ++ byte loop ++ byte 1 ++ beBytes 2 0 ++ beBytes 2 0 := by
  interval_cases pattern <;> interval_cases loop <;> rfl

/-! ## PORT_CLEAR, SET_PORT_LIMITS and PORT_READ (R159 to R161) -/

/-- What PORT_CLEAR leaves of a port (R160). -/
theorem cleared_eq (q : Port) :
    q.cleared = { q with
      badFrames := 0, missTotal := 0, tensionWindow := none
      test := { q.test with
        result := if q.state = .test then .running else .none, compared := 0, errors := 0
        sendGen := if q.test.pattern = .prbs9 then 511 else 32767
        checkGen := if q.test.pattern = .prbs9 then 511 else 32767, outstanding := .none } } := by
  have start : genStart q.test.pattern = if q.test.pattern = .prbs9 then 511 else 32767 := by
    rcases q.test.pattern with _ | _ <;> rfl
  rw [← start, Port.cleared, Port.clearTest]
  dsimp only
  split <;> rfl

theorem portRead_of_bad {n : Nat} {c : StationClass} (bad : 1 < n ∨ 3 < i) : portRead i n c s = refuse .badParam s := by
  unfold portRead
  split
  · rfl
  · next asked named =>
    refine if_pos (bad.resolve_left fun high => ?_)
    match n, high with
    | _ + 2, _ => cases named

theorem yesNo_one : yesNo 1 = some true := rfl

/-- The clear option, asked for and applied by the class of the sender. -/
theorem portRead_of_asked {c : StationClass} (hi : i ≤ 3) :
    portRead i 1 c s
      = if c = .safety ∨ c = .supervisor then
          accept (withPort i { s.ports.get i with tensionWindow := none } s) (portBytes (s.ports.get i) s.portLimits true)
        else accept s (portBytes (s.ports.get i) s.portLimits false) := by
  have may : (c == .safety || c == .supervisor) = decide (c = .safety ∨ c = .supervisor) := by cases c <;> rfl
  unfold portRead
  rw [yesNo_one]
  dsimp only
  rw [if_neg (not_lt.2 hi), may]
  by_cases applied : c = .safety ∨ c = .supervisor
  · rw [decide_eq_true applied, if_pos applied]
    rfl
  · rw [decide_eq_false applied, if_neg applied]
    rfl

end

/-- Settles O49: request by request, each refusal in the order of the text and then the effect. -/
theorem portRequestsTaken : Obligations.PortRequestsTaken := by
  refine ⟨fun s st i may => ?_, fun s st i n may => ?_, fun s st i pattern loop may => ?_, fun s st i may => ?_,
    fun s st i may => ?_, fun s st following tMin tMax tolerance may => ?_, fun s st i n may => ?_⟩
  · intro q moved run no all
    have moves : ∀ r, movePort i r (takeFrame s) = moved r (takeFrame s) := fun r => movePort_eq i r (takeFrame s)
    have refused : ∀ {why act}, controlPort i (takeFrame s) act = refuse why (takeFrame s) →
        request .portControl st s (fun _ t => controlPort i t act) = turnedAway st .portControl why s :=
      fun h => request_refused may h
    refine ⟨fun high c hc => ?_, fun hi safe braked c hc => ?_, fun hi rest => ?_⟩
    · simp only [all, List.mem_cons, List.not_mem_nil, or_false] at hc
      rcases hc with rfl | rfl | rfl | rfl | rfl <;> exact refused (controlPort_of_number high)
    · simp only [all, List.mem_cons, List.not_mem_nil, or_false] at hc
      rcases hc with rfl | rfl | rfl | rfl | rfl <;> exact refused (controlPort_of_mode hi safe braked)
    · have none : ∀ {act : Port → Option Port}, act q = .none →
          request .portControl st s (fun _ t => controlPort i t act) = turnedAway st .portControl .wrongState s :=
        fun acts => refused (controlPort_of_none hi rest acts)
      have some : ∀ {act : Port → Option Port} {r}, act q = .some r →
          request .portControl st s (fun _ t => controlPort i t act)
            = taken st .portControl (byte r.state.code) (moved r) s := fun {_ r} acts =>
        request_accepted may ((controlPort_of_some (s := takeFrame s) hi rest acts).trans (by rw [moves]))
      refine ⟨fun other => none (if_neg other), fun off => some (if_pos off),
        fun off => some (congrArg Option.some (if_pos off)), fun other => some (congrArg Option.some (if_neg other)),
        fun off => none (if_pos off), fun other => some (if_neg other), fun other => none (if_neg other),
        fun up => some (if_pos up), fun other => none (if_neg other), fun sleep => some (if_pos sleep)⟩
  · intro run q set
    have refused := request_refused (why := .badParam) (own := fun _ t => setAbility i n t) may
    have accepted : ∀ {f payload}, setAbility i n (takeFrame s) = accept (f (takeFrame s)) payload →
        run = taken st .setAbility payload f s := fun h => request_accepted (own := fun _ t => setAbility i n t) may h
    refine ⟨fun bad => refused (setAbility_of_bad bad), fun low high hi =>
      ⟨fun down => accepted (setAbility_of_down (s := takeFrame s) low high hi down),
        fun a k old up abilities resolved highest => ?_⟩⟩
    have again := reclass_of_class (s := takeFrame s) (i := i) (q := { q with allowed := set }) highest resolved
    have own := setAbility_of_up (s := takeFrame s) low high hi up abilities
    refine accepted (own.trans ?_)
    rw [show ({ (takeFrame s).ports.get i with allowed := BitVec.ofNat 4 n } : Port) = { q with allowed := set } from rfl, again]
    dsimp only
    rw [Quad.put_get_self _ _ _ hi]
    rfl
  · intro run q
    have refused : ∀ {why}, portTestStart i pattern loop (takeFrame s) = refuse why (takeFrame s) →
        run = turnedAway st .portTest why s :=
      fun h => request_refused (own := fun _ t => portTestStart i pattern loop t) may h
    refine ⟨fun bad => refused (portTestStart_of_bad bad), fun lowP lowL hi => ?_⟩
    have named : patternOf pattern = some (if pattern = 0 then .prbs9 else .prbs15) := by interval_cases pattern <;> rfl
    have looped : loopOf loop = some (if loop = 0 then .internal else .external) := by interval_cases loop <;> rfl
    refine ⟨fun moving => refused (portTestStart_of_state named looped hi (.inl moving)),
      fun _ down => refused (portTestStart_of_state named looped hi (.inr down)), fun safe off sleep => ?_⟩
    have ready : ¬(q.state = .off ∨ q.state = .sleep) := not_or.2 ⟨off, sleep⟩
    refine ⟨fun external unable => ?_, fun able => ?_⟩
    · refine refused (portTestStart_of_unsupported named looped hi safe ready (by rw [external]; rfl) ?_)
      refine Bool.eq_false_iff.2 fun supported => ?_
      obtain ⟨a, abilities, test⟩ := (testSupport_iff q).1 supported
      rw [unable a abilities] at test
      cases test
    · intro ones test
      have supported : (if loop = 0 then Loop.internal else .external) = .internal ∨ q.testSupport = true :=
        able.imp (fun internal => if_pos internal) (testSupport_iff q).2
      have own := portTestStart_of_supported (s := takeFrame s) named looped hi safe ready supported
      rw [testStart_of_code, movePort_eq, testBytes_started lowP lowL] at own
      simp only [eq_comm (a := PortState.test)] at own
      exact request_accepted (own := fun _ t => portTestStart i pattern loop t) may own
  · intro run q
    have accepted : ∀ {f payload}, portTestStop i (takeFrame s) = accept (f (takeFrame s)) payload →
        run = taken st .portTest payload f s := fun h => request_accepted (own := fun _ t => portTestStop i t) may h
    refine ⟨fun high => request_refused (own := fun _ t => portTestStop i t) may (if_pos high), fun hi test => ?_,
      fun hi other => accepted (f := id) (portTestStop_of_other (s := takeFrame s) hi other)⟩
    refine accepted ((portTestStop_of_test (s := takeFrame s) hi test).trans ?_)
    rw [movePort_of_changed]
    · rfl
    · rw [show ((takeFrame s).ports.get i).state = .test from test]
      simp [trainingAfresh]
  · intro run cleared
    have each : ∀ q : Port, q.cleared = cleared q := cleared_eq
    have accepted : ∀ {f payload}, portClear i (takeFrame s) = accept (f (takeFrame s)) payload →
        run = taken st .portClear payload f s := fun h => request_accepted (own := fun _ t => portClear i t) may h
    refine ⟨fun high other => ?_, fun hi => accepted ?_, fun all => accepted ?_⟩
    · exact request_refused (own := fun _ t => portClear i t) may ((if_neg other).trans (if_pos high))
    · refine ((if_neg (by omega)).trans (if_neg (not_lt.2 hi))).trans ?_
      rw [each]
      rfl
    · refine (if_pos all).trans ?_
      rw [funext each]
  · intro run a b c d
    refine ⟨fun moving => request_refused (own := fun _ t => setPortLimits following tMin tMax tolerance t) may (if_pos moving),
      fun safe => request_accepted (own := fun _ t => setPortLimits following tMin tMax tolerance t) may ?_⟩
    refine (if_neg (not_not.2 safe)).trans ((if_neg (by simp)).trans ?_)
    simp only [clampNat_zero, clampNat_eq _ 1 1000 (by omega)]
    rfl
  · intro run may' q
    refine ⟨fun bad => request_refused (own := portRead i n) may (portRead_of_bad bad), fun asked hi allowed => ?_,
      fun asked hi barred => ?_⟩ <;> subst asked
    · exact request_accepted (own := portRead i 1) may ((portRead_of_asked (s := takeFrame s) hi).trans (if_pos allowed))
    · exact request_accepted (own := portRead i 1) (f := id) may
        ((portRead_of_asked (s := takeFrame s) hi).trans (if_neg barred))

end Sys2Proof.Machine
end

