-- ==== Sys2Proof/Proofs/PortCauseSets.lean ====
section
/-! PROOFS. Several causes raised by one port, one after another: the cause set, the attribution, the first cause and the kind that
follow from them together (R164 to R168). -/

namespace Sys2Proof.Machine

theorem causes_eq_zero_iff (u : StopUnit) : u.causes = 0#8 ↔ ∀ c, u.has c = false := by
  refine ⟨fun zero c => by simp [StopUnit.has, zero], fun none => BitVec.eq_of_getLsbD_eq fun b hb => ?_⟩
  rw [BitVec.getLsbD_zero]
  obtain ⟨c, -, rfl⟩ : ∃ c ∈ Cause.list, c.bit = b := by
    revert b
    decide
  exact none c

section

variable {s t u : State} {k l : StopKind} {c : Cause} {i : Nat} {b : Bool}

/-- A kind gives way to a harsher one alone (R164). -/
theorem StopTaken.rises (taken : StopTaken s t k) :
    t.stop.kind = s.stop.kind ∨ s.stop.kind.severity < t.stop.kind.severity := by
  obtain ⟨kind, -, -, -⟩ := taken
  rw [kind]
  split
  · exact .inl rfl
  · split
    · next harsher => exact .inr harsher
    · exact .inl rfl

theorem raiseWhen_false : raiseWhen false c i s = s := rfl

theorem raiseWhen_true : raiseWhen true c i s = raisePortCause c i s := rfl

/-- A cause that is no harsher than those before it, raised or not. -/
theorem StopTaken.raiseWhen (taken : StopTaken s u k) (ofPort : c.ofPort = true)
    (milder : ∀ requested, (c.kind requested).severity ≤ k.severity) : StopTaken s (raiseWhen b c i u) k := by
  cases b
  · exact taken
  · exact taken.milder (portRaised ofPort i u).taken (milder _)

/-- Port `i` has raised the causes `raised`, and nothing else has raised one. -/
structure CausesRaised (i : Nat) (raised : Cause → Prop) (s t : State) : Prop where
  frame : ControlFrame s t
  has : ∀ c, t.stop.has c = true ↔ s.stop.has c = true ∨ raised c
  joined : ∀ c, raised c → t.stop.attribution.ports c = s.stop.attribution.ports c ||| BitVec.twoPow 4 i
  apart : ∀ c, ¬raised c → t.stop.attribution.ports c = s.stop.attribution.ports c
  sole : ∀ c, raised c → s.stop.causes = 0#8 → (∀ d, raised d → d = c) →
    t.stop.first = some { cause := c, port := some i }
  first : s.stop.causes ≠ 0#8 → t.stop.first = s.stop.first
  requested : t.stop.requested = s.stop.requested
  estopOpen : t.stop.estopOpen = s.stop.estopOpen
  rises : t.stop.kind = s.stop.kind ∨ s.stop.kind.severity < t.stop.kind.severity
  event : eventSet t .stop = true
    ↔ eventSet s .stop = true ∨ t.stop.kind ≠ s.stop.kind ∨ ∃ c, raised c ∧ s.stop.has c = false
  others : ∀ e, e ≠ .stop → e ≠ .authority → eventSet t e = eventSet s e

namespace CausesRaised

variable {raised other : Cause → Prop}

theorem refl (i : Nat) (s : State) : CausesRaised i (fun _ => False) s s where
  frame := .refl s
  has _ := (or_iff_left id).symm
  joined _ absurd := absurd.elim
  apart _ _ := rfl
  sole _ absurd := absurd.elim
  first _ := rfl
  requested := rfl
  estopOpen := rfl
  rises := .inl rfl
  event := by simp
  others _ _ _ := rfl

/-- A kind that has risen does not come back, so that two steps change it exactly when one of them does. -/
theorem kind_ne_iff (first : u.stop.kind = s.stop.kind ∨ s.stop.kind.severity < u.stop.kind.severity)
    (second : t.stop.kind = u.stop.kind ∨ u.stop.kind.severity < t.stop.kind.severity) :
    (t.stop.kind = s.stop.kind ∨ s.stop.kind.severity < t.stop.kind.severity)
      ∧ (t.stop.kind ≠ s.stop.kind ↔ u.stop.kind ≠ s.stop.kind ∨ t.stop.kind ≠ u.stop.kind) := by
  have changed : ∀ {a b : StopKind}, a.severity < b.severity → b ≠ a := by rintro a b less rfl; exact lt_irrefl _ less
  rcases second with same | harsher
  · simp [same, first]
  · have risen : s.stop.kind.severity < t.stop.kind.severity := by
      rcases first with same | before
      · rwa [← same]
      · exact before.trans harsher
    exact ⟨.inr risen, iff_of_true (changed risen) (.inr (changed harsher))⟩

/-- One cause more. -/
theorem raise (h : CausesRaised i raised s u) (ofPort : c.ofPort = true) :
    CausesRaised i (fun d => raised d ∨ d = c) s (raisePortCause c i u) := by
  have last := portRaised ofPort i u
  have operator : c ≠ .operator := by rintro rfl; cases ofPort
  have named : ∀ d, (raisePortCause c i u).stop.attribution.ports d
      = if d = c then u.stop.attribution.ports d ||| BitVec.twoPow 4 i else u.stop.attribution.ports d := fun d => by
    rw [last.attribution, Attribution.ports_join _ ofPort]
  have began : (raisePortCause c i u).stop.first
      = if u.stop.causes = 0#8 then some { cause := c, port := some i } else u.stop.first := by rw [last.stop]; rfl
  obtain ⟨rises, kinds⟩ := kind_ne_iff h.rises last.taken.rises
  constructor
  case frame => exact h.frame.trans last.frame
  case has => intro d; rw [last.has, Bool.or_eq_true, h.has, decide_eq_true_eq, or_assoc]
  case joined =>
    intro d one
    rw [named]
    by_cases before : raised d
    · rw [h.joined d before, BitVec.or_assoc, BitVec.or_self, ite_self]
    · rw [if_pos (one.resolve_left before), h.apart d before]
  case apart =>
    intro d none
    rw [named, if_neg fun same => none (.inr same), h.apart d fun before => none (.inl before)]
  case sole =>
    intro d one empty only
    obtain rfl : c = d := only c (.inr rfl)
    rw [began]
    split
    · rfl
    · next more =>
      obtain ⟨e, before⟩ : ∃ e, raised e := by
        by_contra none
        refine more ((causes_eq_zero_iff _).2 fun e => Bool.eq_false_iff.2 fun has => ?_)
        rcases (h.has e).1 has with old | before
        · rw [(causes_eq_zero_iff _).1 empty e] at old
          cases old
        · exact none ⟨e, before⟩
      obtain rfl : e = c := only e (.inl before)
      exact h.sole e before empty fun d' one' => only d' (.inl one')
  case first =>
    intro some
    rw [began, if_neg, h.first some]
    intro empty
    refine some ((causes_eq_zero_iff _).2 fun d => Bool.eq_false_iff.2 fun has => ?_)
    have stays := (h.has d).2 (.inl has)
    rw [(causes_eq_zero_iff _).1 empty d] at stays
    cases stays
  case requested =>
    rw [last.stop]
    exact (if_neg operator).trans h.requested
  case estopOpen =>
    rw [last.stop]
    exact h.estopOpen
  case rises => exact rises
  case event =>
    have new : u.stop.has c = false ↔ s.stop.has c = false ∧ ¬raised c := by
      rw [Bool.eq_false_iff, Ne, h.has, not_or, ← Ne, ← Bool.eq_false_iff]
    rw [last.event, h.event, kinds, new]
    constructor
    · rintro ((before | changed | ⟨d, one, fresh⟩) | ⟨fresh, -⟩ | changed)
      · exact .inl before
      · exact .inr (.inl (.inl changed))
      · exact .inr (.inr ⟨d, .inl one, fresh⟩)
      · exact .inr (.inr ⟨c, .inr rfl, fresh⟩)
      · exact .inr (.inl (.inr changed))
    · rintro (before | (changed | changed) | ⟨d, one | rfl, fresh⟩)
      · exact .inl (.inl before)
      · exact .inl (.inr (.inl changed))
      · exact .inr (.inr changed)
      · exact .inl (.inr (.inr ⟨d, one, fresh⟩))
      · by_cases one : raised d
        · exact .inl (.inr (.inr ⟨d, one, fresh⟩))
        · exact .inr (.inl ⟨fresh, one⟩)
  case others => intro e stop authority; rw [last.others e stop authority, h.others e stop authority]

theorem raiseWhen (h : CausesRaised i raised s u) (ofPort : c.ofPort = true) :
    CausesRaised i (fun d => raised d ∨ b = true ∧ d = c) s (raiseWhen b c i u) := by
  cases b
  · simpa [raiseWhen_false] using h
  · simpa [raiseWhen_true] using h.raise ofPort

/-- A cause that was raised stands in the set, with the port in its attribution (R166). -/
theorem named (h : CausesRaised i raised s t) (hi : i ≤ 3) (one : raised c) :
    t.stop.has c = true ∧ (t.stop.attribution.ports c).getLsbD i = true := by
  refine ⟨(h.has c).2 (.inr one), ?_⟩
  rw [h.joined c one, BitVec.getLsbD_or, BitVec.getLsbD_twoPow]
  simp [show i < 4 by omega]

theorem congr (h : CausesRaised i raised s t) (same : ∀ c, raised c ↔ other c) : CausesRaised i other s t :=
  (funext fun c => propext (same c) : raised = other) ▸ h

end CausesRaised

/-! ## The checks of a drive, in the order of log 18 -/

/-- The causes of the drive's checks that `tripped` names, raised by port `i`. -/
def raiseChecks (tripped : Cause → Bool) (i : Nat) (s : State) : State :=
  raiseWhen (tripped .slack) .slack i (raiseWhen (tripped .tensionHigh) .tensionHigh i
    (raiseWhen (tripped .following) .following i (raiseWhen (tripped .driveFault) .driveFault i s)))

/-- The causes that the drive's checks raise (R150 to R153). -/
def Cause.checked : Cause → Bool
  | .tensionHigh | .slack | .driveFault | .following => true
  | .operator | .stationSilent | .portLost | .estop => false

variable {tripped : Cause → Bool}

theorem causesRaised_raiseChecks (only : ∀ c, tripped c = true → c.checked = true) (i : Nat) (s : State) :
    CausesRaised i (fun c => tripped c = true) s (raiseChecks tripped i s) := by
  refine (((((CausesRaised.refl i s).raiseWhen (c := .driveFault) rfl).raiseWhen (c := .following) rfl).raiseWhen
    (c := .tensionHigh) rfl).raiseWhen (c := .slack) rfl).congr fun c => ?_
  constructor
  · rintro ((((impossible | ⟨one, rfl⟩) | ⟨one, rfl⟩) | ⟨one, rfl⟩) | ⟨one, rfl⟩)
    · exact impossible.elim
    all_goals exact one
  · intro one
    have checked := only c one
    cases c with
    | driveFault => exact .inl (.inl (.inl (.inr ⟨one, rfl⟩)))
    | following => exact .inl (.inl (.inr ⟨one, rfl⟩))
    | tensionHigh => exact .inl (.inr ⟨one, rfl⟩)
    | slack => exact .inr ⟨one, rfl⟩
    | operator | stationSilent | portLost | estop => cases checked

/-- The causes of kind BRAKE are raised first, so those of kind QUICK add nothing to their effect. -/
theorem stopTaken_raiseChecks_brake (braking : tripped .following = true ∨ tripped .driveFault = true) (i : Nat) (s : State) :
    StopTaken s (raiseChecks tripped i s) .brake := by
  have quick : StopKind.quick.severity ≤ StopKind.brake.severity := by decide
  have faulted : StopTaken s
      (raiseWhen (tripped .following) .following i (raiseWhen (tripped .driveFault) .driveFault i s)) .brake := by
    by_cases fault : tripped .driveFault = true
    · rw [fault, raiseWhen_true]
      exact StopTaken.raiseWhen (portRaised (c := .driveFault) rfl i s).taken rfl fun _ => le_rfl
    · rw [braking.resolve_right fault, Bool.eq_false_iff.2 fault, raiseWhen_true, raiseWhen_false]
      exact (portRaised (c := .following) rfl i s).taken
  exact (faulted.raiseWhen (c := .tensionHigh) rfl fun _ => quick).raiseWhen (c := .slack) rfl fun _ => quick

theorem raiseChecks_mild (far : tripped .following = false) (sound : tripped .driveFault = false) (i : Nat) (s : State) :
    raiseChecks tripped i s
      = raiseWhen (tripped .slack) .slack i (raiseWhen (tripped .tensionHigh) .tensionHigh i s) := by
  rw [raiseChecks, far, sound, raiseWhen_false, raiseWhen_false]

theorem stopTaken_raiseChecks_quick (far : tripped .following = false) (sound : tripped .driveFault = false)
    (quick : tripped .tensionHigh = true ∨ tripped .slack = true) (i : Nat) (s : State) :
    StopTaken s (raiseChecks tripped i s) .quick := by
  rw [raiseChecks_mild far sound]
  by_cases high : tripped .tensionHigh = true
  · rw [high, raiseWhen_true]
    exact StopTaken.raiseWhen (portRaised (c := .tensionHigh) rfl i s).taken rfl fun _ => le_rfl
  · rw [quick.resolve_left high, Bool.eq_false_iff.2 high, raiseWhen_true, raiseWhen_false]
    exact (portRaised (c := .slack) rfl i s).taken

theorem raiseChecks_none (none : ∀ c, tripped c = false) (i : Nat) (s : State) : raiseChecks tripped i s = s := by
  rw [raiseChecks_mild (none _) (none _), none, none, raiseWhen_false, raiseWhen_false]

end

end Sys2Proof.Machine
end

