-- ==== Sys2Proof/Proofs/DriveFrames.lean ====
section
/-! PROOFS. The frames of a drive by the port's state, and the checks of a good FEEDBACK frame (R145 to R157). -/

namespace Sys2Proof.Machine

/-! ## The checks of a good FEEDBACK frame (R149 to R153) -/

/-- The frame stands off the followed length (R151). -/
def Port.OffLength (lim : PortLimits) (measured : Nat) (q : Port) : Prop :=
  ∃ n, q.followed = some n ∧ lim.following * 1000 < (n - (measured : Int)).natAbs

/-- The frame's tension is above T_max (R152). -/
def TooHigh (lim : PortLimits) (x : Option Nat) : Prop := ∃ v, x = some v ∧ lim.tMax < v

/-- The frame's tension is below T_min while followed (R153). -/
def Port.Slack (lim : PortLimits) (x : Option Nat) (q : Port) : Prop := ∃ v n, x = some v ∧ q.followed = some n ∧ v < lim.tMin

/-- A second frame with the same new status is believed (R149). -/
def Port.Believes (w : DriveStatus) (q : Port) : Prop := w ≠ q.status ∧ q.candidate = some w

/-- The believed status brings a new fault, or takes READY away while followed (R150). -/
def Port.Faulted (w : DriveStatus) (q : Port) : Prop :=
  q.Believes w ∧ (w.fault ≠ 0 ∧ w.fault ≠ q.status.fault ∨ q.status.ready = true ∧ w.ready = false ∧ q.followed ≠ none)

/-- The causes that a good frame raises (R150 to R153). -/
def Port.Trips (lim : PortLimits) (measured : Nat) (x : Option Nat) (w : DriveStatus) (q : Port) : Cause → Prop
  | .following => q.OffLength lim measured ∧ q.followRun = 2
  | .tensionHigh => TooHigh lim x ∧ q.highRun = 1
  | .slack => q.Slack lim x ∧ q.slackRun = 4
  | .driveFault => q.Faulted w
  | .operator | .stationSilent | .portLost | .estop => False

theorem saturate_reaches (n limit : Nat) : (saturate n limit == limit && n != limit) = true ↔ n + 1 = limit := by
  rw [Bool.and_eq_true, beq_iff_eq, bne_iff_ne]
  unfold saturate
  split <;> omega

section

variable {lim : PortLimits} {measured tension : Nat} {x : Option Nat} {w : DriveStatus} {q : Port}

theorem followRunAfter_off (off : q.OffLength lim measured) : followRunAfter lim q measured = saturate q.followRun 3 := by
  obtain ⟨n, followed, far⟩ := off
  rw [followRunAfter, followed]
  exact if_pos far

theorem followRunAfter_on (on : ¬q.OffLength lim measured) : followRunAfter lim q measured = 0 := by
  unfold followRunAfter
  split
  · next n followed => exact if_neg fun far => on ⟨n, followed, far⟩
  · rfl

theorem highRunAfter_high (high : TooHigh lim x) : highRunAfter lim q x = saturate q.highRun 2 := by
  obtain ⟨v, rfl, above⟩ := high
  exact if_pos above

theorem highRunAfter_low (low : ¬TooHigh lim x) : highRunAfter lim q x = 0 := by
  cases x with
  | none => rfl
  | some v => exact if_neg fun above => low ⟨v, rfl, above⟩

theorem slackRunAfter_slack (slack : q.Slack lim x) : slackRunAfter lim q x = saturate q.slackRun 5 := by
  obtain ⟨v, n, rfl, followed, below⟩ := slack
  simp only [slackRunAfter, followed]
  exact if_pos below

theorem slackRunAfter_taut (taut : ¬q.Slack lim x) : slackRunAfter lim q x = 0 := by
  unfold slackRunAfter
  split
  · next v n followed => exact if_neg fun below => taut ⟨v, n, rfl, followed, below⟩
  · rfl

theorem debounce_believed (believed : q.Believes w) : debounce q w = (w, none) := by
  rw [debounce, if_neg believed.1, if_pos believed.2]

theorem debounce_same (same : w = q.status) : debounce q w = (q.status, none) := if_pos same

theorem debounce_candidate (other : w ≠ q.status) (new : ¬q.Believes w) : debounce q w = (q.status, some w) := by
  rw [debounce, if_neg other, if_neg fun again => new ⟨other, again⟩]

theorem debounce_status (doubted : ¬q.Believes w) : (debounce q w).1 = q.status := by
  by_cases same : w = q.status
  · rw [debounce_same same]
  · rw [debounce_candidate same doubted]

/-- The three runs reach their limits as R151 to R153 say. -/
theorem followRun_trips :
    (followRunAfter lim q measured == 3 && q.followRun != 3) = true ↔ q.Trips lim measured x w .following := by
  by_cases off : q.OffLength lim measured
  · rw [followRunAfter_off off, saturate_reaches]
    simp [Port.Trips, off]
  · rw [followRunAfter_on off]
    simp [Port.Trips, off]

theorem highRun_trips : (highRunAfter lim q x == 2 && q.highRun != 2) = true ↔ q.Trips lim measured x w .tensionHigh := by
  by_cases high : TooHigh lim x
  · rw [highRunAfter_high high, saturate_reaches]
    simp [Port.Trips, high]
  · rw [highRunAfter_low high]
    simp [Port.Trips, high]

theorem slackRun_trips : (slackRunAfter lim q x == 5 && q.slackRun != 5) = true ↔ q.Trips lim measured x w .slack := by
  by_cases slack : q.Slack lim x
  · rw [slackRunAfter_slack slack, saturate_reaches]
    simp [Port.Trips, slack]
  · rw [slackRunAfter_taut slack]
    simp [Port.Trips, slack]

theorem faultChange_iff (r : Port) : faultChange q r = true
    ↔ r.status.fault ≠ 0 ∧ r.status.fault ≠ q.status.fault
      ∨ q.status.ready = true ∧ r.status.ready = false ∧ q.followed ≠ none := by
  simp [faultChange, and_assoc, Option.isSome_iff_ne_none]

theorem faultChange_trips {r : Port} (status : r.status = (debounce q w).1) :
    faultChange q r = true ↔ q.Trips lim measured x w .driveFault := by
  rw [faultChange_iff, status]
  by_cases believed : q.Believes w
  · rw [debounce_believed believed]
    exact (and_iff_right believed).symm
  · rw [debounce_status believed]
    refine iff_of_false ?_ fun faulted => believed faulted.1
    rintro (⟨-, new⟩ | ⟨ready, lost, -⟩)
    · exact new rfl
    · rw [ready] at lost
      cases lost

end

/-! ## A good FEEDBACK frame taken -/

/-- The state with the port after a good frame, and PORT when its TEMP_WARN is new, short of the causes. -/
def frameTaken (i measured tension : Nat) (w : DriveStatus) (s : State) : State :=
  raiseIf (!(s.ports.get i).status.tempWarn && (debounce (s.ports.get i) w).1.tempWarn) .port
    (withPort i (goodFrame s.portLimits measured tension w (s.ports.get i)) s)

/-- The checks of a good frame that trip. -/
def frameChecks (lim : PortLimits) (measured tension : Nat) (w : DriveStatus) (q : Port) : Cause → Bool
  | .slack => slackRunAfter lim q (q.frameTension tension) == 5 && q.slackRun != 5
  | .tensionHigh => highRunAfter lim q (q.frameTension tension) == 2 && q.highRun != 2
  | .following => followRunAfter lim q measured == 3 && q.followRun != 3
  | .driveFault => faultChange q (goodFrame lim measured tension w q)
  | .operator | .stationSilent | .portLost | .estop => false

theorem frameChecks_iff (lim : PortLimits) (measured tension : Nat) (w : DriveStatus) (q : Port) (c : Cause) :
    frameChecks lim measured tension w q c = true ↔ q.Trips lim measured (q.frameTension tension) w c := by
  cases c with
  | slack => exact slackRun_trips
  | tensionHigh => exact highRun_trips
  | following => exact followRun_trips
  | driveFault => exact faultChange_trips rfl
  | operator | stationSilent | portLost | estop => exact iff_of_false Bool.false_ne_true id

theorem frameChecks_checked (lim : PortLimits) (measured tension : Nat) (w : DriveStatus) (q : Port) (c : Cause)
    (trips : frameChecks lim measured tension w q c = true) : c.checked = true := by
  cases c with
  | slack | tensionHigh | following | driveFault => rfl
  | operator | stationSilent | portLost | estop => cases trips

theorem takeGood_eq (i measured tension : Nat) (w : DriveStatus) (s : State) :
    takeGood i measured tension w s
      = raiseChecks (frameChecks s.portLimits measured tension w (s.ports.get i)) i (frameTaken i measured tension w s) := rfl

/-- The causes that the frame raises on port `i`. -/
def frameTrips (i measured tension : Nat) (w : DriveStatus) (s : State) : Cause → Prop :=
  (s.ports.get i).Trips s.portLimits measured ((s.ports.get i).frameTension tension) w

section

variable {i measured tension : Nat} {w : DriveStatus} {s : State}

theorem frameTaken_eq : frameTaken i measured tension w s
    = { s with
        ports := s.ports.put i (goodFrame s.portLimits measured tension w (s.ports.get i))
        station := { s.station with
          events := if (s.ports.get i).status.tempWarn = false ∧ (debounce (s.ports.get i) w).1.tempWarn = true
            then s.station.events ||| 0x200#14 else s.station.events } } := by
  rw [frameTaken, raiseIf_eq]
  simp only [Bool.and_eq_true, Bool.not_eq_true']
  rfl

theorem eventSet_frameTaken (e : Event) : eventSet (frameTaken i measured tension w s) e
    = (eventSet s e
      || (!(s.ports.get i).status.tempWarn && (debounce (s.ports.get i) w).1.tempWarn) && decide (e = .port)) := by
  rw [frameTaken, eventSet_raiseIf]
  rfl

theorem takeGood_raised :
    CausesRaised i (frameTrips i measured tension w s) (frameTaken i measured tension w s) (takeGood i measured tension w s) := by
  rw [takeGood_eq]
  exact (causesRaised_raiseChecks (frameChecks_checked _ measured tension w _) i _).congr (frameChecks_iff _ _ _ _ _)

/-- The port's own change is no part of what a stop reads. -/
theorem StopTaken.of_frame {t : State} {k : StopKind} (taken : StopTaken (frameTaken i measured tension w s) t k) :
    StopTaken s t k := by
  refine taken.of_stands ?_ ?_ ?_ ?_ ((eventSet_frameTaken _).trans (by simp))
  all_goals rw [frameTaken_eq]

theorem takeGood_brake
    (braking : frameTrips i measured tension w s .following ∨ frameTrips i measured tension w s .driveFault) :
    StopTaken s (takeGood i measured tension w s) .brake := by
  rw [takeGood_eq]
  exact (stopTaken_raiseChecks_brake (braking.imp (frameChecks_iff _ _ _ _ _ _).2 (frameChecks_iff _ _ _ _ _ _).2) i _).of_frame

theorem frameChecks_false {c : Cause} (not : ¬frameTrips i measured tension w s c) :
    frameChecks s.portLimits measured tension w (s.ports.get i) c = false :=
  Bool.eq_false_iff.2 (mt (frameChecks_iff _ _ _ _ _ _).1 not)

theorem takeGood_quick
    (mild : ¬(frameTrips i measured tension w s .following ∨ frameTrips i measured tension w s .driveFault))
    (quick : frameTrips i measured tension w s .tensionHigh ∨ frameTrips i measured tension w s .slack) :
    StopTaken s (takeGood i measured tension w s) .quick := by
  obtain ⟨near, sound⟩ := not_or.1 mild
  rw [takeGood_eq]
  exact (stopTaken_raiseChecks_quick (frameChecks_false near) (frameChecks_false sound)
    (quick.imp (frameChecks_iff _ _ _ _ _ _).2 (frameChecks_iff _ _ _ _ _ _).2) i _).of_frame

/-- With no check tripping no cause is raised. -/
theorem takeGood_none (none : ∀ c, ¬frameTrips i measured tension w s c) :
    takeGood i measured tension w s = frameTaken i measured tension w s := by
  rw [takeGood_eq]
  exact raiseChecks_none (fun c => frameChecks_false (none c)) i _

theorem takeGood_idle (none : ∀ c, ¬frameTrips i measured tension w s c) :
    StopTaken s (takeGood i measured tension w s) .none := by
  rw [takeGood_none none]
  refine .idle ?_ ?_ ?_ ?_ ((eventSet_frameTaken _).trans (by simp))
  all_goals rw [frameTaken_eq]

theorem takeGood_event : eventSet (takeGood i measured tension w s) .stop = true
    ↔ eventSet s .stop = true ∨ (takeGood i measured tension w s).stop.kind ≠ s.stop.kind
      ∨ ∃ c, frameTrips i measured tension w s c ∧ s.stop.has c = false := by
  rw [takeGood_raised.event, eventSet_frameTaken, frameTaken_eq]
  simp

/-- Runs below their limits and no new fault: no check trips. -/
theorem untripped_of_settled {r : Port} (taken : r = goodFrame s.portLimits measured tension w (s.ports.get i))
    (near : r.followRun = 3 → (s.ports.get i).followRun = 3) (low : r.highRun = 2 → (s.ports.get i).highRun = 2)
    (taut : r.slackRun = 5 → (s.ports.get i).slackRun = 5) (sound : faultChange (s.ports.get i) r = false) (c : Cause) :
    ¬frameTrips i measured tension w s c := by
  subst taken
  refine mt (frameChecks_iff _ _ _ _ _ _).2 (Bool.eq_false_iff.1 ?_)
  have limit : ∀ {m n k : Nat}, (m = k → n = k) → (m == k && n != k) = false := fun stays => by
    rw [Bool.and_eq_false_imp, beq_iff_eq, bne_eq_false_iff_eq]
    exact stays
  cases c with
  | following => exact limit near
  | tensionHigh => exact limit low
  | slack => exact limit taut
  | driveFault => exact sound
  | operator | stationSilent | portLost | estop => rfl

end

section

variable {lim : PortLimits} {measured tension : Nat} {w : DriveStatus} {q : Port}

theorem followed_of_sent {n : Int} (sent : q.lastSent = some { command := .follow, length := n }) : q.followed = some n := by
  rw [Port.followed, sent]

theorem frameTension_of_offer {a : Ability} (offer : q.abilities = some a) :
    q.frameTension tension = if a.tension = true ∧ tension ≠ 65535 then some tension else none := by
  simp only [Port.frameTension, offer, tensionOf]
  by_cases senses : a.tension = true
  · by_cases absent : tension = 65535 <;> simp [senses, absent]
  · simp [senses]

theorem frameTension_of_none (none : q.abilities = none) : q.frameTension tension = Option.none := by
  simp only [Port.frameTension, none]

theorem frameTension_sensed {a : Ability} (offer : q.abilities = some a) (senses : a.tension = true) (present : tension < 65535) :
    q.frameTension tension = some tension := by
  rw [frameTension_of_offer offer, if_pos ⟨senses, present.ne⟩]

theorem Port.OffLength.not {lim : PortLimits} {q : Port} {n : Int} (followed : q.followed = some n)
    (near : (n - (measured : Int)).natAbs ≤ lim.following * 1000) : ¬q.OffLength lim measured := by
  rintro ⟨m, sent, far⟩
  obtain rfl : n = m := Option.some.inj (followed.symm.trans sent)
  omega

theorem TooHigh.not {lim : PortLimits} {v : Nat} (low : v ≤ lim.tMax) : ¬TooHigh lim (some v) := by
  rintro ⟨u, same, above⟩
  obtain rfl := Option.some.inj same
  omega

theorem Port.Slack.not {lim : PortLimits} {q : Port} {v : Nat} (high : lim.tMin ≤ v) : ¬q.Slack lim (some v) := by
  rintro ⟨u, n, same, -, below⟩
  obtain rfl := Option.some.inj same
  omega

end

section

variable {i measured tension : Nat} {w : DriveStatus} {s : State}

theorem takeGood_get (hi : i ≤ 3) : (takeGood i measured tension w s).ports.get i
    = goodFrame s.portLimits measured tension w (s.ports.get i) := by
  rw [takeGood_raised.frame.ports, frameTaken_eq, Quad.put_get_self _ _ _ hi]

/-- A frame within the limits, with the status unchanged, raises nothing. -/
theorem takeGood_within {a : Ability} {n : Int} (same : w = (s.ports.get i).status)
    (offer : (s.ports.get i).abilities = some a) (senses : a.tension = true) (present : tension < 65535)
    (sent : (s.ports.get i).lastSent = some { command := .follow, length := n })
    (near : (n - (measured : Int)).natAbs ≤ s.portLimits.following * 1000) (high : s.portLimits.tMin ≤ tension)
    (low : tension ≤ s.portLimits.tMax) :
    takeGood i measured tension w s = withPort i { s.ports.get i with
      good := true, measured := some measured, tension := some tension, misses := 0, candidate := none
      followRun := 0, highRun := 0, slackRun := 0, tensionWindow := widen (s.ports.get i).tensionWindow (some tension) } s := by
  have on := Port.OffLength.not (lim := s.portLimits) (followed_of_sent sent) near
  have calm := TooHigh.not low
  have taut := Port.Slack.not (q := s.ports.get i) high
  have sensed := frameTension_sensed offer senses present
  have untripped : ∀ c, ¬frameTrips i measured tension w s c := fun c trips => by
    rw [frameTrips, sensed] at trips
    cases c with
    | following => exact on trips.1
    | tensionHigh => exact calm trips.1
    | slack => exact taut trips.1
    | driveFault => exact trips.1.1 same
    | operator | stationSilent | portLost | estop => exact trips
  rw [takeGood_none untripped, frameTaken_eq, goodFrame, debounce_same same, followRunAfter_on on, sensed,
    highRunAfter_low calm, slackRunAfter_taut taut, if_neg]
  · rfl
  · rintro ⟨cool, warm⟩
    rw [cool] at warm
    cases warm

end

/-! ## The frames of a drive, by the port's state (R132, R145, R155, R157) -/

section

variable {s : State} {i : Nat}

theorem exec_driveWakeFrame (free : s.resetHeld = false) : exec (.driveWakeFrame i) s = .next (driveWake i s) :=
  congrArg Host.Outcome.next (unlessHeld_free s _ free)

theorem exec_driveTestFrame (free : s.resetHeld = false) (payload : List Byte) :
    exec (.driveTestFrame i payload) s = .next (driveTest i payload s) :=
  congrArg Host.Outcome.next (unlessHeld_free s _ free)

theorem withPort_self : withPort i (s.ports.get i) s = s := by rw [withPort, Quad.put_self]

theorem driveFeedback_of_up (up : (s.ports.get i).state = .up) (echo measured tension status : Nat) :
    driveFeedback i echo measured tension status s
      = if echo = (s.ports.get i).sequence ∧ (s.ports.get i).good = false
        then takeGood i measured tension (driveStatusOf status) s else s := by
  simp only [driveFeedback, up]

theorem exec_goodFrame (free : s.resetHeld = false) (up : (s.ports.get i).state = .up) (fresh : (s.ports.get i).good = false)
    (measured tension status : Nat) :
    exec (.driveFeedbackFrame i (s.ports.get i).sequence measured tension status) s
      = .next (takeGood i measured tension (driveStatusOf status) s) := by
  rw [exec_driveFeedbackFrame free, driveFeedback_of_up up, if_pos ⟨rfl, fresh⟩]

theorem driveWake_of_sleep (sleep : (s.ports.get i).state = .sleep) :
    driveWake i s = { s with
      ports := s.ports.put i (trainingAfresh (s.ports.get i))
      station := { s.station with events := s.station.events ||| 0x600#14 } } := by
  simp only [driveWake, sleep]
  rw [movePort_of_changed (by rw [sleep]; simp [Port.enterTraining]), enterTraining_eq]
  simp only [raiseEvent, BitVec.or_assoc]
  rfl

theorem driveWake_of_awake (awake : (s.ports.get i).state ≠ .sleep) : driveWake i s = s := by
  unfold driveWake
  dsimp only
  split
  · next sleep => exact absurd sleep awake
  all_goals rfl

theorem takeBack_none {r : TestRecord} (none : r.outstanding = .none) (payload : Option (List Byte)) :
    r.takeBack payload = r := by
  rw [TestRecord.takeBack, none]

/-- A frame that comes back for one that was sent, the first or a further one (R157). -/
theorem takeBack_sent {r : TestRecord} {due : List Byte} {back : Option Bool} {n : Nat} (sent : r.outstanding = .sent due back n)
    (payload : Option (List Byte)) :
    r.takeBack payload = { r with
      outstanding := if back = none then .sent due (some (payload == some due)) n else .sent due back (n + 1) } := by
  cases back with
  | none => rw [TestRecord.takeBack, sent]; rfl
  | some ok => rw [TestRecord.takeBack, sent]; rfl

theorem driveTest_of_external (test : (s.ports.get i).state = .test) (external : (s.ports.get i).test.loop = .external)
    (payload : List Byte) :
    driveTest i payload s = withPort i { s.ports.get i with test := (s.ports.get i).test.takeBack (some payload) } s :=
  if_pos ⟨test, external⟩

/-- A TEST frame that no test on the EXTERNAL loop takes is discarded (R132, R214). -/
theorem driveTest_discarded (other : ¬((s.ports.get i).state = .test ∧ (s.ports.get i).test.loop = .external))
    (payload : List Byte) : driveTest i payload s = s := if_neg other

theorem badCheck_of_test (test : (s.ports.get i).state = .test) :
    badCheck i s = if (s.ports.get i).test.loop = .external
      then withPort i { s.ports.get i with test := (s.ports.get i).test.takeBack none } s else s := by
  simp only [badCheck, test]

theorem badCheck_counted (linked : (s.ports.get i).state = .up ∨ (s.ports.get i).state = .sleep) :
    badCheck i s = withPort i { s.ports.get i with badFrames := saturate (s.ports.get i).badFrames 65535 } s := by
  rcases linked with up | sleep
  · simp only [badCheck, up]
  · simp only [badCheck, sleep]

theorem badCheck_discarded (quiet : (s.ports.get i).state = .off ∨ (s.ports.get i).state = .break_) : badCheck i s = s := by
  rcases quiet with off | breaking
  · simp only [badCheck, off]
  · simp only [badCheck, breaking]

/-- The states that discard ABILITY and FEEDBACK frames (R132). -/
def PortState.deaf (p : PortState) : Prop := p = .off ∨ p = .break_ ∨ p = .sleep ∨ p = .test

theorem driveAbility_discarded (deaf : (s.ports.get i).state.deaf) (a : Ability) : driveAbility i a s = s := by
  rcases deaf with state | state | state | state <;> simp only [driveAbility, state]

theorem driveFeedback_discarded (deaf : (s.ports.get i).state.deaf) (echo measured tension status : Nat) :
    driveFeedback i echo measured tension status s = s := by
  rcases deaf with state | state | state | state <;> simp only [driveFeedback, state]

end

/-- Settles O51: the frames by the port's state, and the checks of a good FEEDBACK frame by the causes that they raise. -/
theorem driveFramesAndChecks : Obligations.DriveFramesAndChecks := by
  refine ⟨fun s i free hi => ?_, fun s i measured tension status a free hi => ?_, fun s i measured tension status free hi => ?_⟩
  · intro q put
    refine ⟨fun echo measured tension status up => ⟨fun other => ?_, fun a n echoed fresh same offer senses present sent near high
      low => ?_⟩, fun sleep => ?_, fun awake => ?_, fun payload => ⟨fun test external due back n sent => ?_, fun other => ?_⟩,
      fun test internal => ⟨?_, fun payload => ?_⟩, fun test external => ⟨fun none => ?_, fun due back n sent => ?_⟩,
      fun linked => ?_, fun quiet => ?_, fun deaf => ⟨fun b => ?_, fun echo measured tension status => ?_⟩⟩
    · rw [exec_driveFeedbackFrame free, driveFeedback_of_up up, if_neg]
      rintro ⟨echoed, fresh⟩
      rcases other with other | good
      · exact other echoed
      · rw [fresh] at good
        cases good
    · rw [echoed, exec_goodFrame free up fresh, takeGood_within same offer senses present sent near high low]
      rcases q.tensionWindow with _ | ⟨lo, hi⟩ <;> rfl
    · rw [exec_driveWakeFrame free, driveWake_of_sleep sleep]
    · rw [exec_driveWakeFrame free, driveWake_of_awake awake]
    · rw [exec_driveTestFrame free, driveTest_of_external test external, takeBack_sent sent]
      rw [show (some payload == some due) = decide (payload = due) from (Option.some_beq_some ..).trans (beq_eq_decide ..)]
      rfl
    · rw [exec_driveTestFrame free]
      by_cases takes : q.state = .test ∧ q.test.loop = .external
      · obtain ⟨test, external⟩ := takes
        rw [driveTest_of_external test external, takeBack_none (other.resolve_left fun away => away test)]
        exact congrArg Host.Outcome.next withPort_self
      · rw [driveTest_discarded takes]
    · rw [exec_winchFrameBadCheck free, badCheck_of_test test, if_neg (by rw [internal]; decide)]
    · rw [exec_driveTestFrame free, driveTest_discarded fun takes => by rw [internal] at takes; cases takes.2]
    · rw [exec_winchFrameBadCheck free, badCheck_of_test test, if_pos external, takeBack_none none]
      exact congrArg Host.Outcome.next withPort_self
    · rw [exec_winchFrameBadCheck free, badCheck_of_test test, if_pos external, takeBack_sent sent]
      rfl
    · rw [exec_winchFrameBadCheck free, badCheck_counted linked]
      rfl
    · rw [exec_winchFrameBadCheck free, badCheck_discarded quiet]
    · rw [exec_driveAbilityFrame free, driveAbility_discarded deaf]
    · rw [exec_driveFeedbackFrame free, driveFeedback_discarded deaf]
  · intro q w up fresh offer
    have raised := takeGood_raised (i := i) (measured := measured) (tension := tension) (w := w) (s := s)
    have port := takeGood_get (measured := measured) (tension := tension) (w := w) (s := s) hi
    refine ⟨_, exec_goodFrame free up fresh measured tension status, fun n sent two far => ?_, fun senses present above one => ?_,
      fun senses below present four n sent => ?_, fun bad new again => ?_, fun ready lost again n sent => ?_,
      fun cool warm again => ?_, fun other new => ?_, fun other again => ?_⟩
    · exact raised.named hi (c := .following) ⟨⟨n, followed_of_sent sent, far⟩, two⟩
    · exact raised.named hi (c := .tensionHigh) ⟨⟨_, frameTension_sensed offer senses present, above⟩, one⟩
    · exact raised.named hi (c := .slack)
        ⟨⟨_, n, frameTension_sensed offer senses present, followed_of_sent sent, below⟩, four⟩
    · exact raised.named hi (c := .driveFault) ⟨⟨fun same => new (by rw [same]), again⟩, .inl ⟨bad, new⟩⟩
    · refine raised.named hi (c := .driveFault) ⟨⟨fun same => ?_, again⟩, .inr ⟨ready, lost, ?_⟩⟩
      · rw [same, ready] at lost
        cases lost
      · rw [followed_of_sent sent]
        exact Option.some_ne_none n
    · have other : w ≠ q.status := fun same => by
        rw [same, cool] at warm
        cases warm
      rw [raised.others _ (by decide) (by decide), eventSet_frameTaken, debounce_believed ⟨other, again⟩, warm, cool]
      simp
    · rw [port, goodFrame, debounce_candidate other fun again => new again.2]
      exact ⟨rfl, rfl⟩
    · rw [port, goodFrame, debounce_believed ⟨other, again⟩]
      exact ⟨rfl, rfl⟩
  · intro q lim w x followed far high slack believed run trips braking quick up fresh
    have followed_eq : followed = q.followed := by
      show (match q.lastSent with | some { command := .follow, length := n } => some n | _ => none) = q.followed
      rw [Port.followed]
      rcases q.lastSent with _ | ⟨_ | _, n⟩ <;> rfl
    have x_eq : x = q.frameTension tension := by
      show (match q.abilities with
        | some a => if a.tension = true ∧ tension ≠ 65535 then some tension else none
        | none => none) = q.frameTension tension
      split
      · next a offer => exact (frameTension_of_offer offer).symm
      · next none => exact (frameTension_of_none none).symm
    have far_eq : far = q.OffLength lim measured :=
      congrArg (fun o => ∃ n, o = some n ∧ lim.following * 1000 < (n - (measured : Int)).natAbs) followed_eq
    have high_eq : high = TooHigh lim x := rfl
    have slack_eq : slack = q.Slack lim x := congrArg (fun o => ∃ v n, x = some v ∧ o = some n ∧ v < lim.tMin) followed_eq
    have believed_eq : believed = q.Believes w := rfl
    have trips_eq : trips = frameTrips i measured tension w s := by
      funext c
      show trips c = q.Trips lim measured (q.frameTension tension) w c
      rw [← x_eq]
      cases c with
      | following => exact congrArg (· ∧ q.followRun = 2) far_eq
      | tensionHigh => rfl
      | slack => exact congrArg (· ∧ q.slackRun = 4) slack_eq
      | driveFault =>
        exact congrArg (fun o => q.Believes w ∧ (_ ∨ q.status.ready = true ∧ w.ready = false ∧ o ≠ none)) followed_eq
      | operator | stationSilent | portLost | estop => rfl
    have raised := takeGood_raised (i := i) (measured := measured) (tension := tension) (w := w) (s := s)
    rw [frameTaken_eq] at raised
    clear_value x followed far high slack believed trips
    subst x_eq followed_eq far_eq high_eq slack_eq believed_eq trips_eq
    refine ⟨_, goodFrame lim measured tension w q, exec_goodFrame free up fresh measured tension status, raised.frame.ports, ?_,
      fun sure => congrArg Prod.fst (debounce_believed sure), fun doubted => debounce_status doubted, ?_,
      fun new other => congrArg Prod.snd (debounce_candidate other new),
      followRunAfter_off, followRunAfter_on, highRunAfter_high, highRunAfter_low, slackRunAfter_slack, slackRunAfter_taut, ?_,
      fun c => ⟨raised.has c, raised.joined c, raised.apart c, raised.sole c⟩, raised.first, raised.requested, raised.estopOpen,
      takeGood_brake, takeGood_quick, ?_, takeGood_event, raised.frame.p, raised.frame.air, raised.frame.span, raised.frame.marks,
      raised.frame.period⟩
    · rw [goodFrame]
      rcases q.frameTension tension with _ | v
      · rfl
      · rcases q.tensionWindow with _ | ⟨lo, hi⟩ <;> rfl
    · intro settled
      rcases settled with sure | same
      · exact congrArg Prod.snd (debounce_believed sure)
      · exact congrArg Prod.snd (debounce_same same)
    · intro near low taut sound ready
      rw [takeGood_none (untripped_of_settled rfl near low taut (Bool.eq_false_iff.2 fun change => ?_)), frameTaken_eq]
      · rfl
      · rcases (faultChange_iff _).1 change with ⟨bad, new⟩ | ⟨was, lost, followed⟩
        · exact sound.elim bad new
        · rcases ready was with stays | free
          · rw [lost] at stays
            cases stays
          · exact followed free
    · intro mild calm
      obtain ⟨near, sound⟩ := not_or.1 mild
      obtain ⟨low, taut⟩ := not_or.1 calm
      refine takeGood_idle fun c trips => ?_
      cases c with
      | following => exact near trips
      | driveFault => exact sound trips
      | tensionHigh => exact low trips
      | slack => exact taut trips
      | operator | stationSilent | portLost | estop => exact trips

end Sys2Proof.Machine
end

