-- ==== Sys2Proof/Proofs/PortsAtExpiry.lean ====
section
/-! PROOFS. The ports at a period expiry, by their state (R133 to R139, R147, R155 to R157). -/

namespace Sys2Proof.Machine

/-! ## What one port raises stands to the end of the expiry (R166, R203) -/

/-- PORT, PORT_LOST and port `i` in its attribution, where set in `s`, are set in `t`. -/
structure NewsKept (i : Nat) (s t : State) : Prop where
  event : eventSet s .port = true → eventSet t .port = true
  has : s.stop.has .portLost = true → t.stop.has .portLost = true
  attributed : s.stop.attribution.portLost.getLsbD i = true → t.stop.attribution.portLost.getLsbD i = true

theorem Attribution.portLost_join (a : Attribution) (c : Cause) (j i : Nat) (h : a.portLost.getLsbD i = true) :
    (a.join c j).portLost.getLsbD i = true := by
  cases c with
  | portLost => simp [Attribution.join, h]
  | operator | stationSilent | tensionHigh | slack | driveFault | following | estop => exact h

namespace NewsKept

theorem refl (i : Nat) (s : State) : NewsKept i s s := ⟨id, id, id⟩

theorem trans {i : Nat} {s t u : State} (h : NewsKept i s t) (k : NewsKept i t u) : NewsKept i s u :=
  ⟨k.event ∘ h.event, k.has ∘ h.has, k.attributed ∘ h.attributed⟩

theorem raiseCause (i : Nat) (c : Cause) (port : Option Nat) (s : State) : NewsKept i s (raiseCause c port .none s) := by
  refine ⟨(frame_raiseCause c port .none s).eventSet_mono .port, fun has => ?_, fun attributed => ?_⟩
  · rw [raiseCause_stop]
    show (s.stop.join c port .none).has .portLost = true
    rw [has_join, has, Bool.true_or]
  · rw [raiseCause_stop]
    cases port with
    | none => exact attributed
    | some j => exact Attribution.portLost_join _ c j i attributed

theorem closingEdits (i : Nat) : ClosingEdits (NewsKept i) where
  trans := trans
  ports _ _ := ⟨id, id, id⟩
  flag b s := by
    refine ⟨(frame_raiseIf b .port s).eventSet_mono .port, fun has => ?_, fun attributed => ?_⟩ <;> rw [raiseIf_eq]
    · exact has
    · exact attributed
  silence _ := ⟨id, id, id⟩
  cause c port s := raiseCause i c port s

end NewsKept

/-- One port's own work among the four: it finds the port as it stood, and the rest of the expiry keeps what it raises. -/
theorem portCheck_among {i : Nat} (hi : i ≤ 3) (s : State) :
    ∃ u, u.ports.get i = s.ports.get i ∧ NewsKept i (portCheck i u) (silenceStep (portsExpiry s)) := by
  have kept := NewsKept.closingEdits i
  have closes : NewsKept i (portsChecked s) (silenceStep (portsExpiry s)) := by
    refine .trans ?_ (kept.silenceStep _)
    rw [(sending_portsExpiry s).others]
    exact kept.ports _ _
  have elsewhere : ∀ (j : Nat) (u : State), i ≠ j → (portCheck j u).ports.get i = u.ports.get i := fun j u other => by
    rw [portCheck_ports, Quad.put_get_of_ne _ _ _ _ hi other]
  interval_cases i
  · exact ⟨s, rfl, .trans (.trans (kept.portCheck 1 _) (.trans (kept.portCheck 2 _) (kept.portCheck 3 _))) closes⟩
  · exact ⟨portCheck 0 s, elsewhere 0 _ (by decide), .trans (.trans (kept.portCheck 2 _) (kept.portCheck 3 _)) closes⟩
  · exact ⟨portCheck 1 (portCheck 0 s), by rw [elsewhere 1 _ (by decide), elsewhere 0 _ (by decide)],
      .trans (kept.portCheck 3 _) closes⟩
  · exact ⟨portCheck 2 (portCheck 1 (portCheck 0 s)),
      by rw [elsewhere 2 _ (by decide), elsewhere 1 _ (by decide), elsewhere 0 _ (by decide)], closes⟩

/-- An expiry, as one port sees it: its own work, and after it a setpoint where it is UP. -/
structure PortExpired (i : Nat) (s u t : State) : Prop where
  found : u.ports.get i = s.ports.get i
  news : NewsKept i (portCheck i u) t
  port : ∃ follow m k, t.ports.get i = setpointSent follow m k i (checkedPort (s.ports.get i))

theorem periodExpiry_port {s : State} {i : Nat} (held : s.resetHeld = false) (quiet : NoFrameWaits s) (hi : i ≤ 3) :
    ∃ u t, exec .periodExpiry s = .next t ∧ PortExpired i s u t := by
  have before : (beginComputation (opened (commitFlight s))).ports = s.ports := by
    rw [(beginStands _).ports, (opening_opened (noFrameWaits_commitFlight quiet)).others]
    exact commitFlight_ports s
  have checked := portsChecked_get (beginComputation (opened (commitFlight s))) hi
  have sent := (sending_portsExpiry (beginComputation (opened (commitFlight s)))).sent i hi
  obtain ⟨u, found, news⟩ := portCheck_among hi (beginComputation (opened (commitFlight s)))
  rw [before] at checked found
  rw [if_pos (by omega), checked, ← (setpointsStand_silenceStep _).ports] at sent
  exact ⟨u, _, exec_periodExpiry held, found, news, _, _, _, sent⟩

/-! ## A port's own work, by its state -/

section

variable {q : Port} {follow : Bool} {m : Motion} {k : Option SpeedClass} {i : Nat}

theorem setpointSent_down (down : q.state ≠ .up) : setpointSent follow m k i q = q := if_neg down

theorem checkedPort_quiet (quiet : q.state = .off ∨ q.state = .sleep) : checkedPort q = q.quiet := by
  rcases quiet with state | state <;> simp only [checkedPort, state]

theorem checkedPort_training (training : q.state = .training) : checkedPort q = q.trainStep := by
  simp only [checkedPort, training]

theorem checkedPort_break (breaking : q.state = .break_) : checkedPort q = q.breakStep := by
  simp only [checkedPort, breaking]

theorem checkedPort_test (test : q.state = .test) : checkedPort q = q.testStep := by
  simp only [checkedPort, test]

theorem checkedPort_answered (up : q.state = .up) (answered : ¬q.missed = true) : checkedPort q = q.quiet := by
  simp only [checkedPort, up, if_neg answered]

theorem checkedPort_missed (up : q.state = .up) (missed : q.missed = true) (short : q.misses < 2) :
    checkedPort q = q.countMiss := by
  simp only [checkedPort, up, if_pos missed, if_neg (not_le.2 short)]

theorem checkedPort_third (up : q.state = .up) (missed : q.missed = true) (third : 2 ≤ q.misses) :
    checkedPort q = q.countMiss.enterBreak .missed := by
  simp only [checkedPort, up, if_pos missed, if_pos third]

/-- A silent period of TRAINING short of the last (R138). -/
theorem trainStep_counted (short : q.silence < 199) :
    q.trainStep = { q with silence := q.silence + 1, lineOut := abilityFrame q } := by
  have counted : saturate q.silence 200 = q.silence + 1 := if_pos (by omega)
  unfold Port.trainStep
  dsimp only
  rw [if_neg (by omega), counted]

theorem breakStep_counted (more : 1 < q.breakLeft) :
    q.breakStep = { q with breakLeft := q.breakLeft - 1, lineOut := [] } :=
  if_neg (not_le.2 more)

/-- The port that a third miss leaves (R147). -/
theorem countMiss_enterBreak (up : q.state = .up) : q.countMiss.enterBreak .missed = { linkDropped q with
    state := .break_, breakCause := .missed, breakLeft := 300, missTotal := saturate q.missTotal 65535, lineOut := [] } := by
  rw [Port.enterBreak, dropLink_eq, linkDropped, linkDropped, if_pos up, if_pos (by exact up)]
  rfl

/-- A setpoint sent leaves the misses and the runs alone. -/
theorem setpointSent_keeps : setpointSent follow m k i q = { q with
    sequence := (setpointSent follow m k i q).sequence, good := (setpointSent follow m k i q).good
    lastSent := (setpointSent follow m k i q).lastSent, lineOut := (setpointSent follow m k i q).lineOut } := by
  unfold setpointSent
  split <;> rfl

end

/-! ## The pattern test (R157) -/

section

variable {r : TestRecord}

theorem judgeLast_none (none : r.outstanding = .none) : r.judgeLast = r := by rw [TestRecord.judgeLast, none]

/-- The frame of the last expiry and the further ones judged: each is compared, each bad one is an error. -/
theorem judgeLast_sent {due : List Byte} {back : Option Bool} {n : Nat} (sent : r.outstanding = .sent due back n)
    (counted : TestCounted r) :
    r.judgeLast = { r with
      compared := min 65535 (r.compared + 1 + n)
      errors := min 65535 (r.errors + if back = some true then n else n + 1)
      result :=
        if n = 0 ∨ r.result = .none then (r.judge (decide (back = some true))).result else .fail } := by
  have good : back.getD false = decide (back = some true) := by rcases back with _ | _ | _ <;> rfl
  obtain ⟨compared, errors⟩ := counted.judge (decide (back = some true))
  have none : (r.judge (decide (back = some true))).result = .none ↔ r.result = .none := judgedResult_eq_none
  have more : ∀ m : Nat, m ≤ 65535 → min 65535 (saturate m 65535 + n) = min 65535 (m + (n + 1)) := fun m most => by
    unfold saturate
    split <;> omega
  have bad : min 65535 ((r.judge (decide (back = some true))).errors + n)
      = min 65535 (r.errors + if back = some true then n else n + 1) := by
    by_cases ok : back = some true
    · rw [if_pos ok, decide_eq_true ok]
      rfl
    · rw [if_neg ok, decide_eq_false ok]
      exact more _ counted.errors
  rw [TestRecord.judgeLast, sent]
  dsimp only
  rw [good, TestRecord.judgeErrors_eq _ _ compared errors, bad]
  simp only [none]
  rw [show (r.judge (decide (back = some true))).compared = saturate r.compared 65535 from rfl, more _ counted.compared,
    Nat.add_right_comm, Nat.add_assoc, ← sent]
  rfl

/-- An error fails every test that has a result. -/
theorem judgedResult_bad {compared errors : Nat} {v : TestResult} (tested : v ≠ .none) :
    judgedResult false compared errors v = .fail := by
  cases v with
  | none => exact absurd rfl tested
  | running | pass | fail => rfl

theorem judgedResult_good_running (compared errors : Nat) :
    judgedResult true compared errors .running = if 1000 ≤ compared ∧ errors = 0 then .pass else .running := rfl

/-- A good frame changes the result of a running test alone. -/
theorem judgedResult_good_of_ne {compared errors : Nat} {v : TestResult} (other : v ≠ .running) :
    judgedResult true compared errors v = v := by
  cases v with
  | running => exact absurd rfl other
  | none | pass | fail => rfl

/-- The result after the frame of the last expiry and the further ones, with `bad` errors among them. -/
theorem judgeLast_sent_result {due : List Byte} {back : Option Bool} {n : Nat} (sent : r.outstanding = .sent due back n)
    (counted : TestCounted r) :
    let bad := if back = some true then n else n + 1
    (r.result = .none → r.judgeLast.result = .none)
      ∧ (r.result ≠ .none → bad ≠ 0 → r.judgeLast.result = .fail)
      ∧ (bad = 0 → r.judgeLast.result = judgedResult true (saturate r.compared 65535) r.errors r.result) := by
  intro bad
  rw [judgeLast_sent sent counted]
  refine ⟨fun none => ?_, fun tested some => ?_, fun good => ?_⟩
  · exact (if_pos (.inr none)).trans (judgedResult_eq_none.2 none)
  · by_cases zero : n = 0
    · have wrong : back ≠ Option.some true := fun ok => some ((if_pos ok).trans zero)
      exact (if_pos (.inl zero)).trans (by rw [decide_eq_false wrong]; exact judgedResult_bad tested)
    · exact if_neg (not_or.2 ⟨zero, tested⟩)
  · have ok : back = some true := by
      by_contra wrong
      exact absurd ((if_neg wrong).symm.trans good) (Nat.succ_ne_zero n)
    have zero : n = 0 := (if_pos ok).symm.trans good
    exact (if_pos (.inl zero)).trans (by rw [decide_eq_true ok]; rfl)

/-- Judging keeps the test and its generators. -/
theorem judgeLast_keeps (r : TestRecord) : r.judgeLast.pattern = r.pattern ∧ r.judgeLast.loop = r.loop
    ∧ r.judgeLast.sendGen = r.sendGen ∧ r.judgeLast.checkGen = r.checkGen := by
  have errors : ∀ (n : Nat) (v : TestRecord), (v.judgeErrors n).pattern = v.pattern ∧ (v.judgeErrors n).loop = v.loop
      ∧ (v.judgeErrors n).sendGen = v.sendGen ∧ (v.judgeErrors n).checkGen = v.checkGen := by
    intro n
    induction n with
    | zero => exact fun v => ⟨rfl, rfl, rfl, rfl⟩
    | succ n ih => exact fun v => ih (v.judge false)
  unfold TestRecord.judgeLast
  split
  · exact ⟨rfl, rfl, rfl, rfl⟩
  · next back n _ => exact errors n (r.judge (back.getD false))

end

/-! ## The expiry, as one port sees it -/

section

variable {i : Nat} {s u t : State}

/-- Outside UP a port's own work is all. -/
theorem PortExpired.alone (expired : PortExpired i s u t) {r : Port} (checked : checkedPort (s.ports.get i) = r)
    (down : r.state ≠ .up) : t.ports.get i = r := by
  obtain ⟨follow, m, k, port⟩ := expired.port
  rw [port, checked, setpointSent_down down]

theorem PortExpired.keeps (expired : PortExpired i s u t) :
    (t.ports.get i).state = (checkedPort (s.ports.get i)).state
      ∧ (t.ports.get i).misses = (checkedPort (s.ports.get i)).misses
      ∧ (t.ports.get i).missTotal = (checkedPort (s.ports.get i)).missTotal
      ∧ (t.ports.get i).followRun = (checkedPort (s.ports.get i)).followRun
      ∧ (t.ports.get i).highRun = (checkedPort (s.ports.get i)).highRun
      ∧ (t.ports.get i).slackRun = (checkedPort (s.ports.get i)).slackRun := by
  obtain ⟨follow, m, k, port⟩ := expired.port
  rw [port, setpointSent_keeps]
  exact ⟨rfl, rfl, rfl, rfl, rfl, rfl⟩

/-- A port that leaves TRAINING or BREAK raises PORT (R132). -/
theorem PortExpired.moved (expired : PortExpired i s u t)
    (linkless : (s.ports.get i).state = .training ∨ (s.ports.get i).state = .break_)
    {r : Port} (checked : checkedPort (s.ports.get i) = r) (changed : r.state ≠ (s.ports.get i).state) :
    eventSet t .port = true := by
  have moves : portCheck i u = movePort i r u := by
    rw [← checked]
    rcases linkless with state | state <;> simp only [portCheck, checkedPort, expired.found, state]
  refine expired.news.event ?_
  rw [moves, eventSet_movePort (by rw [expired.found]; exact changed)]
  simp

/-- A third miss breaks the link and raises PORT_LOST (R147). -/
theorem PortExpired.lost (expired : PortExpired i s u t) (hi : i ≤ 3) (up : (s.ports.get i).state = .up)
    (missed : (s.ports.get i).missed = true) (third : 2 ≤ (s.ports.get i).misses) :
    eventSet t .port = true ∧ t.stop.has .portLost = true ∧ t.stop.attribution.portLost.getLsbD i = true := by
  have lost := linkLost (q := (u.ports.get i).countMiss.enterBreak .missed) hi (expired.found ▸ up) (by simp [Port.enterBreak])
  have check : portCheck i u = missCheck i u := by simp only [portCheck, expired.found, up]
  have news := expired.news
  rw [check, missCheck_third (expired.found ▸ missed) (expired.found ▸ third)] at news
  exact ⟨news.event lost.event, news.has lost.has, news.attributed lost.attributed⟩

end

/-- Settles O54: a port's own work by its state, then a setpoint where it is UP; the ports after it keep what it raises. -/
theorem portsAtExpiry : Obligations.PortsAtExpiry := by
  intro s i held quiet hi q sat
  obtain ⟨u, t, run, expired⟩ := periodExpiry_port held quiet hi
  have down : ∀ {st : PortState}, q.state = st → st ≠ .up → q.state ≠ .up := fun state other => by rw [state]; exact other
  refine ⟨t, run, fun silent => ?_, fun training => ?_, fun breaking => ?_, fun up => ?_, fun test => ?_⟩
  · refine expired.alone (checkedPort_quiet silent) ?_
    rcases silent with off | sleep
    · exact down off (by decide)
    · exact down sleep (by decide)
  · have checked := checkedPort_training training
    refine ⟨fun short => ?_, fun last => ?_⟩
    · rw [trainStep_counted short] at checked
      exact expired.alone checked (down training (by decide))
    · rw [trainStep_silent training last] at checked
      refine ⟨expired.moved (.inl training) checked ?_, expired.alone checked (by simp)⟩
      rw [show (s.ports.get i).state = _ from training]
      simp
  · have checked := checkedPort_break breaking
    refine ⟨fun more => ?_, fun last => ?_⟩
    · rw [breakStep_counted more] at checked
      exact expired.alone checked (down breaking (by decide))
    · rw [breakStep_last last] at checked
      refine ⟨expired.moved (.inr breaking) checked ?_, expired.alone checked (by simp [trainingAfresh])⟩
      rw [show (s.ports.get i).state = _ from breaking]
      simp [trainingAfresh]
  · intro missed
    have missed_iff : q.missed = true ↔ missed := by rw [Port.missed_iff, Option.isSome_iff_ne_none]
    obtain ⟨state, misses, total, followRun, highRun, slackRun⟩ := expired.keeps
    refine ⟨fun answered => ?_, fun unanswered short => ?_, fun unanswered third => ?_⟩
    · rw [state, misses, total, checkedPort_answered up (mt missed_iff.1 answered)]
      exact ⟨up, rfl, rfl⟩
    · have counted : saturate q.misses 3 = q.misses + 1 := if_pos (by omega)
      rw [state, misses, total, followRun, highRun, slackRun, checkedPort_missed up (missed_iff.2 unanswered) short]
      exact ⟨up, counted, rfl, rfl, rfl, rfl⟩
    · obtain ⟨event, has, attributed⟩ := expired.lost hi up (missed_iff.2 unanswered) third.ge
      have checked := checkedPort_third up (missed_iff.2 unanswered) third.ge
      rw [countMiss_enterBreak up] at checked
      exact ⟨event, has, attributed, expired.alone checked (by simp)⟩
  · intro v
    have port : t.ports.get i = q.testStep := expired.alone (checkedPort_test test) (down test (by decide))
    have record : v = q.test.judgeLast.send := congrArg Port.test port
    obtain ⟨pattern, loop, sendGen, checkGen⟩ := judgeLast_keeps q.test
    refine ⟨by rw [port]; exact test, ?_, ?_, ?_, ?_, ?_, ?_, fun none => ?_, fun due back n sent compared errors => ?_⟩
    · rw [record]; exact pattern
    · rw [record]; exact loop
    · rw [record, TestRecord.send, pattern, loop, sendGen, checkGen]
      simp only [beq_eq_decide]
    · rw [record, TestRecord.send, pattern, sendGen]
    · rw [record, TestRecord.send, pattern, checkGen]
    · rw [port]
      show (match q.test.loop with | .internal => [] | .external => _) = _
      rcases q.test.loop with _ | _ <;> rfl
    · rw [record, judgeLast_none none]
      exact ⟨rfl, rfl, rfl⟩
    · intro bad
      obtain ⟨untested, failed, good⟩ := judgeLast_sent_result sent ⟨compared, errors⟩
      have counts := judgeLast_sent sent ⟨compared, errors⟩
      rw [record]
      refine ⟨congrArg TestRecord.compared counts, congrArg TestRecord.errors counts, untested, failed, fun zero =>
        ⟨fun running clean many => ?_, fun running few => ?_, fun other => (good zero).trans (judgedResult_good_of_ne other)⟩⟩
      · have thousand : 1000 ≤ saturate q.test.compared 65535 := by unfold saturate; split <;> omega
        refine (good zero).trans ?_
        rw [running, judgedResult_good_running, if_pos ⟨thousand, clean⟩]
      · refine (good zero).trans ?_
        rw [running, judgedResult_good_running, if_neg]
        rintro ⟨thousand, clean⟩
        rcases few with dirty | short
        · exact dirty clean
        · unfold saturate at thousand
          split at thousand <;> omega

end Sys2Proof.Machine
end
